-- ==== Sys2Proof/Word.lean ====
section
/-! DEFINITION. The words of the MJ2410: the byte of the host bus (R173), the 16-bit millisecond count TIME (R18) and
the 64 bits of a payload (section 0.5, "Payload bits"). -/

namespace Sys2Proof

/-- One byte of the host bus or of the table space (R173). -/
abbrev Byte := BitVec 8

/-- A value of TIME: 16 bits of milliseconds, wrapping from 65535 to 0 (R18). -/
abbrev Time := BitVec 16

/-- The eight payload bytes as one word. Payload bit `i` is bit `i` of the word, so payload byte `k` is bits
`8k` to `8k+7` (section 0.5, "Payload bits"). -/
abbrev Payload := BitVec 64

end Sys2Proof
end

