-- ==== Sys2Proof/Syntax.lean ====
section
/-! DEFINITION. The commands and events of the MJ2410: one constructor for each row of spec/opcode_table.json, in the
table's order. A row that concerns one receive line names it; a row that is a write of a register carries the byte the
host drives; every other datum a step works on (a notice, an outcome, a post) stands in the state and is no operand. -/

namespace Sys2Proof

/-- The two receive lines (section 1). -/
inductive Line where
  | A
  | B
deriving DecidableEq, Repr

/-- The steps of the table of operations and events. -/
inductive Instr where
  /-- POWER_ON_RESET (R172): supply is applied. -/
  | powerOnReset
  /-- PIN_RESET (R172): RESET# is held low and then released. -/
  | pinReset
  /-- SOFT_RESET (R189): COMMAND is written with 0x5A. -/
  | softReset
  /-- TIME_TICK (R18): the present millisecond of the time base ends. -/
  | timeTick
  /-- RX_EDGE (R3): the raw level at the input of `l` changes, `dt` ticks of the clock after the present instant. -/
  | rxEdge (l : Line) (dt : Nat)
  /-- GLITCH_TEST_ACCEPT (R3): the level under test on `l` has held for GLITCH µs. -/
  | glitchTestAccept (l : Line)
  /-- SETTLE_WAIT_END (R5): the input of `l` has been inactive for the idle threshold in SETTLE. -/
  | settleWaitEnd (l : Line)
  /-- BURST_END (R8): the space on `l` reaches the idle threshold. -/
  | burstEnd (l : Line)
  /-- STUCK (R10): the mark on `l` reaches 65535 µs. -/
  | stuck (l : Line)
  /-- LINE_ENABLE (R5): the CONTROL register of `l` is written with `v`, whose ENABLE bit is 1. -/
  | lineEnable (l : Line) (v : Byte)
  /-- LINE_DISABLE (R11): the CONTROL register of `l` is written with `v`, whose ENABLE bit is 0. -/
  | lineDisable (l : Line) (v : Byte)
  /-- IDLE_WRITE (R2): the IDLE register of `l` is written with `v`. -/
  | idleWrite (l : Line) (v : Byte)
  /-- FAULT_CLEAR (R16): the STATUS register of `l` is written with `v`, whose FAULT bit is 1. -/
  | faultClear (l : Line) (v : Byte)
  /-- TIME_LO_READ (R19): TIME LO is read. -/
  | timeLoRead
  /-- DECODER_BURST_START (R43): the decoder of `l` takes BURST START. -/
  | decoderBurstStart (l : Line)
  /-- DECODER_ELEMENT (R42): the decoder of `l` takes MARK(d) or SPACE(d). -/
  | decoderElement (l : Line)
  /-- DECODER_BURST_END (R60): the decoder of `l` takes BURST END and settles the burst. -/
  | decoderBurstEnd (l : Line)
  /-- DECODER_BURST_ABORT (R68): the decoder of `l` takes BURST ABORT. -/
  | decoderBurstAbort (l : Line)
  /-- OUTCOME_TAKEN (R84): the repeat unit of `l` takes the outcome its decoder handed over. -/
  | outcomeTaken (l : Line)
  /-- LFM_DUE (R82): the due instant of the last-frame memory of `l` is acted on. -/
  | lfmDue (l : Line)
  /-- EXPIRE_REQUEST (R85): the repeat unit of `l` takes its front end's request to expire the memory. -/
  | expireRequest (l : Line)
  /-- POST (R92): the receive queue takes the oldest post of the repeat unit of `l`. -/
  | post (l : Line)
  /-- REPEAT_COUNT_INCREMENT (R95): the receive queue takes the repeat-count increment of the repeat unit of `l`. -/
  | repeatCountIncrement (l : Line)
  /-- HEAD_KIND_LINE_READ (R99): HEAD KIND/LINE is read. -/
  | headKindLineRead
  /-- POP (R102): COMMAND is written with 0x10. -/
  | pop
  /-- FLUSH_QUEUE (R104): COMMAND is written with 0x11. -/
  | flushQueue
  /-- RQ_WATERMARK_WRITE (R106): RQ WATERMARK is written with `v`. -/
  | rqWatermarkWrite (v : Byte)
  /-- CAPTURE_BURST_START (R114): the capture unit takes BURST START of `l`. -/
  | captureBurstStart (l : Line)
  /-- CAPTURE_ELEMENT (R115): the capture unit takes MARK(d) or SPACE(d) of `l`. -/
  | captureElement (l : Line)
  /-- CAPTURE_CLOSE (R118): the capture unit takes BURST END or BURST ABORT of `l`. -/
  | captureClose (l : Line)
  /-- CAPTURE_REPORT (R117): the capture unit takes a report of the decoder of `l`. -/
  | captureReport (l : Line)
  /-- ARM_CAPTURE (R113): COMMAND is written with 0x30. -/
  | armCapture
  /-- DISARM_CAPTURE (R121): COMMAND is written with 0x31. -/
  | disarmCapture
  /-- RELEASE_CAPTURE (R122): COMMAND is written with 0x32. -/
  | releaseCapture
  /-- LOAD_CAPTURE (R125): COMMAND is written with 0x33. -/
  | loadCapture
  /-- CAPTURE_CONTROL_WRITE (R112): CAPTURE CONTROL is written with `v`. -/
  | captureControlWrite (v : Byte)
  /-- LOAD_LENGTH_WRITE (R124): CAPTURE COUNT HI (`hi`) or LO (not `hi`) is written with `v`. -/
  | loadLengthWrite (hi : Bool) (v : Byte)
  /-- TABLE_DATA_READ (R178): TABLE DATA is read. -/
  | tableDataRead
  /-- TABLE_DATA_WRITE (R179): TABLE DATA is written with `v`. -/
  | tableDataWrite (v : Byte)
  /-- ENABLE_FORMAT (R31): COMMAND is written with 0x01. -/
  | enableFormat
  /-- DISABLE_FORMAT (R39): COMMAND is written with 0x02. -/
  | disableFormat
  /-- STAGING_REGISTER_WRITE (R130): the job staging register at offset 0x2C + `r` is written with `v`. -/
  | stagingRegisterWrite (r : Fin 14) (v : Byte)
  /-- SUBMIT (R131): COMMAND is written with 0x20. -/
  | submit
  /-- JOB_START (R134): the transmitter starts the head job. -/
  | jobStart
  /-- TX_BURST_END (R143): the burst being sent ends. -/
  | txBurstEnd
  /-- NEXT_BURST_START (R143): the start instant of the next burst arrives. -/
  | nextBurstStart
  /-- TAIL_END (R146): the TAIL's length has passed. -/
  | tailEnd
  /-- GUARD_HOLD_END (R152): the guard hold of `l` reaches its end instant. -/
  | guardHoldEnd (l : Line)
  /-- STOP_TX (R147): COMMAND is written with 0x21. -/
  | stopTx
  /-- ABORT_TX (R148, R149): COMMAND is written with 0x22. -/
  | abortTx
  /-- POP_COMPLETION (R151): COMMAND is written with 0x23. -/
  | popCompletion
  /-- ENTER_LISTEN (R158): COMMAND is written with 0x40. -/
  | enterListen
  /-- ENTER_DORMANT (R159): COMMAND is written with 0x41. -/
  | enterDormant
  /-- WAKE_UP (R163): COMMAND is written with 0x42. -/
  | wakeUp
  /-- CLEAR_WAKE (R169): COMMAND is written with 0x43. -/
  | clearWake
  /-- WAKE_EDGE (R162): the power unit takes a WAKE EDGE of `l`. -/
  | wakeEdge (l : Line)
  /-- WAKE_OFFER (R166): the power unit takes the oldest frame offered by the decoder of `l`. -/
  | wakeOffer (l : Line)
  /-- IRQ_CAUSE_WRITE (R194): IRQ CAUSE is written with `v`. -/
  | irqCauseWrite (v : Byte)
  /-- IRQ_ENABLE_WRITE (R195): IRQ ENABLE is written with `v`. -/
  | irqEnableWrite (v : Byte)
  /-- UNKNOWN_COMMAND (R185): COMMAND is written with `code`, which is no command's code. -/
  | unknownCommand (code : Byte)
  /-- REGISTER_WRITE (R188): the register at `off`, which has no row of its own, is written with `v`. -/
  | registerWrite (off : BitVec 6) (v : Byte)
deriving DecidableEq, Repr

end Sys2Proof
end

