-- ==== Sys2Proof/Decode.lean ====
section
/-! DEFINITION. The decoder of the opcode table. spec/opcode_table.json gives no row any bits ("fields" is empty in
every row and no row has "fixed"): the table lists bus accesses, protocol notices and events, not words. So no word
spells a command. -/

namespace Sys2Proof

/-- The command a word spells by the table's bits: none, since the table gives no row any bits. -/
def decodeTableWord (_nbits _w : Nat) : Option Instr := none

end Sys2Proof
end

