-- ==== Sys2Proof/Config.lean ====
section
/-! DEFINITION. What the MJ2410 fixes: the unit of the model's clock, and the capacities of its stores; and the free choices
between orders that the spec leaves open inside one command. -/

namespace Sys2Proof.Config

/-- The free choices: of two orders that the spec allows inside one command, whether the `n`th choice made takes the second.
Nothing is known of them (R94, R159; log entry 24). -/
opaque freeChoice : Nat → Bool

/-- Ticks of the model's clock in a microsecond. The clock counts eighths of a microsecond, the finest unit the spec
names (CARRIER PERIOD, R27). DESIGN CHOICE (log entry 2). -/
def ticksPerMicrosecond : Nat := 8

/-- `n` microseconds in ticks of the model's clock. -/
def us (n : Nat) : Nat := ticksPerMicrosecond * n

/-- `n` units of 100 µs in ticks of the model's clock: the unit of IDLE, TX GAP and GUARD. -/
def hundredUs (n : Nat) : Nat := us (100 * n)

/-- `n` milliseconds in ticks of the model's clock. -/
def ms (n : Nat) : Nat := us (1000 * n)

/-- A mark of this many microseconds makes the line STUCK (R10). -/
def stuckMark : Nat := 65535

/-- Records the receive queue holds (R90). -/
def queueCapacity : Nat := 16

/-- The largest LOST tally (R93). -/
def lostCap : Nat := 15

/-- The largest repeat count, REPEATS and burst count (R76, R95, R137). -/
def countCap : Nat := 255

/-- Jobs the job queue holds, the active one included (R132). -/
def jobCapacity : Nat := 4

/-- Completions the completion FIFO holds (R150). -/
def completionCapacity : Nat := 4

/-- Entries of the capture buffer (section 6). -/
def captureCapacity : Nat := 256

/-- The largest duration a capture entry stores; it stands for "32767 µs or longer" (R115). -/
def captureDurationCap : Nat := 32767

/-- First table address of the wake list (Table 9-3). -/
def wakeBase : Nat := 0x180

/-- First table address above the wake list; from here to the capture buffer nothing is stored (R180). -/
def unstoredBase : Nat := 0x1C8

/-- First table address of the capture buffer (Table 9-3). -/
def captureBase : Nat := 0x200

/-- Table addresses in the table space. -/
def tableSize : Nat := 0x400

/-- Bytes of a format entry in the table space (Table 9-3). -/
def entryStride : Nat := 48

/-- Stored bytes of a format entry; bytes 46 and 47 are not stored (R30). -/
def entryStored : Nat := 46

/-- Bytes of a wake list entry (R165). -/
def wakeStride : Nat := 18

/-- What ID reads (R175). -/
def idValue : Byte := 0x5B

/-- What REVISION reads (R175). -/
def revisionValue : Byte := 0x02

end Sys2Proof.Config
end

