-- ==== Sys2Proof/Machine/State.lean ====
section
/-! DEFINITION. The state of the MJ2410, block by block as section 0.2 lists them, with the notices, outcomes, reports,
offers, requests and posts that are on their way from one block to another, the queue of commands still to be taken, and
the state right after a power-on reset. Plain data throughout. -/

namespace Sys2Proof.Machine

/-- One thing for each receive line. -/
structure PerLine (α : Type) where
  a : α
  b : α
deriving DecidableEq, Repr

/-- The level of an element: a mark (input active, TXO driven) or a space (Table 0-3). Also the level of a half-cell,
active or inactive (R55). -/
inductive Level where
  | mark
  | space
deriving DecidableEq, Repr

/-- An element to be sent: a level and its duration in microseconds (section 7.5). -/
structure Element where
  level : Level
  us : Nat
deriving DecidableEq, Repr

/-! ### Line front end (section 1) -/

/-- The nine states of a front end (Table 1-1). A line is enabled in every state but OFF. -/
inductive LineState where
  | off
  | settle
  | idle
  | mark
  | space
  | stuck
  | blanked
  | parked
  | watch
deriving DecidableEq, Repr

/-- A glitch test in progress (R3): the instant of the raw edge under test, and the idle threshold in force at that
edge, which a space or SETTLE wait beginning at the edge keeps (R2). -/
structure GlitchTest where
  edge : Nat
  threshold : Nat
deriving DecidableEq, Repr

/-- One line front end. -/
structure FrontEnd where
  /-- Line state; ENABLE is 1 in every state but OFF (R5, R11). -/
  st : LineState
  /-- POLARITY: true makes the low level active (R1). -/
  polarity : Bool
  /-- GLITCH in µs (R1, R3). -/
  glitch : Byte
  /-- IDLE in units of 100 µs (R2). -/
  idle : Byte
  /-- FAULT (R10, R16). -/
  fault : Bool
  /-- Whether the transmitter is among the blanking holders (R12, R136). -/
  txHold : Bool
  /-- The guard timer's hold, with its end instant (R152): the guard timer is a blanking holder when it is present. -/
  guardHold : Option Nat
  /-- Raw level at RXA or RXB: true is high. -/
  level : Bool
  /-- The glitch test in progress (R3, R15). -/
  test : Option GlitchTest
  /-- Instant of the accepted edge that began the mark or space being measured (R6, R7). -/
  since : Nat
  /-- In SETTLE: the instant from which the wait counts, absent while the accepted level is active (R5). -/
  wait : Option Nat
  /-- The threshold that the space or SETTLE wait under way keeps, in ticks (R2). -/
  threshold : Nat
deriving DecidableEq, Repr

/-- Why a front end cut a burst short (Table 1-2). -/
inductive AbortReason where
  | stuck
  | disabled
  | blanked
  | dormant
deriving DecidableEq, Repr

/-- The notices of a burst (Table 1-2). BURST START and BURST END carry TIME at the instant they were sent: the burst's
start time (R6) and end time (R8). -/
inductive Notice where
  | burstStart (time : Time)
  | element (level : Level) (us : Nat)
  | burstEnd (time : Time)
  | burstAbort (why : AbortReason)
deriving DecidableEq, Repr

/-! ### Format table (section 2) -/

/-- The states of a format entry (Table 2-1). -/
inductive EntryState where
  | disabled
  | enabled
  | retiring
deriving DecidableEq, Repr

/-- The state and the holder set of a format entry (R38). The contents stand in the table space. -/
structure EntryControl where
  st : EntryState
  decoderA : Bool
  decoderB : Bool
  transmitter : Bool
deriving DecidableEq, Repr

/-- The users that can hold a format entry (Table 2-7). -/
inductive Holder where
  | decoder (l : Line)
  | transmitter
deriving DecidableEq, Repr

/-! ### Decoder (section 3) -/

/-- Decoder states (Table 3-1). -/
inductive DecoderState where
  | wait
  | active
  | stopped
deriving DecidableEq, Repr

/-- Whether a candidate is tested as a frame or as a repeat code (R43). -/
inductive CandidateKind where
  | frame
  | repeated
deriving DecidableEq, Repr

/-- The phases of a candidate (Table 3-2). -/
inductive Phase where
  | header
  | bits
  | lead
  | tail
  | cells
deriving DecidableEq, Repr

/-- A candidate (R44, Table 3-2). Its bit count is the length of its bit store. -/
structure Candidate where
  entry : Fin 8
  kind : CandidateKind
  phase : Phase
  pendingMark : Option Nat
  openHalf : Option Level
  startCellDone : Bool
  /-- The bit store, first arrival first. -/
  bits : List Bool
deriving DecidableEq, Repr

/-- One decoder. -/
structure Decoder where
  st : DecoderState
  start : Time
  candidates : List Candidate
deriving DecidableEq, Repr

/-- The outcomes a decoder hands to its repeat unit (Table 3-5). -/
inductive BurstOutcome where
  | frame (entry : Fin 8) (bits : Nat) (payload : Payload) (checkFailed : Bool) (start stop : Time)
  | repeated (entry : Fin 8) (start stop : Time)
  | orphan (start stop : Time)
  | unmatched (start stop : Time)
  | aborted (start : Time)
deriving DecidableEq, Repr

/-- The reports a decoder makes to the capture unit (R66). -/
inductive Report where
  | matched
  | unmatched
  | aborted
deriving DecidableEq, Repr

/-- A good frame offered to the power unit for wake matching (R65); its line is the offering decoder's. -/
structure Offer where
  entry : Fin 8
  bits : Nat
  payload : Payload
deriving DecidableEq, Repr

/-! ### Repeat unit (section 4) and receive queue (section 5) -/

/-- A last-frame memory that holds a frame (Table 4-1), but for its record reference: the receive queue keeps, for each
record, whether a memory refers to it (section 5). -/
structure LastFrame where
  entry : Fin 8
  bits : Nat
  payload : Payload
  lastEnd : Time
  repeats : Nat
  release : Bool
deriving DecidableEq, Repr

/-- One repeat unit: its memory, the marks OPEN and DUE (R72), and whether the due instant of the memory has come and has
not yet been acted on (R82). -/
structure RepeatUnit where
  memory : Option LastFrame
  opened : Bool
  due : Bool
  dueReached : Bool
deriving DecidableEq, Repr

/-- KIND of a record (Table 5-1). -/
inductive RecordKind where
  | frame
  | repeated
  | release
deriving DecidableEq, Repr

/-- A record of the receive queue (R91), with the queue's own note of whether the last-frame memory of the record's line
refers to it. -/
structure Record where
  kind : RecordKind
  line : Line
  format : Fin 8
  bits : Nat
  payload : Payload
  repeats : Nat
  check : Bool
  loss : Bool
  lost : Nat
  stamp : Time
  referred : Bool
deriving DecidableEq, Repr

/-- What a repeat unit has asked of the receive queue and the queue has not yet taken: the record to be posted. When
`counts` is set the request is a repeat under COALESCE: it is a repeat-count increment if the memory has a reference when
the queue takes it, and a post of `record` if it has none (R77, R78). `refers` tells that the appended record becomes
the memory's reference (R75, R78). -/
structure Post where
  record : Record
  counts : Bool
  refers : Bool
deriving DecidableEq, Repr

/-- The receive queue (section 5): the records, head first; whether the head is in HOLD; the watermark. -/
structure ReceiveQueue where
  records : List Record
  held : Bool
  watermark : Nat
deriving DecidableEq, Repr

/-! ### Capture unit (section 6) -/

/-- Owner of a recording (Table 6-1). -/
inductive Owner where
  | line (l : Line)
  | host
deriving DecidableEq, Repr

/-- Capture states with their owner (Table 6-1). -/
inductive CaptureState where
  | idle
  | armed
  | filling (l : Line)
  | full (o : Owner)
deriving DecidableEq, Repr

/-- LINE SELECT (section 6.2). -/
inductive LineSelect where
  | a
  | b
  | any
deriving DecidableEq, Repr

/-- MODE (section 6.2). -/
inductive CaptureMode where
  | unmatched
  | all
deriving DecidableEq, Repr

/-- The tags of a report list entry (R117). -/
inductive Tag where
  | recorded
  | passed
  | ignored
deriving DecidableEq, Repr

/-- The capture unit (R111). Its buffer stands in the table space. -/
structure Capture where
  st : CaptureState
  count : Nat
  truncated : Bool
  missed : Bool
  pins : Nat
  /-- CAPTURE CONTROL as stored (R112). -/
  select : LineSelect
  mode : CaptureMode
  rearm : Bool
  /-- The latched copies (R112). -/
  latchedSelect : LineSelect
  latchedMode : CaptureMode
  loadLength : BitVec 16
  /-- STAMP: the start time of the burst last claimed (R6, R114). No register shows it (log entry 21). -/
  stamp : Time
  /-- The report lists, oldest entry first (R117). -/
  lists : PerLine (List Tag)
  /-- In FILLING: the close of the recorded burst has been taken (R118). -/
  closed : Bool
  /-- In FILLING: the verdict of the report, when it came before the close (R118). -/
  verdict : Option Report
deriving DecidableEq, Repr

/-! ### Transmitter (section 7) -/

/-- The fields of a job as the staging registers hold them (R130, Table 7-1). -/
structure Job where
  kindFlags : Byte
  format : Byte
  bits : Byte
  repeats : Byte
  tag : Byte
  blank : Byte
  payload : Payload
deriving DecidableEq, Repr

/-- Transmitter states (Table 7-2). -/
inductive TxState where
  | idle
  | burst
  | gap
  | tail
deriving DecidableEq, Repr

/-- Statuses of a completion (Table 7-3). -/
inductive CompletionStatus where
  | done
  | stopped
  | aborted
  | unavailable
deriving DecidableEq, Repr

/-- A completion (R150). -/
structure Completion where
  tag : Byte
  status : CompletionStatus
  bursts : Nat
deriving DecidableEq, Repr

/-- The transmitter. The guard timer's holds stand with the lines they hold (`FrontEnd.guardHold`). -/
structure Transmitter where
  staging : Job
  /-- The job queue, oldest first; in BURST and GAP the head is the active job (R132). -/
  jobs : List Job
  st : TxState
  /-- The burst count of the active job, saturating at 255 (R137). -/
  bursts : Nat
  /-- The index of the burst being sent or last sent, from 1 (R137). -/
  index : Nat
  /-- The stopping mark (R147). -/
  stopping : Bool
  /-- The start instant of the burst being sent or last sent (R143). -/
  burstStart : Nat
  /-- The elements of the burst being sent (section 7.5). -/
  elements : List Element
  /-- CARRIER PERIOD read at the burst's start, in eighths of a µs (R142). -/
  period : Nat
  /-- The on-time of a carrier period in eighths of a µs; the whole period when CARRIER DUTY is 0 (R142). -/
  onTime : Nat
  /-- In GAP: the start instant of the next burst (R143). -/
  nextStart : Nat
  /-- In TAIL: the instant the TAIL has passed (R146). -/
  tailEnd : Nat
  /-- The completion FIFO, oldest first (R150). -/
  completions : List Completion
  /-- GUARD in units of 100 µs (R152). -/
  guardSetting : Byte
deriving DecidableEq, Repr

/-! ### Power unit (section 8), host window (section 9), interrupt unit (section 10), time base (section 1.9) -/

/-- The power states (Table 8-1). -/
inductive PowerState where
  | active
  | listen
  | dormant
deriving DecidableEq, Repr

/-- RESET SOURCE, which is the kind of the last reset (R170). -/
inductive ResetKind where
  | powerOn
  | pin
  | soft
deriving DecidableEq, Repr

/-- WAKE SOURCE (R171). -/
inductive WakeSource where
  | none
  | edge (l : Line)
  | host
  | matched (n : Fin 4)
deriving DecidableEq, Repr

/-- The power unit. The wake list stands in the table space. -/
structure PowerUnit where
  st : PowerState
  /-- Whether a reset is being held: RESET# is low, or a power-on reset has not ended (R172, R174). -/
  resetHeld : Bool
  /-- Whether the WAKE pin is asserted (R168). -/
  wakePin : Bool
  /-- The matched-entry record (R168). -/
  matched : Option (Fin 4)
  resetSource : ResetKind
  wakeSource : WakeSource
deriving DecidableEq, Repr

/-- The command results (Table 9-9). -/
inductive CommandResult where
  | ok
  | unknown
  | badArg
  | state
  | busy
  | empty
  | full
  | unavailable
  | pinned
  | notActive
  | badCoding
  | badBits
  | badWindow
  | ambiguous
  | exceedsIdle
  | badCarrier
  | badRepeat
  | badTiming
deriving DecidableEq, Repr

/-- The host window (section 9): table pointer, COMMAND ARG, COMMAND RESULT, and the byte the last read drove onto D7 to
D0. -/
structure HostWindow where
  pointer : BitVec 10
  arg : Byte
  result : CommandResult
  dataBus : Byte
deriving DecidableEq, Repr

/-- The interrupt unit (section 10): the five sticky causes and IRQ ENABLE. The level causes and IRQ# are views. -/
structure InterruptUnit where
  loss : Bool
  lineFault : Bool
  retired : Bool
  wake : Bool
  access : Bool
  enable : Byte
deriving DecidableEq, Repr

/-- The time base (R18, R19), and the model's own clock: `now` is the present instant in ticks, `tickAt` the end of the
present millisecond while TIME runs, `remain` the rest of the millisecond kept through DORMANT. -/
structure TimeBase where
  time : Time
  snapshot : Byte
  now : Nat
  tickAt : Nat
  remain : Nat
deriving DecidableEq, Repr

/-- What is on its way between the blocks of one line: sent or handed over and not yet taken. -/
structure Links where
  /-- Notices sent to the decoder, oldest first (R9). -/
  toDecoder : List Notice
  /-- Notices sent to the capture unit, oldest first (R9). -/
  toCapture : List Notice
  /-- The outcome the decoder has handed to the repeat unit (R64). -/
  outcome : Option BurstOutcome
  /-- Reports on their way to the capture unit, oldest first (R66). -/
  reports : List Report
  /-- Frames offered to the power unit, oldest first (R65). -/
  offers : List Offer
  /-- WAKE EDGE notices on their way to the power unit (R15). -/
  wakeEdges : Nat
  /-- Requests to expire the memory on their way to the repeat unit, oldest first (R11): of each, how many bursts had begun
  when the line was disabled whose outcome the repeat unit has yet to take (R85; log entry 22). -/
  expireRequests : List Nat
  /-- How many bursts had begun when the line was disabled, and the request to expire has been taken, whose outcome the
  repeat unit has yet to take: the memory stays empty for these (R85; log entry 22). -/
  oldBursts : Nat
  /-- What the repeat unit has asked of the receive queue, oldest first (R80, R89). -/
  posts : List Post
deriving DecidableEq, Repr

/-- The whole machine. -/
structure State where
  /-- The commands and events that wait to be taken, first in, first out. -/
  pending : List Instr
  fe : PerLine FrontEnd
  dec : PerLine Decoder
  rep : PerLine RepeatUnit
  link : PerLine Links
  entries : Vector EntryControl 8
  /-- The table space (section 9.3): the stored bytes that are not 0, by rising address. -/
  mem : List Host.Cell
  rq : ReceiveQueue
  cap : Capture
  tx : Transmitter
  pow : PowerUnit
  win : HostWindow
  irq : InterruptUnit
  clock : TimeBase
  /-- How many free choices have been made (`Config.freeChoice`): the model's own (log entry 24). -/
  choices : Nat
deriving DecidableEq, Repr

/-- Reasons a step can stop with a fault: none. The spec gives every command and event an effect in every state, so no
meaning of this model raises a fault, and the type has no constructor. -/
inductive Fault where
deriving DecidableEq, Repr

/-- Reasons for a refusal. -/
inductive Refusal where
  /-- Raised by an arm of `exec` whose step has no meaning yet; no arm raises it. Safe: the model stops where the
  hardware goes on. -/
  | notModelled (mnemonic : String)
deriving DecidableEq, Repr

/-- A line front end after every kind of reset (R17), with the given raw level at its input. The measuring fields `since`,
`wait` and `threshold` are 0 or none: DESIGN CHOICE (log entry 11). -/
def FrontEnd.reset (level : Bool) : FrontEnd where
  st := .off
  polarity := true
  glitch := 0
  idle := 100
  fault := false
  txHold := false
  guardHold := none
  level := level
  test := none
  since := 0
  wait := none
  threshold := 0

/-- A format entry after every kind of reset: DISABLED with no holders (R41). -/
def EntryControl.reset : EntryControl := ⟨.disabled, false, false, false⟩

/-- A decoder after every kind of reset (R70); its start time is 0: DESIGN CHOICE (log entry 11). -/
def Decoder.reset : Decoder := ⟨.wait, 0, []⟩

/-- A repeat unit after every kind of reset (R88). -/
def RepeatUnit.reset : RepeatUnit := ⟨none, false, false, false⟩

/-- Nothing on its way (R70, R88, R110, R172). -/
def Links.reset : Links := ⟨[], [], none, [], [], 0, [], 0, []⟩

/-- The receive queue after every kind of reset (R110). -/
def ReceiveQueue.reset : ReceiveQueue := ⟨[], false, 1⟩

/-- The capture unit after every kind of reset (R129); its STAMP is 0: DESIGN CHOICE (log entry 21). -/
def Capture.reset : Capture where
  st := .idle
  count := 0
  truncated := false
  missed := false
  pins := 0
  select := .any
  mode := .unmatched
  rearm := false
  latchedSelect := .any
  latchedMode := .unmatched
  loadLength := 0
  stamp := 0
  lists := ⟨[], []⟩
  closed := false
  verdict := none

/-- The staging registers after every kind of reset (R130). -/
def Job.reset : Job := ⟨0, 0, 0, 0, 0, 0, 0⟩

/-- The transmitter after every kind of reset (R156); what belongs to a burst or job in hand is 0, empty or clear: DESIGN
CHOICE (log entry 11). -/
def Transmitter.reset : Transmitter where
  staging := Job.reset
  jobs := []
  st := .idle
  bursts := 0
  index := 0
  stopping := false
  burstStart := 0
  elements := []
  period := 0
  onTime := 0
  nextStart := 0
  tailEnd := 0
  completions := []
  guardSetting := 20

/-- The power unit after a reset of the given kind has ended (R172). -/
def PowerUnit.reset (k : ResetKind) : PowerUnit := ⟨.active, false, false, none, k, .none⟩

/-- The host window after every kind of reset (R190); the data bus byte is 0: DESIGN CHOICE (log entry 5). -/
def HostWindow.reset : HostWindow := ⟨0, 0, .ok, 0⟩

/-- The interrupt unit after every kind of reset (R198). -/
def InterruptUnit.reset : InterruptUnit := ⟨false, false, false, false, false, 0⟩

/-- The time base after a reset that ends at the instant `now` (R18, R19). -/
def TimeBase.reset (now : Nat) : TimeBase := ⟨0, 0, now, now + Config.ms 1, 0⟩

/-- Every block at its reset values after a reset of kind `k` that ends at the instant `now`, with the raw levels `a` and
`b` at the inputs, the table space `mem`, the commands `pending` still to be taken, and `choices` free choices made. -/
def State.afterReset (k : ResetKind) (pending : List Instr) (mem : List Host.Cell) (a b : Bool) (now choices : Nat) :
    State where
  pending := pending
  fe := ⟨FrontEnd.reset a, FrontEnd.reset b⟩
  dec := ⟨Decoder.reset, Decoder.reset⟩
  rep := ⟨RepeatUnit.reset, RepeatUnit.reset⟩
  link := ⟨Links.reset, Links.reset⟩
  entries := Vector.replicate 8 EntryControl.reset
  mem := mem
  rq := ReceiveQueue.reset
  cap := Capture.reset
  tx := Transmitter.reset
  pow := PowerUnit.reset k
  win := HostWindow.reset
  irq := InterruptUnit.reset
  clock := TimeBase.reset now
  choices := choices

/-- The machine right after a power-on reset (R41, R129, R172, R190): every block at its reset values, the table space
all 0, no command waiting. The inputs RXA and RXB are high, the inactive level under the reset POLARITY: DESIGN CHOICE
(log entry 5). No free choice has been made (log entry 24). -/
def State.reset : State := State.afterReset .powerOn [] [] true true 0 0

end Sys2Proof.Machine
end

