-- ==== Sys2Proof/Machine/Ops.lean ====
section
/-! DEFINITION. The named operations the meanings share: the two lines' accessors, the table space as an addressed
memory, the setters of State, the clock, the causes a refused access and a sticky event set, and the record of a command's
result. -/

namespace Sys2Proof.Machine

open Sys2Proof (Byte Time Payload Line)

/-! ### One thing for each line -/

/-- The thing that belongs to line `l`. -/
def PerLine.get {α : Type} (p : PerLine α) : Line → α
  | .A => p.a
  | .B => p.b

/-- Replace the thing that belongs to line `l`. -/
def PerLine.set {α : Type} (p : PerLine α) (l : Line) (x : α) : PerLine α :=
  match l with
  | .A => { p with a := x }
  | .B => { p with b := x }

/-- The other line. -/
def otherLine : Line → Line
  | .A => .B
  | .B => .A

/-! ### The table space (section 9.3)

A list of (address, byte) pairs in one canonical form: addresses strictly rising, no listed byte 0. An unlisted address
reads 0, which is what a power-on reset leaves in every byte (R41, R129, R172, R190). -/

/-- What the table space holds at an address. -/
def Memory.read : List Host.Cell → Nat → Byte
  | [], _ => 0
  | (k, v) :: m, a => if k = a then v else Memory.read m a

/-- Store a byte, keeping the canonical form: storing 0 removes the entry. -/
def Memory.write : List Host.Cell → Nat → Byte → List Host.Cell
  | [], a, v => if v = 0 then [] else [(a, v)]
  | (k, w) :: m, a, v =>
    if a < k then
      if v = 0 then (k, w) :: m else (a, v) :: (k, w) :: m
    else if a = k then
      if v = 0 then m else (a, v) :: m
    else (k, w) :: Memory.write m a v

/-- The canonical form: addresses strictly rising and inside the table space, no listed byte 0. -/
abbrev Memory.wf (m : List Host.Cell) : Prop :=
  m.Pairwise (fun x y => x.1 < y.1) ∧ ∀ c ∈ m, c.2 ≠ 0 ∧ c.1 < Config.tableSize

/-- The 16-bit value at an address, the less significant byte at the lower address (section 0.5, R182). -/
def Memory.word (m : List Host.Cell) (a : Nat) : Nat :=
  (Memory.read m a).toNat + 256 * (Memory.read m (a + 1)).toNat

/-! ### Bytes, counts and payloads -/

/-- The byte with the given bits, the most significant first. -/
def byteOfBits (b7 b6 b5 b4 b3 b2 b1 b0 : Bool) : Byte :=
  BitVec.ofNat 8 (128 * b7.toNat + 64 * b6.toNat + 32 * b5.toNat + 16 * b4.toNat + 8 * b3.toNat + 4 * b2.toNat
    + 2 * b1.toNat + b0.toNat)

/-- Add one to a count that stays at `cap` once it has reached it (R76, R93, R95, R137). -/
def bump (cap n : Nat) : Nat := min cap (n + 1)

/-- Payload byte `k` (section 0.5). -/
def Payload.byte (p : Payload) (k : Nat) : Byte := p.extractLsb' (8 * k) 8

/-- Replace payload byte `k`. -/
def Payload.setByte (p : Payload) (k : Nat) (v : Byte) : Payload :=
  (p &&& ~~~((0xFF : Payload) <<< (8 * k))) ||| ((v.setWidth 64 : Payload) <<< (8 * k))

/-- The eight format entries, in index order. -/
def allEntries : List (Fin 8) := [0, 1, 2, 3, 4, 5, 6, 7]

/-- The wake list's indices, in order. -/
def allWake : List (Fin 4) := [0, 1, 2, 3]

/-- A number as the index of a format entry, if it is one (0 to 7). -/
def entryIndex (n : Nat) : Option (Fin 8) := if h : n < 8 then some ⟨n, h⟩ else none

/-- Whether `later` comes within `k` ms after `earlier`, counted modulo 65536 (section 0.5, TIME). -/
def Time.within (k : Nat) (earlier later : Time) : Bool := decide ((later - earlier).toNat ≤ k)

/-! ### Setters of the state -/

/-- Replace the front end of `l`. -/
def State.setFe (s : State) (l : Line) (f : FrontEnd) : State := { s with fe := s.fe.set l f }

/-- Replace the decoder of `l`. -/
def State.setDec (s : State) (l : Line) (d : Decoder) : State := { s with dec := s.dec.set l d }

/-- Replace the repeat unit of `l`. -/
def State.setRep (s : State) (l : Line) (r : RepeatUnit) : State := { s with rep := s.rep.set l r }

/-- Replace what is on its way on `l`. -/
def State.setLink (s : State) (l : Line) (k : Links) : State := { s with link := s.link.set l k }

/-- Replace the state and holders of format entry `n`. -/
def State.setEntry (s : State) (n : Fin 8) (e : EntryControl) : State := { s with entries := s.entries.set n e }

/-- Set the ACCESS cause: a register or table-space write was refused (R188, R193). -/
def State.refuseAccess (s : State) : State := { s with irq := { s.irq with access := true } }

/-- Set the RETIRED cause (R40, R193). -/
def State.setRetired (s : State) : State := { s with irq := { s.irq with retired := true } }

/-- Set the LOSS cause (R93, R193). -/
def State.setLoss (s : State) : State := { s with irq := { s.irq with loss := true } }

/-- Set the LINEFAULT cause (R10, R193). -/
def State.setLineFault (s : State) : State := { s with irq := { s.irq with lineFault := true } }

/-- Set the WAKE cause (R162, R166, R193). -/
def State.setWakeCause (s : State) : State := { s with irq := { s.irq with wake := true } }

/-- Place a command's result in COMMAND RESULT (R185). -/
def State.setResult (s : State) (r : CommandResult) : State := { s with win := { s.win with result := r } }

/-- Store a value back into COMMAND ARG (R186). -/
def State.setArg (s : State) (v : Byte) : State := { s with win := { s.win with arg := v } }

/-- The byte a read drives onto D7 to D0 (R173). -/
def State.driveBus (s : State) (v : Byte) : State := { s with win := { s.win with dataBus := v } }

/-! ### The clock -/

/-- `dt` ticks of the clock pass. -/
def State.elapse (s : State) (dt : Nat) : State := { s with clock := { s.clock with now := s.clock.now + dt } }

/-- The clock reaches the instant `t`; it is left as it is when it already stands there or later. -/
def State.reachInstant (s : State) (t : Nat) : State := { s with clock := { s.clock with now := max s.clock.now t } }

/-! ### Host accesses and commands -/

/-- A write to the window: discarded without effect while a reset is held (R174), and otherwise done. -/
def State.windowWrite (s : State) (f : State → State) : State := if s.pow.resetHeld then s else f s

/-- A read of the window that drives `v` and has the side effect `f`: while a reset is held it returns 0 and has no side
effect (R174, R176). -/
def State.windowRead (s : State) (v : Byte) (f : State → State) : State :=
  if s.pow.resetHeld then s.driveBus 0 else (f s).driveBus v

/-- A register write, refused in DORMANT with ACCESS (R161, R188) and otherwise done. -/
def State.registerAccess (s : State) (f : State → State) : State :=
  s.windowWrite fun s => if s.pow.st = .dormant then s.refuseAccess else f s

/-- A command other than WAKE UP and SOFT RESET: refused with STATE in DORMANT (R161), otherwise carried out; the result
is placed in COMMAND RESULT (R185). -/
def State.command (s : State) (f : State → State × CommandResult) : State :=
  s.windowWrite fun s => if s.pow.st = .dormant then s.setResult .state else (f s).1.setResult (f s).2

/-! ### Both lines, and free choices -/

/-- Do a thing on both lines, on `first` first. -/
def State.eachLine (s : State) (first : Line) (f : State → Line → State) : State := f (f s first) (otherLine first)

/-- The `k`th of the free choices that come next, where it can show; where it cannot, the first order stands for both (log
entry 24). -/
def State.draw (s : State) (k : Nat) (shows : Bool) : Bool := shows && Config.freeChoice (s.choices + k)

/-- A free choice of the line that goes first. -/
def State.drawLine (s : State) (k : Nat) (shows : Bool) : Line := if s.draw k shows then .B else .A

/-! ### Sending between blocks -/

/-- A front end sends a notice to the decoder of its line and to the capture unit (R9). -/
def State.sendNotice (s : State) (l : Line) (n : Notice) : State :=
  s.setLink l { s.link.get l with
    toDecoder := (s.link.get l).toDecoder ++ [n]
    toCapture := (s.link.get l).toCapture ++ [n] }

/-- A repeat unit asks something of the receive queue (R80, R89). -/
def State.sendPost (s : State) (l : Line) (p : Post) : State :=
  s.setLink l { s.link.get l with posts := (s.link.get l).posts ++ [p] }

end Sys2Proof.Machine
end

