-- ==== Sys2Proof/Machine/Operands.lean ====
section
/-! DEFINITION. The fields the blocks read out of stored bytes: windows and format entries (section 2.2, Table 9-4), wake
list entries (Table 9-5), capture buffer entries (Table 9-6), the fields of a job (Table 7-1), and the codes of the
register fields (Table 9-2). -/

namespace Sys2Proof.Machine

open Sys2Proof (Byte Time Payload Line)

/-! ### Windows (Table 0-3) -/

/-- A timing window: minimum and maximum in µs. -/
structure Window where
  lo : Nat
  hi : Nat
deriving DecidableEq, Repr

/-- Whether a duration matches the window. -/
def Window.matches (w : Window) (d : Nat) : Bool := decide (w.lo ≤ d ∧ d ≤ w.hi)

/-- Whether the window is the absent window, (0, 0). -/
def Window.absent (w : Window) : Bool := decide (w.lo = 0 ∧ w.hi = 0)

/-- The nominal duration (R28). -/
def Window.nominal (w : Window) : Nat := (w.lo + w.hi) / 2

/-- Whether some duration matches both windows (section 2.2.1). -/
def Window.overlaps (v w : Window) : Bool := decide (v.lo ≤ w.hi ∧ w.lo ≤ v.hi)

/-! ### Format entries -/

/-- CODING (Table 9-4). -/
inductive Coding where
  | pair
  | biphase
  | illegal
deriving DecidableEq, Repr

/-- REPEAT KIND (Table 9-4). -/
inductive RepeatKind where
  | none
  | same
  | code
  | illegal
deriving DecidableEq, Repr

/-- CHECK (R24, Table 9-4). -/
inductive Check where
  | none
  | invertedPairs
  | evenParity
  | oddParity
deriving DecidableEq, Repr

/-- The fields of a format entry (Table 2-2). -/
structure Format where
  coding : Coding
  msbFirst : Bool
  repeatKind : RepeatKind
  coalesce : Bool
  release : Bool
  lineA : Bool
  lineB : Bool
  check : Check
  minBits : Nat
  maxBits : Nat
  headerMark : Window
  headerSpace : Window
  mark0 : Window
  space0 : Window
  mark1 : Window
  space1 : Window
  trailerMark : Window
  repeatMark : Window
  repeatSpace : Window
  rw : Nat
  framePeriod : Nat
  txGap : Nat
  duty : Nat
  period : Nat
deriving DecidableEq, Repr

/-- The CODING code of CONTROL A. -/
def codingOf (controlA : Byte) : Coding :=
  match controlA.getLsbD 1, controlA.getLsbD 0 with
  | false, false => .pair
  | false, true => .biphase
  | true, _ => .illegal

/-- The REPEAT KIND code of CONTROL A. -/
def repeatKindOf (controlA : Byte) : RepeatKind :=
  match controlA.getLsbD 4, controlA.getLsbD 3 with
  | false, false => .none
  | false, true => .same
  | true, false => .code
  | true, true => .illegal

/-- The CHECK code of CONTROL B. -/
def checkOf (controlB : Byte) : Check :=
  match controlB.getLsbD 3, controlB.getLsbD 2 with
  | false, false => .none
  | false, true => .invertedPairs
  | true, false => .evenParity
  | true, true => .oddParity

/-- The window stored at a table address: minimum first, then maximum (section 9.4). -/
def windowAt (m : List Host.Cell) (a : Nat) : Window := ⟨Memory.word m a, Memory.word m (a + 2)⟩

/-- First table address of format entry `n` (Table 9-3). -/
def entryBase (n : Fin 8) : Nat := Config.entryStride * n.val

/-- The fields of format entry `n` as the stored bytes give them (R182, Table 9-4). -/
def formatAt (m : List Host.Cell) (n : Fin 8) : Format where
  coding := codingOf (Memory.read m (entryBase n))
  msbFirst := (Memory.read m (entryBase n)).getLsbD 2
  repeatKind := repeatKindOf (Memory.read m (entryBase n))
  coalesce := (Memory.read m (entryBase n)).getLsbD 5
  release := (Memory.read m (entryBase n)).getLsbD 6
  lineA := (Memory.read m (entryBase n + 1)).getLsbD 0
  lineB := (Memory.read m (entryBase n + 1)).getLsbD 1
  check := checkOf (Memory.read m (entryBase n + 1))
  minBits := (Memory.read m (entryBase n + 2)).toNat
  maxBits := (Memory.read m (entryBase n + 3)).toNat
  headerMark := windowAt m (entryBase n + 4)
  headerSpace := windowAt m (entryBase n + 8)
  mark0 := windowAt m (entryBase n + 12)
  space0 := windowAt m (entryBase n + 16)
  mark1 := windowAt m (entryBase n + 20)
  space1 := windowAt m (entryBase n + 24)
  trailerMark := windowAt m (entryBase n + 28)
  repeatMark := windowAt m (entryBase n + 32)
  repeatSpace := windowAt m (entryBase n + 36)
  rw := (Memory.read m (entryBase n + 40)).toNat
  framePeriod := (Memory.read m (entryBase n + 41)).toNat
  txGap := (Memory.read m (entryBase n + 42)).toNat
  duty := (Memory.read m (entryBase n + 43)).toNat
  period := Memory.word m (entryBase n + 44)

/-- The fields of format entry `n` as they now stand. -/
def State.format (s : State) (n : Fin 8) : Format := formatAt s.mem n

/-- Whether the LINES mask names a line (R26). -/
def Format.namesLine (f : Format) : Line → Bool
  | .A => f.lineA
  | .B => f.lineB

/-- The space windows of an entry (R2): under BIPHASE the T and 2T windows, which the entry keeps in MARK0 and MARK1. -/
def Format.spaceWindows (f : Format) : List Window :=
  if f.coding = .biphase then [f.mark0, f.mark1] else [f.headerSpace, f.space0, f.space1, f.repeatSpace]

/-- Whether every space-window maximum lies below an idle threshold of `idle` units of 100 µs (R2, R36). -/
def Format.spacesBelow (f : Format) (idle : Byte) : Bool :=
  f.spaceWindows.all fun w => decide (w.hi < 100 * idle.toNat)

/-! ### Wake list entries -/

/-- The fields of a wake list entry (Table 8-3). -/
structure WakeEntry where
  valid : Bool
  resume : Bool
  format : Nat
  lineA : Bool
  lineB : Bool
  bits : Nat
  payload : Payload
  mask : Payload
deriving DecidableEq, Repr

/-- Eight stored bytes as one word, byte 0 least significant. -/
def eightBytes (m : List Host.Cell) (a : Nat) : Payload :=
  Memory.read m (a + 7) ++ Memory.read m (a + 6) ++ Memory.read m (a + 5) ++ Memory.read m (a + 4)
    ++ Memory.read m (a + 3) ++ Memory.read m (a + 2) ++ Memory.read m (a + 1) ++ Memory.read m a

/-- First table address of wake list entry `n` (R165). -/
def wakeEntryBase (n : Fin 4) : Nat := Config.wakeBase + Config.wakeStride * n.val

/-- The fields of wake list entry `n` (R183, Table 9-5). -/
def wakeEntryAt (m : List Host.Cell) (n : Fin 4) : WakeEntry where
  valid := (Memory.read m (wakeEntryBase n)).getLsbD 7
  resume := (Memory.read m (wakeEntryBase n)).getLsbD 6
  format := (Memory.read m (wakeEntryBase n)).toNat % 8
  lineA := (Memory.read m (wakeEntryBase n)).getLsbD 4
  lineB := (Memory.read m (wakeEntryBase n)).getLsbD 5
  bits := (Memory.read m (wakeEntryBase n + 1)).toNat
  payload := eightBytes m (wakeEntryBase n + 2)
  mask := eightBytes m (wakeEntryBase n + 10)

/-- Whether the LINE mask of a wake list entry names a line. -/
def WakeEntry.namesLine (w : WakeEntry) : Line → Bool
  | .A => w.lineA
  | .B => w.lineB

/-! ### Capture buffer entries (R184, Table 9-6) -/

/-- First table address of capture entry `k`. -/
def captureAddress (k : Nat) : Nat := Config.captureBase + 2 * k

/-- The 16-bit value of an element: level in bit 15, the duration held to 32767 below it (R115). -/
def captureValue (lvl : Level) (d : Nat) : Nat :=
  (if lvl = .mark then 32768 else 0) + min d Config.captureDurationCap

/-- Write both bytes of capture entry `k` at once (R184). -/
def writeCaptureEntry (m : List Host.Cell) (k : Nat) (lvl : Level) (d : Nat) : List Host.Cell :=
  Memory.write (Memory.write m (captureAddress k) (BitVec.ofNat 8 (captureValue lvl d)))
    (captureAddress k + 1) (BitVec.ofNat 8 (captureValue lvl d / 256))

/-- Capture entry `k` as an element (R141, R184). -/
def captureElementAt (m : List Host.Cell) (k : Nat) : Element where
  level := if (Memory.read m (captureAddress k + 1)).getLsbD 7 then .mark else .space
  us := Memory.word m (captureAddress k) % 32768

/-! ### Jobs (R130, Table 7-1) -/

/-- KIND of a job. -/
inductive JobKind where
  | frame
  | replay
  | illegal
deriving DecidableEq, Repr

/-- KIND, from bits 1 and 0 of JOB KIND/FLAGS whatever the other bits hold (R130). -/
def Job.kind (j : Job) : JobKind :=
  match j.kindFlags.getLsbD 1, j.kindFlags.getLsbD 0 with
  | false, true => .frame
  | true, false => .replay
  | _, _ => .illegal

/-- CONTINUOUS, bit 7 of JOB KIND/FLAGS. -/
def Job.continuous (j : Job) : Bool := j.kindFlags.getLsbD 7

/-- The format entry a job names: JOB FORMAT judged as a whole byte, 0 to 7 accepted. -/
def Job.entry (j : Job) : Option (Fin 8) := entryIndex j.format.toNat

/-- Whether the BLANK mask names a line, from bits 1 and 0 of JOB BLANK. -/
def Job.blanks (j : Job) : Line → Bool
  | .A => j.blank.getLsbD 0
  | .B => j.blank.getLsbD 1

/-- The bytes of a job in the order of the staging registers from offset 0x2C (Table 9-1). -/
def Job.register (j : Job) (r : Fin 14) : Byte :=
  match r.val with
  | 0 => j.kindFlags
  | 1 => j.format
  | 2 => j.bits
  | 3 => j.repeats
  | 4 => j.tag
  | 5 => j.blank
  | n => Payload.byte j.payload (n - 6)

/-- Store a byte in a staging register as written (R130). -/
def Job.setRegister (j : Job) (r : Fin 14) (v : Byte) : Job :=
  match r.val with
  | 0 => { j with kindFlags := v }
  | 1 => { j with format := v }
  | 2 => { j with bits := v }
  | 3 => { j with repeats := v }
  | 4 => { j with tag := v }
  | 5 => { j with blank := v }
  | n => { j with payload := Payload.setByte j.payload (n - 6) v }

/-! ### Codes of the register fields (Table 9-2) -/

/-- The state codes of Table 1-1. -/
def LineState.code : LineState → Nat
  | .off => 0
  | .settle => 1
  | .idle => 2
  | .mark => 3
  | .space => 4
  | .stuck => 5
  | .blanked => 6
  | .parked => 7
  | .watch => 8

/-- The codes of POWER STATE (Table 8-1). -/
def PowerState.code : PowerState → Nat
  | .active => 0
  | .listen => 1
  | .dormant => 2

/-- The codes of RESET SOURCE (Table 8-4). -/
def ResetKind.code : ResetKind → Nat
  | .powerOn => 1
  | .pin => 2
  | .soft => 3

/-- The codes of WAKE SOURCE (Table 8-4). -/
def WakeSource.code : WakeSource → Nat
  | .none => 0
  | .edge .A => 1
  | .edge .B => 2
  | .host => 3
  | .matched n => 4 + n.val

/-- The codes of KIND (Table 5-1). -/
def RecordKind.code : RecordKind → Nat
  | .frame => 1
  | .repeated => 2
  | .release => 3

/-- The codes of LINE (Table 5-1). -/
def lineCode : Line → Nat
  | .A => 0
  | .B => 1

/-- The codes of LINE SELECT; 0 is never stored (R112). -/
def LineSelect.code : LineSelect → Nat
  | .a => 1
  | .b => 2
  | .any => 3

/-- LINE SELECT as a write of CAPTURE CONTROL stores it: the code that names no line is stored as ANY (R112). -/
def lineSelectOf (v : Byte) : LineSelect :=
  match v.getLsbD 1, v.getLsbD 0 with
  | false, true => .a
  | true, false => .b
  | _, _ => .any

/-- Whether a LINE SELECT names a line (R112). -/
def LineSelect.names : LineSelect → Line → Bool
  | .a, .A => true
  | .b, .B => true
  | .any, _ => true
  | .a, .B => false
  | .b, .A => false

/-- The state and owner codes of CAPTURE STATUS. -/
def CaptureState.code : CaptureState → Nat
  | .idle => 0
  | .armed => 1
  | .filling .A => 2
  | .filling .B => 3
  | .full (.line .A) => 4
  | .full (.line .B) => 5
  | .full .host => 6

/-- The state codes of TX STATUS (Table 7-2). -/
def TxState.code : TxState → Nat
  | .idle => 0
  | .burst => 1
  | .gap => 2
  | .tail => 3

/-- The codes of COMPLETION STATUS (Table 7-3). -/
def CompletionStatus.code : CompletionStatus → Nat
  | .done => 0
  | .stopped => 1
  | .aborted => 2
  | .unavailable => 3

/-- The result codes of Table 9-9. -/
def CommandResult.code : CommandResult → Byte
  | .ok => 0x00
  | .unknown => 0x01
  | .badArg => 0x02
  | .state => 0x03
  | .busy => 0x04
  | .empty => 0x05
  | .full => 0x06
  | .unavailable => 0x07
  | .pinned => 0x08
  | .notActive => 0x09
  | .badCoding => 0x10
  | .badBits => 0x11
  | .badWindow => 0x12
  | .ambiguous => 0x13
  | .exceedsIdle => 0x14
  | .badCarrier => 0x15
  | .badRepeat => 0x16
  | .badTiming => 0x17

end Sys2Proof.Machine
end

