-- ==== Sys2Proof/Machine/Flags.lean ====
section
/-! DEFINITION. The interrupt causes and IRQ# (section 10): the three level causes as views of the conditions their blocks
present, the eight causes as IRQ CAUSE shows them, and the level of IRQ#. -/

namespace Sys2Proof.Machine

open Sys2Proof (Byte Time Payload Line)

/-- The RQ condition: RQ COUNT is at or above the watermark (R107). -/
def State.rqCondition (s : State) : Bool := decide (s.rq.watermark ≤ s.rq.records.length)

/-- The TXDONE condition: the completion FIFO holds at least one completion (R150). -/
def State.txDoneCondition (s : State) : Bool := !s.tx.completions.isEmpty

/-- Whether a capture state is FULL with a line as owner: the CAPTURE condition (R118, R125, R127). -/
def CaptureState.fullWithLine : CaptureState → Bool
  | .full (.line _) => true
  | .full .host => false
  | .idle => false
  | .armed => false
  | .filling _ => false

/-- What a read of IRQ CAUSE returns (R191, Table 10-1). -/
def State.irqCause (s : State) : Byte :=
  byteOfBits s.irq.access s.irq.wake s.irq.retired s.irq.lineFault s.cap.st.fullWithLine s.txDoneCondition s.irq.loss
    s.rqCondition

/-- Whether IRQ# is asserted (driven low): some cause reads 1 and has its enable bit set (R196). -/
def State.irqAsserted (s : State) : Bool := decide (s.irqCause &&& s.irq.enable ≠ 0)

/-- Clear each sticky cause whose bit is 1 in the written byte; the bits of the level causes are ignored (R194). -/
def InterruptUnit.clear (q : InterruptUnit) (v : Byte) : InterruptUnit :=
  { q with
    loss := q.loss && !v.getLsbD 1
    lineFault := q.lineFault && !v.getLsbD 4
    retired := q.retired && !v.getLsbD 5
    wake := q.wake && !v.getLsbD 6
    access := q.access && !v.getLsbD 7 }

end Sys2Proof.Machine
end

