-- ==== Sys2Proof/Machine/Queue.lean ====
section
/-! DEFINITION. The receive queue (section 5): references, posting, repeat-count increments, HOLD, POP, FLUSH QUEUE and the
watermark.

A record reference of a last-frame memory is kept by the queue, on the record: the memory of line `l` refers to the
record of line `l` that is marked `referred` (section 5, "for each record, whether a last-frame memory refers to it";
DEDUCED, log entry 9). -/

namespace Sys2Proof.Machine

open Sys2Proof (Byte Time Payload Line)

/-- Whether the last-frame memory of `l` refers to this record. -/
def Record.refersFor (r : Record) (l : Line) : Bool := r.referred && decide (r.line = l)

/-- Whether the last-frame memory of `l` holds a record reference. -/
def ReceiveQueue.hasReference (q : ReceiveQueue) (l : Line) : Bool := q.records.any (·.refersFor l)

/-- Clear the record reference of the memory of `l`; the record itself is left as it is (R81). -/
def ReceiveQueue.dropReference (q : ReceiveQueue) (l : Line) : ReceiveQueue :=
  { q with records := q.records.map fun r => if r.refersFor l then { r with referred := false } else r }

/-- The loss mark: LOSS set, LOST one higher and at most 15 (R93). -/
def Record.markLoss (r : Record) : Record := { r with loss := true, lost := bump Config.lostCap r.lost }

/-- Mark a loss on the newest record (R93). -/
def markNewest : List Record → List Record
  | [] => []
  | [r] => [r.markLoss]
  | r :: rs => r :: markNewest rs

/-- Increase the REPEATS of the record the memory of `l` refers to by `k` (R95). -/
def ReceiveQueue.countRepeats (q : ReceiveQueue) (l : Line) (k : Nat) : ReceiveQueue :=
  { q with records := q.records.map fun r =>
      if r.refersFor l then { r with repeats := min Config.countCap (r.repeats + k) } else r }

/-- The queue takes a post (R92, R93): appended after the newest record, with the reference set in the same step when the
record is to be one (R80); or lost, marked on the newest record, with the LOSS cause set. -/
def State.takePost (s : State) (p : Post) : State :=
  if s.rq.records.length < Config.queueCapacity then
    { s with rq := { s.rq with records := s.rq.records ++ [{ p.record with referred := p.refers }] } }
  else
    { s with rq := { s.rq with records := markNewest s.rq.records } }.setLoss

/-- Whether a request of `l` is a repeat-count increment as the references now stand: a repeat under COALESCE whose memory
holds a reference (R77). Every other request is a post. -/
def State.isIncrement (s : State) (l : Line) (p : Post) : Bool := p.counts && s.rq.hasReference l

/-- The oldest post among the requests of `l`. An increment ahead of it does not hold it back (R95). -/
def State.oldestPost (s : State) (l : Line) : Option Post := (s.link.get l).posts.find? fun p => !s.isIncrement l p

/-- The oldest increment among the requests of `l`. A post ahead of it does not hold it back (R95). -/
def State.oldestIncrement (s : State) (l : Line) : Option Post := (s.link.get l).posts.find? fun p => s.isIncrement l p

/-- Take the first request that `which` picks off the link of `l`. -/
def State.dropRequest (s : State) (l : Line) (which : Post → Bool) : State :=
  s.setLink l { s.link.get l with posts := (s.link.get l).posts.eraseP which }

/-- The queue takes an increment: the record the memory of `l` refers to counts one repeat more (R95). -/
def State.takeIncrement (s : State) (l : Line) : State := { s with rq := s.rq.countRepeats l 1 }

/-- POST (R92, R93): the queue takes the oldest post of the repeat unit of `l`. A coalescing repeat that finds no reference is
a post as well (R77, R78). -/
def execPost (l : Line) (s : State) : Host.Outcome State Fault Refusal :=
  match s.oldestPost l with
  | none => .next s
  | some p => .next ((s.dropRequest l fun p => !s.isIncrement l p).takePost p)

/-- REPEAT_COUNT_INCREMENT (R95): the queue takes the oldest increment of the repeat unit of `l`. -/
def execRepeatCountIncrement (l : Line) (s : State) : Host.Outcome State Fault Refusal :=
  match s.oldestIncrement l with
  | none => .next s
  | some _ => .next ((s.dropRequest l fun p => s.isIncrement l p).takeIncrement l)

/-- The queue takes a request of `l`, as the increment or the post it is. -/
def State.takeRequest (s : State) (l : Line) (p : Post) : State :=
  if s.isIncrement l p then s.takeIncrement l else s.takePost p

/-- The queue takes every request of `l`, oldest first. -/
def State.takeRequests (s : State) (l : Line) : State :=
  (s.link.get l).posts.foldl (fun s p => s.takeRequest l p) (s.setLink l { s.link.get l with posts := [] })

/-- HEAD KIND/LINE as a read shows it: KIND in bits 1..0, LINE in bit 4; 0, EMPTY, when the queue is empty (R98). -/
def ReceiveQueue.headKindLine (q : ReceiveQueue) : Byte :=
  match q.records with
  | [] => 0
  | r :: _ => BitVec.ofNat 8 (r.kind.code + 16 * lineCode r.line)

/-- Place the head in HOLD, clearing the reference to it (R99). An empty queue and a head already held are left as they
are. -/
def ReceiveQueue.hold (q : ReceiveQueue) : ReceiveQueue :=
  match q.records with
  | [] => q
  | r :: rs => if q.held then q else { q with records := { r with referred := false } :: rs, held := true }

/-- HEAD_KIND_LINE_READ (R99): taken in every power state (R176). -/
def execHeadKindLineRead (s : State) : Host.Outcome State Fault Refusal :=
  .next (s.windowRead s.rq.headKindLine fun s => { s with rq := s.rq.hold })

/-- Remove the head; its HOLD and any reference to it go with it (R102). -/
def ReceiveQueue.pop (q : ReceiveQueue) : ReceiveQueue := { q with records := q.records.tail, held := false }

/-- The POP command (R102). -/
def State.popRecord (s : State) : State × CommandResult :=
  match s.rq.records with
  | [] => (s, .empty)
  | _ :: _ => ({ s with rq := s.rq.pop }, .ok)

/-- POP (R102). -/
def execPop (s : State) : Host.Outcome State Fault Refusal := .next (s.command State.popRecord)

/-- The FLUSH QUEUE command: every record removed, with HOLD and both references; COMMAND ARG takes their number (R104). -/
def State.flushRecords (s : State) : State × CommandResult :=
  ({ s with rq := { s.rq with records := [], held := false } }.setArg (BitVec.ofNat 8 s.rq.records.length), .ok)

/-- FLUSH_QUEUE (R104). -/
def execFlushQueue (s : State) : Host.Outcome State Fault Refusal := .next (s.command State.flushRecords)

/-- The watermark a written value stores: held to 1 to 16 (R106). -/
def watermarkOf (v : Byte) : Nat := max 1 (min 16 v.toNat)

/-- Write RQ WATERMARK (R106). -/
def State.writeWatermark (v : Byte) (s : State) : State := { s with rq := { s.rq with watermark := watermarkOf v } }

/-- RQ_WATERMARK_WRITE (R106). -/
def execRqWatermarkWrite (v : Byte) (s : State) : Host.Outcome State Fault Refusal :=
  .next (s.registerAccess (State.writeWatermark v))

end Sys2Proof.Machine
end

