-- ==== Sys2Proof/Machine/LastFrame.lean ====
section
/-! DEFINITION. The last-frame memories (sections 4.1, 4.5 and 4.6): their reference, clearing, expiry and due instant. -/

namespace Sys2Proof.Machine

open Sys2Proof (Byte Time Payload Line)

/-- The increments the repeat unit of `l` has asked for under a reference that it is about to give up are taken first: each
names the record the memory refers to (R77, R95), and so counts in that record and in no other (log entry 9). -/
def State.settleIncrements (s : State) (l : Line) : State :=
  if s.rq.hasReference l then
    ({ s with rq := s.rq.countRepeats l ((s.link.get l).posts.countP (·.counts)) } : State).setLink l
      { s.link.get l with posts := (s.link.get l).posts.filter fun p => !p.counts }
  else s

/-- The queue forgets the reference of the memory of `l`: the one a record carries, and the one a request not yet taken would
set. A coalescing repeat among those requests stays a post. -/
def State.forgetReference (s : State) (l : Line) : State :=
  ({ s with rq := s.rq.dropReference l } : State).setLink l
    { s.link.get l with posts := (s.link.get l).posts.map fun p => { p with counts := false, refers := false } }

/-- The repeat unit of `l` drops the record reference of its memory (R75, R83, R87). -/
def State.dropReference (s : State) (l : Line) : State := (s.settleIncrements l).forgetReference l

/-- Empty the memory of `l` without a RELEASE record: the reference is dropped, DUE is cleared and no expiry is due. OPEN
is not affected (R87). -/
def State.clearMemory (s : State) (l : Line) : State :=
  (s.dropReference l).setRep l { s.rep.get l with memory := none, due := false, dueReached := false }

/-- Clear the memory of `l` if it names format entry `n` (R39, R40, R87). -/
def State.clearMemoryNaming (s : State) (n : Fin 8) (l : Line) : State :=
  match (s.rep.get l).memory with
  | none => s
  | some m => if m.entry = n then s.clearMemory l else s

/-- Both repeat units clear their memory if it names format entry `n` (R39, R40, R87). -/
def State.clearMemoriesNaming (s : State) (n : Fin 8) : State :=
  (s.clearMemoryNaming n .A).clearMemoryNaming n .B

/-- The RELEASE record of a memory, stamped `t` (R79, R83). -/
def releaseRecord (l : Line) (m : LastFrame) (t : Time) : Record where
  kind := .release
  line := l
  format := m.entry
  bits := m.bits
  payload := m.payload
  repeats := m.repeats
  check := false
  loss := false
  lost := 0
  stamp := t
  referred := false

/-- Post the RELEASE record of a memory whose RELEASE flag is set, stamped TIME; post nothing when it is clear (R75, R83). -/
def State.postRelease (s : State) (l : Line) (m : LastFrame) : State :=
  if m.release then s.sendPost l ⟨releaseRecord l m s.clock.time, false, false⟩ else s

/-- The memory of `l` expires (R83): its RELEASE record is posted if its flag is set, and it is emptied. An empty memory is
left as it is. -/
def State.expireMemory (s : State) (l : Line) : State :=
  match (s.rep.get l).memory with
  | none => s
  | some m => (s.postRelease l m).clearMemory l

/-- Whether at TIME `t` a memory has come to its due instant, RW ms after its last end (R82). -/
def LastFrame.isDue (m : LastFrame) (rw : Nat) (t : Time) : Bool := decide (rw ≤ (t - m.lastEnd).toNat)

/-- At a new value of TIME, the memory of `l` falls due when TIME has become equal to its last end plus RW (R82). -/
def State.noteDue (s : State) (l : Line) : State :=
  match (s.rep.get l).memory with
  | none => s
  | some m =>
    if s.clock.time = m.lastEnd + BitVec.ofNat 16 (s.format m.entry).rw then
      s.setRep l { s.rep.get l with dueReached := true }
    else s

end Sys2Proof.Machine
end

