-- ==== Sys2Proof/Machine/FormatTable.lean ====
section
/-! DEFINITION. The format table (section 2): holders and retirement, the seven steps of ENABLE FORMAT, and DISABLE
FORMAT. -/

namespace Sys2Proof.Machine

open Sys2Proof (Byte Time Payload Line)

/-! ### Holders and retirement (section 2.5) -/

/-- Whether the holder set of an entry is empty. -/
def EntryControl.unheld (e : EntryControl) : Bool := !e.decoderA && !e.decoderB && !e.transmitter

/-- Put a holder into the set or take it out. -/
def EntryControl.setHolder (e : EntryControl) (h : Holder) (present : Bool) : EntryControl :=
  match h with
  | .decoder .A => { e with decoderA := present }
  | .decoder .B => { e with decoderB := present }
  | .transmitter => { e with transmitter := present }

/-- A holder joins the holder set of entry `n` (R38). -/
def State.joinHolder (s : State) (h : Holder) (n : Fin 8) : State :=
  s.setEntry n (s.entries[n].setHolder h true)

/-- A holder leaves the holder set of entry `n` (R38). When the entry is RETIRING and the set becomes empty, retirement
completes: the entry becomes DISABLED, RETIRED is set and the memories naming the entry are cleared (R40). -/
def State.leaveHolder (s : State) (h : Holder) (n : Fin 8) : State :=
  if s.entries[n].st = .retiring ∧ (s.entries[n].setHolder h false).unheld then
    ((s.setEntry n { s.entries[n].setHolder h false with st := .disabled }).setRetired).clearMemoriesNaming n
  else s.setEntry n (s.entries[n].setHolder h false)

/-- A holder leaves the holder sets of several entries, one after the other. -/
def State.leaveHolders (s : State) (h : Holder) (ns : List (Fin 8)) : State :=
  ns.foldl (fun s n => s.leaveHolder h n) s

/-! ### Validation (section 2.4) -/

/-- Step 1: the codes are legal (R32). -/
def Format.codesLegal (f : Format) : Bool := decide (f.coding ≠ .illegal ∧ f.repeatKind ≠ .illegal)

/-- Step 2: the bit counts (R32). -/
def Format.bitCountsLegal (f : Format) : Bool :=
  decide (1 ≤ f.minBits ∧ f.minBits ≤ f.maxBits ∧ f.maxBits ≤ 64)
    && (decide (f.check ≠ .invertedPairs) || decide (f.minBits % 16 = 0 ∧ f.maxBits % 16 = 0))

/-- The windows step 3 examines: all nine under PAIR, all but SPACE0 and SPACE1 under BIPHASE (R33). -/
def Format.examinedWindows (f : Format) : List Window :=
  [f.headerMark, f.headerSpace, f.mark0, f.mark1, f.trailerMark, f.repeatMark, f.repeatSpace]
    ++ (if f.coding = .biphase then [] else [f.space0, f.space1])

/-- A window of legal form: its minimum no greater than its maximum and, when it is present, at least 1 (R33, DEDUCED:
log entry 10). -/
def Window.wellFormed (w : Window) : Bool := decide (w.lo ≤ w.hi) && (w.absent || decide (1 ≤ w.lo))

/-- Step 3: the form of the windows (R33). -/
def Format.windowsLegal (f : Format) : Bool :=
  f.examinedWindows.all Window.wellFormed &&
  (if f.coding = .biphase then
    f.headerMark.absent && f.headerSpace.absent && f.trailerMark.absent && decide (1 ≤ f.mark0.lo)
      && decide (f.mark0.hi < f.mark1.lo) && f.mark1.matches (2 * f.mark0.nominal)
  else
    (f.headerMark.absent == f.headerSpace.absent)
      && decide (1 ≤ f.mark0.lo ∧ 1 ≤ f.space0.lo ∧ 1 ≤ f.mark1.lo ∧ 1 ≤ f.space1.lo))

/-- Step 4: under PAIR the two bit values can be told apart (R34). -/
def Format.bitsDistinct (f : Format) : Bool :=
  decide (f.coding = .biphase) ||
  !(f.mark0.overlaps f.mark1 && (f.space0.overlaps f.space1 || f.trailerMark.absent))

/-- Step 5: the repeat fields (R35). -/
def Format.repeatFieldsLegal (f : Format) : Bool :=
  (decide (f.repeatKind ≠ .code) ||
    (decide (f.coding ≠ .biphase) && !f.repeatMark.absent && !f.repeatSpace.absent && !f.trailerMark.absent))
  && ((decide (f.repeatKind = .none) && !f.release) || decide (1 ≤ f.rw))

/-- Step 6: every space window below the idle threshold of each line the entry names (R36). -/
def Format.belowIdle (f : Format) (idleA idleB : Byte) : Bool :=
  (!f.lineA || f.spacesBelow idleA) && (!f.lineB || f.spacesBelow idleB)

/-- Step 7, first part: the carrier (R37). -/
def Format.carrierLegal (f : Format) : Bool :=
  decide (80 ≤ f.period ∧ f.period ≤ 1023) && decide (f.duty = 0 ∨ 10 ≤ f.duty ∧ f.duty ≤ 75)

/-- The seven steps in order: the code of the first that fails, or OK (R31 to R37). -/
def Format.validate (f : Format) (idleA idleB : Byte) : CommandResult :=
  if !f.codesLegal then .badCoding
  else if !f.bitCountsLegal then .badBits
  else if !f.windowsLegal then .badWindow
  else if !f.bitsDistinct then .ambiguous
  else if !f.repeatFieldsLegal then .badRepeat
  else if !f.belowIdle idleA idleB then .exceedsIdle
  else if !f.carrierLegal then .badCarrier
  else if f.txGap = 0 then .badTiming
  else .ok

/-- The result of validating entry `n` against the IDLE values as they now stand. -/
def State.validateEntry (s : State) (n : Fin 8) : CommandResult :=
  (s.format n).validate (s.fe.get .A).idle (s.fe.get .B).idle

/-- Make entry `n` ENABLED. -/
def State.makeEnabled (s : State) (n : Fin 8) : State := s.setEntry n { s.entries[n] with st := .enabled }

/-- The ENABLE FORMAT command (R31). -/
def State.enableFormat (s : State) : State × CommandResult :=
  match entryIndex s.win.arg.toNat with
  | none => (s, .badArg)
  | some n =>
    match s.entries[n].st with
    | .enabled => (s, .ok)
    | .retiring => (s, .busy)
    | .disabled => if s.validateEntry n = .ok then (s.makeEnabled n, .ok) else (s, s.validateEntry n)

/-- ENABLE_FORMAT (R31). -/
def execEnableFormat (s : State) : Host.Outcome State Fault Refusal := .next (s.command State.enableFormat)

/-- The DISABLE FORMAT command (R39). -/
def State.disableFormat (s : State) : State × CommandResult :=
  match entryIndex s.win.arg.toNat with
  | none => (s, .badArg)
  | some n =>
    match s.entries[n].st with
    | .disabled => (s.setArg 0, .ok)
    | .retiring => (s.setArg 2, .ok)
    | .enabled =>
      if s.entries[n].unheld then
        (((s.setEntry n { s.entries[n] with st := .disabled }).clearMemoriesNaming n).setArg 0, .ok)
      else ((s.setEntry n { s.entries[n] with st := .retiring }).setArg 2, .ok)

/-- DISABLE_FORMAT (R39). -/
def execDisableFormat (s : State) : Host.Outcome State Fault Refusal := .next (s.command State.disableFormat)

end Sys2Proof.Machine
end

