-- ==== Sys2Proof/Machine/FrontEnd.lean ====
section
/-! DEFINITION. The line front ends (section 1): the glitch filter, element measurement, thresholds, enable and disable,
the line registers, blanking, and the part of the lines in entering and leaving DORMANT. -/

namespace Sys2Proof.Machine

open Sys2Proof (Byte Time Payload Line)

/-- Whether the raw level at the input is the line's active level (R1, section 1.2). -/
def FrontEnd.active (f : FrontEnd) : Bool := f.level != f.polarity

/-- Whether a burst is in progress: MARK or SPACE and no other state (section 1.1). -/
def FrontEnd.inBurst (f : FrontEnd) : Bool := decide (f.st = .mark ∨ f.st = .space)

/-- Whether ENABLE is 1. -/
def FrontEnd.enabled (f : FrontEnd) : Bool := decide (f.st ≠ .off)

/-- Whether the set of blanking holders is not empty (R12). -/
def FrontEnd.blankingHeld (f : FrontEnd) : Bool := f.txHold || f.guardHold.isSome

/-- The idle threshold of the stored IDLE value, in ticks (section 1.1). -/
def FrontEnd.idleThreshold (f : FrontEnd) : Nat := Config.hundredUs f.idle.toNat

/-- Enter SETTLE at the instant `now`: a SETTLE wait begins, counting from now when the input is inactive and from the next
accepted inactive edge when it is active (R5). The wait keeps the threshold in force now, whenever its count begins (R2; log
entry 23). -/
def FrontEnd.enterSettle (f : FrontEnd) (now : Nat) : FrontEnd :=
  { f with
    st := .settle
    test := none
    wait := if f.active then none else some now
    threshold := f.idleThreshold }

/-- The instant at which the threshold of the present state is reached: the idle threshold in SPACE and in a counting SETTLE
wait, 65535 µs in MARK (R4). -/
def FrontEnd.thresholdInstant (f : FrontEnd) : Option Nat :=
  match f.st with
  | .space => some (f.since + f.threshold)
  | .settle => f.wait.map (· + f.threshold)
  | .mark => some (f.since + Config.us Config.stuckMark)
  | _ => none

/-- The duration of an interval between two instants in whole µs, any fraction dropped, 0 reported as 1 (R3). -/
def duration (since till : Nat) : Nat := max 1 ((till - since) / Config.ticksPerMicrosecond)

/-- Act on the threshold of the present state: BURST END in SPACE (R8), IDLE in SETTLE (R5), STUCK with its abort, FAULT
and LINEFAULT in MARK (R10). -/
def State.actOnThreshold (s : State) (l : Line) : State :=
  match (s.fe.get l).st with
  | .space => (s.setFe l { s.fe.get l with st := .idle }).sendNotice l (.burstEnd s.clock.time)
  | .settle => s.setFe l { s.fe.get l with st := .idle }
  | .mark => ((s.setFe l { s.fe.get l with st := .stuck, fault := true }).sendNotice l (.burstAbort .stuck)).setLineFault
  | _ => s

/-- Whether the threshold of the present state has been reached and no glitch test withholds the decision (R4). -/
def State.thresholdPassed (s : State) (l : Line) : Bool :=
  (s.fe.get l).test.isNone &&
  match (s.fe.get l).thresholdInstant with
  | none => false
  | some t => decide (t ≤ s.clock.now)

/-- Act on a threshold that has been passed (R4). -/
def State.settleThreshold (s : State) (l : Line) : State := if s.thresholdPassed l then s.actOnThreshold l else s

/-- Accept the tested edge `g` of line `l`, by its line state (R5 to R7, R10, R15, Table 1-3). An edge that ends or begins the count
of a SETTLE wait leaves the threshold that the wait has kept since the line entered SETTLE (log entry 23). -/
def State.acceptEdge (s : State) (l : Line) (g : GlitchTest) : State :=
  match (s.fe.get l).st with
  | .idle =>
    (s.setFe l { s.fe.get l with st := .mark, test := none, since := g.edge }).sendNotice l (.burstStart s.clock.time)
  | .mark =>
    (s.setFe l { s.fe.get l with st := .space, test := none, since := g.edge, threshold := g.threshold }).sendNotice l
      (.element .mark (duration (s.fe.get l).since g.edge))
  | .space =>
    (s.setFe l { s.fe.get l with st := .mark, test := none, since := g.edge }).sendNotice l
      (.element .space (duration (s.fe.get l).since g.edge))
  | .settle =>
    s.setFe l { s.fe.get l with test := none, wait := if (s.fe.get l).wait.isSome then none else some g.edge }
  | .stuck =>
    s.setFe l { s.fe.get l with st := .settle, test := none, wait := some g.edge, threshold := g.threshold }
  | .watch =>
    (s.setFe l { s.fe.get l with test := none }).setLink l
      { s.link.get l with wakeEdges := (s.link.get l).wakeEdges + 1 }
  | _ => s

/-- The instant at which the level under test has held for GLITCH µs (R3). -/
def FrontEnd.acceptInstant (f : FrontEnd) (g : GlitchTest) : Nat := g.edge + Config.us f.glitch.toNat

/-- Accept an edge whose level has by now held for GLITCH µs (R3). -/
def State.settleTest (s : State) (l : Line) : State :=
  match (s.fe.get l).test with
  | none => s
  | some g => if (s.fe.get l).acceptInstant g ≤ s.clock.now then s.acceptEdge l g else s

/-- What the passing of time has already brought about on `l`: a threshold passed with no test running, a tested level that
has held, and a threshold passed by the interval which that edge began. A raw edge is judged after these (log entry 4). -/
def State.catchUp (s : State) (l : Line) : State := ((s.settleThreshold l).settleTest l).settleThreshold l

/-- Reject the tested edge: both edges are ignored, and a threshold passed meanwhile is acted on now (R3, R4). -/
def State.rejectEdge (s : State) (l : Line) : State :=
  (s.setFe l { s.fe.get l with test := none }).settleThreshold l

/-- Start a glitch test of the new level; with GLITCH 0 the edge is accepted at its own instant (R3). -/
def State.startTest (s : State) (l : Line) : State :=
  (s.setFe l { s.fe.get l with test := some ⟨s.clock.now, (s.fe.get l).idleThreshold⟩ }).settleTest l

/-- The raw level at the input of `l` changes at the present instant (R3, R15). -/
def State.rawEdge (s : State) (l : Line) : State :=
  match (s.fe.get l).st with
  | .off | .blanked | .parked => s.setFe l { s.fe.get l with level := !(s.fe.get l).level }
  | .watch =>
    if (s.fe.get l).active then s.setFe l { s.fe.get l with level := !(s.fe.get l).level, test := none }
    else (s.setFe l { s.fe.get l with level := !(s.fe.get l).level }).startTest l
  | .settle | .idle | .mark | .space | .stuck =>
    if (s.fe.get l).test.isSome then (s.setFe l { s.fe.get l with level := !(s.fe.get l).level }).rejectEdge l
    else (s.setFe l { s.fe.get l with level := !(s.fe.get l).level }).startTest l

/-- RX_EDGE (R3, R4, R15): `dt` ticks on, the raw level at the input of `l` changes. -/
def execRxEdge (l : Line) (dt : Nat) (s : State) : Host.Outcome State Fault Refusal :=
  .next (((s.elapse dt).catchUp l).rawEdge l)

/-- GLITCH_TEST_ACCEPT (R3): the clock reaches the end of the test on `l`, and the edge is accepted. Without a test in
progress the event does not occur. -/
def execGlitchTestAccept (l : Line) (s : State) : Host.Outcome State Fault Refusal :=
  match (s.fe.get l).test with
  | none => .next s
  | some g => .next ((s.reachInstant ((s.fe.get l).acceptInstant g)).acceptEdge l g)

/-- The clock reaches the threshold of the state `st` of line `l`, and the front end acts on it. In another state, in a
SETTLE wait that does not count, or while a glitch test withholds the decision (R4), the event does not occur. -/
def State.thresholdEvent (s : State) (l : Line) (st : LineState) : State :=
  match (s.fe.get l).thresholdInstant with
  | none => s
  | some t =>
    if (s.fe.get l).st = st ∧ (s.fe.get l).test = none then (s.reachInstant t).actOnThreshold l else s

/-- SETTLE_WAIT_END (R5). -/
def execSettleWaitEnd (l : Line) (s : State) : Host.Outcome State Fault Refusal := .next (s.thresholdEvent l .settle)

/-- BURST_END (R8). -/
def execBurstEnd (l : Line) (s : State) : Host.Outcome State Fault Refusal := .next (s.thresholdEvent l .space)

/-- STUCK (R10). -/
def execStuck (l : Line) (s : State) : Host.Outcome State Fault Refusal := .next (s.thresholdEvent l .mark)

/-! ### The line registers (R1, R2, R5, R11, R16) -/

/-- Enable an OFF line: SETTLE, or BLANKED when it has blanking holders (R5). -/
def State.enableLine (s : State) (l : Line) : State :=
  if (s.fe.get l).blankingHeld then s.setFe l { s.fe.get l with st := .blanked }
  else s.setFe l ((s.fe.get l).enterSettle s.clock.now)

/-- Whether a notice is BURST START. -/
def Notice.opensBurst : Notice → Bool
  | .burstStart _ => true
  | .element _ _ => false
  | .burstEnd _ => false
  | .burstAbort _ => false

/-- How many bursts have begun on `l` whose outcome its repeat unit has yet to take: the one its decoder has in hand until
that outcome has been taken (R67), and those whose BURST START is still on its way. -/
def State.burstsAhead (s : State) (l : Line) : Nat :=
  (if (s.dec.get l).st = .wait then 0 else 1) + (s.link.get l).toDecoder.countP Notice.opensBurst

/-- The repeat unit of `l` is asked to expire its memory at once (R11). -/
def State.requestExpiry (s : State) (l : Line) : State :=
  s.setLink l { s.link.get l with expireRequests := (s.link.get l).expireRequests ++ [s.burstsAhead l] }

/-- Send BURST ABORT when a burst is in progress on `l` (R9). -/
def State.abortBurst (s : State) (l : Line) (why : AbortReason) : State :=
  if (s.fe.get l).inBurst then s.sendNotice l (.burstAbort why) else s

/-- Disable an enabled line (R11): a burst in progress is aborted, the line enters OFF, and the repeat unit is asked to
expire its memory. -/
def State.disableLine (s : State) (l : Line) : State :=
  (((s.abortBurst l .disabled).setFe l { s.fe.get l with st := .off, test := none })).requestExpiry l

/-- Write a line's CONTROL register, field by field (R1). -/
def State.writeControl (l : Line) (v : Byte) (s : State) : State :=
  if (s.fe.get l).enabled then
    let s' := if v.getLsbD 0 then s else s.disableLine l
    if v.getLsbD 1 = (s.fe.get l).polarity then s' else s'.refuseAccess
  else
    let s' := s.setFe l { s.fe.get l with polarity := v.getLsbD 1 }
    if v.getLsbD 0 then s'.enableLine l else s'

/-- LINE_ENABLE (R1, R5): CONTROL is written with ENABLE 1. -/
def execLineEnable (l : Line) (v : Byte) (s : State) : Host.Outcome State Fault Refusal :=
  .next (s.registerAccess (State.writeControl l v))

/-- LINE_DISABLE (R1, R11): CONTROL is written with ENABLE 0. -/
def execLineDisable (l : Line) (v : Byte) (s : State) : Host.Outcome State Fault Refusal :=
  .next (s.registerAccess (State.writeControl l v))

/-- Whether an ENABLED or RETIRING entry that names `l` has a space window that reaches `v` units of 100 µs (R2). -/
def State.idleReached (s : State) (l : Line) (v : Byte) : Bool :=
  allEntries.any fun n =>
    decide (s.entries[n].st ≠ .disabled) && (s.format n).namesLine l && !(s.format n).spacesBelow v

/-- Write a line's IDLE register (R2). -/
def State.writeIdle (l : Line) (v : Byte) (s : State) : State :=
  if v = 0 ∨ s.idleReached l v then s.refuseAccess else s.setFe l { s.fe.get l with idle := v }

/-- IDLE_WRITE (R2). -/
def execIdleWrite (l : Line) (v : Byte) (s : State) : Host.Outcome State Fault Refusal :=
  .next (s.registerAccess (State.writeIdle l v))

/-- Write a line's GLITCH register: taken while the line is disabled, refused while it is enabled (R1). -/
def State.writeGlitch (l : Line) (v : Byte) (s : State) : State :=
  if (s.fe.get l).enabled then s.refuseAccess else s.setFe l { s.fe.get l with glitch := v }

/-- Write a line's STATUS register: a 1 in the FAULT bit clears FAULT, nothing else has an effect (R16). -/
def State.writeLineStatus (l : Line) (v : Byte) (s : State) : State :=
  if v.getLsbD 7 then s.setFe l { s.fe.get l with fault := false } else s

/-- FAULT_CLEAR (R16). -/
def execFaultClear (l : Line) (v : Byte) (s : State) : Host.Outcome State Fault Refusal :=
  .next (s.registerAccess (State.writeLineStatus l v))

/-! ### Blanking (R12, R13) -/

/-- What taking a hold does to the line, by its state (R12). -/
def LineState.underHold : LineState → LineState
  | .off => .off
  | .parked => .parked
  | .watch => .watch
  | .settle | .idle | .stuck | .mark | .space | .blanked => .blanked

/-- The transmitter takes a blanking hold on `l` (R12, R136), and a guard hold on the line ends at the same instant
(R153). -/
def State.takeBlanking (s : State) (l : Line) : State :=
  (s.abortBurst l .blanked).setFe l { s.fe.get l with
    st := (s.fe.get l).st.underHold
    txHold := true
    guardHold := none
    test := if (s.fe.get l).st.underHold = .blanked then none else (s.fe.get l).test }

/-- A BLANKED line whose set of holders is empty enters SETTLE (R13). -/
def State.unblank (s : State) (l : Line) : State :=
  if (s.fe.get l).st = .blanked ∧ ¬ (s.fe.get l).blankingHeld then
    s.setFe l ((s.fe.get l).enterSettle s.clock.now)
  else s

/-- The guard timer gives up its hold on `l` (R13, R152). -/
def State.endGuardHold (s : State) (l : Line) : State := (s.setFe l { s.fe.get l with guardHold := none }).unblank l

/-- At a job's end at the instant `t`, the transmitter's hold on `l` passes to the guard timer for GUARD × 100 µs; with
GUARD 0 the guard timer gives it up at once (R13, R145, R152). -/
def State.passToGuard (s : State) (t : Nat) (l : Line) : State :=
  if (s.fe.get l).txHold then
    (s.setFe l { s.fe.get l with
      txHold := false
      guardHold := if s.tx.guardSetting = 0 then none else some (t + Config.hundredUs s.tx.guardSetting.toNat) }).unblank l
  else s

/-- GUARD_HOLD_END (R152): the clock reaches the end instant of the guard hold on `l`. -/
def execGuardHoldEnd (l : Line) (s : State) : Host.Outcome State Fault Refusal :=
  match (s.fe.get l).guardHold with
  | none => .next s
  | some t => .next ((s.reachInstant t).endGuardHold l)

/-! ### The lines in DORMANT (R14, R15) -/

/-- ENTER DORMANT on one line: the guard hold ends, a burst in progress is aborted, and an enabled line enters WATCH when
the edge mask names it and PARKED when not (R14, R154). -/
def State.parkLine (s : State) (named : Bool) (l : Line) : State :=
  (s.abortBurst l .dormant).setFe l
    (if (s.fe.get l).enabled then
      { s.fe.get l with guardHold := none, test := none, st := if named then .watch else .parked }
    else { s.fe.get l with guardHold := none })

/-- Leaving DORMANT on one line: an enabled line enters SETTLE (R15). -/
def State.unparkLine (s : State) (l : Line) : State :=
  if (s.fe.get l).enabled then s.setFe l ((s.fe.get l).enterSettle s.clock.now) else s

end Sys2Proof.Machine
end

