-- ==== Sys2Proof/Machine/Decoder.lean ====
section
/-! DEFINITION. The decoders (section 3): the candidate set, element classification under PAIR and BIPHASE, the end of a
burst, the check, the hand-offs, and abort handling. -/

namespace Sys2Proof.Machine

open Sys2Proof (Byte Time Payload Line)

/-! ### Candidates (sections 3.2 to 3.5) -/

/-- A FRAME candidate as it is formed (R44): HEADER if the entry has a header, BITS if it has none, CELLS under BIPHASE,
with the invisible first half of the start cell open. -/
def newFrameCandidate (n : Fin 8) (f : Format) : Candidate where
  entry := n
  kind := .frame
  phase := if f.coding = .biphase then .cells else if f.headerMark.absent then .bits else .header
  pendingMark := none
  openHalf := some .space
  startCellDone := false
  bits := []

/-- A REPEAT candidate as it is formed (R44). -/
def newRepeatCandidate (n : Fin 8) : Candidate where
  entry := n
  kind := .repeated
  phase := .lead
  pendingMark := none
  openHalf := some .space
  startCellDone := false
  bits := []

/-- The candidates an entry gives a burst on `l`: none unless it is ENABLED and names the line; else one FRAME candidate,
and one REPEAT candidate when REPEAT KIND is CODE (R43). -/
def State.candidatesOf (s : State) (l : Line) (n : Fin 8) : List Candidate :=
  if s.entries[n].st = .enabled ∧ (s.format n).namesLine l then
    newFrameCandidate n (s.format n) :: (if (s.format n).repeatKind = .code then [newRepeatCandidate n] else [])
  else []

/-- Append a bit unless the bit count has already reached MAX BITS, which removes the candidate (R49, R57). -/
def Candidate.addBit (f : Format) (c : Candidate) (b : Bool) : Option Candidate :=
  if f.maxBits ≤ c.bits.length then none else some { c with bits := c.bits ++ [b] }

/-- The bit a mark and the space after it stand for, if any (R49). -/
def Format.pairBit (f : Format) (m d : Nat) : Option Bool :=
  if f.mark0.matches m ∧ f.space0.matches d then some false
  else if f.mark1.matches m ∧ f.space1.matches d then some true
  else none

/-- Place one half-cell (R56, R57). -/
def Candidate.placeHalf (f : Format) (c : Candidate) (lvl : Level) : Option Candidate :=
  match c.openHalf with
  | none => some { c with openHalf := some lvl }
  | some h =>
    if h = lvl then none
    else if c.startCellDone then
      Candidate.addBit f { c with openHalf := none } (decide (h = .space))
    else some { c with openHalf := none, startCellDone := true }

/-- A PAIR candidate takes MARK(d): the mark is held as the pending mark (R47, R48, R53). -/
def Candidate.takeMark (c : Candidate) (d : Nat) : Candidate := { c with pendingMark := some d }

/-- A PAIR candidate takes SPACE(d) with the pending mark `m`; none removes it (R47, R49, R53). -/
def Candidate.takePair (f : Format) (c : Candidate) (m d : Nat) : Option Candidate :=
  match c.phase with
  | .header =>
    if f.headerMark.matches m ∧ f.headerSpace.matches d then some { c with phase := .bits, pendingMark := none } else none
  | .bits =>
    match f.pairBit m d with
    | none => none
    | some b => Candidate.addBit f { c with pendingMark := none } b
  | .lead =>
    if f.repeatMark.matches m ∧ f.repeatSpace.matches d then some { c with phase := .tail, pendingMark := none } else none
  | .tail => none
  | .cells => none

/-- A BIPHASE candidate takes an element: one half-cell in the T window, two in the 2T window, removal otherwise (R55). -/
def Candidate.takeCells (f : Format) (c : Candidate) (lvl : Level) (d : Nat) : Option Candidate :=
  if f.mark0.matches d then c.placeHalf f lvl
  else if f.mark1.matches d then (c.placeHalf f lvl).bind fun c => c.placeHalf f lvl
  else none

/-- A candidate takes an element; none removes it (R45). -/
def Candidate.take (f : Format) (c : Candidate) (lvl : Level) (d : Nat) : Option Candidate :=
  if c.phase = .cells then c.takeCells f lvl d
  else match lvl with
    | .mark => some (c.takeMark d)
    | .space => c.pendingMark.bind fun m => c.takePair f m d

/-- Whether a bit count lies in MIN BITS to MAX BITS. -/
def Format.countInRange (f : Format) (n : Nat) : Bool := decide (f.minBits ≤ n ∧ n ≤ f.maxBits)

/-- The bits, if their number lies in range. -/
def Format.complete (f : Format) (bits : List Bool) : Option (List Bool) :=
  if f.countInRange bits.length then some bits else none

/-- A PAIR frame candidate in BITS at BURST END, with the pending mark `m`: the mark is the trailer, or with no trailer it
decides the last bit (R50, R51). -/
def Candidate.endBits (f : Format) (c : Candidate) (m : Nat) : Option (List Bool) :=
  if f.trailerMark.absent then
    if f.maxBits ≤ c.bits.length then none
    else if f.mark0.matches m then f.complete (c.bits ++ [false])
    else if f.mark1.matches m then f.complete (c.bits ++ [true])
    else none
  else if f.trailerMark.matches m then f.complete c.bits
  else none

/-- A BIPHASE candidate at BURST END: an active open half is closed with the idle level and gives bit 0 (R58). -/
def Candidate.endCells (f : Format) (c : Candidate) : Option (List Bool) :=
  match c.openHalf with
  | some .mark => (c.placeHalf f .space).bind fun c => f.complete c.bits
  | _ => f.complete c.bits

/-- The end test: the bits of a complete candidate (none for a REPEAT), or nothing when it is incomplete (R60). -/
def Candidate.endTest (f : Format) (c : Candidate) : Option (List Bool) :=
  match c.phase with
  | .header => none
  | .bits => c.pendingMark.bind fun m => c.endBits f m
  | .lead => none
  | .tail => c.pendingMark.bind fun m => if f.trailerMark.matches m then some [] else none
  | .cells => c.endCells f

/-! ### Payload and check (R24, R59, R63) -/

/-- The number whose binary digits are the bits, the first least significant. -/
def natOfBits : List Bool → Nat
  | [] => 0
  | b :: bs => b.toNat + 2 * natOfBits bs

/-- The payload of a frame's arrival bits: bit `bi` is payload bit `i` under LSB FIRST and payload bit `n-1-i` under MSB
FIRST (R59). -/
def payloadOf (msbFirst : Bool) (bits : List Bool) : Payload :=
  BitVec.ofNat 64 (natOfBits (if msbFirst then bits.reverse else bits))

/-- Whether every byte at an odd index is the complement of the byte before it, over `n` bits (R24). -/
def invertedPairsHold (p : Payload) (n : Nat) : Bool :=
  decide (n % 16 = 0) && (List.range (n / 16)).all fun k => Payload.byte p (2 * k + 1) == ~~~(Payload.byte p (2 * k))

/-- Whether a frame of these arrival bits passes the CHECK of its entry (R63). -/
def Format.passesCheck (f : Format) (bits : List Bool) : Bool :=
  match f.check with
  | .none => true
  | .invertedPairs => invertedPairsHold (payloadOf f.msbFirst bits) bits.length
  | .evenParity => decide (bits.count true % 2 = 0)
  | .oddParity => decide (bits.count true % 2 = 1)

/-! ### The end of a burst (section 3.7) -/

/-- The bits of the complete FRAME candidate of entry `n`, if there is one. -/
def State.completeFrame (s : State) (cs : List Candidate) (n : Fin 8) : Option (List Bool) :=
  cs.findSome? fun c => if c.entry = n ∧ c.kind = .frame then c.endTest (s.format n) else none

/-- Whether entry `n` has a complete REPEAT candidate. -/
def State.completeRepeat (s : State) (cs : List Candidate) (n : Fin 8) : Bool :=
  cs.any fun c => decide (c.entry = n ∧ c.kind = .repeated) && (c.endTest (s.format n)).isSome

/-- Whether a complete REPEAT candidate of entry `n` in a burst started at `start` is a valid repeat of the memory of `l`,
and not an orphan (R61). -/
def State.validRepeat (s : State) (l : Line) (n : Fin 8) (start : Time) : Bool :=
  match (s.rep.get l).memory with
  | none => false
  | some m => decide (m.entry = n) && Time.within (s.format n).rw m.lastEnd start

/-- What entry `n` puts forward for the winner choice: its FRAME if that is complete, else its valid repeat (R62). -/
def State.contender (s : State) (l : Line) (d : Decoder) (stop : Time) (n : Fin 8) : Option BurstOutcome :=
  match s.completeFrame d.candidates n with
  | some bits =>
    some (.frame n bits.length (payloadOf (s.format n).msbFirst bits) (!(s.format n).passesCheck bits) d.start stop)
  | none =>
    if s.completeRepeat d.candidates n && s.validRepeat l n d.start then some (.repeated n d.start stop) else none

/-- The outcome of a burst that ends at `stop`: the winner is the contender of the lowest entry index; with none, an orphan
repeat if some REPEAT candidate is complete, else unmatched (R62, R64). In STOPPED the outcome is UNMATCHED (R46). -/
def State.burstOutcome (s : State) (l : Line) (d : Decoder) (stop : Time) : BurstOutcome :=
  if d.st ≠ .active then .unmatched d.start stop
  else match allEntries.findSome? (s.contender l d stop) with
  | some o => o
  | none => if allEntries.any (s.completeRepeat d.candidates) then .orphan d.start stop else .unmatched d.start stop

/-- The report an outcome makes to the capture unit (R66). -/
def BurstOutcome.report : BurstOutcome → Report
  | .frame _ _ _ _ _ _ => .matched
  | .repeated _ _ _ => .matched
  | .orphan _ _ => .matched
  | .unmatched _ _ => .unmatched
  | .aborted _ => .aborted

/-- The frame an outcome offers to the power unit in LISTEN: a good FRAME and nothing else (R65). -/
def BurstOutcome.offer : BurstOutcome → List Offer
  | .frame n bits p false _ _ => [⟨n, bits, p⟩]
  | _ => []

/-- Hand an outcome to the repeat unit, report it to the capture unit and, in LISTEN, offer a good frame (R64 to R66). The
decoder keeps its candidates and its holds until the repeat unit has taken the outcome (R67; log entry 7). -/
def State.handOver (s : State) (l : Line) (o : BurstOutcome) : State :=
  s.setLink l { s.link.get l with
    outcome := some o
    reports := (s.link.get l).reports ++ [o.report]
    offers := (s.link.get l).offers ++ (if s.pow.st = .listen then o.offer else []) }

/-- The decoder of `l` gives up its hold on every entry that still has a candidate, empties its set and returns to WAIT
(R67, R68). -/
def State.finishBurst (s : State) (l : Line) : State :=
  (s.setDec l { s.dec.get l with st := .wait, candidates := [] }).leaveHolders (.decoder l)
    (((s.dec.get l).candidates.map (·.entry)).dedup)

/-! ### The decoder's events -/

/-- Take the oldest notice off the decoder's link. -/
def State.dropDecoderNotice (s : State) (l : Line) : State :=
  s.setLink l { s.link.get l with toDecoder := (s.link.get l).toDecoder.tail }

/-- A burst has opened on `l`: the repeat unit sets OPEN (R72). In DORMANT the mark stays clear (R86). -/
def State.openBurst (s : State) (l : Line) : State :=
  s.setRep l { s.rep.get l with opened := decide (s.pow.st ≠ .dormant) || (s.rep.get l).opened }

/-- The decoder of `l` forms its candidate set for a burst started at `t`, joins the holder set of every entry in it, and
moves to ACTIVE, or to STOPPED when the set is empty (R42, R43). -/
def State.formCandidates (s : State) (l : Line) (t : Time) : State :=
  let cs := allEntries.flatMap (s.candidatesOf l)
  (cs.map (·.entry)).dedup.foldl (fun s n => s.joinHolder (.decoder l) n)
    (s.setDec l ⟨if cs.isEmpty then .stopped else .active, t, cs⟩)

/-- The outcome handed over is the decoder's unfinished handling of the last notice; while it stands, the decoder takes no
notice (R42). -/
def State.decoderBusy (s : State) (l : Line) : Bool := (s.link.get l).outcome.isSome

/-- The notice the decoder of `l` may take now: the oldest one sent, unless its handling of the last is unfinished. -/
def State.decoderNotice (s : State) (l : Line) : Option Notice :=
  if s.decoderBusy l then none else (s.link.get l).toDecoder.head?

/-- Offer an element to every candidate of the decoder of `l`: the removed ones go, the decoder leaves the holder set of
every entry whose last candidate went, and it moves to STOPPED when the set empties (R42, R45). -/
def State.offerElement (s : State) (l : Line) (lvl : Level) (d : Nat) : State :=
  let old := (s.dec.get l).candidates
  let cs := old.filterMap fun c => c.take (s.format c.entry) lvl d
  let gone := ((old.map (·.entry)).dedup).filter fun n => !(cs.any fun c => c.entry = n)
  (s.setDec l { s.dec.get l with st := if cs.isEmpty then .stopped else .active, candidates := cs }).leaveHolders
    (.decoder l) gone

/-- Whether a notice reaches the decoder in a state that takes it: BURST START in WAIT, every other notice in ACTIVE and
STOPPED (R42). -/
def Decoder.accepts (d : Decoder) : Notice → Bool
  | .burstStart _ => decide (d.st = .wait)
  | .element _ _ => decide (d.st ≠ .wait)
  | .burstEnd _ => decide (d.st ≠ .wait)
  | .burstAbort _ => decide (d.st ≠ .wait)

/-- What the decoder of `l` does with a notice it accepts: it forms its candidate set; offers the element, which in STOPPED
it ignores; settles the burst; or discards every candidate untested (R42, R43, R45, R46, R60 to R66, R68). -/
def State.actOnNotice (s : State) (l : Line) : Notice → State
  | .burstStart t => (s.openBurst l).formCandidates l t
  | .element lvl d => if (s.dec.get l).st = .active then s.offerElement l lvl d else s
  | .burstEnd t => s.handOver l (s.burstOutcome l (s.dec.get l) t)
  | .burstAbort _ => s.handOver l (.aborted (s.dec.get l).start)

/-- The decoder of `l` takes its oldest notice `n`. One that it does not accept is left where it is. -/
def State.takeNotice (s : State) (l : Line) (n : Notice) : State :=
  if (s.dec.get l).accepts n then (s.dropDecoderNotice l).actOnNotice l n else s

/-- DECODER_BURST_START (R42, R43): a decoder in WAIT takes BURST START. When the oldest notice is no BURST START, or the
decoder is not in WAIT, the event does not occur. -/
def execDecoderBurstStart (l : Line) (s : State) : Host.Outcome State Fault Refusal :=
  match s.decoderNotice l with
  | some (.burstStart t) => .next (s.takeNotice l (.burstStart t))
  | _ => .next s

/-- DECODER_ELEMENT (R42, R46): in ACTIVE the element is offered to every candidate; in STOPPED it is taken and ignored. No
element reaches a decoder in WAIT. -/
def execDecoderElement (l : Line) (s : State) : Host.Outcome State Fault Refusal :=
  match s.decoderNotice l with
  | some (.element lvl d) => .next (s.takeNotice l (.element lvl d))
  | _ => .next s

/-- DECODER_BURST_END (R60 to R66): the end tests, the orphan set-aside, the winner choice and the check give the outcome,
which is handed over; in STOPPED the set is empty and the outcome is UNMATCHED (R46). No BURST END reaches a decoder in
WAIT (R42). -/
def execDecoderBurstEnd (l : Line) (s : State) : Host.Outcome State Fault Refusal :=
  match s.decoderNotice l with
  | some (.burstEnd t) => .next (s.takeNotice l (.burstEnd t))
  | _ => .next s

/-- DECODER_BURST_ABORT (R68): every candidate is discarded untested and the outcome ABORTED is handed over. No
BURST ABORT reaches a decoder in WAIT (R42). -/
def execDecoderBurstAbort (l : Line) (s : State) : Host.Outcome State Fault Refusal :=
  match s.decoderNotice l with
  | some (.burstAbort why) => .next (s.takeNotice l (.burstAbort why))
  | _ => .next s

end Sys2Proof.Machine
end

