-- ==== Sys2Proof/Machine/Repeat.lean ====
section
/-! DEFINITION. The repeat units (section 4): taking an outcome, counting repeats, the due instant and the expiry
request. -/

namespace Sys2Proof.Machine

open Sys2Proof (Byte Time Payload Line)

/-- Whether an outcome is a repeat of a memory: a REPEAT of the memory's entry (R76), or a good FRAME that R74 finds to be
one. -/
def State.isRepeatOf (s : State) (m : LastFrame) : BurstOutcome → Bool
  | .frame n bits p false start _ =>
    decide (m.entry = n ∧ (s.format n).repeatKind = .same ∧ m.bits = bits ∧ m.payload = p)
      && Time.within (s.format n).rw m.lastEnd start
  | .frame _ _ _ true _ _ => false
  | .repeated n _ _ => decide (m.entry = n)
  | .orphan _ _ => false
  | .unmatched _ _ => false
  | .aborted _ => false

/-- The memory an outcome repeats, if it repeats the memory of `l`. -/
def State.repeatedMemory (s : State) (l : Line) (o : BurstOutcome) : Option LastFrame :=
  (s.rep.get l).memory.filter fun m => s.isRepeatOf m o

/-- The start time an outcome carries (R64). -/
def BurstOutcome.start : BurstOutcome → Time
  | .frame _ _ _ _ t _ => t
  | .repeated _ t _ => t
  | .orphan t _ => t
  | .unmatched t _ => t
  | .aborted t => t

/-- The end time an outcome carries; ABORTED carries none (R64). -/
def BurstOutcome.stop : BurstOutcome → Time
  | .frame _ _ _ _ _ t => t
  | .repeated _ _ t => t
  | .orphan _ t => t
  | .unmatched _ t => t
  | .aborted t => t

/-- The FRAME record of a frame (R79). -/
def frameRecord (l : Line) (n : Fin 8) (bits : Nat) (p : Payload) (checkFailed : Bool) (start : Time) : Record where
  kind := .frame
  line := l
  format := n
  bits := bits
  payload := p
  repeats := 0
  check := checkFailed
  loss := false
  lost := 0
  stamp := start
  referred := false

/-- The REPEAT record of a repeat of a memory (R78, R79). -/
def repeatRecord (l : Line) (m : LastFrame) (start : Time) : Record where
  kind := .repeated
  line := l
  format := m.entry
  bits := m.bits
  payload := m.payload
  repeats := 1
  check := false
  loss := false
  lost := 0
  stamp := start
  referred := false

/-- The memory after a repeat whose burst ended at `stop` (R76). -/
def LastFrame.counted (m : LastFrame) (stop : Time) : LastFrame :=
  { m with repeats := bump Config.countCap m.repeats, lastEnd := stop }

/-- Fill the memory of `l` with `m`: no expiry is pending, and the new memory falls due at its own instant (R75, R76, R82). -/
def State.setMemory (s : State) (l : Line) (m : LastFrame) : State :=
  s.setRep l { s.rep.get l with
    memory := some m
    due := false
    dueReached := m.isDue (s.format m.entry).rw s.clock.time }

/-- A repeat of the memory `m` of `l` (R76 to R78): it is counted in the memory, and the receive queue is asked to count it
into the referenced record, or to take a REPEAT record; under COALESCE the request is decided when the queue takes it. -/
def State.countRepeat (s : State) (l : Line) (m : LastFrame) (o : BurstOutcome) : State :=
  (s.setMemory l (m.counted o.stop)).sendPost l
    ⟨repeatRecord l m o.start, (s.format m.entry).coalesce, (s.format m.entry).coalesce⟩

/-- Post the RELEASE record of the memory of `l`, if it holds a frame with its RELEASE flag set, on replacement (R75). -/
def State.releaseOld (s : State) (l : Line) : State :=
  match (s.rep.get l).memory with
  | none => s
  | some m => s.postRelease l m

/-- A new frame (R75): the RELEASE of the old frame if its flag is set, the FRAME record, and the memory replaced, with the
old reference dropped and the FRAME record as the new one under COALESCE. -/
def State.newFrame (s : State) (l : Line) (n : Fin 8) (bits : Nat) (p : Payload) (start stop : Time) : State :=
  ((((s.releaseOld l).dropReference l).sendPost l
      ⟨frameRecord l n bits p false start, false, (s.format n).coalesce⟩).setMemory l
    ⟨n, bits, p, stop, 0, (s.format n).release⟩)

/-- Act on an outcome that repeats nothing (R73, R75): a new frame, a CHECK frame posted, or nothing. -/
def State.takeOther (s : State) (l : Line) : BurstOutcome → State
  | .frame n bits p false start stop => s.newFrame l n bits p start stop
  | .frame n bits p true start _ => s.sendPost l ⟨frameRecord l n bits p true start, false, false⟩
  | .repeated _ _ _ => s
  | .orphan _ _ => s
  | .unmatched _ _ => s
  | .aborted _ => s

/-- The repeat unit of `l` takes an outcome (R73 to R78, R84): an expiry that fell due during the burst is settled first. -/
def State.takeOutcome (s : State) (l : Line) (o : BurstOutcome) : State :=
  match s.repeatedMemory l o with
  | some m => s.countRepeat l m o
  | none => (if (s.rep.get l).due then s.expireMemory l else s).takeOther l o

/-- OPEN is cleared when the outcome of the burst has been taken (R72). -/
def State.closeBurst (s : State) (l : Line) : State := s.setRep l { s.rep.get l with opened := false }

/-- Whether the memory of `l` stays empty whatever outcome is taken next: in DORMANT (R86); for a burst that began before the
line was disabled, from the request to expire on, whether or not the line has been enabled again; and on an OFF line whose
request has been taken (R85; log entry 22). -/
def State.staysEmpty (s : State) (l : Line) : Bool :=
  decide (s.pow.st = .dormant ∨ 0 < (s.link.get l).oldBursts ∨
    ((s.fe.get l).st = .off ∧ (s.link.get l).expireRequests = []))

/-- The link after the repeat unit has taken the outcome handed to it: one burst less is still to be taken of those that had
begun at a disable. -/
def Links.dropOutcome (k : Links) : Links :=
  { k with outcome := none, expireRequests := k.expireRequests.map (· - 1), oldBursts := k.oldBursts - 1 }

/-- The repeat unit of `l` takes the outcome handed to it, if there is one, and clears OPEN; the decoder, whose hand-off is
now complete, gives up its holds, and a retirement that this completes clears the memory (R67, R84, R87). A memory that is to
stay empty and that the outcome has filled expires then (R85, R86; log entry 22). -/
def State.takeHandedOutcome (s : State) (l : Line) : State :=
  match (s.link.get l).outcome with
  | none => s
  | some o =>
    let t := (((s.setLink l (s.link.get l).dropOutcome).takeOutcome l o).closeBurst l).finishBurst l
    if s.staysEmpty l then t.expireMemory l else t

/-- OUTCOME_TAKEN (R84, R67). With no outcome handed over the event does not occur. -/
def execOutcomeTaken (l : Line) (s : State) : Host.Outcome State Fault Refusal := .next (s.takeHandedOutcome l)

/-- LFM_DUE (R82): at the due instant the memory of `l` expires at once when OPEN is clear, and DUE is set when it is set.
When no due instant has come the event does not occur. -/
def execLfmDue (l : Line) (s : State) : Host.Outcome State Fault Refusal :=
  if (s.rep.get l).dueReached ∧ (s.rep.get l).memory.isSome then
    if (s.rep.get l).opened then .next (s.setRep l { s.rep.get l with due := true, dueReached := false })
    else .next (s.expireMemory l)
  else .next s

/-- EXPIRE_REQUEST (R85): the repeat unit of `l` takes a request to expire its memory; OPEN is cleared in every case, and the
memory stays empty for the bursts that had begun when the line was disabled. -/
def execExpireRequest (l : Line) (s : State) : Host.Outcome State Fault Refusal :=
  match (s.link.get l).expireRequests with
  | [] => .next s
  | n :: ns => .next (((s.setLink l { s.link.get l with
      expireRequests := ns
      oldBursts := max (s.link.get l).oldBursts n }).expireMemory l).closeBurst l)

/-! ### What is on its way to a decoder and a repeat unit -/

/-- The decoder of `l` acts on a notice, if it accepts it, and the repeat unit takes the outcome. -/
def State.settleNotice (s : State) (l : Line) (n : Notice) : State :=
  (if (s.dec.get l).accepts n then s.actOnNotice l n else s).takeHandedOutcome l

/-- Everything on its way to the decoder of `l` is taken, oldest first, and each outcome by the repeat unit. -/
def State.settleDecoder (s : State) (l : Line) : State :=
  let u := s.takeHandedOutcome l
  (u.link.get l).toDecoder.foldl (fun s n => s.settleNotice l n) (u.setLink l { u.link.get l with toDecoder := [] })

end Sys2Proof.Machine
end

