-- ==== Sys2Proof/Machine/Capture.lean ====
section
/-! DEFINITION. The capture unit (section 6): claiming, recording, the report lists, the decision of a recording, MISSED,
and the capture commands and registers. -/

namespace Sys2Proof.Machine

open Sys2Proof (Byte Time Payload Line)

/-! ### Report lists (R117) -/

/-- Every entry of both report lists with tag `x` takes tag IGNORED. -/
def Capture.ignoreTag (c : Capture) (x : Tag) : Capture :=
  { c with lists :=
      ⟨c.lists.a.map fun t => if t = x then .ignored else t, c.lists.b.map fun t => if t = x then .ignored else t⟩ }

/-- Enter a burst at the tail of the report list of `l`. -/
def Capture.enterBurst (c : Capture) (l : Line) (t : Tag) : Capture :=
  { c with lists := c.lists.set l (c.lists.get l ++ [t]) }

/-- Whether a line is eligible: the latched LINE SELECT names it (R112). -/
def Capture.eligible (c : Capture) (l : Line) : Bool := c.latchedSelect.names l

/-! ### Recording a burst (sections 6.3 and 6.4) -/

/-- The capture unit takes BURST START of `l` with the burst's start time (R6, R114): claimed, when STAMP takes the start
time, passed over or ignored. -/
def Capture.burstStart (c : Capture) (l : Line) (start : Time) : Capture :=
  if c.eligible l then
    match c.st with
    | .armed => { c.enterBurst l .recorded with st := .filling l, count := 0, stamp := start, closed := false, verdict := none }
    | .filling _ => c.enterBurst l .passed
    | .full (.line _) => c.enterBurst l .passed
    | .full .host => c.enterBurst l .ignored
    | .idle => c.enterBurst l .ignored
  else c.enterBurst l .ignored

/-- Take the oldest notice off the link from the front end of `l` to the capture unit. -/
def State.dropCaptureNotice (s : State) (l : Line) : State :=
  s.setLink l { s.link.get l with toCapture := (s.link.get l).toCapture.tail }

/-- CAPTURE_BURST_START (R114). In DORMANT an ARMED capture unit begins no recording, and the burst is entered as IGNORED; in its
other states the burst takes the tag of R114 there too (R128, R160; log entry 8). When the oldest notice is no BURST START the event does not occur. -/
def execCaptureBurstStart (l : Line) (s : State) : Host.Outcome State Fault Refusal :=
  match (s.link.get l).toCapture with
  | .burstStart start :: _ =>
    .next { s.dropCaptureNotice l with
      cap := if s.pow.st = .dormant ∧ s.cap.st = .armed then s.cap.enterBurst l .ignored else s.cap.burstStart l start }
  | _ => .next s

/-- Whether an element of `l` belongs to a recording under way: FILLING with owner `l`, before the close (R115, R118). -/
def Capture.records (c : Capture) (l : Line) : Bool := decide (c.st = .filling l) && !c.closed

/-- Append an element to the recording, or drop it with TRUNCATED when COUNT is 256 (R115, R116). -/
def State.appendElement (s : State) (lvl : Level) (d : Nat) : State :=
  if s.cap.count < Config.captureCapacity then
    { s with mem := writeCaptureEntry s.mem s.cap.count lvl d, cap := { s.cap with count := s.cap.count + 1 } }
  else { s with cap := { s.cap with truncated := true } }

/-- CAPTURE_ELEMENT (R115, R116). -/
def execCaptureElement (l : Line) (s : State) : Host.Outcome State Fault Refusal :=
  match (s.link.get l).toCapture with
  | .element lvl d :: _ =>
    if s.cap.records l then .next ((s.dropCaptureNotice l).appendElement lvl d) else .next (s.dropCaptureNotice l)
  | _ => .next s

/-- Whether a burst with this report is kept under a MODE (the table of R118). -/
def keeps : CaptureMode → Report → Bool
  | _, .unmatched => true
  | .unmatched, .matched => false
  | .all, .matched => true
  | _, .aborted => false

/-- Decide a recording of line `l` with the report `r` (R118): kept, FULL with the owner line; discarded, ARMED with
COUNT 0. -/
def Capture.decideRecording (c : Capture) (l : Line) (r : Report) : Capture :=
  if keeps c.latchedMode r then { c with st := .full (.line l), closed := false, verdict := none }
  else { c with st := .armed, count := 0, closed := false, verdict := none }

/-- The recording of `l` closes: it is decided when the report is also held, and else the close is kept (R118). -/
def Capture.close (c : Capture) (l : Line) : Capture :=
  match c.verdict with
  | some r => c.decideRecording l r
  | none => { c with closed := true }

/-- CAPTURE_CLOSE (R118, R119): BURST END or BURST ABORT of `l` is taken, and closes the recording of `l` under way. -/
def execCaptureClose (l : Line) (s : State) : Host.Outcome State Fault Refusal :=
  match (s.link.get l).toCapture with
  | .burstEnd _ :: _ =>
    .next { s.dropCaptureNotice l with cap := if s.cap.records l then s.cap.close l else s.cap }
  | .burstAbort _ :: _ =>
    .next { s.dropCaptureNotice l with cap := if s.cap.records l then s.cap.close l else s.cap }
  | _ => .next s

/-- The report on the burst that line `l` has under recording is held: the recording is decided when the close has been taken, and else the
verdict is kept (R118). -/
def Capture.holdReport (c : Capture) (l : Line) (r : Report) : Capture :=
  if c.st = .filling l then
    if c.closed then c.decideRecording l r else { c with verdict := some r }
  else c

/-- Act on a report by the tag of the list entry it concerns (R117, R118, R120). -/
def Capture.actOnReport (c : Capture) (l : Line) (r : Report) : Tag → Capture
  | .recorded => c.holdReport l r
  | .passed => { c with missed := c.missed || keeps c.latchedMode r }
  | .ignored => c

/-- Remove the oldest entry of the report list of `l`. -/
def Capture.dropEntry (c : Capture) (l : Line) : Capture := { c with lists := c.lists.set l (c.lists.get l).tail }

/-- Take the oldest report off the link from the decoder of `l` to the capture unit. -/
def State.dropReport (s : State) (l : Line) : State :=
  s.setLink l { s.link.get l with reports := (s.link.get l).reports.tail }

/-- CAPTURE_REPORT (R117): the report concerns the oldest entry of the line's list, which is removed. In DORMANT nothing else
comes of it, as the capture unit keeps its state and its flags there (R128, R160; log entry 8). A report on a burst
whose BURST START the capture unit has not yet taken is not taken before it. -/
def execCaptureReport (l : Line) (s : State) : Host.Outcome State Fault Refusal :=
  match (s.link.get l).reports, s.cap.lists.get l with
  | r :: _, t :: _ =>
    .next { s.dropReport l with
      cap := if s.pow.st = .dormant then s.cap.dropEntry l else (s.cap.dropEntry l).actOnReport l r t }
  | _, _ => .next s

/-! ### Commands (sections 6.2, 6.6, 6.7) -/

/-- Arm: LINE SELECT and MODE latched, TRUNCATED and MISSED cleared, PASSED entries made IGNORED, COUNT 0 (R113, R122). -/
def Capture.arm (c : Capture) : Capture :=
  { c.ignoreTag .passed with
    st := .armed
    count := 0
    truncated := false
    missed := false
    latchedSelect := c.select
    latchedMode := c.mode
    closed := false
    verdict := none }

/-- The ARM CAPTURE command (R113). -/
def State.armCapture (s : State) : State × CommandResult :=
  match s.cap.st with
  | .idle => ({ s with cap := s.cap.arm }, .ok)
  | .armed => (s, .busy)
  | .filling _ => (s, .busy)
  | .full _ => (s, .busy)

/-- ARM_CAPTURE (R113). -/
def execArmCapture (s : State) : Host.Outcome State Fault Refusal := .next (s.command State.armCapture)

/-- Abandon a recording: COUNT 0, the RECORDED entry made IGNORED, the state as given (R121, R128). -/
def Capture.abandon (c : Capture) (st : CaptureState) : Capture :=
  { c.ignoreTag .recorded with st := st, count := 0, closed := false, verdict := none }

/-- The DISARM CAPTURE command (R121). -/
def State.disarmCapture (s : State) : State × CommandResult :=
  match s.cap.st with
  | .idle => (s, .ok)
  | .armed => ({ s with cap := { s.cap with st := .idle } }, .ok)
  | .filling _ => ({ s with cap := s.cap.abandon .idle }, .ok)
  | .full _ => (s, .busy)

/-- DISARM_CAPTURE (R121). -/
def execDisarmCapture (s : State) : Host.Outcome State Fault Refusal := .next (s.command State.disarmCapture)

/-- Give up a held recording: an automatic re-arm if AUTO REARM is set, IDLE if it is clear (R122). -/
def Capture.giveUp (c : Capture) : Capture := if c.rearm then c.arm else { c with st := .idle, count := 0 }

/-- The RELEASE CAPTURE command (R122). -/
def State.releaseCapture (s : State) : State × CommandResult :=
  match s.cap.st with
  | .full _ => if s.cap.pins = 0 then ({ s with cap := s.cap.giveUp }, .ok) else (s, .pinned)
  | .filling _ => (s, .busy)
  | .idle => (s, .empty)
  | .armed => (s, .empty)

/-- RELEASE_CAPTURE (R122). -/
def execReleaseCapture (s : State) : Host.Outcome State Fault Refusal := .next (s.command State.releaseCapture)

/-- Make the first load-length entries a held recording with owner HOST (R125). -/
def Capture.load (c : Capture) : Capture :=
  { c.ignoreTag .passed with
    st := .full .host
    count := c.loadLength.toNat
    truncated := false
    missed := false }

/-- The LOAD CAPTURE command (R125). -/
def State.loadCapture (s : State) : State × CommandResult :=
  match s.cap.st with
  | .idle =>
    if 1 ≤ s.cap.loadLength.toNat ∧ s.cap.loadLength.toNat ≤ Config.captureCapacity then
      ({ s with cap := s.cap.load }, .ok)
    else (s, .badArg)
  | .armed => (s, .busy)
  | .filling _ => (s, .busy)
  | .full _ => (s, .busy)

/-- LOAD_CAPTURE (R125). -/
def execLoadCapture (s : State) : Host.Outcome State Fault Refusal := .next (s.command State.loadCapture)

/-! ### Registers (R112, R124) -/

/-- Write CAPTURE CONTROL: the three fields are stored, the latched copies are not changed (R112). -/
def State.writeCaptureControl (v : Byte) (s : State) : State :=
  { s with cap := { s.cap with
      select := lineSelectOf v
      mode := if v.getLsbD 2 then .all else .unmatched
      rearm := v.getLsbD 3 } }

/-- CAPTURE_CONTROL_WRITE (R112). -/
def execCaptureControlWrite (v : Byte) (s : State) : Host.Outcome State Fault Refusal :=
  .next (s.registerAccess (State.writeCaptureControl v))

/-- Write a byte of the load length: the high byte when `hi`, else the low byte (R124). -/
def State.writeLoadLength (hi : Bool) (v : Byte) (s : State) : State :=
  { s with cap := { s.cap with
      loadLength := if hi then v ++ s.cap.loadLength.extractLsb' 0 8 else s.cap.loadLength.extractLsb' 8 8 ++ v } }

/-- LOAD_LENGTH_WRITE (R124). -/
def execLoadLengthWrite (hi : Bool) (v : Byte) (s : State) : Host.Outcome State Fault Refusal :=
  .next (s.registerAccess (State.writeLoadLength hi v))

/-! ### Pinning (R126) and DORMANT (R128) -/

/-- A REPLAY job comes to depend on the recording. -/
def State.pin (s : State) : State := { s with cap := { s.cap with pins := s.cap.pins + 1 } }

/-- A REPLAY job no longer depends on the recording. -/
def State.unpin (s : State) : State := { s with cap := { s.cap with pins := s.cap.pins - 1 } }

/-- ENTER DORMANT at the capture unit: a FILLING recording is discarded, ARMED with COUNT 0 (R128). -/
def Capture.enterDormant (c : Capture) : Capture :=
  match c.st with
  | .filling _ => c.abandon .armed
  | .idle => c
  | .armed => c
  | .full _ => c

end Sys2Proof.Machine
end

