-- ==== Sys2Proof/Machine/Transmitter.lean ====
section
/-! DEFINITION. The transmitter (section 7): SUBMIT, job starts, burst synthesis, the carrier and TXO, spacing, job ends,
STOP TX and ABORT TX, and the completion FIFO. -/

namespace Sys2Proof.Machine

open Sys2Proof (Byte Time Payload Line)

/-! ### Staging and SUBMIT (section 7.1) -/

/-- Write a staging register: the byte is stored as written (R130). -/
def State.writeStaging (r : Fin 14) (v : Byte) (s : State) : State :=
  { s with tx := { s.tx with staging := s.tx.staging.setRegister r v } }

/-- STAGING_REGISTER_WRITE (R130). -/
def execStagingRegisterWrite (r : Fin 14) (v : Byte) (s : State) : Host.Outcome State Fault Refusal :=
  .next (s.registerAccess (State.writeStaging r v))

/-- Append a copy of the staging registers to the job queue; a REPLAY job pins the capture buffer (R126, R131). -/
def State.appendJob (s : State) : State :=
  let s' : State := { s with tx := { s.tx with jobs := s.tx.jobs ++ [s.tx.staging] } }
  if s.tx.staging.kind = .replay then s'.pin else s'

/-- Whether the capture state is FULL, with any owner. -/
def CaptureState.isFull : CaptureState → Bool
  | .full _ => true
  | .idle => false
  | .armed => false
  | .filling _ => false

/-- Tests 4 to 6 of SUBMIT, on the entry `n` the staged job names (R131). -/
def State.submitEntryTest (s : State) (n : Fin 8) : CommandResult :=
  if s.entries[n].st ≠ .enabled then .unavailable
  else if s.tx.staging.kind = .frame ∧ ¬ (s.format n).countInRange s.tx.staging.bits.toNat then .badArg
  else if s.tx.staging.kind = .replay ∧ ¬ s.cap.st.isFull then .unavailable
  else .ok

/-- The tests of SUBMIT in order: the result of the first that fails, or OK (R131). -/
def State.submitTest (s : State) : CommandResult :=
  if s.pow.st ≠ .active then .state
  else if Config.jobCapacity ≤ s.tx.jobs.length then .full
  else if s.tx.staging.kind = .illegal then .badArg
  else match s.tx.staging.entry with
    | none => .badArg
    | some n => s.submitEntryTest n

/-- The SUBMIT command (R131). -/
def State.submitJob (s : State) : State × CommandResult :=
  if s.submitTest = .ok then (s.appendJob, .ok) else (s, s.submitTest)

/-- SUBMIT (R131). -/
def execSubmit (s : State) : Host.Outcome State Fault Refusal := .next (s.command State.submitJob)

/-! ### Building bursts (section 7.5) -/

/-- Join adjacent elements of equal level into one (R140, R141). -/
def joinRuns : List Element → List Element
  | [] => []
  | e :: es =>
    match joinRuns es with
    | [] => [e]
    | f :: fs => if e.level = f.level then ⟨e.level, e.us + f.us⟩ :: fs else e :: f :: fs

/-- The payload bits a job of `n` bits sends, in transmission order (R138). -/
def bitsToSend (msbFirst : Bool) (p : Payload) (n : Nat) : List Bool :=
  let bits := (List.range n).map fun i => p.getLsbD i
  if msbFirst then bits.reverse else bits

/-- A mark and a space. -/
def markSpace (m d : Nat) : List Element := [⟨.mark, m⟩, ⟨.space, d⟩]

/-- The mark and space of a bit under PAIR (R138). -/
def Format.bitElements (f : Format) (b : Bool) : List Element :=
  if b then markSpace f.mark1.nominal f.space1.nominal else markSpace f.mark0.nominal f.space0.nominal

/-- A PAIR frame burst (R138): header, bits, trailer; with no trailer the space of the last bit is not sent. -/
def Format.pairBurst (f : Format) (bits : List Bool) : List Element :=
  (if f.headerMark.absent then [] else markSpace f.headerMark.nominal f.headerSpace.nominal)
    ++ (if f.trailerMark.absent then (bits.flatMap f.bitElements).dropLast
        else bits.flatMap f.bitElements ++ [⟨.mark, f.trailerMark.nominal⟩])

/-- The repeat burst of REPEAT KIND CODE (R139). -/
def Format.repeatBurst (f : Format) : List Element :=
  markSpace f.repeatMark.nominal f.repeatSpace.nominal ++ [⟨.mark, f.trailerMark.nominal⟩]

/-- The half-cells of a BIPHASE bit (R140). -/
def bitHalves (b : Bool) : List Level := if b then [.space, .mark] else [.mark, .space]

/-- The row of half-cells of a BIPHASE frame: the active second half of the start cell, then two for each bit; a last
inactive half-cell is dropped (R140). -/
def halfCells (bits : List Bool) : List Level :=
  let row := .mark :: bits.flatMap bitHalves
  if row.getLast? = some .space then row.dropLast else row

/-- A BIPHASE frame burst: runs of half-cells of equal level joined, each half-cell lasting T (R140). -/
def Format.biphaseBurst (f : Format) (bits : List Bool) : List Element :=
  joinRuns ((halfCells bits).map fun lvl => ⟨lvl, f.mark0.nominal⟩)

/-- A REPLAY burst: capture entries 0 to COUNT - 1, those of duration 0 left out, adjacent ones of equal level joined
(R141). -/
def replayBurst (m : List Host.Cell) (count : Nat) : List Element :=
  joinRuns (((List.range count).map (captureElementAt m)).filter fun e => decide (e.us ≠ 0))

/-- The elements of burst `i` of a job sent with entry format `f` (R137). -/
def State.burstElements (s : State) (f : Format) (j : Job) (i : Nat) : List Element :=
  if j.kind = .replay then replayBurst s.mem s.cap.count
  else if f.coding = .biphase then f.biphaseBurst (bitsToSend f.msbFirst j.payload j.bits.toNat)
  else if f.repeatKind = .code ∧ 1 < i then f.repeatBurst
  else f.pairBurst (bitsToSend f.msbFirst j.payload j.bits.toNat)

/-- The length of a burst in µs. -/
def burstLength (es : List Element) : Nat := (es.map (·.us)).sum

/-! ### Carrier and TXO (sections 7.3, 7.6) -/

/-- The on-time of a carrier period in eighths of a µs: P × D / 100 with any fraction dropped, the whole period when D is 0
(R142). -/
def Format.onTime (f : Format) : Nat := if f.duty = 0 then f.period else f.period * f.duty / 100

/-- Whether TXO is active `t` ticks into a burst: during a mark, in the on-time of the carrier period counted from the start
of the mark (R142). -/
def waveform (period onTime : Nat) : List Element → Nat → Bool
  | [], _ => false
  | e :: es, t =>
    if t < Config.us e.us then decide (e.level = .mark ∧ t % period < onTime)
    else waveform period onTime es (t - Config.us e.us)

/-- The level of TXO at the present instant, true when active: inactive outside BURST (R133). -/
def State.txo (s : State) : Bool :=
  decide (s.tx.st = .burst) && waveform s.tx.period s.tx.onTime s.tx.elements (s.clock.now - s.tx.burstStart)

/-- The instant at which the burst being sent ends. -/
def Transmitter.burstEnd (t : Transmitter) : Nat := t.burstStart + Config.us (burstLength t.elements)

/-! ### Starting a job (section 7.4) -/

/-- Whether the transmitter may start the head job now (R134). -/
def State.mayStart (s : State) : Bool :=
  decide (s.tx.st = .idle) && decide (s.pow.st = .active)
    && decide (s.tx.completions.length < Config.completionCapacity)

/-- Append a completion of a job (R145, R150). -/
def State.complete (s : State) (j : Job) (st : CompletionStatus) (bursts : Nat) : State :=
  { s with tx := { s.tx with completions := s.tx.completions ++ [⟨j.tag, st, bursts⟩] } }

/-- The head job leaves the job queue. -/
def State.dropJob (s : State) : State := { s with tx := { s.tx with jobs := s.tx.jobs.tail } }

/-- A REPLAY job gives up its pin (R126). -/
def State.unpinJob (s : State) (j : Job) : State := if j.kind = .replay then s.unpin else s

/-- Begin burst `i` of job `j` with entry format `f` at the instant `t`: the fields are read from the entry and the
elements built (R27, R137, R142). -/
def State.beginBurst (s : State) (f : Format) (j : Job) (i t : Nat) : State :=
  { s with tx := { s.tx with
      st := .burst
      index := i
      burstStart := t
      elements := s.burstElements f j i
      period := f.period
      onTime := f.onTime } }

/-- Take the blanking hold of a job on `l` if its BLANK mask names the line (R136). -/
def State.blankFor (s : State) (j : Job) (l : Line) : State := if j.blanks l then s.takeBlanking l else s

/-- The head job completes UNAVAILABLE at its start: no hold, no TAIL (R135). -/
def State.jobUnavailable (s : State) (j : Job) : State := ((s.complete j .unavailable 0).dropJob).unpinJob j

/-- The head job becomes active with entry `n`: the entry is held, the lines of its BLANK mask are blanked, burst count 0,
stopping mark clear, and its first burst begins (R136). -/
def State.jobActive (s : State) (j : Job) (n : Fin 8) : State :=
  let s' := ((s.joinHolder .transmitter n).blankFor j .A).blankFor j .B
  ({ s' with tx := { s'.tx with bursts := 0, stopping := false } }).beginBurst (s.format n) j 1 s.clock.now

/-- JOB_START (R134 to R136): the transmitter starts the head job. When a condition of R134 is lacking the event does not
occur. -/
def execJobStart (s : State) : Host.Outcome State Fault Refusal :=
  match s.tx.jobs with
  | [] => .next s
  | j :: _ =>
    if s.mayStart then
      match j.entry with
      | none => .next (s.jobUnavailable j)
      | some n => if s.entries[n].st = .enabled then .next (s.jobActive j n) else .next (s.jobUnavailable j)
    else .next s

/-! ### Spacing and the end of a job (section 7.7) -/

/-- The fields of the entry a job names, as they stand. -/
def State.jobFormat (s : State) (j : Job) : Format := s.format ((j.entry).getD 0)

/-- The transmitter leaves the holder set of the entry a job names (R145). -/
def State.releaseEntry (s : State) (j : Job) : State :=
  match j.entry with
  | none => s
  | some n => s.leaveHolder .transmitter n

/-- The active job `j` ends with a status at the instant `t` (R145), and the transmitter enters TAIL for the entry's TX GAP
(R144, R147, R148). -/
def State.endJob (s : State) (j : Job) (st : CompletionStatus) (t : Nat) : State :=
  let s' : State := ((s.complete j st s.tx.bursts).dropJob)
  let s' : State :=
    { s' with tx := { s'.tx with st := .tail, tailEnd := t + Config.hundredUs (s.jobFormat j).txGap } }
  ((((s'.releaseEntry j).unpinJob j).passToGuard t .A).passToGuard t .B)

/-- A burst of the active job has ended or been cut: the burst count increases (R137). -/
def State.countBurst (s : State) : State :=
  { s with tx := { s.tx with bursts := bump Config.countCap s.tx.bursts } }

/-- Whether the active job has more bursts to send after the one that has just ended (R143). -/
def Transmitter.moreBursts (t : Transmitter) (j : Job) : Bool :=
  !t.stopping && (j.continuous || decide (t.index < 1 + j.repeats.toNat))

/-- Enter GAP: the next burst starts at the later of the two instants of R143. -/
def State.enterGap (s : State) (j : Job) : State :=
  { s with tx := { s.tx with
      st := .gap
      nextStart := max (s.tx.burstStart + Config.ms (s.jobFormat j).framePeriod)
        (s.tx.burstEnd + Config.hundredUs (s.jobFormat j).txGap) } }

/-- What follows the end of a burst of the active job `j` (R143, R144, R147). -/
def State.afterBurst (s : State) (j : Job) : State :=
  if s.tx.moreBursts j then s.enterGap j
  else s.endJob j (if s.tx.stopping then .stopped else .done) s.tx.burstEnd

/-- TX_BURST_END (R143, R144): the clock reaches the end of the burst being sent. -/
def execTxBurstEnd (s : State) : Host.Outcome State Fault Refusal :=
  match s.tx.st, s.tx.jobs with
  | .burst, j :: _ => .next (((s.reachInstant s.tx.burstEnd).countBurst).afterBurst j)
  | _, _ => .next s

/-- NEXT_BURST_START (R143): in GAP the clock reaches the start instant of the next burst. -/
def execNextBurstStart (s : State) : Host.Outcome State Fault Refusal :=
  match s.tx.st, s.tx.jobs with
  | .gap, j :: _ =>
    .next ((s.reachInstant s.tx.nextStart).beginBurst (s.jobFormat j) j (s.tx.index + 1) s.tx.nextStart)
  | _, _ => .next s

/-- TAIL_END (R146): the clock reaches the end of the TAIL, and the transmitter enters IDLE. -/
def execTailEnd (s : State) : Host.Outcome State Fault Refusal :=
  match s.tx.st with
  | .tail =>
    .next { s.reachInstant s.tx.tailEnd with tx := { s.tx with st := .idle } }
  | _ => .next s

/-! ### STOP TX and ABORT TX (section 7.8) -/

/-- The STOP TX command (R147). -/
def State.stopTx (s : State) : State × CommandResult :=
  match s.tx.st, s.tx.jobs with
  | .burst, _ :: _ => ({ s with tx := { s.tx with stopping := true } }, .ok)
  | .gap, j :: _ => (s.endJob j .stopped s.clock.now, .ok)
  | _, _ => (s, .notActive)

/-- STOP_TX (R147). -/
def execStopTx (s : State) : Host.Outcome State Fault Refusal := .next (s.command State.stopTx)

/-- Abort the active job, if there is one: a burst being sent is cut now and counts as sent; the job ends ABORTED (R148). -/
def State.abortActive (s : State) : State × CommandResult :=
  match s.tx.st, s.tx.jobs with
  | .burst, j :: _ => ((s.countBurst).endJob j .aborted s.clock.now, .ok)
  | .gap, j :: _ => (s.endJob j .aborted s.clock.now, .ok)
  | _, _ => (s, .notActive)

/-- Remove every job still in the queue without a completion; a removed REPLAY job gives up its pin, and COMMAND ARG takes
the number removed (R149). -/
def State.removeWaiting (s : State) : State :=
  let s' : State := s.tx.jobs.foldl (fun s j => s.unpinJob j) s
  ({ s' with tx := { s'.tx with jobs := [] } }).setArg (BitVec.ofNat 8 s.tx.jobs.length)

/-- The ABORT TX command (R148, R149). -/
def State.abortTx (s : State) : State × CommandResult :=
  if s.win.arg = 0 then s.abortActive
  else if s.win.arg = 1 then (s.abortActive.1.removeWaiting, .ok)
  else (s, .badArg)

/-- ABORT_TX (R148, R149). -/
def execAbortTx (s : State) : Host.Outcome State Fault Refusal := .next (s.command State.abortTx)

/-! ### The completion FIFO (section 7.9) -/

/-- The POP COMPLETION command (R151). -/
def State.popCompletion (s : State) : State × CommandResult :=
  match s.tx.completions with
  | [] => (s, .empty)
  | _ :: cs => ({ s with tx := { s.tx with completions := cs } }, .ok)

/-- POP_COMPLETION (R151). -/
def execPopCompletion (s : State) : Host.Outcome State Fault Refusal := .next (s.command State.popCompletion)

end Sys2Proof.Machine
end

