-- ==== Sys2Proof/Machine/Power.lean ====
section
/-! DEFINITION. The power unit (section 8): entering LISTEN and DORMANT, leaving them, wake matching, the WAKE pin and WAKE
SOURCE; and the time base (section 1.9), which DORMANT stops. -/

namespace Sys2Proof.Machine

open Sys2Proof (Byte Time Payload Line)

/-! ### The time base (R18, R19) -/

/-- TIME increases by 1, and a memory whose due instant this is falls due (R18, R82). -/
def State.tick (s : State) : State :=
  (({ s with clock := { s.clock with time := s.clock.time + 1, tickAt := s.clock.tickAt + Config.ms 1 } } : State).noteDue
    .A).noteDue .B

/-- Whether TIME is counting: in ACTIVE and LISTEN, from the end of a reset on (R18). -/
def State.timeRuns (s : State) : Bool := decide (s.pow.st ≠ .dormant) && !s.pow.resetHeld

/-- TIME_TICK (R18): the clock reaches the end of the present millisecond and TIME increases by 1. In DORMANT and while a
reset is held the event does not occur. -/
def execTimeTick (s : State) : Host.Outcome State Fault Refusal :=
  .next (if s.timeRuns then (s.reachInstant s.clock.tickAt).tick else s)

/-- TIME_LO_READ (R19): the low byte of TIME is returned and the high byte copied into the snapshot. Taken in every power
state (R176). -/
def execTimeLoRead (s : State) : Host.Outcome State Fault Refusal :=
  .next (s.windowRead (s.clock.time.extractLsb' 0 8) fun s =>
    { s with clock := { s.clock with snapshot := s.clock.time.extractLsb' 8 8 } })

/-! ### Power state changes (sections 8.1 to 8.5) -/

/-- Set the power state. -/
def State.setPower (s : State) (p : PowerState) : State := { s with pow := { s.pow with st := p } }

/-- Whether the transmitter is in IDLE with an empty job queue (R154). -/
def State.txQuiet (s : State) : Bool := decide (s.tx.st = .idle) && s.tx.jobs.isEmpty

/-- The ENTER LISTEN command (R158). -/
def State.enterListen (s : State) : State × CommandResult :=
  if s.pow.st = .listen then (s, .ok)
  else if s.txQuiet then (s.setPower .listen, .ok)
  else (s, .busy)

/-- ENTER_LISTEN (R158). -/
def execEnterListen (s : State) : Host.Outcome State Fault Refusal := .next (s.command State.enterListen)

/-- The repeat unit of `l` at ENTER DORMANT: the memory expires at once, OPEN and DUE are clear (R86). A request to expire that
is on its way is taken with this expiry, which leaves it nothing to expire (R85, R160; log entry 8). -/
def State.quietRepeatUnit (s : State) (l : Line) : State :=
  let t := (s.expireMemory l).closeBurst l
  t.setLink l { t.link.get l with expireRequests := [], oldBursts := 0 }

/-- The orders that the spec leaves open inside ENTER DORMANT (R94, R159): which line goes first with what is on its way, whether
the expiry of a line's memory comes after the aborts, and which line goes first with its abort and with its RELEASE post. -/
structure EntryOrder where
  inFlight : Line
  expiryLast : PerLine Bool
  aborts : Line
  posts : Line
deriving DecidableEq, Repr

/-- Whether ENTER DORMANT finds something on `l` that the order of the two lines can bear on. -/
def State.entryStirs (s : State) (l : Line) : Bool :=
  (s.fe.get l).inBurst || (s.rep.get l).memory.isSome || (s.link.get l).outcome.isSome
    || !(s.link.get l).toDecoder.isEmpty || !(s.link.get l).posts.isEmpty

/-- The orders of this entry: free choices (log entry 24). The order of the lines shows only where both have something to do,
and the place of an expiry only where an abort can complete a retirement (R40, R86). -/
def State.entryOrder (s : State) : EntryOrder :=
  let both := s.entryStirs .A && s.entryStirs .B
  let retiring := allEntries.any fun n => decide (s.entries[n].st = .retiring)
  ⟨s.drawLine 0 both, ⟨s.draw 1 retiring, s.draw 2 retiring⟩, s.drawLine 3 both, s.drawLine 4 both⟩

/-- What is still on its way when ENTER DORMANT is taken, to the decoders, from them to the repeat units, and from those to
the receive queue, is taken before it, one line after the other: the spec has no notice, no outcome and no post sent before
the entry left to be taken in DORMANT (R70, R109, R160, R197). A request to expire waits for the expiry of the entry
(`State.quietRepeatUnit`). Log entry 8. -/
def State.settleInFlight (s : State) (first : Line) : State :=
  (s.eachLine first State.settleDecoder).eachLine first State.takeRequests

/-- The front ends at the entry, with edge mask `mask` (R14). -/
def State.parkLines (s : State) (mask : Byte) : State := (s.parkLine (mask.getLsbD 0) .A).parkLine (mask.getLsbD 1) .B

/-- The blocks of the receive path at the entry, with edge mask `mask`: the lines leave their states, each decoder with a burst
in progress handles its abort, and the memories expire, before the aborts or after them (R14, R70, R86, R159). -/
def State.quietReceivers (s : State) (mask : Byte) (o : EntryOrder) : State :=
  (((s.parkLines mask).eachLine .A fun s l => if o.expiryLast.get l then s else s.quietRepeatUnit l).eachLine
    o.aborts State.settleDecoder).eachLine .A State.quietRepeatUnit

/-- The entry to DORMANT with edge mask `mask`, in one of its orders (R159): what is on its way, the receive path, the RELEASE
records of the memories, which the queue appends or loses at the entry (R94, R109, R197), the capture unit, TIME and the power
state. -/
def State.goDormantIn (s : State) (mask : Byte) (o : EntryOrder) : State :=
  let s' := ((s.settleInFlight o.inFlight).quietReceivers mask o).eachLine o.posts State.takeRequests
  { s' with
    cap := s'.cap.enterDormant
    clock := { s'.clock with remain := s'.clock.tickAt - s'.clock.now }
    pow := { s'.pow with st := .dormant } }

/-- The entry to DORMANT with edge mask `mask`, in the order that the free choices give. -/
def State.goDormant (s : State) (mask : Byte) : State :=
  { s.goDormantIn mask s.entryOrder with choices := s.choices + 5 }

/-- The ENTER DORMANT command (R159). -/
def State.enterDormant (s : State) : State × CommandResult :=
  if 3 < s.win.arg.toNat then (s, .badArg)
  else if s.txQuiet then (s.goDormant s.win.arg, .ok)
  else (s, .busy)

/-- ENTER_DORMANT (R159). -/
def execEnterDormant (s : State) : Host.Outcome State Fault Refusal := .next (s.command State.enterDormant)

/-- Leave DORMANT for the power state `p` (R164): every enabled line enters SETTLE, and TIME resumes with the rest of its
millisecond (R18). -/
def State.leaveDormant (s : State) (p : PowerState) : State :=
  let s' : State := ((s.unparkLine .A).unparkLine .B)
  { s' with
    clock := { s'.clock with tickAt := s'.clock.now + s'.clock.remain }
    pow := { s'.pow with st := p } }

/-- WAKE SOURCE takes a value if it is NONE (R171). -/
def State.noteWake (s : State) (w : WakeSource) : State :=
  if s.pow.wakeSource = .none then { s with pow := { s.pow with wakeSource := w } } else s

/-- Assert the WAKE pin (R168). -/
def State.assertWake (s : State) : State := { s with pow := { s.pow with wakePin := true } }

/-- WAKE UP (R163): taken in every power state. -/
def State.wakeUp (s : State) : State :=
  match s.pow.st with
  | .active => s
  | .listen => (s.setPower .active).noteWake .host
  | .dormant => (s.leaveDormant .active).noteWake .host

/-- The WAKE UP command, whose result is OK in every power state (R163). -/
def State.commandWakeUp (s : State) : State := s.windowWrite fun s => s.wakeUp.setResult .ok

/-- WAKE_UP (R163). -/
def execWakeUp (s : State) : Host.Outcome State Fault Refusal := .next s.commandWakeUp

/-- The CLEAR WAKE command (R169). -/
def State.clearWake (s : State) : State × CommandResult :=
  ({ s with pow := { s.pow with wakePin := false, matched := none, wakeSource := .none } }, .ok)

/-- CLEAR_WAKE (R169). -/
def execClearWake (s : State) : Host.Outcome State Fault Refusal := .next (s.command State.clearWake)

/-- A WAKE EDGE of `l` taken in DORMANT (R162). -/
def State.wakeByEdge (s : State) (l : Line) : State :=
  (((s.leaveDormant .listen).assertWake).setWakeCause).noteWake (.edge l)

/-- WAKE_EDGE (R162): the power unit takes a WAKE EDGE of `l`, which is dropped outside DORMANT. With none on its way the
event does not occur. -/
def execWakeEdge (l : Line) (s : State) : Host.Outcome State Fault Refusal :=
  match (s.link.get l).wakeEdges with
  | 0 => .next s
  | k + 1 =>
    let s' := s.setLink l { s.link.get l with wakeEdges := k }
    .next (if s.pow.st = .dormant then s'.wakeByEdge l else s')

/-! ### Wake matching (section 8.6) -/

/-- Whether a wake list entry matches a frame offered by the decoder of `l` (R166). -/
def WakeEntry.matchesOffer (w : WakeEntry) (l : Line) (o : Offer) : Bool :=
  w.valid && decide (w.format = o.entry.val) && decide (w.bits = o.bits) && w.namesLine l
    && decide (o.payload &&& w.mask = w.payload &&& w.mask)

/-- The first wake list entry that matches, in index order (R166). -/
def State.wakeMatch (s : State) (l : Line) (o : Offer) : Option (Fin 4) :=
  allWake.find? fun n => (wakeEntryAt s.mem n).matchesOffer l o

/-- What a match of wake list entry `n` does (R166). -/
def State.wakeByMatch (s : State) (n : Fin 4) : State :=
  let s' := (((s.assertWake).setWakeCause).noteWake (.matched n))
  { s' with pow := { s'.pow with
      matched := some n
      st := if (wakeEntryAt s.mem n).resume then .active else s'.pow.st } }

/-- Compare an offered frame with the wake list in LISTEN; in ACTIVE and DORMANT the offer is dropped (R166, R167). -/
def State.takeOffer (s : State) (l : Line) (o : Offer) : State :=
  if s.pow.st = .listen then
    match s.wakeMatch l o with
    | none => s
    | some n => s.wakeByMatch n
  else s

/-- WAKE_OFFER (R166): the power unit takes the oldest frame offered by the decoder of `l`. With none on its way the event
does not occur. -/
def execWakeOffer (l : Line) (s : State) : Host.Outcome State Fault Refusal :=
  match (s.link.get l).offers with
  | [] => .next s
  | o :: os => .next ((s.setLink l { s.link.get l with offers := os }).takeOffer l o)

end Sys2Proof.Machine
end

