-- ==== Sys2Proof/Machine/Reset.lean ====
section
/-! DEFINITION. The three kinds of reset (section 0.6, R172, R189). -/

namespace Sys2Proof.Machine

open Sys2Proof (Byte Time Payload Line)

/-- A reset of kind `k` that leaves the table space as `mem`: every block at its reset values, everything on its way
dropped. The levels at the inputs, the model's clock, its count of free choices and the commands still to be taken are no state
of the processor and stay (log entries 2, 5, 16 and 24). -/
def State.resetTo (s : State) (k : ResetKind) (mem : List Host.Cell) : State :=
  State.afterReset k s.pending mem (s.fe.get .A).level (s.fe.get .B).level s.clock.now s.choices

/-- A reset of kind `k` while it is held: RESET# is low, or a power-on reset has not ended. Every block stands at its reset
values, the window takes no access and TIME does not count (R18, R172, R174; log entry 16). -/
def State.holdReset (s : State) (k : ResetKind) (mem : List Host.Cell) : State :=
  { s.resetTo k mem with pow := { PowerUnit.reset k with resetHeld := true } }

/-- A held reset ends: the window takes accesses against the reset values of every block, and TIME counts from here on
(R18, R172, R174). -/
def State.endReset (s : State) : State :=
  { s with pow := { s.pow with resetHeld := false }, clock := TimeBase.reset s.clock.now }

/-- POWER_ON_RESET (R172): the table space is zeroed (R41, R129). The row takes in the whole of the reset, to its end. -/
def execPowerOnReset (s : State) : Host.Outcome State Fault Refusal := .next (s.holdReset .powerOn []).endReset

/-- PIN_RESET (R172): the table space is kept. The row takes in both the fall of RESET# and its release. -/
def execPinReset (s : State) : Host.Outcome State Fault Refusal := .next (s.holdReset .pin s.mem).endReset

/-- The SOFT RESET command (R189): taken in every power state; the table space is kept and COMMAND RESULT reads OK. -/
def State.softReset (s : State) : State := s.windowWrite fun s => s.resetTo .soft s.mem

/-- SOFT_RESET (R189). -/
def execSoftReset (s : State) : Host.Outcome State Fault Refusal := .next s.softReset

end Sys2Proof.Machine
end

