-- ==== Sys2Proof/Machine/Window.lean ====
section
/-! DEFINITION. The host window (section 9) and the interrupt registers (section 10): the table port, what a read of each of
the 64 registers returns, the registers without a row of their own, and the commands by their codes. -/

namespace Sys2Proof.Machine

open Sys2Proof (Byte Time Payload Line)

/-! ### The table port (section 9.3) -/

/-- The pointer moves to the next table address, from 0x3FF to 0x000 (R178). -/
def State.advancePointer (s : State) : State := { s with win := { s.win with pointer := s.win.pointer + 1 } }

/-- TABLE_DATA_READ (R178): the addressed byte is returned and the pointer advances. Taken in every power state (R176). -/
def execTableDataRead (s : State) : Host.Outcome State Fault Refusal :=
  .next (s.windowRead (Memory.read s.mem s.win.pointer.toNat) State.advancePointer)

/-- Whether the owner of a table address takes a write to it (R29, R123, R165, R180). -/
def State.takesTableWrite (s : State) (a : Nat) : Bool :=
  if a < Config.wakeBase then
    match entryIndex (a / Config.entryStride) with
    | none => false
    | some n => decide (s.entries[n].st = .disabled)
  else if a < Config.unstoredBase then decide (s.pow.st = .active)
  else if a < Config.captureBase then false
  else decide (s.cap.st = .idle)

/-- Whether a table address is stored: bytes 46 and 47 of a format entry and 0x1C8 to 0x1FF are not (R30, R180). -/
def addressStored (a : Nat) : Bool :=
  if a < Config.wakeBase then decide (a % Config.entryStride < Config.entryStored)
  else decide (a < Config.unstoredBase) || decide (Config.captureBase ≤ a ∧ a < Config.tableSize)

/-- Offer a byte to the owner of the addressed table byte (R179): taken, and stored where the address is stored (R30), or
refused with ACCESS. In DORMANT every write is refused (R161). -/
def State.offerTableByte (s : State) (a : Nat) (v : Byte) : State :=
  if s.pow.st ≠ .dormant ∧ s.takesTableWrite a then
    if addressStored a then { s with mem := Memory.write s.mem a v } else s
  else s.refuseAccess

/-- Write TABLE DATA: the byte is offered, and the pointer advances whether it is taken or refused (R179). -/
def State.writeTableData (s : State) (v : Byte) : State :=
  s.windowWrite fun s => (s.offerTableByte s.win.pointer.toNat v).advancePointer

/-- TABLE_DATA_WRITE (R179). -/
def execTableDataWrite (v : Byte) (s : State) : Host.Outcome State Fault Refusal := .next (s.writeTableData v)

/-! ### Interrupt registers (R194, R195) -/

/-- Write IRQ CAUSE (R194). -/
def State.writeIrqCause (v : Byte) (s : State) : State := { s with irq := s.irq.clear v }

/-- IRQ_CAUSE_WRITE (R194). -/
def execIrqCauseWrite (v : Byte) (s : State) : Host.Outcome State Fault Refusal :=
  .next (s.registerAccess (State.writeIrqCause v))

/-- Write IRQ ENABLE (R195). -/
def State.writeIrqEnable (v : Byte) (s : State) : State := { s with irq := { s.irq with enable := v } }

/-- IRQ_ENABLE_WRITE (R195). -/
def execIrqEnableWrite (v : Byte) (s : State) : Host.Outcome State Fault Refusal :=
  .next (s.registerAccess (State.writeIrqEnable v))

/-! ### What reads return (Tables 9-1 and 9-2) -/

/-- A line's CONTROL register (R1). -/
def FrontEnd.control (f : FrontEnd) : Byte := byteOfBits false false false false false false f.polarity f.enabled

/-- A line's STATUS register (R16). -/
def FrontEnd.status (f : FrontEnd) : Byte :=
  BitVec.ofNat 8 (f.st.code + 16 * f.inBurst.toNat + 128 * f.fault.toNat)

/-- A field of the head record, 0 while the queue is empty (R97, R98). -/
def ReceiveQueue.headView (q : ReceiveQueue) (view : Record → Byte) : Byte :=
  match q.records with
  | [] => 0
  | r :: _ => view r

/-- HEAD FLAGS/LOST of a record. -/
def Record.flags (r : Record) : Byte := BitVec.ofNat 8 (r.lost + 64 * r.loss.toNat + 128 * r.check.toNat)

/-- CAPTURE CONTROL (R112). -/
def Capture.control (c : Capture) : Byte :=
  BitVec.ofNat 8 (c.select.code + 4 * (decide (c.mode = .all)).toNat + 8 * c.rearm.toNat)

/-- CAPTURE STATUS (R127). -/
def Capture.status (c : Capture) : Byte :=
  BitVec.ofNat 8 (c.st.code + 8 * c.pins + 64 * c.truncated.toNat + 128 * c.missed.toNat)

/-- TX STATUS (R155). -/
def Transmitter.status (t : Transmitter) : Byte :=
  BitVec.ofNat 8 (t.st.code + 4 * t.jobs.length + 32 * t.completions.length)

/-- A field of the oldest completion, 0 while the FIFO is empty (R150). -/
def Transmitter.completionView (t : Transmitter) (view : Completion → Byte) : Byte :=
  match t.completions with
  | [] => 0
  | c :: _ => view c

/-- WAKE STATUS (R168). -/
def PowerUnit.wakeStatus (p : PowerUnit) : Byte :=
  match p.matched with
  | none => BitVec.ofNat 8 p.wakePin.toNat
  | some n => BitVec.ofNat 8 (p.wakePin.toNat + 2 + 4 * n.val)

/-- The registers from 0x00 to 0x16 (Table 9-1). -/
def State.readLow (s : State) : Nat → Byte
  | 0x00 => Config.idValue
  | 0x01 => Config.revisionValue
  | 0x02 => BitVec.ofNat 8 s.pow.st.code
  | 0x03 => BitVec.ofNat 8 s.pow.resetSource.code
  | 0x04 => BitVec.ofNat 8 s.pow.wakeSource.code
  | 0x05 => 0
  | 0x06 => s.win.result.code
  | 0x07 => s.win.arg
  | 0x08 => s.irqCause
  | 0x09 => s.irq.enable
  | 0x0A => (s.fe.get .A).control
  | 0x0B => (s.fe.get .A).glitch
  | 0x0C => (s.fe.get .A).idle
  | 0x0D => (s.fe.get .A).status
  | 0x0E => (s.fe.get .B).control
  | 0x0F => (s.fe.get .B).glitch
  | 0x10 => (s.fe.get .B).idle
  | 0x11 => (s.fe.get .B).status
  | 0x12 => s.clock.time.extractLsb' 0 8
  | 0x13 => s.clock.snapshot
  | 0x14 => s.win.pointer.extractLsb' 0 8
  | 0x15 => (s.win.pointer.extractLsb' 8 2).setWidth 8
  | _ => Memory.read s.mem s.win.pointer.toNat

/-- The registers of the receive queue, from 0x17 to 0x27 (Table 9-1). -/
def State.readQueue (s : State) : Nat → Byte
  | 0x17 => BitVec.ofNat 8 s.rq.records.length
  | 0x18 => BitVec.ofNat 8 s.rq.watermark
  | 0x19 => s.rq.headKindLine
  | 0x1A => s.rq.headView fun r => BitVec.ofNat 8 r.format.val
  | 0x1B => s.rq.headView fun r => BitVec.ofNat 8 r.bits
  | 0x1C => s.rq.headView fun r => BitVec.ofNat 8 r.repeats
  | 0x1D => s.rq.headView Record.flags
  | 0x1E => s.rq.headView fun r => r.stamp.extractLsb' 0 8
  | 0x1F => s.rq.headView fun r => r.stamp.extractLsb' 8 8
  | n => s.rq.headView fun r => Payload.byte r.payload (n - 0x20)

/-- The registers from 0x28 to 0x3F (Table 9-1). -/
def State.readHigh (s : State) : Nat → Byte
  | 0x28 => s.cap.control
  | 0x29 => s.cap.status
  | 0x2A => BitVec.ofNat 8 s.cap.count
  | 0x2B => BitVec.ofNat 8 (decide (s.cap.count = Config.captureCapacity)).toNat
  | 0x3A => s.tx.status
  | 0x3B => s.tx.completionView fun c => c.tag
  | 0x3C => s.tx.completionView fun c => BitVec.ofNat 8 c.status.code
  | 0x3D => s.tx.completionView fun c => BitVec.ofNat 8 c.bursts
  | 0x3E => s.tx.guardSetting
  | 0x3F => s.pow.wakeStatus
  | n => s.tx.staging.register (Fin.ofNat 14 (n - 0x2C))

/-- The value of the register at an offset at this instant (R173, Table 9-1). -/
def State.readRegister (s : State) (off : BitVec 6) : Byte :=
  if off.toNat < 0x17 then s.readLow off.toNat
  else if off.toNat < 0x28 then s.readQueue off.toNat
  else s.readHigh off.toNat

/-- What a read of the window at an offset returns: the register's value at this instant (R173), and 0 while a reset is held
(R174). A read of any register but TIME LO, TABLE DATA and HEAD KIND/LINE changes nothing (R176); those three have rows of
their own. -/
def State.readWindow (s : State) (off : BitVec 6) : Byte := if s.pow.resetHeld then 0 else s.readRegister off

/-! ### Registers without a row of their own -/

/-- Write TABLE POINTER LO: bits 7 to 0 are replaced (R177). -/
def State.writePointerLo (v : Byte) (s : State) : State :=
  { s with win := { s.win with pointer := s.win.pointer.extractLsb' 8 2 ++ v } }

/-- Write TABLE POINTER HI: bits 9 and 8 are replaced (R177). -/
def State.writePointerHi (v : Byte) (s : State) : State :=
  { s with win := { s.win with pointer := v.extractLsb' 0 2 ++ s.win.pointer.extractLsb' 0 8 } }

/-- Write GUARD: every value is stored, and a guard hold already running keeps its end (R152). -/
def State.writeGuard (v : Byte) (s : State) : State := { s with tx := { s.tx with guardSetting := v } }

/-- A register write in ACTIVE and LISTEN by the owner's rule, for the registers other than COMMAND and TABLE DATA; a write
to a read-only register has no effect (R173, R188). -/
def State.storeRegister (s : State) (off : Nat) (v : Byte) : State :=
  match off with
  | 0x07 => s.setArg v
  | 0x08 => s.writeIrqCause v
  | 0x09 => s.writeIrqEnable v
  | 0x0A => s.writeControl .A v
  | 0x0B => s.writeGlitch .A v
  | 0x0C => s.writeIdle .A v
  | 0x0D => s.writeLineStatus .A v
  | 0x0E => s.writeControl .B v
  | 0x0F => s.writeGlitch .B v
  | 0x10 => s.writeIdle .B v
  | 0x11 => s.writeLineStatus .B v
  | 0x14 => s.writePointerLo v
  | 0x15 => s.writePointerHi v
  | 0x18 => s.writeWatermark v
  | 0x28 => s.writeCaptureControl v
  | 0x2A => s.writeLoadLength false v
  | 0x2B => s.writeLoadLength true v
  | 0x3E => s.writeGuard v
  | n => if 0x2C ≤ n ∧ n < 0x3A then s.writeStaging (Fin.ofNat 14 (n - 0x2C)) v else s

/-! ### COMMAND (section 9.5) -/

/-- The commands of Table 9-8. -/
inductive CommandCode where
  | enableFormat
  | disableFormat
  | pop
  | flushQueue
  | submit
  | stopTx
  | abortTx
  | popCompletion
  | armCapture
  | disarmCapture
  | releaseCapture
  | loadCapture
  | enterListen
  | enterDormant
  | wakeUp
  | clearWake
  | softReset
deriving DecidableEq, Repr

/-- The command of a code, if it is one of Table 9-8. -/
def commandOf (code : Byte) : Option CommandCode :=
  match code.toNat with
  | 0x01 => some .enableFormat
  | 0x02 => some .disableFormat
  | 0x10 => some .pop
  | 0x11 => some .flushQueue
  | 0x20 => some .submit
  | 0x21 => some .stopTx
  | 0x22 => some .abortTx
  | 0x23 => some .popCompletion
  | 0x30 => some .armCapture
  | 0x31 => some .disarmCapture
  | 0x32 => some .releaseCapture
  | 0x33 => some .loadCapture
  | 0x40 => some .enterListen
  | 0x41 => some .enterDormant
  | 0x42 => some .wakeUp
  | 0x43 => some .clearWake
  | 0x5A => some .softReset
  | _ => none

/-- Carry out a command (R185, Table 9-8). -/
def State.carryOut (s : State) : CommandCode → State
  | .enableFormat => s.command State.enableFormat
  | .disableFormat => s.command State.disableFormat
  | .pop => s.command State.popRecord
  | .flushQueue => s.command State.flushRecords
  | .submit => s.command State.submitJob
  | .stopTx => s.command State.stopTx
  | .abortTx => s.command State.abortTx
  | .popCompletion => s.command State.popCompletion
  | .armCapture => s.command State.armCapture
  | .disarmCapture => s.command State.disarmCapture
  | .releaseCapture => s.command State.releaseCapture
  | .loadCapture => s.command State.loadCapture
  | .enterListen => s.command State.enterListen
  | .enterDormant => s.command State.enterDormant
  | .wakeUp => s.commandWakeUp
  | .clearWake => s.command State.clearWake
  | .softReset => s.softReset

/-- A write to COMMAND (R185): taken in every power state; a code that is no command gives UNKNOWN and changes nothing
else. -/
def State.writeCommand (s : State) (code : Byte) : State :=
  match commandOf code with
  | none => s.windowWrite fun s => s.setResult .unknown
  | some c => s.carryOut c

/-- UNKNOWN_COMMAND (R185). -/
def execUnknownCommand (code : Byte) (s : State) : Host.Outcome State Fault Refusal := .next (s.writeCommand code)

/-- REGISTER_WRITE (R188): the write is stored, ignored or refused by its owner's rule, and refused with ACCESS in DORMANT.
An offset that has a row of its own is written as that row says (DESIGN CHOICE, log entry 15). -/
def execRegisterWrite (off : BitVec 6) (v : Byte) (s : State) : Host.Outcome State Fault Refusal :=
  if off.toNat = 0x05 then .next (s.writeCommand v)
  else if off.toNat = 0x16 then .next (s.writeTableData v)
  else .next (s.registerAccess fun s => s.storeRegister off.toNat v)

end Sys2Proof.Machine
end

