-- ==== Sys2Proof/Machine/Dispatch.lean ====
section
/-! DEFINITION. The dispatch: one arm for each step of the table, in the table's order. -/

namespace Sys2Proof.Machine

def exec (i : Instr) (s : State) : Host.Outcome State Fault Refusal :=
  match i with
  | .powerOnReset => Sys2Proof.Machine.execPowerOnReset s
  | .pinReset => Sys2Proof.Machine.execPinReset s
  | .softReset => Sys2Proof.Machine.execSoftReset s
  | .timeTick => Sys2Proof.Machine.execTimeTick s
  | .rxEdge l dt => Sys2Proof.Machine.execRxEdge l dt s
  | .glitchTestAccept l => Sys2Proof.Machine.execGlitchTestAccept l s
  | .settleWaitEnd l => Sys2Proof.Machine.execSettleWaitEnd l s
  | .burstEnd l => Sys2Proof.Machine.execBurstEnd l s
  | .stuck l => Sys2Proof.Machine.execStuck l s
  | .lineEnable l v => Sys2Proof.Machine.execLineEnable l v s
  | .lineDisable l v => Sys2Proof.Machine.execLineDisable l v s
  | .idleWrite l v => Sys2Proof.Machine.execIdleWrite l v s
  | .faultClear l v => Sys2Proof.Machine.execFaultClear l v s
  | .timeLoRead => Sys2Proof.Machine.execTimeLoRead s
  | .decoderBurstStart l => Sys2Proof.Machine.execDecoderBurstStart l s
  | .decoderElement l => Sys2Proof.Machine.execDecoderElement l s
  | .decoderBurstEnd l => Sys2Proof.Machine.execDecoderBurstEnd l s
  | .decoderBurstAbort l => Sys2Proof.Machine.execDecoderBurstAbort l s
  | .outcomeTaken l => Sys2Proof.Machine.execOutcomeTaken l s
  | .lfmDue l => Sys2Proof.Machine.execLfmDue l s
  | .expireRequest l => Sys2Proof.Machine.execExpireRequest l s
  | .post l => Sys2Proof.Machine.execPost l s
  | .repeatCountIncrement l => Sys2Proof.Machine.execRepeatCountIncrement l s
  | .headKindLineRead => Sys2Proof.Machine.execHeadKindLineRead s
  | .pop => Sys2Proof.Machine.execPop s
  | .flushQueue => Sys2Proof.Machine.execFlushQueue s
  | .rqWatermarkWrite v => Sys2Proof.Machine.execRqWatermarkWrite v s
  | .captureBurstStart l => Sys2Proof.Machine.execCaptureBurstStart l s
  | .captureElement l => Sys2Proof.Machine.execCaptureElement l s
  | .captureClose l => Sys2Proof.Machine.execCaptureClose l s
  | .captureReport l => Sys2Proof.Machine.execCaptureReport l s
  | .armCapture => Sys2Proof.Machine.execArmCapture s
  | .disarmCapture => Sys2Proof.Machine.execDisarmCapture s
  | .releaseCapture => Sys2Proof.Machine.execReleaseCapture s
  | .loadCapture => Sys2Proof.Machine.execLoadCapture s
  | .captureControlWrite v => Sys2Proof.Machine.execCaptureControlWrite v s
  | .loadLengthWrite hi v => Sys2Proof.Machine.execLoadLengthWrite hi v s
  | .tableDataRead => Sys2Proof.Machine.execTableDataRead s
  | .tableDataWrite v => Sys2Proof.Machine.execTableDataWrite v s
  | .enableFormat => Sys2Proof.Machine.execEnableFormat s
  | .disableFormat => Sys2Proof.Machine.execDisableFormat s
  | .stagingRegisterWrite r v => Sys2Proof.Machine.execStagingRegisterWrite r v s
  | .submit => Sys2Proof.Machine.execSubmit s
  | .jobStart => Sys2Proof.Machine.execJobStart s
  | .txBurstEnd => Sys2Proof.Machine.execTxBurstEnd s
  | .nextBurstStart => Sys2Proof.Machine.execNextBurstStart s
  | .tailEnd => Sys2Proof.Machine.execTailEnd s
  | .guardHoldEnd l => Sys2Proof.Machine.execGuardHoldEnd l s
  | .stopTx => Sys2Proof.Machine.execStopTx s
  | .abortTx => Sys2Proof.Machine.execAbortTx s
  | .popCompletion => Sys2Proof.Machine.execPopCompletion s
  | .enterListen => Sys2Proof.Machine.execEnterListen s
  | .enterDormant => Sys2Proof.Machine.execEnterDormant s
  | .wakeUp => Sys2Proof.Machine.execWakeUp s
  | .clearWake => Sys2Proof.Machine.execClearWake s
  | .wakeEdge l => Sys2Proof.Machine.execWakeEdge l s
  | .wakeOffer l => Sys2Proof.Machine.execWakeOffer l s
  | .irqCauseWrite v => Sys2Proof.Machine.execIrqCauseWrite v s
  | .irqEnableWrite v => Sys2Proof.Machine.execIrqEnableWrite v s
  | .unknownCommand code => Sys2Proof.Machine.execUnknownCommand code s
  | .registerWrite off v => Sys2Proof.Machine.execRegisterWrite off v s

end Sys2Proof.Machine
end

