-- ==== Sys2Proof/WellFormed.lean ====
section
/-! DEFINITION. Which operands a row of the table admits. A row that stands for a write of one kind (an enabling write
of CONTROL, a clearing write of STATUS, a code that is no command, a register without a row of its own) admits only the
bytes and offsets of that kind; every other row admits every operand its type holds. -/

namespace Sys2Proof

/-- The codes of Table 9-8. -/
def commandCodes : List Byte :=
  [0x01, 0x02, 0x10, 0x11, 0x20, 0x21, 0x22, 0x23, 0x30, 0x31, 0x32, 0x33, 0x40, 0x41, 0x42, 0x43, 0x5A]

/-- The offsets of the registers whose every write has a row of its own: COMMAND, IRQ CAUSE, IRQ ENABLE, both CONTROL
and IDLE registers, TABLE DATA, RQ WATERMARK, CAPTURE CONTROL, CAPTURE COUNT LO and HI and the staging registers. -/
def offsetsWithRows : List (BitVec 6) :=
  [0x05, 0x08, 0x09, 0x0A, 0x0C, 0x0E, 0x10, 0x16, 0x18, 0x28, 0x2A, 0x2B, 0x2C, 0x2D, 0x2E, 0x2F,
   0x30, 0x31, 0x32, 0x33, 0x34, 0x35, 0x36, 0x37, 0x38, 0x39]

/-- The offsets of the two line STATUS registers, whose writes with FAULT 1 have a row of their own (FAULT_CLEAR). -/
def statusOffsets : List (BitVec 6) := [0x0D, 0x11]

/-- The operands a row admits. -/
def Instr.WellFormed : Instr → Bool
  | .lineEnable _ v => v.getLsbD 0
  | .lineDisable _ v => !v.getLsbD 0
  | .faultClear _ v => v.getLsbD 7
  | .unknownCommand code => !commandCodes.contains code
  | .registerWrite off v => !offsetsWithRows.contains off && !(statusOffsets.contains off && v.getLsbD 7)
  | .powerOnReset | .pinReset | .softReset | .timeTick | .rxEdge _ _ | .glitchTestAccept _ | .settleWaitEnd _
  | .burstEnd _ | .stuck _ | .idleWrite _ _ | .timeLoRead | .decoderBurstStart _ | .decoderElement _
  | .decoderBurstEnd _ | .decoderBurstAbort _ | .outcomeTaken _ | .lfmDue _ | .expireRequest _ | .post _
  | .repeatCountIncrement _ | .headKindLineRead | .pop | .flushQueue | .rqWatermarkWrite _ | .captureBurstStart _
  | .captureElement _ | .captureClose _ | .captureReport _ | .armCapture | .disarmCapture | .releaseCapture
  | .loadCapture | .captureControlWrite _ | .loadLengthWrite _ _ | .tableDataRead | .tableDataWrite _
  | .enableFormat | .disableFormat | .stagingRegisterWrite _ _ | .submit | .jobStart | .txBurstEnd
  | .nextBurstStart | .tailEnd | .guardHoldEnd _ | .stopTx | .abortTx | .popCompletion | .enterListen
  | .enterDormant | .wakeUp | .clearWake | .wakeEdge _ | .wakeOffer _ | .irqCauseWrite _ | .irqEnableWrite _ => true

end Sys2Proof
end

