-- ==== Sys2Proof/Safety.lean ====
section
/-! DEFINITION. What a safe step is, and the laws of the processor that the statements are about: each law is a property of
one state, stated for every state and not only for those a run from reset reaches. -/

namespace Sys2Proof.Safety

open Sys2Proof Sys2Proof.Machine

/-- A safe step: neither a fault nor a refusal. -/
def StepIsSafe (s : State) : Prop := ∃ t, step s = .next t

/-- `P` is kept by every step, from any state that meets it. -/
def KeptByEveryStep (P : State → Prop) : Prop := ∀ s t : State, P s → step s = .next t → P t

/-- The rows that reset the processor: POWER_ON_RESET, PIN_RESET, SOFT_RESET, and a write of the code 0x5A to COMMAND spelled
as a row that does not admit it. -/
def isReset : Instr → Bool
  | .powerOnReset => true
  | .pinReset => true
  | .softReset => true
  | .registerWrite off v => decide (off = 0x05 ∧ v = 0x5A)
  | .unknownCommand v => decide (v = 0x5A)
  | _ => false

/-- The row of each kind of reset. -/
def resetRow : ResetKind → Instr
  | .powerOn => .powerOnReset
  | .pin => .pinReset
  | .soft => .softReset

/-- The rows that write a register other than COMMAND (section 9.1). -/
def writesRegister : Instr → Bool
  | .lineEnable _ _ | .lineDisable _ _ | .idleWrite _ _ | .faultClear _ _ => true
  | .rqWatermarkWrite _ | .captureControlWrite _ | .loadLengthWrite _ _ | .stagingRegisterWrite _ _ => true
  | .tableDataWrite _ | .irqCauseWrite _ | .irqEnableWrite _ | .registerWrite _ _ => true
  | _ => false

/-- The rows that write a code to COMMAND (Table 9-8, R185). -/
def writesCommand : Instr → Bool
  | .enableFormat | .disableFormat | .pop | .flushQueue | .submit | .stopTx | .abortTx | .popCompletion => true
  | .armCapture | .disarmCapture | .releaseCapture | .loadCapture => true
  | .enterListen | .enterDormant | .wakeUp | .clearWake | .softReset | .unknownCommand _ => true
  | _ => false

/-- What a reset of each kind leaves in the table space: a power-on reset leaves 0 everywhere, the others keep it (R41, R129,
R172). -/
def tableAfterReset (k : ResetKind) (m : List Host.Cell) (a : Nat) : Byte :=
  match k with
  | .powerOn => 0
  | .pin => Memory.read m a
  | .soft => Memory.read m a

/-- The offset of the CONTROL register of a line; GLITCH, IDLE and STATUS follow it (Table 9-1). -/
def lineOffset : Line → Nat
  | .A => 0x0A
  | .B => 0x0E

/-- Whether a row writes 1 to the FAULT bit of the STATUS register of a line (R16). -/
def clearsFault (l : Line) : Instr → Bool
  | .faultClear m v => decide (m = l) && v.getLsbD 7
  | .registerWrite off v => decide (off.toNat = lineOffset l + 3) && v.getLsbD 7
  | _ => false

/-- The line states in which a change of the input level starts a glitch test, WATCH apart (R3). -/
def testsEdges (st : LineState) : Prop :=
  st = .settle ∨ st = .idle ∨ st = .mark ∨ st = .space ∨ st = .stuck

/-- Whether the threshold of the state of a line is still ahead at an instant, or the state has none (R4). -/
def thresholdAhead (f : FrontEnd) (now : Nat) : Prop := ∀ t, f.thresholdInstant = some t → now < t

/-! ### Table space -/

/-- The table space stands in its canonical form, and the addresses that are not stored read 0 (R30, R180). -/
def TableLaw (s : State) : Prop :=
  Memory.wf s.mem ∧ ∀ a, addressStored a = false → Memory.read s.mem a = 0

/-! ### Receive queue -/

/-- The bounds of R90, with those of the memories and requests that reach the queue: at most 16 records, REPEATS at most 255,
LOST at most 15, a watermark from 1 to 16, and a held record only where there is a record (R99). -/
def QueueLaw (s : State) : Prop :=
  s.rq.records.length ≤ 16 ∧ 1 ≤ s.rq.watermark ∧ s.rq.watermark ≤ 16 ∧
  (∀ r ∈ s.rq.records, r.repeats ≤ 255 ∧ r.lost ≤ 15) ∧
  (s.rq.held = true → s.rq.records ≠ []) ∧
  ∀ l : Line, (∀ p ∈ (s.link.get l).posts, p.record.repeats ≤ 255 ∧ p.record.lost ≤ 15) ∧
    ∀ m, (s.rep.get l).memory = some m → m.repeats ≤ 255

/-- Whether a record carries a memory's line, entry, bit count and payload, and is of kind FRAME or REPEAT (R81). -/
def carries (l : Line) (m : LastFrame) (r : Record) : Prop :=
  r.kind ≠ .release ∧ r.line = l ∧ r.format = m.entry ∧ r.bits = m.bits ∧ r.payload = m.payload

/-- The law of R81: where the memory of a line holds a record reference, the referenced record is one record of the queue, is
not held, and carries the memory's line, entry, bit count and payload. It holds as well of the records that are still on
their way and are to become the reference (log entry 9). -/
def ReferenceLaw (s : State) : Prop :=
  (s.rq.held = true → ∀ r, s.rq.records.head? = some r → r.referred = false) ∧
  ∀ l : Line,
    (s.rq.records.filter (·.refersFor l)).length ≤ 1 ∧
    (∀ r ∈ s.rq.records, r.refersFor l = true → ∃ m, (s.rep.get l).memory = some m ∧ carries l m r) ∧
    (∀ p ∈ (s.link.get l).posts, p.record.line = l) ∧
    (∀ p ∈ (s.link.get l).posts, p.refers = true → ∃ m, (s.rep.get l).memory = some m ∧ carries l m p.record) ∧
    (s.link.get l).posts.Pairwise (fun p q => q.refers = true → q.counts = false → p.refers = false) ∧
    (∀ p ∈ (s.link.get l).posts, p.refers = true → p.counts = false → s.rq.hasReference l = false)

/-! ### Format table -/

/-- The entries in the candidate set of the decoder of `l`. -/
def candidateEntries (s : State) (l : Line) : List (Fin 8) := (s.dec.get l).candidates.map (·.entry)

/-- The format entry an outcome was won by, for the outcomes that fill or update a memory. -/
def outcomeEntry : BurstOutcome → Option (Fin 8)
  | .frame n _ _ _ _ _ => some n
  | .repeated n _ _ => some n
  | .orphan _ _ => none
  | .unmatched _ _ => none
  | .aborted _ => none

/-- Whether the end of a burst on `l` completes the retirement of an entry: its decoder is the last holder of a RETIRING entry
(R40, R67). -/
abbrev retiresAtEnd (s : State) (l : Line) (n : Fin 8) : Prop :=
  n ∈ candidateEntries s l ∧ s.entries[n].st = .retiring ∧ (s.entries[n].setHolder (.decoder l) false).unheld = true

/-- Whether the memory of `l` stays empty whatever outcome is taken next, outside DORMANT: for a burst that began before the line
was disabled, from the request to expire on, and on an OFF line whose request has been taken (R85; log entry 22). -/
abbrev staysEmptyAfterDisable (s : State) (l : Line) : Prop :=
  0 < (s.link.get l).oldBursts ∨ ((s.fe.get l).st = .off ∧ (s.link.get l).expireRequests = [])

/-- Whether the transmitter has an active job (R132, R133). -/
def jobActiveNow (s : State) : Prop := s.tx.st = .burst ∨ s.tx.st = .gap

/-- Whether the holder set of an entry contains the decoder of a line. -/
def heldByDecoder (e : EntryControl) : Line → Bool
  | .A => e.decoderA
  | .B => e.decoderB

/-- The laws of R38 and R71. A decoder is a holder of exactly the entries in its candidate set, and a decoder in WAIT has none;
the transmitter is a holder of exactly the entry its active job names; a DISABLED entry has no holder and a RETIRING entry
has one; a memory that holds a frame, and an outcome on its way to one, name no DISABLED entry. -/
def HolderLaw (s : State) : Prop :=
  (∀ (n : Fin 8) (l : Line), heldByDecoder s.entries[n] l = true ↔ n ∈ candidateEntries s l) ∧
  (∀ l : Line, (s.dec.get l).st = .wait → (s.dec.get l).candidates = []) ∧
  (jobActiveNow s → s.tx.jobs ≠ []) ∧
  (∀ n : Fin 8, s.entries[n].transmitter = true ↔
    jobActiveNow s ∧ ∃ j, s.tx.jobs.head? = some j ∧ j.entry = some n) ∧
  (∀ n : Fin 8, s.entries[n].st = .disabled → s.entries[n].unheld = true) ∧
  (∀ n : Fin 8, s.entries[n].st = .retiring → s.entries[n].unheld = false) ∧
  (∀ (l : Line) (m : LastFrame), (s.rep.get l).memory = some m → s.entries[m.entry].st ≠ .disabled) ∧
  (∀ (l : Line) (o : BurstOutcome) (n : Fin 8), (s.link.get l).outcome = some o → outcomeEntry o = some n →
    n ∈ candidateEntries s l)

/-- The law of R36: for every ENABLED or RETIRING entry and every line in its LINES mask, every space-window maximum of the
entry is less than that line's IDLE × 100 µs. -/
def IdleLaw (s : State) : Prop :=
  ∀ (n : Fin 8) (l : Line), s.entries[n].st ≠ .disabled → (s.format n).namesLine l = true →
    ∀ w ∈ (s.format n).spaceWindows, w.hi < 100 * (s.fe.get l).idle.toNat

/-! ### The seven steps of ENABLE FORMAT, as R32 to R37 word them -/

/-- A window that is absent, (0, 0). -/
def gone (w : Window) : Prop := w.lo = 0 ∧ w.hi = 0

/-- A window with a minimum of at least 1, no greater than its maximum. -/
def here (w : Window) : Prop := 1 ≤ w.lo ∧ w.lo ≤ w.hi

/-- Two windows that some duration matches both. -/
def meet (v w : Window) : Prop := v.lo ≤ w.hi ∧ w.lo ≤ v.hi

/-- Step 1, the codes (R32). -/
def StepCodes (f : Format) : Prop := f.coding ≠ .illegal ∧ f.repeatKind ≠ .illegal

/-- Step 2, the bit counts (R32). -/
def StepBits (f : Format) : Prop :=
  (1 ≤ f.minBits ∧ f.minBits ≤ f.maxBits ∧ f.maxBits ≤ 64) ∧ (f.check = .invertedPairs → 16 ∣ f.minBits ∧ 16 ∣ f.maxBits)

/-- Step 3, the form of the windows (R33). That a repeat window which is present has a minimum of at least 1 is log entry 10. -/
def StepWindows (f : Format) : Prop :=
  (gone f.repeatMark ∨ here f.repeatMark) ∧ (gone f.repeatSpace ∨ here f.repeatSpace) ∧
  (f.coding ≠ .biphase →
    ((gone f.headerMark ∧ gone f.headerSpace) ∨ (here f.headerMark ∧ here f.headerSpace)) ∧
    (here f.mark0 ∧ here f.space0 ∧ here f.mark1 ∧ here f.space1) ∧ (gone f.trailerMark ∨ here f.trailerMark)) ∧
  (f.coding = .biphase →
    (gone f.headerMark ∧ gone f.headerSpace ∧ gone f.trailerMark) ∧ here f.mark0 ∧ f.mark1.lo ≤ f.mark1.hi ∧
    f.mark0.hi < f.mark1.lo ∧
    f.mark1.lo ≤ 2 * ((f.mark0.lo + f.mark0.hi) / 2) ∧ 2 * ((f.mark0.lo + f.mark0.hi) / 2) ≤ f.mark1.hi)

/-- Step 4, the two bit values told apart (R34). -/
def StepDistinct (f : Format) : Prop :=
  f.coding ≠ .biphase →
    ¬ (meet f.mark0 f.mark1 ∧ meet f.space0 f.space1) ∧ ¬ (meet f.mark0 f.mark1 ∧ gone f.trailerMark)

/-- Step 5, the repeat fields (R35). -/
def StepRepeat (f : Format) : Prop :=
  (f.repeatKind = .code → f.coding ≠ .biphase ∧ ¬ gone f.repeatMark ∧ ¬ gone f.repeatSpace ∧ ¬ gone f.trailerMark) ∧
  (f.repeatKind ≠ .none ∨ f.release = true → 1 ≤ f.rw)

/-- Step 6, the space windows below the idle threshold of each line named (R36). -/
def StepIdle (f : Format) (idleA idleB : Byte) : Prop :=
  ∀ w ∈ (if f.coding = .biphase then [f.mark0, f.mark1] else [f.headerSpace, f.space0, f.space1, f.repeatSpace]),
    (f.lineA = true → w.hi < 100 * idleA.toNat) ∧ (f.lineB = true → w.hi < 100 * idleB.toNat)

/-- Step 7, the carrier (R37). -/
def StepCarrier (f : Format) : Prop := (80 ≤ f.period ∧ f.period ≤ 1023) ∧ (f.duty = 0 ∨ (10 ≤ f.duty ∧ f.duty ≤ 75))

/-! ### Capture unit and transmitter -/

/-- The laws of R132, R134 and R137: at most four jobs; the unread completions, plus one while a job is active, never exceed
four; an active job stands at the head of the job queue; burst counts are at most 255. -/
def JobLaw (s : State) : Prop :=
  s.tx.jobs.length ≤ 4 ∧ s.tx.completions.length ≤ 4 ∧ s.tx.bursts ≤ 255 ∧
  (jobActiveNow s → s.tx.completions.length + 1 ≤ 4 ∧ s.tx.jobs ≠ []) ∧
  ∀ c ∈ s.tx.completions, c.bursts ≤ 255

/-- The law of R126: PIN COUNT equals the number of REPLAY jobs queued or active, and while it is above zero the capture state
is FULL. -/
def PinLaw (s : State) : Prop :=
  s.cap.pins = s.tx.jobs.countP (fun j => decide (j.kind = .replay)) ∧
  (0 < s.cap.pins → s.cap.st.isFull = true)

/-- What a last-frame memory, a record or a post says about the identity of the record: every field but REPEATS, LOSS, LOST
and the reference, which are the ones that can change in the queue (R91). -/
def identity (r : Record) : RecordKind × Line × Fin 8 × Nat × Payload × Bool × Time :=
  (r.kind, r.line, r.format, r.bits, r.payload, r.check, r.stamp)

/-- The RELEASE record that a memory of `l` posts when it is let go at the present TIME, if its flag is set (R79, R83). -/
def releaseOf (s : State) (l : Line) (m : LastFrame) : List Record :=
  if m.release then [⟨.release, l, m.entry, m.bits, m.payload, m.repeats, false, false, 0, s.clock.time, false⟩] else []

/-- Of the records a list of requests of `l` carries, those that are still to be posted when the reference of the memory is
given up: an increment on its way counts in the referenced record first (R77; log entry 9). -/
def stillPosted (s : State) (l : Line) (posts : List Post) : List Record :=
  (posts.filter fun q => !(q.counts && s.rq.hasReference l)).map (·.record)

/-- What the taking of an outcome of `l` does whatever the outcome (R67, R72, R40, R87; log entry 7): OPEN is cleared, the decoder
returns to WAIT and leaves the holder sets of its candidates' entries, the retirements that this completes set RETIRED and
empty the memories that name the entry, posting nothing; the records of the queue keep their identity. The other line, unless
its memory is one of these, and everything else stay as they are. -/
def BurstSettled (s : State) (l : Line) (t : State) : Prop :=
  let after : Fin 8 → EntryControl := fun n => s.entries[n].setHolder (.decoder l) false
  t.dec = s.dec.set l ⟨.wait, (s.dec.get l).start, []⟩ ∧ (t.link.get l).outcome = none ∧ (t.rep.get l).opened = false ∧
  (∀ n : Fin 8, (retiresAtEnd s l n → t.entries[n] = { after n with st := .disabled }) ∧
    (n ∈ candidateEntries s l → ¬ retiresAtEnd s l n → t.entries[n] = after n) ∧
    (n ∉ candidateEntries s l → t.entries[n] = s.entries[n])) ∧
  t.irq = { s.irq with retired := t.irq.retired } ∧
  (t.irq.retired = true ↔ s.irq.retired = true ∨ ∃ n, retiresAtEnd s l n) ∧
  (∀ x m, (t.rep.get x).memory = some m → ¬ retiresAtEnd s l m.entry) ∧
  (∀ x, x ≠ l →
    ((∀ m, (s.rep.get x).memory = some m → ¬ retiresAtEnd s l m.entry) →
      t.rep.get x = s.rep.get x ∧ t.link.get x = s.link.get x) ∧
    ∀ m, (s.rep.get x).memory = some m → retiresAtEnd s l m.entry →
      t.rep.get x = { s.rep.get x with memory := none, due := false, dueReached := false } ∧
      (t.link.get x).posts.map (·.record) = stillPosted s x (s.link.get x).posts ∧
      ∀ r ∈ t.rq.records, r.refersFor x = false) ∧
  t.rq.records.map identity = s.rq.records.map identity ∧ t.rq.held = s.rq.held ∧ t.rq.watermark = s.rq.watermark ∧
  (∀ a, Memory.read t.mem a = Memory.read s.mem a) ∧ t.pending = s.pending ∧ t.fe = s.fe ∧ t.cap = s.cap ∧ t.tx = s.tx ∧
  t.pow = s.pow ∧ t.win = s.win ∧ t.clock = s.clock

/-- The end of the active job with a status at an instant, as R145 and R152 give it: the completion, the job gone from the
queue, the TAIL of the entry's TX GAP, the entry no longer held, with its retirement when it was RETIRING and has no other
holder (R40), which empties the memories that name it and leaves the others, the pin given up, and each blanking hold passed to
the guard timer for GUARD × 100 µs, or given up with GUARD 0, when a BLANKED line enters SETTLE and its wait begins (R13; at the
present instant of the model's clock, log entries 2 and 23). -/
def JobEnded (s : State) (j : Job) (n : Fin 8) (status : CompletionStatus) (bursts instant : Nat)
    (t : State) : Prop :=
  let left : EntryControl := { s.entries[n] with transmitter := false }
  let retires : Prop := s.entries[n].st = .retiring ∧ left.unheld = true
  t.tx = { s.tx with
    st := .tail
    bursts := bursts
    jobs := s.tx.jobs.tail
    completions := s.tx.completions ++ [⟨j.tag, status, bursts⟩]
    tailEnd := instant + 8 * (100 * (s.format n).txGap) } ∧
  (¬ retires → t.entries = s.entries.set n left ∧ t.rep = s.rep ∧ t.link = s.link ∧ t.rq = s.rq ∧ t.irq = s.irq) ∧
  (retires → t.entries = s.entries.set n { left with st := .disabled } ∧ t.irq = { s.irq with retired := true } ∧
    (∀ l, ((∀ m, (s.rep.get l).memory = some m → m.entry ≠ n) →
        t.rep.get l = s.rep.get l ∧ t.link.get l = s.link.get l) ∧
      ∀ m, (s.rep.get l).memory = some m → m.entry = n →
        t.rep.get l = { s.rep.get l with memory := none, due := false, dueReached := false } ∧
        (t.link.get l).posts.map (·.record) = stillPosted s l (s.link.get l).posts ∧
        ∀ r ∈ t.rq.records, r.refersFor l = false) ∧
    t.rq.records.map identity = s.rq.records.map identity ∧ t.rq.held = s.rq.held ∧ t.rq.watermark = s.rq.watermark) ∧
  t.cap = { s.cap with pins := if j.kind = .replay then s.cap.pins - 1 else s.cap.pins } ∧
  (∀ l,
    ((s.fe.get l).txHold = false → t.fe.get l = s.fe.get l) ∧
    ((s.fe.get l).txHold = true → s.tx.guardSetting ≠ 0 → t.fe.get l = { s.fe.get l with
      txHold := false, guardHold := some (instant + 8 * (100 * s.tx.guardSetting.toNat)) }) ∧
    ((s.fe.get l).txHold = true → s.tx.guardSetting = 0 →
      ((s.fe.get l).st ≠ .blanked → t.fe.get l = { s.fe.get l with txHold := false, guardHold := none }) ∧
      ((s.fe.get l).st = .blanked → t.fe.get l = { s.fe.get l with
        txHold := false
        guardHold := none
        st := .settle
        test := none
        wait := if (s.fe.get l).active then none else some t.clock.now
        threshold := 8 * (100 * (s.fe.get l).idle.toNat) }))) ∧
  (∀ a, Memory.read t.mem a = Memory.read s.mem a) ∧ t.pending = s.pending ∧ t.dec = s.dec ∧ t.pow = s.pow

/-! ### Lines and power states -/

/-- The laws of the line states (Table 1-1, R5, R12 to R15), of the memory of an OFF line (R85) and of DORMANT (R160). A line is
BLANKED exactly while it is enabled and has a blanking holder; the transmitter is a blanking holder only while a job is
active; lines are PARKED or in WATCH in DORMANT and at no other time; the memory of an OFF line is empty but for one whose
request to expire is still on its way, and stays empty until the outcomes of the bursts that began before the disable have
been taken. In DORMANT no burst is in progress or open, the transmitter is IDLE with an empty job queue, no guard hold runs,
the capture unit is not FILLING, both memories are empty, and no notice to a decoder, no outcome, no request to expire and no
post is on its way (R109, R197). -/
def LineLaw (s : State) : Prop :=
  (∀ l : Line,
    ((s.fe.get l).st = .blanked ↔ (s.fe.get l).st ≠ .off ∧ (s.fe.get l).blankingHeld = true) ∧
    ((s.fe.get l).txHold = true → jobActiveNow s) ∧
    ((s.fe.get l).st = .parked ∨ (s.fe.get l).st = .watch → s.pow.st = .dormant) ∧
    (staysEmptyAfterDisable s l → (s.rep.get l).memory = none)) ∧
  (s.pow.st = .dormant →
    s.tx.st = .idle ∧ s.tx.jobs = [] ∧ (∀ l, s.cap.st ≠ .filling l) ∧
    ∀ l : Line, ((s.fe.get l).st = .off ∨ (s.fe.get l).st = .parked ∨ (s.fe.get l).st = .watch) ∧
      (s.fe.get l).blankingHeld = false ∧ (s.rep.get l).memory = none ∧ (s.rep.get l).opened = false ∧
      (s.link.get l).toDecoder = [] ∧ (s.link.get l).outcome = none ∧ (s.link.get l).expireRequests = [] ∧
      (s.link.get l).oldBursts = 0 ∧ (s.link.get l).posts = [])

/-- The law of a reset that is being held (R172, R174): every block stands at its reset values, with nothing on its way. The
levels at the inputs, the table space, the model's clock and its count of free choices, and the commands still to be taken are
left open (log entries 2, 5, 16 and 24). -/
def ResetLaw (s : State) : Prop :=
  s.pow.resetHeld = true →
    (∃ a b, s.fe = ⟨FrontEnd.reset a, FrontEnd.reset b⟩) ∧ s.dec = ⟨Decoder.reset, Decoder.reset⟩ ∧
    s.rep = ⟨RepeatUnit.reset, RepeatUnit.reset⟩ ∧ s.link = ⟨Links.reset, Links.reset⟩ ∧
    s.entries = Vector.replicate 8 EntryControl.reset ∧ s.rq = ReceiveQueue.reset ∧ s.cap = Capture.reset ∧
    s.tx = Transmitter.reset ∧ (∃ k, s.pow = { PowerUnit.reset k with resetHeld := true }) ∧ s.win = HostWindow.reset ∧
    s.irq = InterruptUnit.reset ∧ s.clock.time = 0 ∧ s.clock.snapshot = 0

/-! ### Bursts sent and received -/

/-- A candidate takes the elements of a burst one after the other; none when it is removed on the way (R45). -/
def takeBurst (f : Format) : Candidate → List Element → Option Candidate
  | c, [] => some c
  | c, e :: es => (c.take f e.level e.us).bind fun c => takeBurst f c es

/-- The bits a decoder reads from a burst with an entry tested as a frame: the candidate of the entry takes every element and is
complete at the end (R43, R45, R60). -/
def decodeFrame (n : Fin 8) (f : Format) (es : List Element) : Option (List Bool) :=
  (takeBurst f (newFrameCandidate n f) es).bind fun c => c.endTest f

end Sys2Proof.Safety
end

