-- ==== Sys2Proof/Certificates/Slice0/Obligations.lean ====
section
/-! DEFINITION. The statements for the provers, rule by rule of the spec: what each row of the table does, where it completes,
what it leaves alone, and the laws that every step keeps. A clause that rests on a choice of the model names its log entry. -/

open Sys2Proof Sys2Proof.Machine Sys2Proof.Safety

/-! ### The machine -/

/-- The command at the front of the queue is carried out with the queue's rest; an empty queue idles for one tick of the
model's clock. The queue and the tick are the model's own (log entries 1 and 2). -/
def Obligations.StepRunsFrontCommand : Prop :=
  (∀ (c : Instr) (rest : List Instr) (s : State), s.pending = c :: rest → step s = exec c { s with pending := rest }) ∧
  ∀ s : State, s.pending = [] → step s = .next { s with clock := { s.clock with now := s.clock.now + 1 } }

/-- No command stops the block: that the spec gives every row an effect in every state is the model's reading (log entry
20). None touches the commands still waiting: their queue is the model's own (log entries 1 and 3). -/
def Obligations.EveryCommandCompletes : Prop :=
  ∀ (c : Instr) (s : State), ∃ t, exec c s = .next t ∧ t.pending = s.pending

/-! ### Resets -/

/-- R17, R88, R110: after every kind of reset the lines, the repeat units and the receive queue stand at their reset values,
with nothing on its way to or from them; the decoders are in WAIT with empty sets. (A SOFT RESET is a write of COMMAND, which
is taken while no other reset is held: R174.) -/
def Obligations.ResetClearsReceiveSide : Prop :=
  ∀ (k : ResetKind) (s : State), (k = .soft → s.pow.resetHeld = false) → ∃ t, exec (resetRow k) s = .next t ∧
    (∀ l : Line,
      (t.fe.get l).st = .off ∧ (t.fe.get l).enabled = false ∧ (t.fe.get l).polarity = true ∧ (t.fe.get l).glitch = 0 ∧
      (t.fe.get l).idle = 100 ∧ (t.fe.get l).fault = false ∧ (t.fe.get l).txHold = false ∧
      (t.fe.get l).guardHold = none ∧ (t.fe.get l).test = none ∧ (t.fe.get l).wait = none ∧
      (t.dec.get l).st = .wait ∧ (t.dec.get l).candidates = [] ∧
      (t.rep.get l).memory = none ∧ (t.rep.get l).opened = false ∧ (t.rep.get l).due = false ∧
      (t.rep.get l).dueReached = false ∧ (∀ o, t.repeatedMemory l o = none) ∧
      (t.link.get l).toDecoder = [] ∧ (t.link.get l).toCapture = [] ∧ (t.link.get l).outcome = none ∧
      (t.link.get l).reports = [] ∧ (t.link.get l).offers = [] ∧ (t.link.get l).wakeEdges = 0 ∧
      (t.link.get l).expireRequests = [] ∧ (t.link.get l).oldBursts = 0 ∧ (t.link.get l).posts = [] ∧
      t.rq.hasReference l = false) ∧
    t.rq.records = [] ∧ t.rq.held = false ∧ t.readRegister 0x17 = 0 ∧ t.readRegister 0x18 = 1 ∧
    t.rqCondition = false ∧ t.irq.loss = false ∧
    ∀ off : BitVec 6, 0x19 ≤ off.toNat → off.toNat ≤ 0x27 → t.readRegister off = 0

/-- R41, R129, R156: after every kind of reset the format table, the capture unit and the transmitter stand at their reset
values; the bytes of the table space are zeroed by a power-on reset and kept by the others; a LOAD CAPTURE at the reset load
length and an ENABLE FORMAT of an entry of zero bytes are refused. -/
def Obligations.ResetClearsSendingSide : Prop :=
  ∀ (k : ResetKind) (s : State), (k = .soft → s.pow.resetHeld = false) → ∃ t, exec (resetRow k) s = .next t ∧
    (∀ n : Fin 8, t.entries[n].st = .disabled ∧ t.entries[n].unheld = true) ∧
    (∀ a, Memory.read t.mem a = tableAfterReset k s.mem a) ∧ t.irq.retired = false ∧
    (k = .powerOn → ∀ n : Fin 8, (t.format n).minBits = 0 ∧ t.validateEntry n = .badBits) ∧
    t.cap.st = .idle ∧ t.cap.count = 0 ∧ t.cap.truncated = false ∧ t.cap.missed = false ∧ t.cap.pins = 0 ∧
    t.cap.lists.a = [] ∧ t.cap.lists.b = [] ∧ t.cap.select = .any ∧ t.cap.mode = .unmatched ∧ t.cap.rearm = false ∧
    t.cap.latchedSelect = .any ∧ t.cap.latchedMode = .unmatched ∧ t.cap.loadLength = 0 ∧
    t.loadCapture = (t, .badArg) ∧
    t.tx.st = .idle ∧ t.tx.jobs = [] ∧ t.tx.completions = [] ∧
    (∀ l, (t.fe.get l).guardHold = none ∧ (t.fe.get l).txHold = false) ∧
    t.tx.guardSetting = 20 ∧ (∀ r, t.tx.staging.register r = 0) ∧ t.txo = false ∧ t.txDoneCondition = false

/-- After every kind of reset the power unit, the host window, the time base and the interrupt unit stand at their reset
values, and each register reads what Table 9-1 gives, but for 0x17 to 0x27, which ResetClearsReceiveSide states. That the
first millisecond of TIME ends 1 ms after the reset on the model's clock is log entry 2.

RESET SOURCE is the kind of the last reset, changes at a reset and at no other command, and reads its code; a write
to it has no effect in ACTIVE and LISTEN and is refused with ACCESS in DORMANT. -/
def Obligations.ResetLeavesRegisters : Prop :=
  (∀ (k : ResetKind) (s : State), (k = .soft → s.pow.resetHeld = false) → ∃ t, exec (resetRow k) s = .next t ∧
    t.pow.st = .active ∧ t.pow.resetHeld = false ∧ t.pow.wakePin = false ∧ t.pow.matched = none ∧ t.pow.wakeSource = .none ∧
    t.pow.resetSource = k ∧ (k = .powerOn → ∀ n, (wakeEntryAt t.mem n).valid = false) ∧
    t.clock.time = 0 ∧ t.clock.snapshot = 0 ∧ t.clock.tickAt = t.clock.now + Config.ms 1 ∧
    t.win.pointer = 0 ∧ t.irqAsserted = false ∧
    t.readRegister 0x00 = 0x5B ∧ t.readRegister 0x01 = 0x02 ∧ t.readRegister 0x02 = 0 ∧
    t.readRegister 0x03 = BitVec.ofNat 8 k.code ∧ t.readRegister 0x16 = tableAfterReset k s.mem 0 ∧
    (∀ off : BitVec 6,
      off ∈ ([0x04, 0x05, 0x06, 0x07, 0x08, 0x09, 0x0B, 0x0D, 0x0F, 0x11, 0x12, 0x13, 0x14, 0x15] : List (BitVec 6)) →
        t.readRegister off = 0) ∧
    t.readRegister 0x0A = 2 ∧ t.readRegister 0x0E = 2 ∧ t.readRegister 0x0C = 100 ∧ t.readRegister 0x10 = 100 ∧
    t.readRegister 0x28 = 3 ∧ t.readRegister 0x3E = 20 ∧
    ∀ off : BitVec 6, 0x29 ≤ off.toNat → off.toNat ≤ 0x3F → off ≠ 0x3E → t.readRegister off = 0) ∧
  ((∀ (k : ResetKind) (s : State), (k = .soft → s.pow.resetHeld = false) →
    ∃ t, exec (resetRow k) s = .next t ∧ t.pow.resetSource = k) ∧
  (∀ (c : Instr) (s t : State), isReset c = false → exec c s = .next t → t.pow.resetSource = s.pow.resetSource) ∧
  (∀ s : State, s.readRegister 0x03 =
    match s.pow.resetSource with
    | .powerOn => 1
    | .pin => 2
    | .soft => 3) ∧
  ∀ (v : Byte) (s : State), s.pow.resetHeld = false → exec (.registerWrite 0x03 v) s =
    .next (if s.pow.st = .dormant then { s with irq := { s.irq with access := true } } else s))

/-! ### Time base -/

/-- TIME (section 1.9): TIME_TICK adds 1, with wrap, at the end of the millisecond, outside DORMANT and while no reset is held; no
other command but a reset changes TIME; DORMANT keeps the rest of the millisecond for the exit. A memory falls due when TIME
becomes equal to its last end plus RW, counted modulo 65536 (section 4.5), and stays due until its expiry is taken (log entry
6). The instants are of the model's clock (log entry 2). -/
def Obligations.TimeAdvancesByTicks : Prop :=
  (∀ s : State, s.pow.st ≠ .dormant → s.pow.resetHeld = false → ∃ t, exec .timeTick s = .next t ∧
    t.clock.time = s.clock.time + 1 ∧
    t.clock.now = max s.clock.now s.clock.tickAt ∧ t.clock.tickAt = s.clock.tickAt + Config.ms 1 ∧
    t.clock.snapshot = s.clock.snapshot ∧
    (∀ l, (t.rep.get l).memory = (s.rep.get l).memory ∧ (t.rep.get l).opened = (s.rep.get l).opened ∧
      (t.rep.get l).due = (s.rep.get l).due ∧
      ((t.rep.get l).dueReached = true ↔ (s.rep.get l).dueReached = true ∨ ∃ m, (s.rep.get l).memory = some m ∧
        s.clock.time + 1 = m.lastEnd + BitVec.ofNat 16 (s.format m.entry).rw)) ∧
    t.pending = s.pending ∧ t.fe = s.fe ∧ t.dec = s.dec ∧ t.link = s.link ∧ t.entries = s.entries ∧
    (∀ a, Memory.read t.mem a = Memory.read s.mem a) ∧ t.rq = s.rq ∧ t.cap = s.cap ∧ t.tx = s.tx ∧ t.pow = s.pow ∧
    t.win = s.win ∧ t.irq = s.irq) ∧
  (∀ s : State, s.pow.st = .dormant ∨ s.pow.resetHeld = true → exec .timeTick s = .next s) ∧
  (∀ (c : Instr) (s t : State), isReset c = false → c ≠ .timeTick → exec c s = .next t → t.clock.time = s.clock.time) ∧
  (∀ s : State, s.pow.st ≠ .dormant → s.pow.resetHeld = false → s.win.arg.toNat ≤ 3 → s.tx.st = .idle → s.tx.jobs = [] →
    ∃ t, exec .enterDormant s = .next t ∧ t.clock.remain = s.clock.tickAt - s.clock.now) ∧
  ∀ s : State, s.pow.st = .dormant → s.pow.resetHeld = false → ∃ t, exec .wakeUp s = .next t ∧ t.clock.tickAt = s.clock.now + s.clock.remain

/-- R19: a read of TIME LO returns the low byte of TIME and copies the high byte into the snapshot; TIME HI reads the snapshot,
which nothing else but a reset changes, so that the two reads give one value; every reset clears the snapshot. While a reset is
held the read returns 0 and copies nothing (R174). -/
def Obligations.TimeLoReadTakesSnapshot : Prop :=
  (∀ s : State, s.pow.resetHeld = false → exec .timeLoRead s = .next { s with
    clock := { s.clock with snapshot := s.clock.time.extractLsb' 8 8 }
    win := { s.win with dataBus := s.clock.time.extractLsb' 0 8 } }) ∧
  (∀ s : State, s.pow.resetHeld = true → exec .timeLoRead s = .next { s with win := { s.win with dataBus := 0 } }) ∧
  (∀ s : State, s.readRegister 0x12 = s.clock.time.extractLsb' 0 8 ∧ s.readRegister 0x13 = s.clock.snapshot) ∧
  (∀ (c : Instr) (s t : State), isReset c = false → c ≠ .timeLoRead → exec c s = .next t →
    t.clock.snapshot = s.clock.snapshot) ∧
  ∀ (k : ResetKind) (s : State), (k = .soft → s.pow.resetHeld = false) →
    ∃ t, exec (resetRow k) s = .next t ∧ t.clock.snapshot = 0

/-! ### Line front ends -/

/-- A change of the input level (R3, R4, R15): in SETTLE, IDLE, MARK, SPACE and STUCK it starts a glitch test of the new level,
or, with a test running, ends that test with both edges ignored, a threshold passed meanwhile being acted on now; with
GLITCH 0 the edge is accepted at its own instant. In OFF, BLANKED and PARKED it is ignored. In WATCH only a change to the
active level is tested. An edge that comes after the instant of a threshold, or at or after the end of a test, is judged in the
state to which the threshold or the accepted edge has led. The clock of the edge, that order at one instant, and that a test
keeps the idle threshold in force at its edge are the model's (log entries 2 and 4). -/
def Obligations.RawEdgeIsTestedFirst : Prop :=
  ∀ (l : Line) (dt : Nat) (s : State),
    let f := s.fe.get l
    let now := s.clock.now + dt
    let u : State := { s with clock := { s.clock with now := now } }
    (testsEdges f.st → f.test = none → thresholdAhead f now →
      (f.glitch ≠ 0 → exec (.rxEdge l dt) s =
        .next { u with fe := s.fe.set l { f with level := !f.level, test := some ⟨now, f.idleThreshold⟩ } }) ∧
      (f.glitch = 0 → exec (.rxEdge l dt) s =
        .next (State.acceptEdge { u with fe := s.fe.set l { f with level := !f.level, test := some ⟨now, f.idleThreshold⟩ } }
          l ⟨now, f.idleThreshold⟩))) ∧
    (∀ g, testsEdges f.st → f.test = some g → now < g.edge + Config.us f.glitch.toNat →
      (thresholdAhead f now → exec (.rxEdge l dt) s =
        .next { u with fe := s.fe.set l { f with level := !f.level, test := none } }) ∧
      (¬ thresholdAhead f now → exec (.rxEdge l dt) s =
        .next (State.actOnThreshold { u with fe := s.fe.set l { f with level := !f.level, test := none } } l))) ∧
    ((f.st = .off ∨ f.st = .blanked ∨ f.st = .parked) → exec (.rxEdge l dt) s =
      .next { u with fe := s.fe.set l { f with level := !f.level } }) ∧
    (f.st = .watch → f.test = none →
      (f.active = true → exec (.rxEdge l dt) s = .next { u with fe := s.fe.set l { f with level := !f.level } }) ∧
      (f.active = false → f.glitch ≠ 0 → exec (.rxEdge l dt) s =
        .next { u with fe := s.fe.set l { f with level := !f.level, test := some ⟨now, f.idleThreshold⟩ } }) ∧
      (f.active = false → f.glitch = 0 → exec (.rxEdge l dt) s = .next { u with
        fe := s.fe.set l { f with level := !f.level, test := none }
        link := s.link.set l { s.link.get l with wakeEdges := (s.link.get l).wakeEdges + 1 } })) ∧
    (∀ g, f.st = .watch → f.test = some g → now < g.edge + Config.us f.glitch.toNat → f.active = true →
      exec (.rxEdge l dt) s = .next { u with fe := s.fe.set l { f with level := !f.level, test := none } }) ∧
    (f.test = none → ¬ thresholdAhead f now → exec (.rxEdge l dt) s = exec (.rxEdge l 0) (u.actOnThreshold l)) ∧
    ∀ g, (testsEdges f.st ∨ f.st = .watch) → f.test = some g → g.edge + Config.us f.glitch.toNat ≤ now →
      exec (.rxEdge l dt) s = exec (.rxEdge l 0) (u.acceptEdge l g)

/-- An accepted edge (R5 to R7, R10, R15): in IDLE it starts a burst, whose BURST START carries TIME; in MARK and SPACE it
reports the element that ended, its duration in whole µs between the two accepted edges and at least 1; in SETTLE it ends
the count, or begins it; in STUCK it begins a SETTLE wait; in WATCH it sends WAKE EDGE. What begins is measured from the
tested edge. Without a test the event does not occur (log entry 1). The instant of acceptance, edge plus GLITCH, is one of the
model's clock, which moves on to it (log entry 2).

Two clauses are the model's own choice or reading. That an edge in SETTLE leaves the threshold of the wait as it was at the entry to
SETTLE, through each restart of the count, is a design choice (log entry 23). That the space after a MARK, and the wait after
STUCK, keep the idle threshold in force at the tested edge, and not the one at its acceptance, is deduced (log entries 4
and 23). -/
def Obligations.AcceptedEdgeActsByLineState : Prop :=
  ∀ (l : Line) (s : State),
    let f := s.fe.get l
    let k := s.link.get l
    let u : GlitchTest → State := fun g =>
      { s with clock := { s.clock with now := max s.clock.now (g.edge + Config.us f.glitch.toNat) } }
    (f.test = none → exec (.glitchTestAccept l) s = .next s) ∧
    ∀ g, f.test = some g →
      (f.st = .idle → exec (.glitchTestAccept l) s = .next { u g with
        fe := s.fe.set l { f with st := .mark, test := none, since := g.edge }
        link := s.link.set l { k with
          toDecoder := k.toDecoder ++ [.burstStart s.clock.time]
          toCapture := k.toCapture ++ [.burstStart s.clock.time] } }) ∧
      (f.st = .mark → exec (.glitchTestAccept l) s = .next { u g with
        fe := s.fe.set l { f with st := .space, test := none, since := g.edge, threshold := g.threshold }
        link := s.link.set l { k with
          toDecoder := k.toDecoder ++ [.element .mark (max 1 ((g.edge - f.since) / 8))]
          toCapture := k.toCapture ++ [.element .mark (max 1 ((g.edge - f.since) / 8))] } }) ∧
      (f.st = .space → exec (.glitchTestAccept l) s = .next { u g with
        fe := s.fe.set l { f with st := .mark, test := none, since := g.edge }
        link := s.link.set l { k with
          toDecoder := k.toDecoder ++ [.element .space (max 1 ((g.edge - f.since) / 8))]
          toCapture := k.toCapture ++ [.element .space (max 1 ((g.edge - f.since) / 8))] } }) ∧
      (f.st = .settle → exec (.glitchTestAccept l) s = .next { u g with
        fe := s.fe.set l { f with test := none, wait := if f.wait = none then some g.edge else none } }) ∧
      (f.st = .stuck → exec (.glitchTestAccept l) s = .next { u g with
        fe := s.fe.set l { f with st := .settle, test := none, wait := some g.edge, threshold := g.threshold } }) ∧
      (f.st = .watch → exec (.glitchTestAccept l) s = .next { u g with
        fe := s.fe.set l { f with test := none }
        link := s.link.set l { k with wakeEdges := k.wakeEdges + 1 } })

/-- The thresholds (R4, R5, R8, R10): a SETTLE wait that counts for the idle threshold ends in IDLE; a space that reaches it ends
the burst with BURST END; a mark of 65535 µs makes the line STUCK, with BURST ABORT, FAULT and LINEFAULT. While a glitch
test runs the front end withholds each of them, and in another state they do not occur (log entry 1). The threshold's instant is
one of the model's clock, which moves on to it (log entry 2), and which threshold a SETTLE wait or a space has kept is the
model's reading (log entries 4 and 23). -/
def Obligations.ThresholdsEndWaitsAndBursts : Prop :=
  ∀ (l : Line) (s : State),
    let f := s.fe.get l
    let k := s.link.get l
    let u : Nat → State := fun t => { s with clock := { s.clock with now := max s.clock.now t } }
    (∀ w, f.st = .settle → f.test = none → f.wait = some w → exec (.settleWaitEnd l) s =
      .next { u (w + f.threshold) with fe := s.fe.set l { f with st := .idle } }) ∧
    (f.st = .settle → f.wait = none → exec (.settleWaitEnd l) s = .next s) ∧
    (f.st = .space → f.test = none → exec (.burstEnd l) s = .next { u (f.since + f.threshold) with
      fe := s.fe.set l { f with st := .idle }
      link := s.link.set l { k with
        toDecoder := k.toDecoder ++ [.burstEnd s.clock.time]
        toCapture := k.toCapture ++ [.burstEnd s.clock.time] } }) ∧
    (f.st = .mark → f.test = none → exec (.stuck l) s = .next { u (f.since + 8 * 65535) with
      fe := s.fe.set l { f with st := .stuck, fault := true }
      link := s.link.set l { k with
        toDecoder := k.toDecoder ++ [.burstAbort .stuck]
        toCapture := k.toCapture ++ [.burstAbort .stuck] }
      irq := { s.irq with lineFault := true } }) ∧
    ((f.test ≠ none ∨ f.st ≠ .settle) → exec (.settleWaitEnd l) s = .next s) ∧
    ((f.test ≠ none ∨ f.st ≠ .space) → exec (.burstEnd l) s = .next s) ∧
    ((f.test ≠ none ∨ f.st ≠ .mark) → exec (.stuck l) s = .next s)

/-- A write of CONTROL that enables or disables a line (R1, R5, R11), and a write of GLITCH (R1), in ACTIVE and LISTEN. An OFF
line takes POLARITY and enters SETTLE, or BLANKED when it has a blanking holder. An enabled line keeps POLARITY, and a
different value sets ACCESS; a disabled one aborts its burst, enters OFF and asks for the expiry of its memory. The request
carries how many bursts had begun whose outcome is still to be taken (log entry 22). The instant a SETTLE wait begins is the
model's clock (log entry 2), and that a wait entered with the input still active takes the idle threshold of the entry is the
model's choice (log entry 23).

A write of IDLE in ACTIVE and LISTEN (R2): 0, and a value whose threshold the space window of an ENABLED or RETIRING entry
that names the line reaches, are refused with ACCESS; another value is stored, and changes neither a space nor a SETTLE wait
under way. -/
def Obligations.LineRegisterWritesFollowRules : Prop :=
  (∀ (l : Line) (v : Byte) (s : State), s.pow.st ≠ .dormant → s.pow.resetHeld = false →
    let f := s.fe.get l
    let k := s.link.get l
    let cut := if f.st = .mark ∨ f.st = .space then [Notice.burstAbort .disabled] else []
    let ahead := (if (s.dec.get l).st = .wait then 0 else 1) + k.toDecoder.countP (·.opensBurst)
    (v.getLsbD 0 = true →
      (f.st = .off → f.blankingHeld = true → exec (.lineEnable l v) s =
        .next { s with fe := s.fe.set l { f with polarity := v.getLsbD 1, st := .blanked } }) ∧
      (f.st = .off → f.blankingHeld = false → exec (.lineEnable l v) s =
        .next { s with fe := s.fe.set l { f with
          polarity := v.getLsbD 1
          st := .settle
          test := none
          wait := if f.level = v.getLsbD 1 then some s.clock.now else none
          threshold := 8 * (100 * f.idle.toNat) } }) ∧
      (f.st ≠ .off → exec (.lineEnable l v) s =
        .next { s with irq := { s.irq with access := s.irq.access || (v.getLsbD 1 != f.polarity) } })) ∧
    (v.getLsbD 0 = false →
      (f.st = .off → exec (.lineDisable l v) s = .next { s with fe := s.fe.set l { f with polarity := v.getLsbD 1 } }) ∧
      (f.st ≠ .off → exec (.lineDisable l v) s = .next { s with
        fe := s.fe.set l { f with st := .off, test := none }
        link := s.link.set l { k with
          toDecoder := k.toDecoder ++ cut
          toCapture := k.toCapture ++ cut
          expireRequests := k.expireRequests ++ [ahead] }
        irq := { s.irq with access := s.irq.access || (v.getLsbD 1 != f.polarity) } })) ∧
    ∀ off : BitVec 6, off.toNat = lineOffset l + 1 → exec (.registerWrite off v) s =
      .next (if f.st = .off then { s with fe := s.fe.set l { f with glitch := v } }
        else { s with irq := { s.irq with access := true } })) ∧
  (∀ (l : Line) (v : Byte) (s : State), s.pow.st ≠ .dormant → s.pow.resetHeld = false →
    let reached := ∃ n : Fin 8, s.entries[n].st ≠ .disabled ∧ (s.format n).namesLine l = true ∧
      ∃ w ∈ (if (s.format n).coding = .biphase then [(s.format n).mark0, (s.format n).mark1]
        else [(s.format n).headerSpace, (s.format n).space0, (s.format n).space1, (s.format n).repeatSpace]),
        100 * v.toNat ≤ w.hi
    ((v = 0 ∨ reached) → exec (.idleWrite l v) s = .next { s with irq := { s.irq with access := true } }) ∧
    (v ≠ 0 → ¬ reached → ∃ t, exec (.idleWrite l v) s = .next t ∧
      t = { s with fe := s.fe.set l { s.fe.get l with idle := v } } ∧
      t.readRegister (BitVec.ofNat 6 (lineOffset l + 2)) = v))

/-- R16: STATUS shows the line's state code, the BURST flag and FAULT, and reading it changes nothing; writing 1 to the FAULT bit
clears FAULT, writing 0 or the other fields does nothing; FAULT is set on the way to STUCK and cleared by nothing else but
a reset. -/
def Obligations.LineStatusAndFault : Prop :=
  (∀ (l : Line) (s : State), s.readRegister (BitVec.ofNat 6 (lineOffset l + 3)) =
    BitVec.ofNat 8 ((s.fe.get l).st.code
      + (if (s.fe.get l).st = .mark ∨ (s.fe.get l).st = .space then 16 else 0)
      + (if (s.fe.get l).fault then 128 else 0))) ∧
  (∀ (l : Line) (v : Byte) (s : State), s.pow.st ≠ .dormant → s.pow.resetHeld = false → v.getLsbD 7 = true →
    exec (.faultClear l v) s = .next { s with fe := s.fe.set l { s.fe.get l with fault := false } }) ∧
  (∀ (l : Line) (v : Byte) (s : State), s.pow.st ≠ .dormant → s.pow.resetHeld = false → v.getLsbD 7 = false →
    exec (.registerWrite (BitVec.ofNat 6 (lineOffset l + 3)) v) s = .next s) ∧
  (∀ (l : Line) (c : Instr) (s t : State), exec c s = .next t → (s.fe.get l).fault = true →
    (t.fe.get l).fault = true ∨ isReset c = true ∨ clearsFault l c = true) ∧
  ∀ (l : Line) (c : Instr) (s t : State), exec c s = .next t → (s.fe.get l).fault = false → (t.fe.get l).fault = true →
    c = .stuck l ∨ ∃ dt, c = .rxEdge l dt

/-! ### Decoders -/

/-- DECODER_BURST_START (R20, R26, R43, R44, R72): a decoder in WAIT that takes BURST START forms a FRAME candidate for every
ENABLED entry that names its line and a REPEAT candidate for those of REPEAT KIND CODE, joins their holder sets, records the
start time, and tells its repeat unit that a burst has opened (in DORMANT that mark stays as it is: log entry 8). It moves to
ACTIVE, or to STOPPED with an empty set. A FRAME candidate begins in CELLS under BIPHASE, with the idle first half of the start
cell open; under PAIR in HEADER when the entry has a header and in BITS when it has none; a REPEAT candidate begins in LEAD. None
has a bit or a pending mark (R44, Table 3-2). The open half and the start cell mean nothing under PAIR (log entry 11). -/
def Obligations.BurstStartFormsCandidates : Prop :=
  ∀ (l : Line) (time : Time) (rest : List Notice) (s : State),
    (s.link.get l).outcome = none → (s.link.get l).toDecoder = .burstStart time :: rest → (s.dec.get l).st = .wait →
    let tested : Fin 8 → Prop := fun n => s.entries[n].st = .enabled ∧ (s.format n).namesLine l = true
    ∃ t, exec (.decoderBurstStart l) s = .next t ∧
      (∀ c, c ∈ (t.dec.get l).candidates ↔ ∃ n, tested n ∧ (c = newFrameCandidate n (s.format n) ∨
        ((s.format n).repeatKind = .code ∧ c = newRepeatCandidate n))) ∧
      (∀ c ∈ (t.dec.get l).candidates, let f := s.format c.entry
        c.bits = [] ∧ c.pendingMark = none ∧
        (c.kind = .repeated → c.phase = .lead) ∧
        (c.kind = .frame → f.coding = .biphase → c.phase = .cells ∧ c.openHalf = some .space ∧ c.startCellDone = false) ∧
        (c.kind = .frame → f.coding ≠ .biphase → gone f.headerMark → c.phase = .bits) ∧
        (c.kind = .frame → f.coding ≠ .biphase → ¬ gone f.headerMark → c.phase = .header)) ∧
      (∀ n, tested n → ∃ c ∈ (t.dec.get l).candidates, c.entry = n ∧ c.kind = .frame) ∧
      (∀ n, tested n → ((s.format n).repeatKind = .code ↔
        ∃ c ∈ (t.dec.get l).candidates, c.entry = n ∧ c.kind = .repeated)) ∧
      (t.dec.get l).start = time ∧
      ((t.dec.get l).st = .active ↔ ∃ n, tested n) ∧ ((t.dec.get l).st = .stopped ↔ ¬ ∃ n, tested n) ∧
      (∀ n, (tested n → t.entries[n] = (s.entries[n].setHolder (.decoder l) true)) ∧
        (¬ tested n → t.entries[n] = s.entries[n])) ∧
      t.rep = s.rep.set l { s.rep.get l with
        opened := if s.pow.st = .dormant then (s.rep.get l).opened else true } ∧
      t.link = s.link.set l { s.link.get l with toDecoder := rest } ∧
      (∀ m, m ≠ l → t.dec.get m = s.dec.get m) ∧ (∀ a, Memory.read t.mem a = Memory.read s.mem a) ∧
      t.pending = s.pending ∧ t.fe = s.fe ∧ t.rq = s.rq ∧ t.cap = s.cap ∧ t.tx = s.tx ∧ t.pow = s.pow ∧ t.win = s.win ∧
      t.irq = s.irq ∧ t.clock = s.clock

/-- DECODER_ELEMENT (R42, R45, R46): in ACTIVE the element is offered to every candidate; the decoder leaves the holder set of
each entry whose last candidate goes, which completes the retirement of a RETIRING entry without other holders, and moves
to STOPPED when its set empties. In STOPPED the element is ignored.

A BIPHASE candidate (R55 to R58) takes an element as one half-cell in the T window and as two in the 2T window, and is removed by
any other; a half-cell opens a cell, closes one with its opposite level, which is the start cell or a bit, or removes the
candidate. At the end an active open half is closed as bit 0, and the bit count decides. -/
def Obligations.ElementIsOfferedToCandidates : Prop :=
  (∀ (l : Line) (lvl : Level) (d : Nat) (rest : List Notice) (s : State),
    (s.link.get l).outcome = none → (s.link.get l).toDecoder = .element lvl d :: rest →
    ((s.dec.get l).st = .stopped → exec (.decoderElement l) s =
      .next { s with link := s.link.set l { s.link.get l with toDecoder := rest } }) ∧
    ((s.dec.get l).st = .active →
      let kept := (s.dec.get l).candidates.filterMap fun c => c.take (s.format c.entry) lvl d
      let left : Fin 8 → Prop := fun n => n ∈ candidateEntries s l ∧ ∀ c ∈ kept, c.entry ≠ n
      let after : Fin 8 → EntryControl := fun n => s.entries[n].setHolder (.decoder l) false
      let retires : Fin 8 → Prop := fun n => left n ∧ s.entries[n].st = .retiring ∧ (after n).unheld = true
      ∃ t, exec (.decoderElement l) s = .next t ∧
        t.dec = s.dec.set l ⟨if kept = [] then .stopped else .active, (s.dec.get l).start, kept⟩ ∧
        (∀ n, (retires n → t.entries[n] = { after n with st := .disabled }) ∧
          (left n → ¬ retires n → t.entries[n] = after n) ∧ (¬ left n → t.entries[n] = s.entries[n])) ∧
        (t.irq.retired = true ↔ s.irq.retired = true ∨ ∃ n, retires n) ∧
        (∀ m x, (s.rep.get m).memory = some x →
          (retires x.entry → (t.rep.get m).memory = none) ∧ (¬ retires x.entry → (t.rep.get m).memory = some x)) ∧
        t.rq.records.map identity = s.rq.records.map identity ∧ (t.link.get l).toDecoder = rest ∧
        (∀ a, Memory.read t.mem a = Memory.read s.mem a) ∧ t.pending = s.pending ∧ t.fe = s.fe ∧ t.cap = s.cap ∧
        t.tx = s.tx ∧ t.pow = s.pow ∧ t.win = s.win ∧ t.clock = s.clock)) ∧
  ∀ (f : Format) (c : Candidate), c.phase = .cells →
    let one : Nat → Prop := fun d => f.mark0.lo ≤ d ∧ d ≤ f.mark0.hi
    let two : Nat → Prop := fun d => f.mark1.lo ≤ d ∧ d ≤ f.mark1.hi
    (∀ lvl d, (one d → c.take f lvl d = c.placeHalf f lvl) ∧
      (¬ one d → two d → c.take f lvl d = (c.placeHalf f lvl).bind fun c => c.placeHalf f lvl) ∧
      (¬ one d → ¬ two d → c.take f lvl d = none)) ∧
    (∀ lvl, (c.openHalf = none → c.placeHalf f lvl = some { c with openHalf := some lvl }) ∧
      (c.openHalf = some lvl → c.placeHalf f lvl = none) ∧
      ∀ first, c.openHalf = some first → first ≠ lvl →
        (c.startCellDone = false → c.placeHalf f lvl = some { c with openHalf := none, startCellDone := true }) ∧
        (c.startCellDone = true → c.bits.length < f.maxBits → c.placeHalf f lvl =
          some { c with openHalf := none, bits := c.bits ++ [decide (first = .space ∧ lvl = .mark)] }) ∧
        (c.startCellDone = true → f.maxBits ≤ c.bits.length → c.placeHalf f lvl = none)) ∧
    (c.openHalf = none → c.endTest f =
      if f.minBits ≤ c.bits.length ∧ c.bits.length ≤ f.maxBits then some c.bits else none) ∧
    (c.openHalf = some .mark → c.startCellDone = true → c.endTest f =
      if f.minBits ≤ c.bits.length + 1 ∧ c.bits.length + 1 ≤ f.maxBits then some (c.bits ++ [false]) else none)

/-- The classification of a PAIR bit (R48, R49): a mark is held as the pending mark and removes nothing; with the space that
follows, it is bit 0 when both match MARK0 and SPACE0, else bit 1 when both match MARK1 and SPACE1, appended unless the bit
count is already MAX BITS; anything else removes the candidate.

The header pair (R47, R52): HEADER MARK and HEADER SPACE lead to BITS and anything else removes the candidate; still in HEADER at
the end it is incomplete. The end in BITS (R50, R51): with a trailer window the pending mark must match it; without one the
mark decides the last bit; and the bit count must lie in MIN BITS to MAX BITS.

The repeat candidate (R53, R54): REPEAT MARK and REPEAT SPACE lead to TAIL and anything else removes it; a space in TAIL
removes it; at the end it is complete in TAIL on a mark that matches TRAILER MARK, with no bits, and incomplete otherwise. -/
def Obligations.PairElementsAreClassified : Prop :=
  (∀ (f : Format) (c : Candidate), c.phase = .bits →
    (∀ d, c.take f .mark d = some { c with pendingMark := some d }) ∧
    ∀ m d, c.pendingMark = some m →
    let zero := (f.mark0.lo ≤ m ∧ m ≤ f.mark0.hi) ∧ f.space0.lo ≤ d ∧ d ≤ f.space0.hi
    let one := (f.mark1.lo ≤ m ∧ m ≤ f.mark1.hi) ∧ f.space1.lo ≤ d ∧ d ≤ f.space1.hi
    (c.bits.length < f.maxBits → zero →
      c.take f .space d = some { c with pendingMark := none, bits := c.bits ++ [false] }) ∧
    (c.bits.length < f.maxBits → ¬ zero → one →
      c.take f .space d = some { c with pendingMark := none, bits := c.bits ++ [true] }) ∧
    (f.maxBits ≤ c.bits.length → c.take f .space d = none) ∧
    (¬ zero → ¬ one → c.take f .space d = none)) ∧
  (∀ (f : Format) (c : Candidate),
    (∀ d, c.phase = .header ∨ c.phase = .lead ∨ c.phase = .tail →
      c.take f .mark d = some { c with pendingMark := some d }) ∧
    (∀ m d, c.phase = .header → c.pendingMark = some m →
      let pair := (f.headerMark.lo ≤ m ∧ m ≤ f.headerMark.hi) ∧ f.headerSpace.lo ≤ d ∧ d ≤ f.headerSpace.hi
      (pair → c.take f .space d = some { c with phase := .bits, pendingMark := none }) ∧
      (¬ pair → c.take f .space d = none)) ∧
    (c.phase = .header → c.endTest f = none) ∧
    (∀ m, c.phase = .bits → c.pendingMark = some m →
      let zero := f.mark0.lo ≤ m ∧ m ≤ f.mark0.hi
      let one := f.mark1.lo ≤ m ∧ m ≤ f.mark1.hi
      let more : Bool → Option (List Bool) := fun b =>
        if f.minBits ≤ c.bits.length + 1 ∧ c.bits.length + 1 ≤ f.maxBits then some (c.bits ++ [b]) else none
      (¬ gone f.trailerMark → c.endTest f =
        if (f.trailerMark.lo ≤ m ∧ m ≤ f.trailerMark.hi) ∧ f.minBits ≤ c.bits.length ∧ c.bits.length ≤ f.maxBits then
          some c.bits else none) ∧
      (gone f.trailerMark → (zero → c.endTest f = more false) ∧ (¬ zero → one → c.endTest f = more true) ∧
        (¬ zero → ¬ one → c.endTest f = none))) ∧
    (∀ m d, c.phase = .lead → c.pendingMark = some m → (f.repeatMark.lo ≤ m ∧ m ≤ f.repeatMark.hi) →
      (f.repeatSpace.lo ≤ d ∧ d ≤ f.repeatSpace.hi) →
      c.take f .space d = some { c with phase := .tail, pendingMark := none }) ∧
    (∀ m d, c.phase = .lead → c.pendingMark = some m →
      ¬ ((f.repeatMark.lo ≤ m ∧ m ≤ f.repeatMark.hi) ∧ f.repeatSpace.lo ≤ d ∧ d ≤ f.repeatSpace.hi) →
      c.take f .space d = none) ∧
    (∀ d, c.phase = .tail → c.take f .space d = none) ∧
    (c.phase = .lead → c.endTest f = none) ∧
    ∀ m, c.phase = .tail → c.pendingMark = some m →
      c.endTest f = if f.trailerMark.lo ≤ m ∧ m ≤ f.trailerMark.hi then some [] else none)

/-- DECODER_BURST_END (R46, R60 to R66): the outcome handed over. The winner is the contender of the lowest entry index, a
complete FRAME candidate of an entry coming before its valid repeat; with none it is an orphan repeat when some REPEAT
candidate is complete and else unmatched, as in STOPPED. A complete REPEAT candidate is valid when the memory holds a frame of its
entry and the burst started within RW ms of the memory's last end (R61). The report is MATCHED for a FRAME, a REPEAT and an
orphan, and else UNMATCHED; a good FRAME and nothing else is offered to the power unit, in LISTEN. The holds are given up when the repeat unit has taken the outcome (log entry 7).

DECODER_BURST_ABORT (R68): whatever the reason and whatever the candidates, the outcome ABORTED with the burst's start time
is handed over and reported, and nothing is offered to the power unit.

The CHECK of the winner (R24, R63): NONE passes all; the parities count the 1 bits; INVERTED PAIRS needs whole pairs of bytes, each
odd byte the complement of the one before. -/
def Obligations.BurstEndHandsOverOutcome : Prop :=
  (∀ (l : Line) (time : Time) (rest : List Notice) (s : State),
    (s.link.get l).outcome = none → (s.link.get l).toDecoder = .burstEnd time :: rest → (s.dec.get l).st ≠ .wait →
    let d := s.dec.get l
    let frame : Fin 8 → Option (List Bool) := s.completeFrame d.candidates
    let valid : Fin 8 → Prop := fun n => s.completeRepeat d.candidates n = true ∧
      ∃ m, (s.rep.get l).memory = some m ∧ m.entry = n ∧ (d.start - m.lastEnd).toNat ≤ (s.format n).rw
    let report : BurstOutcome → Report := fun o => match o with
      | .frame _ _ _ _ _ _ | .repeated _ _ _ | .orphan _ _ => .matched
      | .unmatched _ _ => .unmatched
      | .aborted _ => .aborted
    let offer : BurstOutcome → List Offer := fun o => match o with
      | .frame n bits p checkFailed _ _ => if s.pow.st = .listen ∧ checkFailed = false then [⟨n, bits, p⟩] else []
      | _ => []
    ∃ o, exec (.decoderBurstEnd l) s = .next { s with
        link := s.link.set l { s.link.get l with
          toDecoder := rest
          outcome := some o
          reports := (s.link.get l).reports ++ [report o]
          offers := (s.link.get l).offers ++ offer o } } ∧
      (d.st = .stopped → o = .unmatched d.start time) ∧
      (d.st = .active →
        (∀ n bits, (∀ m, m < n → frame m = none ∧ ¬ valid m) → frame n = some bits →
          o = .frame n bits.length (payloadOf (s.format n).msbFirst bits) (!(s.format n).passesCheck bits) d.start time) ∧
        (∀ n, (∀ m, m < n → frame m = none ∧ ¬ valid m) → frame n = none → valid n → o = .repeated n d.start time) ∧
        ((∀ m, frame m = none ∧ ¬ valid m) → (∃ m, s.completeRepeat d.candidates m = true) → o = .orphan d.start time) ∧
        ((∀ m, frame m = none ∧ ¬ valid m) → (¬ ∃ m, s.completeRepeat d.candidates m = true) →
          o = .unmatched d.start time))) ∧
  (∀ (l : Line) (why : AbortReason) (rest : List Notice) (s : State),
    (s.link.get l).outcome = none → (s.link.get l).toDecoder = .burstAbort why :: rest → (s.dec.get l).st ≠ .wait →
    exec (.decoderBurstAbort l) s = .next { s with
      link := s.link.set l { s.link.get l with
        toDecoder := rest
        outcome := some (.aborted (s.dec.get l).start)
        reports := (s.link.get l).reports ++ [.aborted] } }) ∧
  ∀ (f : Format) (bits : List Bool),
    let p := payloadOf f.msbFirst bits
    (f.check = .none → f.passesCheck bits = true) ∧
    (f.check = .evenParity → (f.passesCheck bits = true ↔ bits.count true % 2 = 0)) ∧
    (f.check = .oddParity → (f.passesCheck bits = true ↔ bits.count true % 2 = 1)) ∧
    (f.check = .invertedPairs → (f.passesCheck bits = true ↔ 16 ∣ bits.length ∧
      ∀ k i, k < bits.length / 16 → i < 8 → p.getLsbD (16 * k + 8 + i) = !p.getLsbD (16 * k + i)))

/-- The payload and the bit order (R23, R59): a frame of at most 64 bits, received and sent again with the same order and bit
count, gives the same bits in the same order, and its payload holds no bit at or above the bit count. -/
def Obligations.PayloadKeepsBitOrder : Prop :=
  ∀ (msbFirst : Bool) (bits : List Bool), bits.length ≤ 64 →
    bitsToSend msbFirst (payloadOf msbFirst bits) bits.length = bits ∧
    (∀ i, i < bits.length → (payloadOf false bits).getLsbD i = bits.getD i false) ∧
    (∀ i, i < bits.length → (payloadOf true bits).getLsbD (bits.length - 1 - i) = bits.getD i false) ∧
    ∀ i, bits.length ≤ i → (payloadOf msbFirst bits).getLsbD i = false

/-- A PAIR entry that passes validation decodes the burst the transmitter builds from it (R21, R28, R34, R138): for every
sequence of bits whose number the entry accepts, the candidate of the entry takes every element of the burst and is complete
at its end with the same bits. -/
def Obligations.PairEntryDecodesItsOwnBurst : Prop :=
  ∀ (n : Fin 8) (f : Format) (idleA idleB : Byte) (bits : List Bool), f.coding = .pair → f.validate idleA idleB = .ok →
    f.countInRange bits.length = true → decodeFrame n f (f.pairBurst bits) = some bits

/-- A BIPHASE entry that passes validation decodes the burst the transmitter builds from it (R22, R28, R140): for every sequence
of bits whose number the entry accepts, the candidate of the entry takes every element of the burst and is complete at its
end with the same bits. -/
def Obligations.BiphaseEntryDecodesItsOwnBurst : Prop :=
  ∀ (n : Fin 8) (f : Format) (idleA idleB : Byte) (bits : List Bool), f.coding = .biphase → f.validate idleA idleB = .ok →
    f.countInRange bits.length = true → decodeFrame n f (f.biphaseBurst bits) = some bits

/-! ### Repeat units -/

/-- OUTCOME_TAKEN of a new frame (R75, R79, R84), outside DORMANT: a RELEASE of the old frame, if its flag is set, then the FRAME
record are asked for, in that order; the memory is replaced; the old reference is dropped and the FRAME record is to be the
new one under COALESCE; OPEN and DUE are cleared, the decoder returns to WAIT and gives up its holds. DUE makes no difference.
A new memory whose due instant has already come, as with RW 0, is due at once (R82).

A frame won by a RETIRING entry in the burst that releases its last hold is posted, fills the memory and is cleared from it,
and no RELEASE follows it (R40, R67, R87). Another frame of a burst that began before its line was disabled is posted once the
request to expire has been taken, and let go in the same step, so that the memory stays empty (R85; log entry 22). Requests that
are already on their way, of which the increments are counted before the reference is dropped, the return to WAIT within this
row, and the due instant, are the model's (log entries 6, 7 and 9). -/
def Obligations.NewFrameReplacesMemory : Prop :=
  ∀ (l : Line) (n : Fin 8) (bits : Nat) (p : Payload) (start stop : Time) (s : State),
    (s.link.get l).outcome = some (.frame n bits p false start stop) → s.pow.st ≠ .dormant →
    (∀ m, (s.rep.get l).memory = some m → ¬ ((s.format n).repeatKind = .same ∧ m.entry = n ∧ m.bits = bits ∧
      m.payload = p ∧ (start - m.lastEnd).toNat ≤ (s.format n).rw)) →
    let old : List Record := match (s.rep.get l).memory with
      | none => []
      | some m => releaseOf s l m
    let frame : Record := ⟨.frame, l, n, bits, p, 0, false, false, 0, start, false⟩
    let posted : List Record := stillPosted s l (s.link.get l).posts ++ old ++ [frame]
    let memory : LastFrame := ⟨n, bits, p, stop, 0, (s.format n).release⟩
    ∃ t, exec (.outcomeTaken l) s = .next t ∧ BurstSettled s l t ∧ (t.rep.get l).due = false ∧
      (∀ q ∈ (t.link.get l).posts.dropLast, q.refers = false) ∧ (∀ r ∈ t.rq.records, r.refersFor l = false) ∧
      (retiresAtEnd s l n → (t.rep.get l).memory = none ∧ (t.rep.get l).dueReached = false ∧
        (t.link.get l).posts.map (·.record) = posted ∧ ∀ q ∈ (t.link.get l).posts, q.refers = false) ∧
      (¬ retiresAtEnd s l n → staysEmptyAfterDisable s l → (t.rep.get l).memory = none ∧
        (t.rep.get l).dueReached = false ∧ (t.link.get l).posts.map (·.record) = posted ++ releaseOf s l memory ∧
        ∀ q ∈ (t.link.get l).posts, q.refers = false) ∧
      (¬ retiresAtEnd s l n → ¬ staysEmptyAfterDisable s l → (t.rep.get l).memory = some memory ∧
        ((t.rep.get l).dueReached = true ↔ (s.format n).rw ≤ (s.clock.time - stop).toNat) ∧
        (t.link.get l).posts.map (·.record) = posted ∧
        ∀ q, (t.link.get l).posts.getLast? = some q → q.refers = (s.format n).coalesce ∧ q.counts = false)

/-- OUTCOME_TAKEN of a repeat (R74, R76 to R79, R84), outside DORMANT: a good FRAME of a SAME entry equal to the memory and started
within RW ms of its last end, or a REPEAT of the memory's entry, adds 1 to the memory's repeat count, held at 255, moves its last
end to the burst's end, clears DUE and OPEN, and asks the queue to count the repeat or to take a REPEAT record with REPEATS 1.
Which of the two it is under COALESCE, the queue decides when it takes the request (log entry 9). The decoder returns to WAIT
and gives up its holds within this row (log entry 7). When the moved due instant has already come, the memory is due at once
(log entry 6).

When the burst's end completes the retirement of the memory's entry, the repeat is reported all the same, and the memory is
then cleared without a RELEASE (R40, R87): an increment still on its way counts in the referenced record before the reference
goes (log entry 9). After a disable whose request to expire has been taken there is no memory to repeat (LineLawIsKept). -/
def Obligations.RepeatIsCountedInMemory : Prop :=
  ∀ (l : Line) (m : LastFrame) (o : BurstOutcome) (start stop : Time) (s : State),
    (s.rep.get l).memory = some m → (s.link.get l).outcome = some o → s.pow.st ≠ .dormant → ¬ staysEmptyAfterDisable s l →
    (o = .repeated m.entry start stop ∨
      (o = .frame m.entry m.bits m.payload false start stop ∧ (s.format m.entry).repeatKind = .same ∧
        (start - m.lastEnd).toNat ≤ (s.format m.entry).rw)) →
    let requests : List Post := (s.link.get l).posts ++
      [⟨⟨.repeated, l, m.entry, m.bits, m.payload, 1, false, false, 0, start, false⟩, (s.format m.entry).coalesce,
        (s.format m.entry).coalesce⟩]
    ∃ t, exec (.outcomeTaken l) s = .next t ∧ BurstSettled s l t ∧ (t.rep.get l).due = false ∧
      (¬ retiresAtEnd s l m.entry →
        (t.rep.get l).memory = some { m with repeats := min 255 (m.repeats + 1), lastEnd := stop } ∧
        ((t.rep.get l).dueReached = true ↔ (s.format m.entry).rw ≤ (s.clock.time - stop).toNat) ∧
        (t.link.get l).posts = requests) ∧
      (retiresAtEnd s l m.entry → (t.rep.get l).memory = none ∧ (t.rep.get l).dueReached = false ∧
        (t.link.get l).posts.map (·.record) = stillPosted s l requests ∧
        (∀ q ∈ (t.link.get l).posts, q.counts = false ∧ q.refers = false) ∧
        ∀ (i : Nat) (r : Record), s.rq.records[i]? = some r → r.refersFor l = true → t.rq.records[i]? =
          some { r with referred := false, repeats := min 255 (r.repeats + requests.countP (·.counts)) }) ∧
      ((∀ x y, (s.rep.get x).memory = some y → ¬ retiresAtEnd s l y.entry) → t.rq = s.rq)

/-- OUTCOME_TAKEN of any outcome (R67, R72, R40): OPEN is cleared, the decoder returns to WAIT with an empty set and gives up
its holds, which completes the retirement of a RETIRING entry without other holders and empties the memories that name it; in
DORMANT, and after a disable whose request to expire has been taken, no memory is left (R85, R86; log entries 7, 8 and 22).

OUTCOME_TAKEN of an outcome that repeats nothing and brings no new frame (R73, R76, R84), outside DORMANT, and after a disable whose
request has been taken with no memory left (LineLawIsKept): a CHECK frame, ORPHAN, UNMATCHED, ABORTED, and a REPEAT whose memory
is gone. With DUE clear the memory is left as it is, but for a retirement of its entry, which clears it without a RELEASE (R87);
with DUE set it expires, its RELEASE record first. A CHECK frame is posted with CHECK set and REPEATS 0; nothing else is. -/
def Obligations.OtherOutcomesKeepMemory : Prop :=
  (∀ (l : Line) (o : BurstOutcome) (s : State), (s.link.get l).outcome = some o →
    ∃ t, exec (.outcomeTaken l) s = .next t ∧ BurstSettled s l t ∧
      (s.pow.st = .dormant ∨ staysEmptyAfterDisable s l → (t.rep.get l).memory = none)) ∧
  ∀ (l : Line) (o : BurstOutcome) (s : State), (s.link.get l).outcome = some o → s.pow.st ≠ .dormant →
    (staysEmptyAfterDisable s l → (s.rep.get l).memory = none) →
    ((∃ n bits p start stop, o = .frame n bits p true start stop) ∨ (∃ start stop, o = .orphan start stop) ∨
      (∃ start stop, o = .unmatched start stop) ∨ (∃ start, o = .aborted start) ∨
      ∃ n start stop, o = .repeated n start stop ∧ ∀ m, (s.rep.get l).memory = some m → m.entry ≠ n) →
    let check : List Record := match o with
      | .frame n bits p _ start _ => [⟨.frame, l, n, bits, p, 0, true, false, 0, start, false⟩]
      | _ => []
    let kept : List Record := stillPosted s l (s.link.get l).posts
    ∃ t, exec (.outcomeTaken l) s = .next t ∧ BurstSettled s l t ∧
      ((s.rep.get l).due = false → (t.rep.get l).due = false ∧
        ((∀ m, (s.rep.get l).memory = some m → ¬ retiresAtEnd s l m.entry) →
          (t.rep.get l).memory = (s.rep.get l).memory ∧
          (t.link.get l).posts.map (·.record) = (s.link.get l).posts.map (·.record) ++ check) ∧
        (∀ m, (s.rep.get l).memory = some m → retiresAtEnd s l m.entry → (t.rep.get l).memory = none ∧
          (∀ r ∈ t.rq.records, r.refersFor l = false) ∧ (t.link.get l).posts.map (·.record) = kept ++ check) ∧
        ((∀ x m, (s.rep.get x).memory = some m → ¬ retiresAtEnd s l m.entry) → t.rq = s.rq)) ∧
      ∀ m, (s.rep.get l).due = true → (s.rep.get l).memory = some m → (t.rep.get l).memory = none ∧
        (t.rep.get l).due = false ∧ (∀ r ∈ t.rq.records, r.refersFor l = false) ∧
        (t.link.get l).posts.map (·.record) = kept ++ releaseOf s l m ++ check

/-- Expiry (R82, R83, R85): at the due instant a memory expires when OPEN is clear, its RELEASE record stamped TIME if its flag is
set, and DUE is set when OPEN is set; a request from the front end expires it at once and clears OPEN and DUE. The expired
memory is empty and its reference dropped, and the records stay as they are, but that an increment still on its way counts in
the referenced record before the reference goes (log entry 9). When nothing is due, or nothing requested, the event does not
occur (log entries 1 and 6).

A request to expire an empty memory expires and posts nothing, and clears OPEN (R85). For the bursts that had begun when the line
was disabled the memory stays empty from the request on (log entry 22). -/
def Obligations.MemoryExpiresWithRelease : Prop :=
  (∀ (l : Line) (m : LastFrame) (s : State), (s.rep.get l).memory = some m →
    let counted : Nat := (s.link.get l).posts.countP (·.counts)
    let expired : State → Prop := fun t =>
      (t.rep.get l).memory = none ∧ (t.rep.get l).due = false ∧ (t.rep.get l).dueReached = false ∧
      (∀ r ∈ t.rq.records, r.refersFor l = false) ∧ t.rq.records.map identity = s.rq.records.map identity ∧
      t.rq = { s.rq with records := s.rq.records.map fun r => if r.refersFor l = true then
        { r with referred := false, repeats := min 255 (r.repeats + counted) } else r } ∧
      (t.link.get l).posts.map (·.record) = stillPosted s l (s.link.get l).posts ++ releaseOf s l m ∧
      (∀ x, x ≠ l → t.rep.get x = s.rep.get x ∧ t.link.get x = s.link.get x) ∧
      (∀ a, Memory.read t.mem a = Memory.read s.mem a) ∧ t.pending = s.pending ∧ t.fe = s.fe ∧ t.dec = s.dec ∧
      t.entries = s.entries ∧ t.cap = s.cap ∧ t.tx = s.tx ∧ t.pow = s.pow ∧ t.win = s.win ∧ t.irq = s.irq ∧
      t.clock = s.clock
    ((s.rep.get l).dueReached = true → (s.rep.get l).opened = false →
      ∃ t, exec (.lfmDue l) s = .next t ∧ expired t ∧ (t.rep.get l).opened = false) ∧
    ((s.rep.get l).dueReached = true → (s.rep.get l).opened = true → exec (.lfmDue l) s =
      .next { s with rep := s.rep.set l { s.rep.get l with due := true, dueReached := false } }) ∧
    ((s.rep.get l).dueReached = false → exec (.lfmDue l) s = .next s) ∧
    (∀ k ks, (s.link.get l).expireRequests = k :: ks → ∃ t, exec (.expireRequest l) s = .next t ∧ expired t ∧
      (t.rep.get l).opened = false ∧ (t.link.get l).expireRequests = ks ∧
      (t.link.get l).oldBursts = max (s.link.get l).oldBursts k)) ∧
  (∀ (l : Line) (k : Nat) (ks : List Nat) (s : State), (s.rep.get l).memory = none →
    (s.link.get l).expireRequests = k :: ks → exec (.expireRequest l) s = .next { s with
      rep := s.rep.set l { s.rep.get l with opened := false }
      link := s.link.set l { s.link.get l with expireRequests := ks, oldBursts := max (s.link.get l).oldBursts k } }) ∧
  ∀ (l : Line) (s : State), ((s.rep.get l).memory = none → exec (.lfmDue l) s = .next s) ∧
    ((s.link.get l).expireRequests = [] → exec (.expireRequest l) s = .next s)

/-- Retirement (R40, R87): when a holder leaves a RETIRING entry and its holder set becomes empty, the entry becomes DISABLED,
RETIRED is set, and each memory that names the entry is emptied without a RELEASE record, with its reference dropped and DUE
cleared; OPEN and the identity of every record are kept. In any other case a holder that leaves changes the holder set and
nothing else. -/
def Obligations.LastHolderCompletesRetirement : Prop :=
  ∀ (h : Holder) (n : Fin 8) (s : State),
    let e := s.entries[n].setHolder h false
    (¬ (s.entries[n].st = .retiring ∧ e.unheld = true) → s.leaveHolder h n = { s with entries := s.entries.set n e }) ∧
    (s.entries[n].st = .retiring → e.unheld = true →
      (s.leaveHolder h n).entries = s.entries.set n { e with st := .disabled } ∧
      (s.leaveHolder h n).irq = { s.irq with retired := true } ∧
      (∀ l m, (s.rep.get l).memory = some m →
        (m.entry = n → ((s.leaveHolder h n).rep.get l) =
            { s.rep.get l with memory := none, due := false, dueReached := false } ∧
          (∀ r ∈ (s.leaveHolder h n).rq.records, r.refersFor l = false) ∧
          (((s.leaveHolder h n).link.get l).posts.map (·.record)).Sublist ((s.link.get l).posts.map (·.record))) ∧
        (m.entry ≠ n → (s.leaveHolder h n).rep.get l = s.rep.get l ∧ (s.leaveHolder h n).link.get l = s.link.get l)) ∧
      (s.leaveHolder h n).rq.records.map identity = s.rq.records.map identity)

/-! ### Receive queue -/

/-- POST (R80, R92, R93): with fewer than 16 records the oldest post of the line is appended after the newest record, the
reference set in the same step; with 16 it is lost, LOSS is set on the newest record with its tally one higher and at most
15, and the LOSS cause is set. Increments that are older do not hold it back (R95).

REPEAT_COUNT_INCREMENT (R77, R95): a request to count a repeat, with the reference in place, increases the REPEATS of the
record the memory of the line refers to by 1, held at 255, and changes no other record and no other field. Posts that are
older do not hold it back (R95).

Whether a request under COALESCE is a post or an increment, the queue decides by the reference (log entry 9); with none of its
kind on its way an event does not occur (log entry 1). -/
def Obligations.QueueTakesPostsAndIncrements : Prop :=
  (∀ (l : Line) (p : Post) (before after : List Post) (s : State), (s.link.get l).posts = before ++ p :: after →
    (∀ q ∈ before, q.counts = true ∧ s.rq.hasReference l = true) → (p.counts = true → s.rq.hasReference l = false) →
    let link := s.link.set l { s.link.get l with posts := before ++ after }
    (s.rq.records.length < 16 → exec (.post l) s = .next { s with
      link := link
      rq := { s.rq with records := s.rq.records ++ [{ p.record with referred := p.refers }] } }) ∧
    (∀ older newest, 16 ≤ s.rq.records.length → s.rq.records = older ++ [newest] → exec (.post l) s = .next { s with
      link := link
      rq := { s.rq with records := older ++ [{ newest with loss := true, lost := min 15 (newest.lost + 1) }] }
      irq := { s.irq with loss := true } })) ∧
  (∀ (l : Line) (p : Post) (before after : List Post) (s : State), (s.link.get l).posts = before ++ p :: after →
    (∀ q ∈ before, q.counts = false) → p.counts = true → s.rq.hasReference l = true →
    exec (.repeatCountIncrement l) s = .next { s with
      link := s.link.set l { s.link.get l with posts := before ++ after }
      rq := { s.rq with records := s.rq.records.map fun r =>
        if r.referred = true ∧ r.line = l then { r with repeats := min 255 (r.repeats + 1) } else r } }) ∧
  ∀ (l : Line) (s : State),
    ((∀ p ∈ (s.link.get l).posts, p.counts = true ∧ s.rq.hasReference l = true) → exec (.post l) s = .next s) ∧
    ((∀ p ∈ (s.link.get l).posts, p.counts = false ∨ s.rq.hasReference l = false) →
      exec (.repeatCountIncrement l) s = .next s)

/-- HEAD_KIND_LINE_READ (R98, R99): a read returns the head's KIND and LINE; it places a head that is not held in HOLD and clears
the reference to it, and changes no other field of the record; on a held head and on an empty queue it changes nothing, and
the empty queue reads 0 in every head view register. It is answered in every power state; while a reset is held it returns 0
and holds nothing (R174). A hold ends by POP, FLUSH QUEUE and a reset only. Each head view register shows its field of the head
(R97). -/
def Obligations.HeadReadPlacesHold : Prop :=
  (∀ s : State, s.rq.records = [] ∨ s.pow.resetHeld = true →
    exec .headKindLineRead s = .next { s with win := { s.win with dataBus := 0 } }) ∧
  (∀ s : State, s.rq.records = [] →
    ∀ off : BitVec 6, 0x19 ≤ off.toNat → off.toNat ≤ 0x27 → s.readRegister off = 0) ∧
  (∀ (c : Instr) (s t : State), c.WellFormed = true → isReset c = false → c ≠ .pop → c ≠ .flushQueue →
    exec c s = .next t → s.rq.held = true → t.rq.held = true) ∧
  (∀ (r : Record) (rest : List Record) (s : State), s.rq.records = r :: rest → s.pow.resetHeld = false →
    s.rq.held = true → exec .headKindLineRead s = .next { s with
      win := { s.win with dataBus := BitVec.ofNat 8 (r.kind.code + 16 * lineCode r.line) } }) ∧
  (∀ (r : Record) (rest : List Record) (s : State), s.rq.records = r :: rest → s.pow.resetHeld = false →
    s.rq.held = false → exec .headKindLineRead s = .next { s with
      rq := { s.rq with records := { r with referred := false } :: rest, held := true }
      win := { s.win with dataBus := BitVec.ofNat 8 (r.kind.code + 16 * lineCode r.line) } }) ∧
  ∀ (r : Record) (rest : List Record) (s : State), s.rq.records = r :: rest →
    s.readRegister 0x17 = BitVec.ofNat 8 (rest.length + 1) ∧
    s.readRegister 0x19 = BitVec.ofNat 8 (r.kind.code + 16 * lineCode r.line) ∧
    s.readRegister 0x1A = BitVec.ofNat 8 r.format.val ∧ s.readRegister 0x1B = BitVec.ofNat 8 r.bits ∧
    s.readRegister 0x1C = BitVec.ofNat 8 r.repeats ∧
    s.readRegister 0x1D = BitVec.ofNat 8 (r.lost + (if r.loss then 64 else 0) + (if r.check then 128 else 0)) ∧
    s.readRegister 0x1E = r.stamp.extractLsb' 0 8 ∧ s.readRegister 0x1F = r.stamp.extractLsb' 8 8 ∧
    ∀ k : Fin 8, s.readRegister (BitVec.ofNat 6 (0x20 + k.val)) = r.payload.extractLsb' (8 * k.val) 8

/-- POP (R102): refused with STATE in DORMANT and with EMPTY on an empty queue, which changes nothing but the result; otherwise
the head goes, held or not, with its HOLD and its reference; RQ COUNT falls by 1, the next record is the head and is not held,
and COMMAND ARG is kept.

FLUSH QUEUE (R104): refused with STATE in DORMANT; otherwise every record goes, with HOLD and both references, COMMAND ARG takes
their number, the result is OK, the view reads 0, and the memories and the LOSS cause are left as they are. -/
def Obligations.PopAndFlushRemoveRecords : Prop :=
  ((∀ s : State, s.pow.st = .dormant → s.pow.resetHeld = false → exec .pop s = .next { s with win := { s.win with result := .state } }) ∧
  (∀ s : State, s.pow.st ≠ .dormant → s.pow.resetHeld = false → s.rq.records = [] →
    exec .pop s = .next { s with win := { s.win with result := .empty } }) ∧
  ∀ (r : Record) (rest : List Record) (s : State), s.pow.st ≠ .dormant → s.pow.resetHeld = false →
    s.rq.records = r :: rest → exec .pop s = .next { s with
      rq := { s.rq with records := rest, held := false }
      win := { s.win with result := .ok } }) ∧
  ((∀ s : State, s.pow.st = .dormant → s.pow.resetHeld = false → exec .flushQueue s = .next { s with win := { s.win with result := .state } }) ∧
  ∀ s : State, s.pow.st ≠ .dormant → s.pow.resetHeld = false → ∃ t, exec .flushQueue s = .next t ∧
    t = { s with
      rq := { s.rq with records := [], held := false }
      win := { s.win with arg := BitVec.ofNat 8 s.rq.records.length, result := .ok } } ∧
    (∀ l, t.rq.hasReference l = false) ∧
    (∀ off : BitVec 6, off = 0x17 ∨ (0x19 ≤ off.toNat ∧ off.toNat ≤ 0x27) → t.readRegister off = 0))

/-- R106: RQ WATERMARK stores 1 to 16 as written, 1 for a written 0 and 16 for 17 to 255, without ACCESS; a read returns it; in DORMANT
the write is refused with ACCESS. -/
def Obligations.WatermarkIsHeldInRange : Prop :=
  (∀ (v : Byte) (s : State), s.pow.st ≠ .dormant → s.pow.resetHeld = false → ∃ t, exec (.rqWatermarkWrite v) s = .next t ∧
    t = { s with rq := { s.rq with watermark := if v = 0 then 1 else if 17 ≤ v.toNat then 16 else v.toNat } } ∧
    t.readRegister 0x18 = (if v = 0 then 1 else if 17 ≤ v.toNat then 16 else v) ∧
    (t.rqCondition = true ↔ (if v = 0 then 1 else if 17 ≤ v.toNat then 16 else v.toNat) ≤ s.rq.records.length)) ∧
  ∀ (v : Byte) (s : State), s.pow.st = .dormant → s.pow.resetHeld = false →
    exec (.rqWatermarkWrite v) s = .next { s with irq := { s.irq with access := true } }

/-- The order of the records (R91, R92, R96): for every well-formed command but POP, FLUSH QUEUE and the resets, the records stay
where they are with every field but REPEATS, LOSS, LOST and the reference, and new ones come after the newest. -/
def Obligations.RecordsKeepTheirOrder : Prop :=
  ∀ (c : Instr) (s t : State), c.WellFormed = true → isReset c = false → c ≠ .pop → c ≠ .flushQueue → exec c s = .next t →
    s.rq.records.map identity <+: t.rq.records.map identity

/-! ### Capture unit -/

/-- CAPTURE_BURST_START (R112, R114): the burst is entered at the tail of the line's report list; ARMED and eligible
it is claimed, and STAMP takes the burst's start time (R6; log entry 21); FILLING or FULL with a line as owner and eligible it is
passed over, in DORMANT too; in every other case, and ARMED in DORMANT (log entry 8), it is ignored. -/
def Obligations.CaptureClaimsEligibleBurst : Prop :=
  ∀ (l : Line) (time : Time) (rest : List Notice) (s : State),
    (s.link.get l).toCapture = .burstStart time :: rest →
    let eligible := s.cap.latchedSelect = .any ∨ (s.cap.latchedSelect = .a ∧ l = .A) ∨ (s.cap.latchedSelect = .b ∧ l = .B)
    let entered : Tag → Capture := fun tag => { s.cap with lists := s.cap.lists.set l (s.cap.lists.get l ++ [tag]) }
    let after : Capture → State := fun c =>
      { s with link := s.link.set l { s.link.get l with toCapture := rest }, cap := c }
    (s.pow.st ≠ .dormant → eligible → s.cap.st = .armed → exec (.captureBurstStart l) s =
      .next (after { entered .recorded with st := .filling l, count := 0, stamp := time, closed := false, verdict := none })) ∧
    (eligible → (∃ m, s.cap.st = .filling m ∨ s.cap.st = .full (.line m)) →
      exec (.captureBurstStart l) s = .next (after (entered .passed))) ∧
    ((¬ eligible ∨ s.cap.st = .idle ∨ s.cap.st = .full .host ∨ (s.cap.st = .armed ∧ s.pow.st = .dormant)) →
      exec (.captureBurstStart l) s = .next (after (entered .ignored)))

/-- CAPTURE_ELEMENT (R115, R116, R184): an element of the line under recording is written as entry COUNT, both bytes at once, its
duration held to 32767, and COUNT increases; at 256 it is dropped with TRUNCATED set; an element of a burst that is not
recorded is taken and dropped. No other byte of the table space changes. -/
def Obligations.CaptureElementIsAppended : Prop :=
  ∀ (l : Line) (lvl : Level) (d : Nat) (rest : List Notice) (s : State),
    (s.link.get l).toCapture = .element lvl d :: rest → Memory.wf s.mem →
    let recording := s.cap.st = .filling l ∧ s.cap.closed = false
    let u : State := { s with link := s.link.set l { s.link.get l with toCapture := rest } }
    let value := (if lvl = .mark then 32768 else 0) + min d 32767
    let first := 0x200 + 2 * s.cap.count
    (recording → s.cap.count < 256 → ∃ t, exec (.captureElement l) s = .next t ∧
      t = { u with mem := t.mem, cap := { s.cap with count := s.cap.count + 1 } } ∧ Memory.wf t.mem ∧
      Memory.read t.mem first = BitVec.ofNat 8 value ∧ Memory.read t.mem (first + 1) = BitVec.ofNat 8 (value / 256) ∧
      captureElementAt t.mem s.cap.count = ⟨lvl, min d 32767⟩ ∧
      ∀ a, a ≠ first → a ≠ first + 1 → Memory.read t.mem a = Memory.read s.mem a) ∧
    (recording → 256 ≤ s.cap.count → exec (.captureElement l) s =
      .next { u with cap := { s.cap with truncated := true } }) ∧
    (¬ recording → exec (.captureElement l) s = .next u)

/-- The decision of a recording (R117 to R119): it is taken when the capture unit holds both the close, by BURST END or BURST ABORT,
and the report, in either order; UNMATCHED is kept, MATCHED is kept in MODE ALL only, ABORTED is discarded. A kept recording
is FULL with its line as owner and COUNT as it is; a discarded one leaves ARMED with COUNT 0.

A report on a burst passed over (R120) removes its list entry and sets MISSED when the latched MODE would have kept the burst;
a report on an ignored burst removes its entry; neither changes the capture state. A close of a burst that is not under
recording changes nothing in the capture unit. In DORMANT a report removes its list entry and changes nothing else there, as
the flags are kept (R128, R160; log entry 8). -/
def Obligations.CloseAndReportDecideRecording : Prop :=
  (∀ (l : Line) (s : State), s.cap.st = .filling l →
    let kept : Report → Prop := fun r => r = .unmatched ∨ (r = .matched ∧ s.cap.latchedMode = .all)
    let decided : Report → Capture → Prop := fun r c =>
      (kept r → c = { s.cap with st := .full (.line l), closed := false, verdict := none, lists := c.lists }) ∧
      (¬ kept r → c = { s.cap with st := .armed, count := 0, closed := false, verdict := none, lists := c.lists })
    (∀ n rest, (s.link.get l).toCapture = n :: rest → (∃ time, n = .burstEnd time) ∨ (∃ why, n = .burstAbort why) →
      s.cap.closed = false →
      ∃ t, exec (.captureClose l) s = .next t ∧
        t = { s with link := s.link.set l { s.link.get l with toCapture := rest }, cap := t.cap } ∧
        t.cap.lists = s.cap.lists ∧
        (s.cap.verdict = none → t.cap = { s.cap with closed := true }) ∧
        ∀ r, s.cap.verdict = some r → decided r t.cap) ∧
    (∀ r reports tags, s.pow.st ≠ .dormant → (s.link.get l).reports = r :: reports →
      s.cap.lists.get l = .recorded :: tags → ∃ t, exec (.captureReport l) s = .next t ∧
        t = { s with link := s.link.set l { s.link.get l with reports := reports }, cap := t.cap } ∧
        t.cap.lists = s.cap.lists.set l tags ∧
        (s.cap.closed = false → t.cap = { s.cap with lists := s.cap.lists.set l tags, verdict := some r }) ∧
        (s.cap.closed = true → decided r t.cap))) ∧
  ((∀ (l : Line) (n : Notice) (rest : List Notice) (s : State), (s.link.get l).toCapture = n :: rest →
    (∃ time, n = .burstEnd time) ∨ (∃ why, n = .burstAbort why) → ¬ (s.cap.st = .filling l ∧ s.cap.closed = false) →
    exec (.captureClose l) s = .next { s with link := s.link.set l { s.link.get l with toCapture := rest } }) ∧
  (∀ (l : Line) (r : Report) (reports : List Report) (tag : Tag) (tags : List Tag) (s : State),
    s.pow.st = .dormant → (s.link.get l).reports = r :: reports → s.cap.lists.get l = tag :: tags →
    exec (.captureReport l) s = .next { s with
      link := s.link.set l { s.link.get l with reports := reports }
      cap := { s.cap with lists := s.cap.lists.set l tags } }) ∧
  ∀ (l : Line) (r : Report) (reports : List Report) (tag : Tag) (tags : List Tag) (s : State), s.pow.st ≠ .dormant →
    (s.link.get l).reports = r :: reports → s.cap.lists.get l = tag :: tags → tag ≠ .recorded →
    exec (.captureReport l) s = .next { s with
      link := s.link.set l { s.link.get l with reports := reports }
      cap := { s.cap with
        lists := s.cap.lists.set l tags
        missed := s.cap.missed || (decide (tag = .passed) &&
          (decide (r = .unmatched) || (decide (r = .matched) && decide (s.cap.latchedMode = .all)))) } })

/-- ARM CAPTURE and DISARM CAPTURE (R113, R121): all four capture commands are refused with STATE in DORMANT; elsewhere ARM latches LINE SELECT and MODE, clears TRUNCATED and MISSED
and makes PASSED entries IGNORED in IDLE, and is refused with BUSY elsewhere; DISARM leaves IDLE, abandoning a recording under
way with COUNT 0 and its RECORDED entry IGNORED, and is refused with BUSY in FULL.

RELEASE CAPTURE and LOAD CAPTURE in ACTIVE and LISTEN (R122, R125): a held recording without pins is given up, to an automatic
re-arm with AUTO REARM and to IDLE without; a pinned one is refused with PINNED; a recording of 1 to 256 host-written entries
is held with owner HOST, from IDLE only. -/
def Obligations.CaptureCommandsFollowState : Prop :=
  ((∀ s : State, s.pow.st = .dormant → s.pow.resetHeld = false → ∀ c ∈ [Instr.armCapture, .disarmCapture, .releaseCapture, .loadCapture],
    exec c s = .next { s with win := { s.win with result := .state } }) ∧
  ∀ s : State, s.pow.st ≠ .dormant → s.pow.resetHeld = false →
    let answer : CommandResult → State → State := fun r u => { u with win := { s.win with result := r } }
    let retag : Tag → PerLine (List Tag) := fun x =>
      ⟨s.cap.lists.a.map fun t => if t = x then .ignored else t, s.cap.lists.b.map fun t => if t = x then .ignored else t⟩
    (s.cap.st = .idle → exec .armCapture s = .next (answer .ok { s with cap := { s.cap with
      st := .armed, count := 0, truncated := false, missed := false, latchedSelect := s.cap.select
      latchedMode := s.cap.mode, closed := false, verdict := none, lists := retag .passed } })) ∧
    (s.cap.st ≠ .idle → exec .armCapture s = .next (answer .busy s)) ∧
    (s.cap.st = .idle → exec .disarmCapture s = .next (answer .ok s)) ∧
    (s.cap.st = .armed → exec .disarmCapture s = .next (answer .ok { s with cap := { s.cap with st := .idle } })) ∧
    (∀ l, s.cap.st = .filling l → exec .disarmCapture s = .next (answer .ok { s with cap := { s.cap with
      st := .idle, count := 0, closed := false, verdict := none, lists := retag .recorded } })) ∧
    (∀ o, s.cap.st = .full o → exec .disarmCapture s = .next (answer .busy s))) ∧
  (∀ s : State, s.pow.st ≠ .dormant → s.pow.resetHeld = false →
    let answer : CommandResult → State → State := fun r u => { u with win := { s.win with result := r } }
    let unpassed : PerLine (List Tag) :=
      ⟨s.cap.lists.a.map fun t => if t = .passed then .ignored else t,
        s.cap.lists.b.map fun t => if t = .passed then .ignored else t⟩
    (∀ o, s.cap.st = .full o →
      (s.cap.pins ≠ 0 → exec .releaseCapture s = .next (answer .pinned s)) ∧
      (s.cap.pins = 0 → s.cap.rearm = false → exec .releaseCapture s =
        .next (answer .ok { s with cap := { s.cap with st := .idle, count := 0 } })) ∧
      (s.cap.pins = 0 → s.cap.rearm = true → exec .releaseCapture s = .next (answer .ok { s with cap := { s.cap with
        st := .armed, count := 0, truncated := false, missed := false, latchedSelect := s.cap.select
        latchedMode := s.cap.mode, closed := false, verdict := none, lists := unpassed } })) ∧
      exec .loadCapture s = .next (answer .busy s)) ∧
    (∀ l, s.cap.st = .filling l →
      exec .releaseCapture s = .next (answer .busy s) ∧ exec .loadCapture s = .next (answer .busy s)) ∧
    (s.cap.st = .armed →
      exec .releaseCapture s = .next (answer .empty s) ∧ exec .loadCapture s = .next (answer .busy s)) ∧
    (s.cap.st = .idle → exec .releaseCapture s = .next (answer .empty s) ∧
      (1 ≤ s.cap.loadLength.toNat → s.cap.loadLength.toNat ≤ 256 → exec .loadCapture s =
        .next (answer .ok { s with cap := { s.cap with
          st := .full .host, count := s.cap.loadLength.toNat, truncated := false, missed := false
          lists := unpassed } })) ∧
      (s.cap.loadLength.toNat = 0 ∨ 257 ≤ s.cap.loadLength.toNat → exec .loadCapture s = .next (answer .badArg s))))

/-- CAPTURE CONTROL and the load length (R112, R124), whose writes are refused with ACCESS in DORMANT: a write of CAPTURE CONTROL stores the three fields, a
LINE SELECT that names no line as ANY, and changes no latched copy; a write of CAPTURE COUNT LO or HI stores its byte of the
load length and leaves COUNT, which is what a read returns. CAPTURE STATUS shows state and owner, PIN COUNT, TRUNCATED and MISSED
(R127, Table 9-2). -/
def Obligations.CaptureRegistersAreStored : Prop :=
  (∀ (hi : Bool) (v : Byte) (s : State), s.pow.st = .dormant → s.pow.resetHeld = false →
    exec (.captureControlWrite v) s = .next { s with irq := { s.irq with access := true } } ∧
    exec (.loadLengthWrite hi v) s = .next { s with irq := { s.irq with access := true } }) ∧
  (∀ s : State, s.pow.st ≠ .dormant → s.pow.resetHeld = false →
    (∀ v : Byte, ∃ t, exec (.captureControlWrite v) s = .next t ∧
      t = { s with cap := { s.cap with
        select := if v &&& 3 = 1 then .a else if v &&& 3 = 2 then .b else .any
        mode := if v.getLsbD 2 then .all else .unmatched
        rearm := v.getLsbD 3 } } ∧
      t.readRegister 0x28 = (if v &&& 3 = 0 then (v &&& 0x0F) ||| 3 else v &&& 0x0F)) ∧
    (∀ v : Byte, ∃ t, exec (.loadLengthWrite false v) s = .next t ∧
      t = { s with cap := { s.cap with loadLength := t.cap.loadLength } } ∧
      t.cap.loadLength.toNat = 256 * (s.cap.loadLength.toNat / 256) + v.toNat) ∧
    (∀ v : Byte, ∃ t, exec (.loadLengthWrite true v) s = .next t ∧
      t = { s with cap := { s.cap with loadLength := t.cap.loadLength } } ∧
      t.cap.loadLength.toNat = 256 * v.toNat + s.cap.loadLength.toNat % 256) ∧
    (s.cap.count ≤ 256 → s.readRegister 0x2A = BitVec.ofNat 8 s.cap.count ∧
      s.readRegister 0x2B = if s.cap.count = 256 then 1 else 0)) ∧
  ∀ s : State, s.readRegister 0x29 = BitVec.ofNat 8
    ((match s.cap.st with
      | .idle => 0
      | .armed => 1
      | .filling .A => 2
      | .filling .B => 3
      | .full (.line .A) => 4
      | .full (.line .B) => 5
      | .full .host => 6)
      + 8 * s.cap.pins + (if s.cap.truncated then 64 else 0) + (if s.cap.missed then 128 else 0))

/-! ### Table space and format table -/

/-- R177: TABLE POINTER LO and HI hold the ten bits of the table pointer; a write of either replaces its bits at once, in either
order, and ignores the other six bits of HI without ACCESS; a read returns them; in DORMANT the writes are refused with
ACCESS; every reset sets the pointer to 0.

R178: a read of TABLE DATA returns the byte at the pointer and advances the pointer by 1, from 0x3FF to 0x000 and with the carry
from bit 7, in every power state; it changes no stored byte and nothing else. -/
def Obligations.TablePointerIsReadAndAdvanced : Prop :=
  ((∀ (v : Byte) (s : State), s.pow.st ≠ .dormant → s.pow.resetHeld = false → ∃ t, exec (.registerWrite 0x14 v) s = .next t ∧
    t = { s with win := { s.win with pointer := t.win.pointer } } ∧
    t.win.pointer.toNat = 256 * (s.win.pointer.toNat / 256) + v.toNat) ∧
  (∀ (v : Byte) (s : State), s.pow.st ≠ .dormant → s.pow.resetHeld = false → ∃ t, exec (.registerWrite 0x15 v) s = .next t ∧
    t = { s with win := { s.win with pointer := t.win.pointer } } ∧
    t.win.pointer.toNat = 256 * (v.toNat % 4) + s.win.pointer.toNat % 256) ∧
  (∀ s : State, (s.readRegister 0x14).toNat = s.win.pointer.toNat % 256 ∧
    (s.readRegister 0x15).toNat = s.win.pointer.toNat / 256) ∧
  (∀ (off : BitVec 6) (v : Byte) (s : State), off = 0x14 ∨ off = 0x15 → s.pow.st = .dormant → s.pow.resetHeld = false →
    exec (.registerWrite off v) s = .next { s with irq := { s.irq with access := true } }) ∧
  ∀ (k : ResetKind) (s : State), (k = .soft → s.pow.resetHeld = false) →
    ∃ t, exec (resetRow k) s = .next t ∧ t.win.pointer = 0) ∧
  (∀ s : State, s.pow.resetHeld = false → ∃ t, exec .tableDataRead s = .next t ∧ t.win.dataBus = Memory.read s.mem s.win.pointer.toNat ∧
    t.win.pointer.toNat = (s.win.pointer.toNat + 1) % 1024 ∧ (∀ a, Memory.read t.mem a = Memory.read s.mem a) ∧
    t = { s with win := { s.win with dataBus := t.win.dataBus, pointer := t.win.pointer } })

/-- A write of TABLE DATA (R29, R30, R123, R161, R165, R179, R180): taken for a DISABLED format entry, for the wake list in ACTIVE and
for the capture buffer in capture IDLE; refused with ACCESS elsewhere, from 0x1C8 to 0x1FF, and in DORMANT. A taken byte is
stored, but for bytes 46 and 47 of an entry; no other byte changes, and the pointer advances in every case. -/
def Obligations.TableWriteIsJudgedByOwner : Prop :=
  ∀ (v : Byte) (s : State), Memory.wf s.mem → s.pow.resetHeld = false →
    let a := s.win.pointer.toNat
    let taken := s.pow.st ≠ .dormant ∧
      ((∃ n : Fin 8, 48 * n.val ≤ a ∧ a < 48 * n.val + 48 ∧ s.entries[n].st = .disabled) ∨
        (0x180 ≤ a ∧ a ≤ 0x1C7 ∧ s.pow.st = .active) ∨ (0x200 ≤ a ∧ s.cap.st = .idle))
    let unstored := (a < 0x180 ∧ 46 ≤ a % 48)
    ∃ t, exec (.tableDataWrite v) s = .next t ∧ t.win.pointer.toNat = (a + 1) % 1024 ∧ Memory.wf t.mem ∧
      (taken → ¬ unstored → Memory.read t.mem a = v) ∧ (taken → unstored → Memory.read t.mem a = Memory.read s.mem a) ∧
      (taken → t.irq = s.irq) ∧
      (¬ taken → Memory.read t.mem a = Memory.read s.mem a ∧ t.irq = { s.irq with access := true }) ∧
      (∀ b, b ≠ a → Memory.read t.mem b = Memory.read s.mem b) ∧
      t = { s with mem := t.mem, irq := t.irq, win := { s.win with pointer := t.win.pointer } }

/-- ENABLE FORMAT (R31): STATE in DORMANT; BAD ARG for an argument above 7, OK and nothing else for an ENABLED entry, BUSY for a
RETIRING one; a DISABLED entry is validated against the IDLE values as they stand, and becomes ENABLED when every step
passes; a refusal changes nothing but the result.

DISABLE FORMAT (R39, R87): STATE in DORMANT; BAD ARG for an argument above 7; a DISABLED entry stays so and reads back 0, a
RETIRING one stays so and reads back 2; an ENABLED entry with a holder becomes RETIRING and reads back 2; without one it
becomes DISABLED and reads back 0, and the memories that name it are emptied without a RELEASE record and without RETIRED. -/
def Obligations.FormatCommandsFollowEntryState : Prop :=
  ((∀ s : State, s.pow.st = .dormant → s.pow.resetHeld = false →
    exec .enableFormat s = .next { s with win := { s.win with result := .state } }) ∧
  ∀ s : State, s.pow.st ≠ .dormant → s.pow.resetHeld = false →
    let answer : CommandResult → State → State := fun r u => { u with win := { s.win with result := r } }
    (7 < s.win.arg.toNat → exec .enableFormat s = .next (answer .badArg s)) ∧
    ∀ n : Fin 8, s.win.arg.toNat = n.val →
      (s.entries[n].st = .enabled → exec .enableFormat s = .next (answer .ok s)) ∧
      (s.entries[n].st = .retiring → exec .enableFormat s = .next (answer .busy s)) ∧
      (s.entries[n].st = .disabled →
        let r := (s.format n).validate s.fe.a.idle s.fe.b.idle
        (r ≠ .ok → exec .enableFormat s = .next (answer r s)) ∧
        (r = .ok → exec .enableFormat s = .next (answer .ok
          { s with entries := s.entries.set n { s.entries[n] with st := .enabled } })))) ∧
  ((∀ s : State, s.pow.st = .dormant → s.pow.resetHeld = false →
    exec .disableFormat s = .next { s with win := { s.win with result := .state } }) ∧
  ∀ s : State, s.pow.st ≠ .dormant → s.pow.resetHeld = false →
    let answer : CommandResult → Byte → State → State := fun r v u => { u with win := { s.win with result := r, arg := v } }
    (7 < s.win.arg.toNat → exec .disableFormat s = .next (answer .badArg s.win.arg s)) ∧
    ∀ n : Fin 8, s.win.arg.toNat = n.val →
      (s.entries[n].st = .disabled → exec .disableFormat s = .next (answer .ok 0 s)) ∧
      (s.entries[n].st = .retiring → exec .disableFormat s = .next (answer .ok 2 s)) ∧
      (s.entries[n].st = .enabled → s.entries[n].unheld = false → exec .disableFormat s = .next (answer .ok 2
        { s with entries := s.entries.set n { s.entries[n] with st := .retiring } })) ∧
      (s.entries[n].st = .enabled → s.entries[n].unheld = true → ∃ t, exec .disableFormat s = .next t ∧
        t.win = { s.win with result := .ok, arg := 0 } ∧
        t.entries = s.entries.set n { s.entries[n] with st := .disabled } ∧
        (∀ l m, (s.rep.get l).memory = some m →
          (m.entry = n → (t.rep.get l) = { s.rep.get l with memory := none, due := false, dueReached := false } ∧
            (∀ r ∈ t.rq.records, r.refersFor l = false) ∧
            ((t.link.get l).posts.map (·.record)).Sublist ((s.link.get l).posts.map (·.record))) ∧
          (m.entry ≠ n → t.rep.get l = s.rep.get l ∧ t.link.get l = s.link.get l)) ∧
        t.rq.records.map identity = s.rq.records.map identity ∧ t.irq = s.irq ∧
        (∀ a, Memory.read t.mem a = Memory.read s.mem a) ∧ t.pending = s.pending ∧ t.fe = s.fe ∧ t.dec = s.dec ∧
        t.cap = s.cap ∧ t.tx = s.tx ∧ t.pow = s.pow ∧ t.clock = s.clock))

/-- Validation passes a PAIR entry exactly when the conditions of R32 to R37 hold, spelled out here window by window (a present
window that step 3 examines has a minimum of at least 1: log entry 10). Under either coding the first of the seven steps that
fails gives its code, and an entry that passes all seven is OK. -/
def Obligations.PairValidationAcceptsExactly : Prop :=
  (∀ (f : Format) (idleA idleB : Byte), f.coding = .pair →
    let below : Byte → Prop := fun idle =>
      f.headerSpace.hi < 100 * idle.toNat ∧ f.space0.hi < 100 * idle.toNat ∧ f.space1.hi < 100 * idle.toNat ∧
        f.repeatSpace.hi < 100 * idle.toNat
    (f.validate idleA idleB = .ok ↔
      f.repeatKind ≠ .illegal ∧
      (1 ≤ f.minBits ∧ f.minBits ≤ f.maxBits ∧ f.maxBits ≤ 64) ∧
      (f.check = .invertedPairs → 16 ∣ f.minBits ∧ 16 ∣ f.maxBits) ∧
      ((gone f.headerMark ∧ gone f.headerSpace) ∨ (here f.headerMark ∧ here f.headerSpace)) ∧
      (here f.mark0 ∧ here f.space0 ∧ here f.mark1 ∧ here f.space1) ∧
      (gone f.trailerMark ∨ here f.trailerMark) ∧ (gone f.repeatMark ∨ here f.repeatMark) ∧
      (gone f.repeatSpace ∨ here f.repeatSpace) ∧
      ¬ (meet f.mark0 f.mark1 ∧ meet f.space0 f.space1) ∧ ¬ (meet f.mark0 f.mark1 ∧ gone f.trailerMark) ∧
      (f.repeatKind = .code → ¬ gone f.repeatMark ∧ ¬ gone f.repeatSpace ∧ ¬ gone f.trailerMark) ∧
      (f.repeatKind ≠ .none ∨ f.release = true → 1 ≤ f.rw) ∧
      (f.lineA = true → below idleA) ∧ (f.lineB = true → below idleB) ∧
      (80 ≤ f.period ∧ f.period ≤ 1023) ∧ (f.duty = 0 ∨ (10 ≤ f.duty ∧ f.duty ≤ 75)) ∧ f.txGap ≠ 0)) ∧
  ∀ (f : Format) (idleA idleB : Byte),
    let result := f.validate idleA idleB
    (¬ StepCodes f → result = .badCoding) ∧
    (StepCodes f → (¬ StepBits f → result = .badBits) ∧
      (StepBits f → (¬ StepWindows f → result = .badWindow) ∧
        (StepWindows f → (¬ StepDistinct f → result = .ambiguous) ∧
          (StepDistinct f → (¬ StepRepeat f → result = .badRepeat) ∧
            (StepRepeat f → (¬ StepIdle f idleA idleB → result = .exceedsIdle) ∧
              (StepIdle f idleA idleB → (¬ StepCarrier f → result = .badCarrier) ∧
                (StepCarrier f → (f.txGap = 0 → result = .badTiming) ∧ (f.txGap ≠ 0 → result = .ok))))))))

/-! ### Transmitter -/

/-- The staging registers (R130): a write in ACTIVE and LISTEN stores its byte, legal or not, where a read returns it, and leaves the
other staging registers, the jobs already submitted and everything else as they were; in DORMANT it is refused with ACCESS.

SUBMIT (R131, R126): the tests in their order, the first that fails giving the result; when all pass, a copy of the staging
registers becomes the newest job, and PIN COUNT increases for a REPLAY job. A refusal changes nothing but the result. -/
def Obligations.StagingIsStoredAndSubmitted : Prop :=
  (∀ (r : Fin 14) (v : Byte) (s : State),
    (s.pow.st ≠ .dormant → s.pow.resetHeld = false → ∃ t, exec (.stagingRegisterWrite r v) s = .next t ∧
      t = { s with tx := { s.tx with staging := t.tx.staging } } ∧ t.tx.staging.register r = v ∧
      (∀ q, q ≠ r → t.tx.staging.register q = s.tx.staging.register q) ∧
      ∀ q : Fin 14, t.readRegister (BitVec.ofNat 6 (0x2C + q.val)) = t.tx.staging.register q) ∧
    (s.pow.st = .dormant → s.pow.resetHeld = false →
      exec (.stagingRegisterWrite r v) s = .next { s with irq := { s.irq with access := true } })) ∧
  (∀ s : State, s.pow.resetHeld = false →
    let j := s.tx.staging
    let code := j.kindFlags &&& 3
    let answer : CommandResult → State → State := fun r u => { u with win := { s.win with result := r } }
    (s.pow.st ≠ .active → exec .submit s = .next (answer .state s)) ∧
    (s.pow.st = .active →
      (4 ≤ s.tx.jobs.length → exec .submit s = .next (answer .full s)) ∧
      (s.tx.jobs.length < 4 →
        (code = 0 ∨ code = 3 ∨ 7 < j.format.toNat → exec .submit s = .next (answer .badArg s)) ∧
        ∀ n : Fin 8, j.format.toNat = n.val → code = 1 ∨ code = 2 →
          (s.entries[n].st ≠ .enabled → exec .submit s = .next (answer .unavailable s)) ∧
          (s.entries[n].st = .enabled → code = 1 →
            (j.bits.toNat < (s.format n).minBits ∨ (s.format n).maxBits < j.bits.toNat →
              exec .submit s = .next (answer .badArg s)) ∧
            ((s.format n).minBits ≤ j.bits.toNat → j.bits.toNat ≤ (s.format n).maxBits →
              exec .submit s = .next (answer .ok { s with tx := { s.tx with jobs := s.tx.jobs ++ [j] } }))) ∧
          (s.entries[n].st = .enabled → code = 2 →
            ((∀ o, s.cap.st ≠ .full o) → exec .submit s = .next (answer .unavailable s)) ∧
            (∀ o, s.cap.st = .full o → exec .submit s = .next (answer .ok { s with
              tx := { s.tx with jobs := s.tx.jobs ++ [j] }
              cap := { s.cap with pins := s.cap.pins + 1 } }))))))

/-- JOB_START (R134 to R136, R153): with the transmitter IDLE, the power state ACTIVE and fewer than four completions, the head job
starts. When its entry is not ENABLED it completes UNAVAILABLE and leaves the queue and its pin, and no hold is taken. When it
is ENABLED the transmitter holds the entry, each line of the BLANK mask is blanked with its burst cut and its guard hold
ended, the burst count is 0, and burst 1 begins. Where a condition is lacking the event does not occur (log entry 1); the
instant of the start is the model's clock (log entry 2). -/
def Obligations.JobStartsOrIsUnavailable : Prop :=
  ∀ (j : Job) (jobs : List Job) (s : State), s.tx.jobs = j :: jobs →
    ((s.tx.st ≠ .idle ∨ s.pow.st ≠ .active ∨ 4 ≤ s.tx.completions.length) → exec .jobStart s = .next s) ∧
    (s.tx.st = .idle → s.pow.st = .active → s.tx.completions.length < 4 →
      ((∀ n : Fin 8, j.entry = some n → s.entries[n].st ≠ .enabled) → exec .jobStart s = .next { s with
        tx := { s.tx with jobs := jobs, completions := s.tx.completions ++ [⟨j.tag, .unavailable, 0⟩] }
        cap := { s.cap with pins := if j.kind = .replay then s.cap.pins - 1 else s.cap.pins } }) ∧
      ∀ n : Fin 8, j.entry = some n → s.entries[n].st = .enabled → ∃ t, exec .jobStart s = .next t ∧
        t.entries = s.entries.set n { s.entries[n] with transmitter := true } ∧
        t.tx = { s.tx with
          st := .burst
          bursts := 0
          index := 1
          stopping := false
          burstStart := s.clock.now
          elements := s.burstElements (s.format n) j 1
          period := (s.format n).period
          onTime := (s.format n).onTime } ∧
        (∀ l, (j.blanks l = false → t.fe.get l = s.fe.get l ∧ t.link.get l = s.link.get l) ∧
          (j.blanks l = true → (t.fe.get l).txHold = true ∧ (t.fe.get l).guardHold = none ∧
            (t.fe.get l).fault = (s.fe.get l).fault ∧ (t.fe.get l).idle = (s.fe.get l).idle ∧
            (t.fe.get l).polarity = (s.fe.get l).polarity ∧ (t.fe.get l).glitch = (s.fe.get l).glitch ∧
            ((s.fe.get l).st = .off ∨ (s.fe.get l).st = .parked ∨ (s.fe.get l).st = .watch →
              (t.fe.get l).st = (s.fe.get l).st) ∧
            ((s.fe.get l).st ≠ .off → (s.fe.get l).st ≠ .parked → (s.fe.get l).st ≠ .watch →
              (t.fe.get l).st = .blanked ∧ (t.fe.get l).test = none) ∧
            let cut := if (s.fe.get l).st = .mark ∨ (s.fe.get l).st = .space then [Notice.burstAbort .blanked] else []
            t.link.get l = { s.link.get l with
              toDecoder := (s.link.get l).toDecoder ++ cut
              toCapture := (s.link.get l).toCapture ++ cut })) ∧
        (∀ a, Memory.read t.mem a = Memory.read s.mem a) ∧ t.pending = s.pending ∧ t.dec = s.dec ∧ t.rep = s.rep ∧
        t.rq = s.rq ∧ t.cap = s.cap ∧ t.pow = s.pow ∧ t.win = s.win ∧ t.irq = s.irq ∧ t.clock = s.clock)

/-- TX_BURST_END (R137, R143 to R145, R147): the burst count increases, held at 255. With more bursts to send the transmitter enters
GAP until the later of the burst's start plus FRAME PERIOD and its end plus TX GAP; else the job ends at the burst's end,
STOPPED when the stopping mark is set and DONE when it is clear. Outside BURST the event does not occur (log entry 1). The
burst's end is an instant of the model's clock, which moves on to it (log entry 2). That a line which enters SETTLE with its
input still active takes the idle threshold of the entry is the model's choice (log entry 23). -/
def Obligations.BurstEndLeadsToGapOrJobEnd : Prop :=
  (∀ s : State, s.tx.st ≠ .burst → exec .txBurstEnd s = .next s) ∧
  ∀ (j : Job) (jobs : List Job) (n : Fin 8) (s : State), s.tx.st = .burst → s.tx.jobs = j :: jobs → j.entry = some n →
    let ended := s.tx.burstStart + 8 * burstLength s.tx.elements
    let more := s.tx.stopping = false ∧ (j.kindFlags.getLsbD 7 = true ∨ s.tx.index < 1 + j.repeats.toNat)
    (more → exec .txBurstEnd s = .next { s with
      clock := { s.clock with now := max s.clock.now ended }
      tx := { s.tx with
        st := .gap
        bursts := min 255 (s.tx.bursts + 1)
        nextStart := max (s.tx.burstStart + 8 * (1000 * (s.format n).framePeriod))
          (ended + 8 * (100 * (s.format n).txGap)) } }) ∧
    (¬ more → ∃ t, exec .txBurstEnd s = .next t ∧
      JobEnded s j n (if s.tx.stopping = true then .stopped else .done) (min 255 (s.tx.bursts + 1)) ended t ∧
      t.clock = { s.clock with now := max s.clock.now ended } ∧ t.win = s.win)

/-- NEXT_BURST_START and TAIL_END (R143, R146): in GAP the next burst begins at its start instant, its fields read from the entry;
in TAIL the transmitter enters IDLE when the TAIL has passed. In other states they do not occur (log entry 1).

GUARD_HOLD_END (R13, R152): at its end instant the guard timer gives up its hold; a BLANKED line without another holder enters
SETTLE, and with one it stays BLANKED; an OFF line stays OFF. Without a guard hold the event does not occur (log entry 1).

The three instants are of the model's clock, which moves on to each, and the SETTLE wait counts from it (log entry 2). That
a wait entered with the input still active takes the idle threshold of the entry is the model's choice (log entry 23). -/
def Obligations.GapTailAndGuardRunOut : Prop :=
  ((∀ (j : Job) (jobs : List Job) (n : Fin 8) (s : State), s.tx.st = .gap → s.tx.jobs = j :: jobs → j.entry = some n →
    exec .nextBurstStart s = .next { s with
      clock := { s.clock with now := max s.clock.now s.tx.nextStart }
      tx := { s.tx with
        st := .burst
        index := s.tx.index + 1
        burstStart := s.tx.nextStart
        elements := s.burstElements (s.format n) j (s.tx.index + 1)
        period := (s.format n).period
        onTime := (s.format n).onTime } }) ∧
  (∀ s : State, s.tx.st = .tail → exec .tailEnd s = .next { s with
    clock := { s.clock with now := max s.clock.now s.tx.tailEnd }
    tx := { s.tx with st := .idle } }) ∧
  (∀ s : State, s.tx.st ≠ .gap → exec .nextBurstStart s = .next s) ∧
  ∀ s : State, s.tx.st ≠ .tail → exec .tailEnd s = .next s) ∧
  ((∀ (l : Line) (s : State), (s.fe.get l).guardHold = none → exec (.guardHoldEnd l) s = .next s) ∧
  ∀ (l : Line) (instant : Nat) (s : State), (s.fe.get l).guardHold = some instant →
    let f := s.fe.get l
    let now := max s.clock.now instant
    let u : State := { s with clock := { s.clock with now := now } }
    ((f.st ≠ .blanked ∨ f.txHold = true) → exec (.guardHoldEnd l) s =
      .next { u with fe := s.fe.set l { f with guardHold := none } }) ∧
    (f.st = .blanked → f.txHold = false → exec (.guardHoldEnd l) s = .next { u with fe := s.fe.set l { f with
      guardHold := none
      st := .settle
      test := none
      wait := if f.active then none else some now
      threshold := 8 * (100 * f.idle.toNat) } }))

/-- What a burst is built of (R137 to R142): a REPLAY sends the recording, a CODE entry sends its repeat burst after the first, a PAIR
entry its header where it has one, a mark and a space for each bit, and its trailer, without which the space of the last bit is
not sent, each at the nominal of its window, half the sum of its bounds with any fraction dropped (R28, R138); a
BIPHASE entry sends, for its bits, the row of half-cells of R140 joined into T and 2T elements that alternate in level and begin
and end with a mark; TXO is active only in BURST, during a mark, in the on-time of a carrier period counted from the mark's
start. A REPLAY burst holds, µs by µs, the levels of the recording's entries in index order, as elements that alternate in level
and last longer than 0. The on-time is P × D / 100 with any fraction dropped; that duty 0 is kept as an on-time of the whole
period is log entry 18. TXO is read at the model's clock (log entry 2). -/
def Obligations.BurstIsBuiltFromEntry : Prop :=
  (∀ (f : Format) (j : Job) (i : Nat) (s : State),
    (j.kind = .replay → s.burstElements f j i = replayBurst s.mem s.cap.count) ∧
    (j.kind ≠ .replay → f.coding ≠ .biphase → f.repeatKind = .code → 1 < i → s.burstElements f j i =
      [⟨.mark, f.repeatMark.nominal⟩, ⟨.space, f.repeatSpace.nominal⟩, ⟨.mark, f.trailerMark.nominal⟩]) ∧
    (j.kind ≠ .replay → f.coding ≠ .biphase → (f.repeatKind ≠ .code ∨ i ≤ 1) → s.burstElements f j i =
      f.pairBurst (bitsToSend f.msbFirst j.payload j.bits.toNat)) ∧
    (j.kind ≠ .replay → f.coding = .biphase → s.burstElements f j i =
      f.biphaseBurst (bitsToSend f.msbFirst j.payload j.bits.toNat))) ∧
  (∀ w : Window, w.nominal = (w.lo + w.hi) / 2) ∧
  (∀ (f : Format) (bits : List Bool),
    let sent : Window → Window → List Element := fun m d => [⟨.mark, (m.lo + m.hi) / 2⟩, ⟨.space, (d.lo + d.hi) / 2⟩]
    let row : List Element := bits.flatMap fun b => if b then sent f.mark1 f.space1 else sent f.mark0 f.space0
    ∃ head tail : List Element, f.pairBurst bits = head ++ tail ∧
      (gone f.headerMark → head = []) ∧ (¬ gone f.headerMark → head = sent f.headerMark f.headerSpace) ∧
      (gone f.trailerMark → tail = row.dropLast) ∧
      (¬ gone f.trailerMark → tail = row ++ [⟨.mark, (f.trailerMark.lo + f.trailerMark.hi) / 2⟩])) ∧
  (∀ f : Format, (f.duty = 0 → f.onTime = f.period) ∧ (f.duty ≠ 0 → f.onTime = f.period * f.duty / 100)) ∧
  (∀ (f : Format) (bits : List Bool),
    let row : List Level := .mark :: bits.flatMap fun b => if b then [.space, .mark] else [.mark, .space]
    (0 < f.mark0.nominal → ((f.biphaseBurst bits).flatMap fun e => List.replicate (e.us / f.mark0.nominal) e.level) =
      if row.getLast? = some .space then row.dropLast else row) ∧
    (∀ e ∈ f.biphaseBurst bits, e.us = f.mark0.nominal ∨ e.us = 2 * f.mark0.nominal) ∧
    (f.biphaseBurst bits).IsChain (fun x y => x.level ≠ y.level) ∧
    (∀ e, (f.biphaseBurst bits).head? = some e → e.level = .mark) ∧
    (∀ e, (f.biphaseBurst bits).getLast? = some e → e.level = .mark)) ∧
  (∀ (m : List Host.Cell) (count : Nat), (replayBurst m count).IsChain (fun x y => x.level ≠ y.level) ∧
    (∀ e ∈ replayBurst m count, e.us ≠ 0) ∧
    ((replayBurst m count).flatMap fun e => List.replicate e.us e.level) =
      ((List.range count).map (captureElementAt m)).flatMap (fun e => List.replicate e.us e.level) ∧
    burstLength (replayBurst m count) = ((List.range count).map fun k => (captureElementAt m k).us).sum) ∧
  (∀ s : State, s.tx.st ≠ .burst → s.txo = false) ∧
  ∀ (s : State) (before after : List Element) (e : Element), s.tx.st = .burst → s.tx.elements = before ++ e :: after →
    s.tx.burstStart + 8 * burstLength before ≤ s.clock.now →
    s.clock.now < s.tx.burstStart + 8 * (burstLength before + e.us) →
    (s.txo = true ↔ e.level = .mark ∧
      (s.clock.now - (s.tx.burstStart + 8 * burstLength before)) % s.tx.period < s.tx.onTime)

/-- STOP TX in ACTIVE and LISTEN (R147): in BURST it sets the stopping mark; in GAP the job ends STOPPED at once; in IDLE and TAIL it
is refused with NOT ACTIVE. The instants at which the TAIL and a guard hold end are counted from the model's clock (log entry 2).
That a line which enters SETTLE with its input still active takes the idle threshold of the entry is the model's choice (log
entry 23).

POP COMPLETION (R150, R151), refused with STATE in DORMANT: the oldest completion goes, or EMPTY is answered; the view shows the oldest
completion and 0 without one. A job start that a full FIFO held back comes as its own row, JOB_START (log entry 1). TX STATUS shows the state code and the numbers of jobs and completions (R155, Table 9-2). -/
def Obligations.StopTxAndPopCompletion : Prop :=
  (∀ s : State, s.pow.st ≠ .dormant → s.pow.resetHeld = false →
    ((s.tx.st = .idle ∨ s.tx.st = .tail) →
      exec .stopTx s = .next { s with win := { s.win with result := .notActive } }) ∧
    ∀ (j : Job) (jobs : List Job) (n : Fin 8), s.tx.jobs = j :: jobs → j.entry = some n →
      (s.tx.st = .burst → exec .stopTx s = .next { s with
        tx := { s.tx with stopping := true }
        win := { s.win with result := .ok } }) ∧
      (s.tx.st = .gap → ∃ t, exec .stopTx s = .next t ∧ JobEnded s j n .stopped s.tx.bursts s.clock.now t ∧
        t.clock = s.clock ∧ t.win = { s.win with result := .ok })) ∧
  ((∀ s : State, s.pow.st = .dormant → s.pow.resetHeld = false →
    exec .popCompletion s = .next { s with win := { s.win with result := .state } }) ∧
  (∀ s : State, s.pow.st ≠ .dormant → s.pow.resetHeld = false → s.tx.completions = [] → exec .popCompletion s =
    .next { s with win := { s.win with result := .empty } }) ∧
  (∀ (c : Completion) (rest : List Completion) (s : State), s.pow.st ≠ .dormant → s.pow.resetHeld = false →
    s.tx.completions = c :: rest → exec .popCompletion s = .next { s with
      tx := { s.tx with completions := rest }
      win := { s.win with result := .ok } }) ∧
  (∀ (c : Completion) (rest : List Completion) (s : State), s.tx.completions = c :: rest →
    s.readRegister 0x3B = c.tag ∧ s.readRegister 0x3C = BitVec.ofNat 8 c.status.code ∧
      s.readRegister 0x3D = BitVec.ofNat 8 c.bursts) ∧
  (∀ s : State, s.tx.completions = [] →
    s.readRegister 0x3B = 0 ∧ s.readRegister 0x3C = 0 ∧ s.readRegister 0x3D = 0) ∧
  ∀ s : State, s.readRegister 0x3A = BitVec.ofNat 8
    ((match s.tx.st with
      | .idle => 0
      | .burst => 1
      | .gap => 2
      | .tail => 3)
      + 4 * s.tx.jobs.length + 32 * s.tx.completions.length))

/-- ABORT TX in ACTIVE and LISTEN (R148, R149): with argument 0 the active job ends ABORTED at once, a burst being sent counting as
sent, and NOT ACTIVE is answered with none; with argument 1 the waiting jobs go as well, without completions and with their
pins, and COMMAND ARG takes their number; any other argument is refused with BAD ARG. The instants at which the TAIL and a guard
hold end are counted from the model's clock (log entry 2). That a line which enters SETTLE with its input still active takes
the idle threshold of the entry is the model's choice (log entry 23). -/
def Obligations.AbortCutsActiveJob : Prop :=
  ∀ s : State, s.pow.st ≠ .dormant → s.pow.resetHeld = false →
    (s.win.arg ≠ 0 → s.win.arg ≠ 1 → exec .abortTx s = .next { s with win := { s.win with result := .badArg } }) ∧
    (s.win.arg = 0 → s.tx.st = .idle ∨ s.tx.st = .tail →
      exec .abortTx s = .next { s with win := { s.win with result := .notActive } }) ∧
    (s.win.arg = 1 → s.tx.st = .idle ∨ s.tx.st = .tail → exec .abortTx s = .next { s with
      tx := { s.tx with jobs := [] }
      cap := { s.cap with pins := s.cap.pins - s.tx.jobs.countP fun j => decide (j.kind = .replay) }
      win := { s.win with result := .ok, arg := BitVec.ofNat 8 s.tx.jobs.length } }) ∧
    ∀ (j : Job) (jobs : List Job) (n : Fin 8), s.tx.jobs = j :: jobs → j.entry = some n →
      s.tx.st = .burst ∨ s.tx.st = .gap →
      let bursts := if s.tx.st = .burst then min 255 (s.tx.bursts + 1) else s.tx.bursts
      (s.win.arg = 0 → ∃ t, exec .abortTx s = .next t ∧ JobEnded s j n .aborted bursts s.clock.now t ∧
        t.clock = s.clock ∧ t.win = { s.win with result := .ok }) ∧
      (s.win.arg = 1 → ∃ u t, exec .abortTx s = .next t ∧ JobEnded s j n .aborted bursts s.clock.now u ∧
        u.clock = s.clock ∧ t = { u with
          tx := { u.tx with jobs := [] }
          cap := { u.cap with pins := u.cap.pins - jobs.countP fun x => decide (x.kind = .replay) }
          win := { s.win with result := .ok, arg := BitVec.ofNat 8 jobs.length } })

/-! ### Power unit -/

/-- ENTER LISTEN, WAKE UP and CLEAR WAKE (R158, R163, R169, R171): ENTER LISTEN and CLEAR WAKE are
refused with STATE in DORMANT; ENTER LISTEN is OK in LISTEN, enters LISTEN from ACTIVE when the
transmitter is IDLE with an empty queue, and is BUSY otherwise; WAKE UP is OK in every power state, enters ACTIVE, and sets
WAKE SOURCE to HOST where it was NONE and the state was not ACTIVE; CLEAR WAKE deasserts the pin and clears WAKE SOURCE and the
matched-entry record. None asserts the pin or sets the WAKE cause. The instants at which TIME resumes and the SETTLE waits begin
are of the model's clock (log entry 2). That a line whose input is still active takes the idle threshold of the entry to SETTLE
is the model's choice (log entry 23). -/
def Obligations.ListenWakeUpAndClearWake : Prop :=
  ∀ s : State, s.pow.resetHeld = false →
    let answer : CommandResult → State → State := fun r u => { u with win := { s.win with result := r } }
    let noted : WakeSource := if s.pow.wakeSource = .none then .host else s.pow.wakeSource
    (s.pow.st = .dormant →
      exec .enterListen s = .next (answer .state s) ∧ exec .clearWake s = .next (answer .state s)) ∧
    (s.pow.st = .listen → exec .enterListen s = .next (answer .ok s)) ∧
    (s.pow.st = .active → s.tx.st = .idle → s.tx.jobs = [] →
      exec .enterListen s = .next (answer .ok { s with pow := { s.pow with st := .listen } })) ∧
    (s.pow.st = .active → s.tx.st ≠ .idle ∨ s.tx.jobs ≠ [] → exec .enterListen s = .next (answer .busy s)) ∧
    (s.pow.st ≠ .dormant → exec .clearWake s = .next (answer .ok { s with
      pow := { s.pow with wakePin := false, matched := none, wakeSource := .none } })) ∧
    (s.pow.st = .active → exec .wakeUp s = .next (answer .ok s)) ∧
    (s.pow.st = .listen → exec .wakeUp s = .next (answer .ok { s with
      pow := { s.pow with st := .active, wakeSource := noted } })) ∧
    (s.pow.st = .dormant → ∃ t, exec .wakeUp s = .next t ∧
      t = { answer .ok s with
        fe := t.fe
        pow := { s.pow with st := .active, wakeSource := noted }
        clock := { s.clock with tickAt := s.clock.now + s.clock.remain } } ∧
      ∀ l, ((s.fe.get l).st = .off → t.fe.get l = s.fe.get l) ∧
        ((s.fe.get l).st ≠ .off → t.fe.get l = { s.fe.get l with
          st := .settle
          test := none
          wait := if (s.fe.get l).active then none else some s.clock.now
          threshold := 8 * (100 * (s.fe.get l).idle.toNat) }))

/-- ENTER DORMANT in ACTIVE and LISTEN (R14, R86, R109, R128, R154, R159): BAD ARG above 3, BUSY unless the transmitter is IDLE with an empty
queue. Otherwise the guard holds end, a burst in progress is aborted with reason DORMANT and its decoder returns to WAIT with
the report ABORTED (R68), an enabled line enters WATCH or PARKED by the edge mask, both memories expire with their RELEASE
records stamped TIME, which the queue appends or loses at the entry, OPEN and DUE are cleared, a FILLING recording is discarded, and the rest of the millisecond of TIME is
kept (section 1.9; in ticks of the model's clock, log entry 2). A burst cut on a RETIRING entry may complete its retirement (R40);
where that comes before the expiry of a memory that names the entry, the memory is cleared without a RELEASE (R87, R159).

What was on its way to a decoder, a repeat unit or the receive queue is taken first: the clauses speak of the state `u` this
leaves, which is the present state where nothing was on its way. A request to expire is taken with the expiry of the entry (log
entry 8). Which line goes first, with what is on its way and with its RELEASE record (R94), and whether an expiry or an abort
comes first, is left open (log entry 24). -/
def Obligations.EnterDormantQuietsProcessor : Prop :=
  ∀ s : State, s.pow.st ≠ .dormant → s.pow.resetHeld = false →
    let answer : CommandResult → State := fun r => { s with win := { s.win with result := r } }
    (3 < s.win.arg.toNat → exec .enterDormant s = .next (answer .badArg)) ∧
    (s.win.arg.toNat ≤ 3 → s.tx.st ≠ .idle ∨ s.tx.jobs ≠ [] → exec .enterDormant s = .next (answer .busy)) ∧
    (s.win.arg.toNat ≤ 3 → s.tx.st = .idle → s.tx.jobs = [] →
      ((∀ l, (s.link.get l).toDecoder = [] ∧ (s.link.get l).outcome = none ∧ (s.link.get l).posts = []) →
        ∀ first, s.settleInFlight first = s) ∧
      ∃ first : Line,
      let u := s.settleInFlight first
      let cutShort : Line → Prop := fun l => (s.fe.get l).st = .mark ∨ (s.fe.get l).st = .space
      let aborted : Line → Prop := fun l => cutShort l ∧ (u.dec.get l).st ≠ .wait
      let room := 16 - u.rq.records.length
      ∃ (t : State) (released : Line → List Record) (releases : List Record), exec .enterDormant s = .next t ∧
        (∀ l, ((u.rep.get l).memory = none → released l = []) ∧ ∀ m, (u.rep.get l).memory = some m →
          released l = releaseOf s l m ∨
            (released l = [] ∧ u.entries[m.entry].st = .retiring ∧ t.entries[m.entry].st = .disabled)) ∧
        (releases = released .A ++ released .B ∨ releases = released .B ++ released .A) ∧
        t.pow = { s.pow with st := .dormant } ∧ t.win = { s.win with result := .ok } ∧
        t.clock = { s.clock with remain := s.clock.tickAt - s.clock.now } ∧
        (∀ l,
          let named := match l with
            | .A => s.win.arg.getLsbD 0
            | .B => s.win.arg.getLsbD 1
          ((s.fe.get l).st = .off → t.fe.get l = { s.fe.get l with guardHold := none }) ∧
          ((s.fe.get l).st ≠ .off → t.fe.get l = { s.fe.get l with
            guardHold := none, test := none, st := if named then .watch else .parked }) ∧
          (t.link.get l).toDecoder = [] ∧ (t.link.get l).outcome = none ∧
          (cutShort l → (t.link.get l).toCapture = (s.link.get l).toCapture ++ [.burstAbort .dormant]) ∧
          (¬ cutShort l → (t.link.get l).toCapture = (s.link.get l).toCapture) ∧
          (aborted l → (t.link.get l).reports = (u.link.get l).reports ++ [.aborted] ∧
            t.dec.get l = { u.dec.get l with st := .wait, candidates := [] }) ∧
          (¬ aborted l → (t.link.get l).reports = (u.link.get l).reports ∧ t.dec.get l = u.dec.get l) ∧
          (t.rep.get l).memory = none ∧ (t.rep.get l).opened = false ∧ (t.link.get l).posts = [] ∧
          (t.link.get l).expireRequests = [] ∧
          ∀ m, (u.rep.get l).memory = some m → (t.rep.get l).due = false ∧ ∀ r ∈ t.rq.records, r.refersFor l = false) ∧
        t.rq.records.map identity = (u.rq.records ++ releases.take room).map identity ∧
        (releases.length ≤ room → t.rq.records.drop u.rq.records.length = releases) ∧
        (room < releases.length → ∃ r, t.rq.records.getLast? = some r ∧ r.loss = true) ∧
        t.rq.held = s.rq.held ∧ t.rq.watermark = s.rq.watermark ∧
        (∀ l, s.cap.st = .filling l → t.cap.st = .armed ∧ t.cap.count = 0 ∧
          .recorded ∉ t.cap.lists.a ∧ .recorded ∉ t.cap.lists.b) ∧
        ((∀ l, s.cap.st ≠ .filling l) → t.cap = s.cap) ∧
        t.irq = { u.irq with retired := t.irq.retired, loss := u.irq.loss || decide (room < releases.length) } ∧
        ((∀ l, ¬ aborted l) → t.entries = u.entries ∧ t.irq.retired = u.irq.retired) ∧
        ((∀ n : Fin 8, u.entries[n].st ≠ .retiring) → t.irq.retired = u.irq.retired) ∧
        s.rq.records.map identity <+: u.rq.records.map identity ∧
        t.tx = s.tx ∧ t.pending = s.pending ∧ ∀ a, Memory.read t.mem a = Memory.read s.mem a)

/-- WAKE_EDGE and WAKE_OFFER (R162, R164, R166, R167, R168): a WAKE EDGE taken in DORMANT asserts the pin, sets the WAKE cause, sets
WAKE SOURCE where it was NONE, and leaves DORMANT for LISTEN with every enabled line in SETTLE; elsewhere it is dropped. A
frame offered in LISTEN is compared with the wake list in index order: the first entry that matches asserts the pin, sets the
cause and the matched-entry record, sets WAKE SOURCE where it was NONE, and with RESUME enters ACTIVE; elsewhere it is
dropped. With none on its way the event does not occur (log entry 1). The instants at which TIME resumes and the SETTLE waits
begin are of the model's clock (log entry 2). That a line whose input is still active takes the idle threshold of the entry to
SETTLE is the model's choice (log entry 23). -/
def Obligations.WakeEdgeAndWakeMatch : Prop :=
  ∀ (l : Line) (s : State),
    ((s.link.get l).wakeEdges = 0 → exec (.wakeEdge l) s = .next s) ∧
    ((s.link.get l).offers = [] → exec (.wakeOffer l) s = .next s) ∧
    (∀ k, (s.link.get l).wakeEdges = k + 1 →
      let link := s.link.set l { s.link.get l with wakeEdges := k }
      (s.pow.st ≠ .dormant → exec (.wakeEdge l) s = .next { s with link := link }) ∧
      (s.pow.st = .dormant → ∃ t, exec (.wakeEdge l) s = .next t ∧
        t = { s with
          link := link
          fe := t.fe
          pow := { s.pow with
            st := .listen
            wakePin := true
            wakeSource := if s.pow.wakeSource = .none then .edge l else s.pow.wakeSource }
          irq := { s.irq with wake := true }
          clock := { s.clock with tickAt := s.clock.now + s.clock.remain } } ∧
        ∀ m, ((s.fe.get m).st = .off → t.fe.get m = s.fe.get m) ∧
          ((s.fe.get m).st ≠ .off → t.fe.get m = { s.fe.get m with
            st := .settle
            test := none
            wait := if (s.fe.get m).active then none else some s.clock.now
            threshold := 8 * (100 * (s.fe.get m).idle.toNat) }))) ∧
    ∀ o offers, (s.link.get l).offers = o :: offers →
      let u : State := { s with link := s.link.set l { s.link.get l with offers := offers } }
      let matched : Fin 4 → Prop := fun n =>
        let w := wakeEntryAt s.mem n
        w.valid = true ∧ w.format = o.entry.val ∧ w.bits = o.bits ∧ w.namesLine l = true ∧
          o.payload &&& w.mask = w.payload &&& w.mask
      (s.pow.st ≠ .listen → exec (.wakeOffer l) s = .next u) ∧
      (s.pow.st = .listen → (∀ n, ¬ matched n) → exec (.wakeOffer l) s = .next u) ∧
      ∀ n, s.pow.st = .listen → matched n → (∀ m, m < n → ¬ matched m) → exec (.wakeOffer l) s = .next { u with
        pow := { s.pow with
          st := if (wakeEntryAt s.mem n).resume then .active else .listen
          wakePin := true
          matched := some n
          wakeSource := if s.pow.wakeSource = .none then .matched n else s.pow.wakeSource }
        irq := { s.irq with wake := true } }

/-! ### Host window and interrupt unit -/

/-- IRQ CAUSE, IRQ ENABLE and IRQ# (R191, R192, R194 to R196): IRQ CAUSE reads the eight causes, the level causes as views of their
conditions; a write of it in ACTIVE and LISTEN clears the sticky causes whose bits are 1 and nothing else; a write of IRQ
ENABLE stores the byte, which every reset clears; IRQ# is asserted exactly while some cause reads 1 with its enable bit set. -/
def Obligations.InterruptCausesAndMask : Prop :=
  (∀ (v : Byte) (s : State), s.pow.st ≠ .dormant → s.pow.resetHeld = false → exec (.irqCauseWrite v) s = .next { s with irq := { s.irq with
    loss := s.irq.loss && !v.getLsbD 1
    lineFault := s.irq.lineFault && !v.getLsbD 4
    retired := s.irq.retired && !v.getLsbD 5
    wake := s.irq.wake && !v.getLsbD 6
    access := s.irq.access && !v.getLsbD 7 } }) ∧
  (∀ (v : Byte) (s : State), s.pow.st ≠ .dormant → s.pow.resetHeld = false → ∃ t, exec (.irqEnableWrite v) s = .next t ∧
    t = { s with irq := { s.irq with enable := v } } ∧ t.readRegister 0x09 = v) ∧
  (∀ (v : Byte) (s : State), s.pow.st = .dormant → s.pow.resetHeld = false →
    exec (.irqEnableWrite v) s = .next { s with irq := { s.irq with access := true } }) ∧
  (∀ (k : ResetKind) (s : State), (k = .soft → s.pow.resetHeld = false) →
    ∃ t, exec (resetRow k) s = .next t ∧ t.irq.enable = 0 ∧ t.irqAsserted = false) ∧
  (∀ s : State, s.readRegister 0x08 = s.irqCause ∧
    (s.irqCause.getLsbD 0 = true ↔ s.rq.watermark ≤ s.rq.records.length) ∧ s.irqCause.getLsbD 1 = s.irq.loss ∧
    (s.irqCause.getLsbD 2 = true ↔ s.tx.completions ≠ []) ∧
    (s.irqCause.getLsbD 3 = true ↔ ∃ l, s.cap.st = .full (.line l)) ∧
    s.irqCause.getLsbD 4 = s.irq.lineFault ∧ s.irqCause.getLsbD 5 = s.irq.retired ∧
    s.irqCause.getLsbD 6 = s.irq.wake ∧ s.irqCause.getLsbD 7 = s.irq.access) ∧
  ∀ s : State, s.irqAsserted = true ↔ ∃ i, i < 8 ∧ s.irqCause.getLsbD i = true ∧ s.irq.enable.getLsbD i = true

/-- Registers without a row of their own, and codes that are no command (R127, R150, R152, R155, R157, R168, R173, R185, R186, R188):
in ACTIVE and LISTEN a write of COMMAND ARG and of GUARD stores its byte, and a write of a read-only register changes nothing.
A code that is no command gives UNKNOWN in every power state and changes nothing else.

The window in DORMANT (R161, R188): every write of a register but COMMAND changes nothing and sets ACCESS, a write of TABLE DATA
advances the pointer as well, and every command but WAKE UP, SOFT RESET and a code that is no command gives STATE and changes
nothing else.

POWER STATE, WAKE SOURCE and WAKE STATUS show their codes (R157, R168, R171, Tables 8-1 and 8-4). While a reset is held (R174) every
write and every command is discarded with no effect and no cause, and every read returns 0 and does nothing; otherwise a read of
the window returns the register's value. -/
def Obligations.PlainRegistersAndDormantWindow : Prop :=
  ((∀ (v : Byte) (s : State), s.pow.st ≠ .dormant → s.pow.resetHeld = false →
    exec (.registerWrite 0x07 v) s = .next { s with win := { s.win with arg := v } } ∧
    exec (.registerWrite 0x3E v) s = .next { s with tx := { s.tx with guardSetting := v } }) ∧
  (∀ (off : BitVec 6) (v : Byte) (s : State), s.pow.st ≠ .dormant → s.pow.resetHeld = false →
    (off.toNat ≤ 0x04 ∨ off = 0x06 ∨ off = 0x12 ∨ off = 0x13 ∨ off = 0x17 ∨ (0x19 ≤ off.toNat ∧ off.toNat ≤ 0x27) ∨
      off = 0x29 ∨ (0x3A ≤ off.toNat ∧ off.toNat ≤ 0x3D) ∨ off = 0x3F) →
    exec (.registerWrite off v) s = .next s) ∧
  ∀ (code : Byte) (s : State), (Instr.unknownCommand code).WellFormed = true → s.pow.resetHeld = false →
    exec (.unknownCommand code) s = .next { s with win := { s.win with result := .unknown } }) ∧
  (∀ s : State, s.pow.st = .dormant → s.pow.resetHeld = false →
    let refused : State := { s with irq := { s.irq with access := true } }
    let state : State := { s with win := { s.win with result := .state } }
    (∀ l v, exec (.lineEnable l v) s = .next refused ∧ exec (.lineDisable l v) s = .next refused ∧
      exec (.idleWrite l v) s = .next refused ∧ exec (.faultClear l v) s = .next refused) ∧
    (∀ v, exec (.rqWatermarkWrite v) s = .next refused ∧ exec (.captureControlWrite v) s = .next refused ∧
      exec (.irqCauseWrite v) s = .next refused ∧ exec (.irqEnableWrite v) s = .next refused ∧
      (∀ hi, exec (.loadLengthWrite hi v) s = .next refused) ∧ (∀ r, exec (.stagingRegisterWrite r v) s = .next refused) ∧
      (∀ off : BitVec 6, off ≠ 0x05 → off ≠ 0x16 → exec (.registerWrite off v) s = .next refused) ∧
      exec (.tableDataWrite v) s = .next { refused with win := { s.win with pointer := s.win.pointer + 1 } }) ∧
    ∀ c ∈ [Instr.enableFormat, .disableFormat, .pop, .flushQueue, .submit, .stopTx, .abortTx, .popCompletion, .armCapture,
      .disarmCapture, .releaseCapture, .loadCapture, .enterListen, .enterDormant, .clearWake], exec c s = .next state) ∧
  (∀ s : State,
    s.readRegister 0x02 = (match s.pow.st with
      | .active => 0
      | .listen => 1
      | .dormant => 2) ∧
    s.readRegister 0x04 = (match s.pow.wakeSource with
      | .none => 0
      | .edge .A => 1
      | .edge .B => 2
      | .host => 3
      | .matched n => BitVec.ofNat 8 (4 + n.val)) ∧
    s.readRegister 0x3F = BitVec.ofNat 8 ((if s.pow.wakePin then 1 else 0) + (match s.pow.matched with
      | none => 0
      | some n => 2 + 4 * n.val))) ∧
  (∀ (c : Instr) (s : State), s.pow.resetHeld = true → writesRegister c = true ∨ writesCommand c = true →
    exec c s = .next s) ∧
  (∀ s : State, s.pow.resetHeld = true → ∀ c ∈ [Instr.timeLoRead, .headKindLineRead, .tableDataRead],
    exec c s = .next { s with win := { s.win with dataBus := 0 } }) ∧
  ∀ (off : BitVec 6) (s : State), s.readWindow off = if s.pow.resetHeld = true then 0 else s.readRegister off

/-! ### Laws of the whole machine -/

/-- The sticky causes (R193, R194): no command but a write of IRQ CAUSE and a reset clears one; LOSS is set by a post only, which POST
or ENTER DORMANT takes (log entry 8); LINEFAULT on the way to STUCK only; RETIRED by a holder that leaves only, a decoder's at an
element, an outcome or ENTER DORMANT (the outcome and not the burst's end: log entry 7), the transmitter's at a job's end; WAKE by a WAKE EDGE or an offer only; ACCESS by a write of
a register other than COMMAND only. IRQ ENABLE changes by its own write only. -/
def Obligations.StickyCausesStaySet : Prop :=
  ∀ (c : Instr) (s t : State), c.WellFormed = true → isReset c = false → exec c s = .next t →
    ((∀ v, c ≠ .irqCauseWrite v) →
      (s.irq.loss = true → t.irq.loss = true) ∧ (s.irq.lineFault = true → t.irq.lineFault = true) ∧
      (s.irq.retired = true → t.irq.retired = true) ∧ (s.irq.wake = true → t.irq.wake = true) ∧
      (s.irq.access = true → t.irq.access = true)) ∧
    (s.irq.loss = false → t.irq.loss = true → c = .enterDormant ∨ ∃ l, c = .post l) ∧
    (s.irq.lineFault = false → t.irq.lineFault = true → ∃ l, c = .stuck l ∨ ∃ dt, c = .rxEdge l dt) ∧
    (s.irq.retired = false → t.irq.retired = true → c = .txBurstEnd ∨ c = .stopTx ∨ c = .abortTx ∨ c = .enterDormant ∨
      ∃ l, c = .decoderElement l ∨ c = .outcomeTaken l) ∧
    (s.irq.wake = false → t.irq.wake = true → ∃ l, c = .wakeEdge l ∨ c = .wakeOffer l) ∧
    (s.irq.access = false → t.irq.access = true → writesRegister c = true) ∧
    ((∀ v, c ≠ .irqEnableWrite v) → t.irq.enable = s.irq.enable)

/-- The stored bytes (R29, R123, R165, R178): the bytes of a format entry change only while it is DISABLED, the wake list only by a
write of TABLE DATA in ACTIVE, the capture buffer only in capture IDLE or FILLING, and no byte at all but by a write of TABLE
DATA, an element being recorded, or a power-on reset. -/
def Obligations.StoredBytesChangeOnlyByTheirOwners : Prop :=
  ∀ (c : Instr) (s t : State), c.WellFormed = true → c ≠ .powerOnReset → exec c s = .next t → ∀ a : Nat,
    Memory.read t.mem a ≠ Memory.read s.mem a →
    (∀ n : Fin 8, 48 * n.val ≤ a → a < 48 * n.val + 46 → s.entries[n].st = .disabled ∧ ∃ v, c = .tableDataWrite v) ∧
    (0x180 ≤ a → a < 0x1C8 → s.pow.st = .active ∧ ∃ v, c = .tableDataWrite v) ∧
    (0x200 ≤ a → (s.cap.st = .idle ∧ ∃ v, c = .tableDataWrite v) ∨ ∃ l, s.cap.st = .filling l ∧ c = .captureElement l) ∧
    ((∃ v, c = .tableDataWrite v ∧ a = s.win.pointer.toNat) ∨
      ∃ l, c = .captureElement l ∧ (a = 0x200 + 2 * s.cap.count ∨ a = 0x201 + 2 * s.cap.count))

/-- The addresses that are not stored go on reading 0 (R30, R180), and the table space keeps its canonical form, which is the model's
own (log entry 12), through every step from any state in which both hold. -/
def Obligations.TableLawIsKept : Prop := KeptByEveryStep TableLaw

/-- The bounds of the receive queue (R90, R99, R106) are kept by every step from any state that meets them. -/
def Obligations.QueueLawIsKept : Prop := KeptByEveryStep QueueLaw

/-- The law of the record references (R81) is kept, together with the bounds of the receive queue, by every step from any state
that meets both. -/
def Obligations.ReferenceLawIsKept : Prop := KeptByEveryStep fun s => QueueLaw s ∧ ReferenceLaw s

/-- The laws of the holders of format entries and of the memories that name them (R38, R71) are kept by every step from any state
that meets them. -/
def Obligations.HolderLawIsKept : Prop := KeptByEveryStep HolderLaw

/-- The law of the space windows and the idle thresholds (R36) is kept by every step from any state that meets it. -/
def Obligations.IdleLawIsKept : Prop := KeptByEveryStep IdleLaw

/-- The bounds of the job queue and the completion FIFO (R132, R134, R150), and the law of PIN COUNT (R126), are kept by every step
from any state that meets them. -/
def Obligations.JobAndPinLawsAreKept : Prop := KeptByEveryStep JobLaw ∧ KeptByEveryStep PinLaw

/-- The laws of the line states (R5, R12 to R15), of the memory of an OFF line (R85) and of DORMANT (R109, R160) are kept by every step
from any state that meets them, and so are the reset values while a reset is held (R172, R174; log entry 16). That nothing is on
its way to a decoder or repeat unit in DORMANT is the model's reading (log entry 8). -/
def Obligations.LineLawIsKept : Prop := KeptByEveryStep LineLaw ∧ KeptByEveryStep ResetLaw

/-- Every law of this file holds right after a power-on reset, and the law of a held reset in the state that a reset enters before
it ends (R174; log entry 16). -/
def Obligations.ResetMeetsEveryLaw : Prop :=
  TableLaw State.reset ∧ QueueLaw State.reset ∧ ReferenceLaw State.reset ∧ HolderLaw State.reset ∧ IdleLaw State.reset ∧
  JobLaw State.reset ∧ PinLaw State.reset ∧ LineLaw State.reset ∧ ResetLaw State.reset ∧
  ∀ (s : State) (k : ResetKind) (mem : List Host.Cell), (s.holdReset k mem).pow.resetHeld = true ∧ ResetLaw (s.holdReset k mem)
end

