-- ==== Sys2Proof/Laws/State.lean ====
section
/-! SUPPORT. What each small update of State leaves in each field: one lemma for each field and update, so that no later
proof unfolds a record update. -/

namespace Sys2Proof.Machine

open Sys2Proof (Byte Time Payload Line)

/-! ### One thing for each line -/

@[simp] theorem PerLine.get_A {α : Type} (p : PerLine α) : p.get .A = p.a := rfl
@[simp] theorem PerLine.get_B {α : Type} (p : PerLine α) : p.get .B = p.b := rfl
@[simp] theorem PerLine.set_A {α : Type} (p : PerLine α) (x : α) : p.set .A x = ⟨x, p.b⟩ := rfl
@[simp] theorem PerLine.set_B {α : Type} (p : PerLine α) (x : α) : p.set .B x = ⟨p.a, x⟩ := rfl

@[simp] theorem PerLine.get_set_same {α : Type} (p : PerLine α) (l : Line) (x : α) : (p.set l x).get l = x := by
  cases l <;> rfl

theorem PerLine.get_set {α : Type} (p : PerLine α) (l m : Line) (x : α) :
    (p.set l x).get m = if m = l then x else p.get m := by
  cases l <;> cases m <;> rfl

theorem PerLine.get_set_ne {α : Type} (p : PerLine α) {l m : Line} (x : α) (h : m ≠ l) : (p.set l x).get m = p.get m := by
  rw [PerLine.get_set, if_neg h]

@[simp] theorem PerLine.set_set {α : Type} (p : PerLine α) (l : Line) (x y : α) : (p.set l x).set l y = p.set l y := by
  cases l <;> rfl

@[simp] theorem PerLine.set_get {α : Type} (p : PerLine α) (l : Line) : p.set l (p.get l) = p := by
  cases l <;> rfl

/-! ### The format entries -/

@[simp] theorem State.setEntry_getElem_same (s : State) (n : Fin 8) (e : EntryControl) : (s.setEntry n e).entries[n] = e := by
  simp [State.setEntry]

theorem State.setEntry_getElem (s : State) (n m : Fin 8) (e : EntryControl) :
    (s.setEntry n e).entries[m] = if m = n then e else s.entries[m] := by
  simp only [State.setEntry, Fin.getElem_fin, Vector.getElem_set, Fin.ext_iff, eq_comm]

theorem State.setEntry_getElem_ne (s : State) {n m : Fin 8} (e : EntryControl) (h : m ≠ n) :
    (s.setEntry n e).entries[m] = s.entries[m] := by
  rw [State.setEntry_getElem, if_neg h]

/-! ### setFe -/

@[simp] theorem State.setFe_pending (s : State) (l : Line) (x : FrontEnd) : (s.setFe l x).pending = s.pending := rfl
@[simp] theorem State.setFe_fe (s : State) (l : Line) (x : FrontEnd) : (s.setFe l x).fe = s.fe.set l x := rfl
@[simp] theorem State.setFe_dec (s : State) (l : Line) (x : FrontEnd) : (s.setFe l x).dec = s.dec := rfl
@[simp] theorem State.setFe_rep (s : State) (l : Line) (x : FrontEnd) : (s.setFe l x).rep = s.rep := rfl
@[simp] theorem State.setFe_link (s : State) (l : Line) (x : FrontEnd) : (s.setFe l x).link = s.link := rfl
@[simp] theorem State.setFe_entries (s : State) (l : Line) (x : FrontEnd) : (s.setFe l x).entries = s.entries := rfl
@[simp] theorem State.setFe_mem (s : State) (l : Line) (x : FrontEnd) : (s.setFe l x).mem = s.mem := rfl
@[simp] theorem State.setFe_rq (s : State) (l : Line) (x : FrontEnd) : (s.setFe l x).rq = s.rq := rfl
@[simp] theorem State.setFe_cap (s : State) (l : Line) (x : FrontEnd) : (s.setFe l x).cap = s.cap := rfl
@[simp] theorem State.setFe_tx (s : State) (l : Line) (x : FrontEnd) : (s.setFe l x).tx = s.tx := rfl
@[simp] theorem State.setFe_pow (s : State) (l : Line) (x : FrontEnd) : (s.setFe l x).pow = s.pow := rfl
@[simp] theorem State.setFe_win (s : State) (l : Line) (x : FrontEnd) : (s.setFe l x).win = s.win := rfl
@[simp] theorem State.setFe_irq (s : State) (l : Line) (x : FrontEnd) : (s.setFe l x).irq = s.irq := rfl
@[simp] theorem State.setFe_clock (s : State) (l : Line) (x : FrontEnd) : (s.setFe l x).clock = s.clock := rfl
@[simp] theorem State.setFe_choices (s : State) (l : Line) (x : FrontEnd) : (s.setFe l x).choices = s.choices := rfl

/-! ### setDec -/

@[simp] theorem State.setDec_pending (s : State) (l : Line) (x : Decoder) : (s.setDec l x).pending = s.pending := rfl
@[simp] theorem State.setDec_fe (s : State) (l : Line) (x : Decoder) : (s.setDec l x).fe = s.fe := rfl
@[simp] theorem State.setDec_dec (s : State) (l : Line) (x : Decoder) : (s.setDec l x).dec = s.dec.set l x := rfl
@[simp] theorem State.setDec_rep (s : State) (l : Line) (x : Decoder) : (s.setDec l x).rep = s.rep := rfl
@[simp] theorem State.setDec_link (s : State) (l : Line) (x : Decoder) : (s.setDec l x).link = s.link := rfl
@[simp] theorem State.setDec_entries (s : State) (l : Line) (x : Decoder) : (s.setDec l x).entries = s.entries := rfl
@[simp] theorem State.setDec_mem (s : State) (l : Line) (x : Decoder) : (s.setDec l x).mem = s.mem := rfl
@[simp] theorem State.setDec_rq (s : State) (l : Line) (x : Decoder) : (s.setDec l x).rq = s.rq := rfl
@[simp] theorem State.setDec_cap (s : State) (l : Line) (x : Decoder) : (s.setDec l x).cap = s.cap := rfl
@[simp] theorem State.setDec_tx (s : State) (l : Line) (x : Decoder) : (s.setDec l x).tx = s.tx := rfl
@[simp] theorem State.setDec_pow (s : State) (l : Line) (x : Decoder) : (s.setDec l x).pow = s.pow := rfl
@[simp] theorem State.setDec_win (s : State) (l : Line) (x : Decoder) : (s.setDec l x).win = s.win := rfl
@[simp] theorem State.setDec_irq (s : State) (l : Line) (x : Decoder) : (s.setDec l x).irq = s.irq := rfl
@[simp] theorem State.setDec_clock (s : State) (l : Line) (x : Decoder) : (s.setDec l x).clock = s.clock := rfl
@[simp] theorem State.setDec_choices (s : State) (l : Line) (x : Decoder) : (s.setDec l x).choices = s.choices := rfl

/-! ### setRep -/

@[simp] theorem State.setRep_pending (s : State) (l : Line) (x : RepeatUnit) : (s.setRep l x).pending = s.pending := rfl
@[simp] theorem State.setRep_fe (s : State) (l : Line) (x : RepeatUnit) : (s.setRep l x).fe = s.fe := rfl
@[simp] theorem State.setRep_dec (s : State) (l : Line) (x : RepeatUnit) : (s.setRep l x).dec = s.dec := rfl
@[simp] theorem State.setRep_rep (s : State) (l : Line) (x : RepeatUnit) : (s.setRep l x).rep = s.rep.set l x := rfl
@[simp] theorem State.setRep_link (s : State) (l : Line) (x : RepeatUnit) : (s.setRep l x).link = s.link := rfl
@[simp] theorem State.setRep_entries (s : State) (l : Line) (x : RepeatUnit) : (s.setRep l x).entries = s.entries := rfl
@[simp] theorem State.setRep_mem (s : State) (l : Line) (x : RepeatUnit) : (s.setRep l x).mem = s.mem := rfl
@[simp] theorem State.setRep_rq (s : State) (l : Line) (x : RepeatUnit) : (s.setRep l x).rq = s.rq := rfl
@[simp] theorem State.setRep_cap (s : State) (l : Line) (x : RepeatUnit) : (s.setRep l x).cap = s.cap := rfl
@[simp] theorem State.setRep_tx (s : State) (l : Line) (x : RepeatUnit) : (s.setRep l x).tx = s.tx := rfl
@[simp] theorem State.setRep_pow (s : State) (l : Line) (x : RepeatUnit) : (s.setRep l x).pow = s.pow := rfl
@[simp] theorem State.setRep_win (s : State) (l : Line) (x : RepeatUnit) : (s.setRep l x).win = s.win := rfl
@[simp] theorem State.setRep_irq (s : State) (l : Line) (x : RepeatUnit) : (s.setRep l x).irq = s.irq := rfl
@[simp] theorem State.setRep_clock (s : State) (l : Line) (x : RepeatUnit) : (s.setRep l x).clock = s.clock := rfl
@[simp] theorem State.setRep_choices (s : State) (l : Line) (x : RepeatUnit) : (s.setRep l x).choices = s.choices := rfl

/-! ### setLink -/

@[simp] theorem State.setLink_pending (s : State) (l : Line) (x : Links) : (s.setLink l x).pending = s.pending := rfl
@[simp] theorem State.setLink_fe (s : State) (l : Line) (x : Links) : (s.setLink l x).fe = s.fe := rfl
@[simp] theorem State.setLink_dec (s : State) (l : Line) (x : Links) : (s.setLink l x).dec = s.dec := rfl
@[simp] theorem State.setLink_rep (s : State) (l : Line) (x : Links) : (s.setLink l x).rep = s.rep := rfl
@[simp] theorem State.setLink_link (s : State) (l : Line) (x : Links) : (s.setLink l x).link = s.link.set l x := rfl
@[simp] theorem State.setLink_entries (s : State) (l : Line) (x : Links) : (s.setLink l x).entries = s.entries := rfl
@[simp] theorem State.setLink_mem (s : State) (l : Line) (x : Links) : (s.setLink l x).mem = s.mem := rfl
@[simp] theorem State.setLink_rq (s : State) (l : Line) (x : Links) : (s.setLink l x).rq = s.rq := rfl
@[simp] theorem State.setLink_cap (s : State) (l : Line) (x : Links) : (s.setLink l x).cap = s.cap := rfl
@[simp] theorem State.setLink_tx (s : State) (l : Line) (x : Links) : (s.setLink l x).tx = s.tx := rfl
@[simp] theorem State.setLink_pow (s : State) (l : Line) (x : Links) : (s.setLink l x).pow = s.pow := rfl
@[simp] theorem State.setLink_win (s : State) (l : Line) (x : Links) : (s.setLink l x).win = s.win := rfl
@[simp] theorem State.setLink_irq (s : State) (l : Line) (x : Links) : (s.setLink l x).irq = s.irq := rfl
@[simp] theorem State.setLink_clock (s : State) (l : Line) (x : Links) : (s.setLink l x).clock = s.clock := rfl
@[simp] theorem State.setLink_choices (s : State) (l : Line) (x : Links) : (s.setLink l x).choices = s.choices := rfl

/-! ### setEntry -/

@[simp] theorem State.setEntry_pending (s : State) (n : Fin 8) (x : EntryControl) : (s.setEntry n x).pending = s.pending := rfl
@[simp] theorem State.setEntry_fe (s : State) (n : Fin 8) (x : EntryControl) : (s.setEntry n x).fe = s.fe := rfl
@[simp] theorem State.setEntry_dec (s : State) (n : Fin 8) (x : EntryControl) : (s.setEntry n x).dec = s.dec := rfl
@[simp] theorem State.setEntry_rep (s : State) (n : Fin 8) (x : EntryControl) : (s.setEntry n x).rep = s.rep := rfl
@[simp] theorem State.setEntry_link (s : State) (n : Fin 8) (x : EntryControl) : (s.setEntry n x).link = s.link := rfl
@[simp] theorem State.setEntry_entries (s : State) (n : Fin 8) (x : EntryControl) : (s.setEntry n x).entries = s.entries.set n x := rfl
@[simp] theorem State.setEntry_mem (s : State) (n : Fin 8) (x : EntryControl) : (s.setEntry n x).mem = s.mem := rfl
@[simp] theorem State.setEntry_rq (s : State) (n : Fin 8) (x : EntryControl) : (s.setEntry n x).rq = s.rq := rfl
@[simp] theorem State.setEntry_cap (s : State) (n : Fin 8) (x : EntryControl) : (s.setEntry n x).cap = s.cap := rfl
@[simp] theorem State.setEntry_tx (s : State) (n : Fin 8) (x : EntryControl) : (s.setEntry n x).tx = s.tx := rfl
@[simp] theorem State.setEntry_pow (s : State) (n : Fin 8) (x : EntryControl) : (s.setEntry n x).pow = s.pow := rfl
@[simp] theorem State.setEntry_win (s : State) (n : Fin 8) (x : EntryControl) : (s.setEntry n x).win = s.win := rfl
@[simp] theorem State.setEntry_irq (s : State) (n : Fin 8) (x : EntryControl) : (s.setEntry n x).irq = s.irq := rfl
@[simp] theorem State.setEntry_clock (s : State) (n : Fin 8) (x : EntryControl) : (s.setEntry n x).clock = s.clock := rfl
@[simp] theorem State.setEntry_choices (s : State) (n : Fin 8) (x : EntryControl) : (s.setEntry n x).choices = s.choices := rfl

/-! ### refuseAccess -/

@[simp] theorem State.refuseAccess_pending (s : State) : s.refuseAccess.pending = s.pending := rfl
@[simp] theorem State.refuseAccess_fe (s : State) : s.refuseAccess.fe = s.fe := rfl
@[simp] theorem State.refuseAccess_dec (s : State) : s.refuseAccess.dec = s.dec := rfl
@[simp] theorem State.refuseAccess_rep (s : State) : s.refuseAccess.rep = s.rep := rfl
@[simp] theorem State.refuseAccess_link (s : State) : s.refuseAccess.link = s.link := rfl
@[simp] theorem State.refuseAccess_entries (s : State) : s.refuseAccess.entries = s.entries := rfl
@[simp] theorem State.refuseAccess_mem (s : State) : s.refuseAccess.mem = s.mem := rfl
@[simp] theorem State.refuseAccess_rq (s : State) : s.refuseAccess.rq = s.rq := rfl
@[simp] theorem State.refuseAccess_cap (s : State) : s.refuseAccess.cap = s.cap := rfl
@[simp] theorem State.refuseAccess_tx (s : State) : s.refuseAccess.tx = s.tx := rfl
@[simp] theorem State.refuseAccess_pow (s : State) : s.refuseAccess.pow = s.pow := rfl
@[simp] theorem State.refuseAccess_win (s : State) : s.refuseAccess.win = s.win := rfl
@[simp] theorem State.refuseAccess_irq (s : State) : s.refuseAccess.irq = { s.irq with access := true } := rfl
@[simp] theorem State.refuseAccess_clock (s : State) : s.refuseAccess.clock = s.clock := rfl
@[simp] theorem State.refuseAccess_choices (s : State) : s.refuseAccess.choices = s.choices := rfl

/-! ### setRetired -/

@[simp] theorem State.setRetired_pending (s : State) : s.setRetired.pending = s.pending := rfl
@[simp] theorem State.setRetired_fe (s : State) : s.setRetired.fe = s.fe := rfl
@[simp] theorem State.setRetired_dec (s : State) : s.setRetired.dec = s.dec := rfl
@[simp] theorem State.setRetired_rep (s : State) : s.setRetired.rep = s.rep := rfl
@[simp] theorem State.setRetired_link (s : State) : s.setRetired.link = s.link := rfl
@[simp] theorem State.setRetired_entries (s : State) : s.setRetired.entries = s.entries := rfl
@[simp] theorem State.setRetired_mem (s : State) : s.setRetired.mem = s.mem := rfl
@[simp] theorem State.setRetired_rq (s : State) : s.setRetired.rq = s.rq := rfl
@[simp] theorem State.setRetired_cap (s : State) : s.setRetired.cap = s.cap := rfl
@[simp] theorem State.setRetired_tx (s : State) : s.setRetired.tx = s.tx := rfl
@[simp] theorem State.setRetired_pow (s : State) : s.setRetired.pow = s.pow := rfl
@[simp] theorem State.setRetired_win (s : State) : s.setRetired.win = s.win := rfl
@[simp] theorem State.setRetired_irq (s : State) : s.setRetired.irq = { s.irq with retired := true } := rfl
@[simp] theorem State.setRetired_clock (s : State) : s.setRetired.clock = s.clock := rfl
@[simp] theorem State.setRetired_choices (s : State) : s.setRetired.choices = s.choices := rfl

/-! ### setLoss -/

@[simp] theorem State.setLoss_pending (s : State) : s.setLoss.pending = s.pending := rfl
@[simp] theorem State.setLoss_fe (s : State) : s.setLoss.fe = s.fe := rfl
@[simp] theorem State.setLoss_dec (s : State) : s.setLoss.dec = s.dec := rfl
@[simp] theorem State.setLoss_rep (s : State) : s.setLoss.rep = s.rep := rfl
@[simp] theorem State.setLoss_link (s : State) : s.setLoss.link = s.link := rfl
@[simp] theorem State.setLoss_entries (s : State) : s.setLoss.entries = s.entries := rfl
@[simp] theorem State.setLoss_mem (s : State) : s.setLoss.mem = s.mem := rfl
@[simp] theorem State.setLoss_rq (s : State) : s.setLoss.rq = s.rq := rfl
@[simp] theorem State.setLoss_cap (s : State) : s.setLoss.cap = s.cap := rfl
@[simp] theorem State.setLoss_tx (s : State) : s.setLoss.tx = s.tx := rfl
@[simp] theorem State.setLoss_pow (s : State) : s.setLoss.pow = s.pow := rfl
@[simp] theorem State.setLoss_win (s : State) : s.setLoss.win = s.win := rfl
@[simp] theorem State.setLoss_irq (s : State) : s.setLoss.irq = { s.irq with loss := true } := rfl
@[simp] theorem State.setLoss_clock (s : State) : s.setLoss.clock = s.clock := rfl
@[simp] theorem State.setLoss_choices (s : State) : s.setLoss.choices = s.choices := rfl

/-! ### setLineFault -/

@[simp] theorem State.setLineFault_pending (s : State) : s.setLineFault.pending = s.pending := rfl
@[simp] theorem State.setLineFault_fe (s : State) : s.setLineFault.fe = s.fe := rfl
@[simp] theorem State.setLineFault_dec (s : State) : s.setLineFault.dec = s.dec := rfl
@[simp] theorem State.setLineFault_rep (s : State) : s.setLineFault.rep = s.rep := rfl
@[simp] theorem State.setLineFault_link (s : State) : s.setLineFault.link = s.link := rfl
@[simp] theorem State.setLineFault_entries (s : State) : s.setLineFault.entries = s.entries := rfl
@[simp] theorem State.setLineFault_mem (s : State) : s.setLineFault.mem = s.mem := rfl
@[simp] theorem State.setLineFault_rq (s : State) : s.setLineFault.rq = s.rq := rfl
@[simp] theorem State.setLineFault_cap (s : State) : s.setLineFault.cap = s.cap := rfl
@[simp] theorem State.setLineFault_tx (s : State) : s.setLineFault.tx = s.tx := rfl
@[simp] theorem State.setLineFault_pow (s : State) : s.setLineFault.pow = s.pow := rfl
@[simp] theorem State.setLineFault_win (s : State) : s.setLineFault.win = s.win := rfl
@[simp] theorem State.setLineFault_irq (s : State) : s.setLineFault.irq = { s.irq with lineFault := true } := rfl
@[simp] theorem State.setLineFault_clock (s : State) : s.setLineFault.clock = s.clock := rfl
@[simp] theorem State.setLineFault_choices (s : State) : s.setLineFault.choices = s.choices := rfl

/-! ### setWakeCause -/

@[simp] theorem State.setWakeCause_pending (s : State) : s.setWakeCause.pending = s.pending := rfl
@[simp] theorem State.setWakeCause_fe (s : State) : s.setWakeCause.fe = s.fe := rfl
@[simp] theorem State.setWakeCause_dec (s : State) : s.setWakeCause.dec = s.dec := rfl
@[simp] theorem State.setWakeCause_rep (s : State) : s.setWakeCause.rep = s.rep := rfl
@[simp] theorem State.setWakeCause_link (s : State) : s.setWakeCause.link = s.link := rfl
@[simp] theorem State.setWakeCause_entries (s : State) : s.setWakeCause.entries = s.entries := rfl
@[simp] theorem State.setWakeCause_mem (s : State) : s.setWakeCause.mem = s.mem := rfl
@[simp] theorem State.setWakeCause_rq (s : State) : s.setWakeCause.rq = s.rq := rfl
@[simp] theorem State.setWakeCause_cap (s : State) : s.setWakeCause.cap = s.cap := rfl
@[simp] theorem State.setWakeCause_tx (s : State) : s.setWakeCause.tx = s.tx := rfl
@[simp] theorem State.setWakeCause_pow (s : State) : s.setWakeCause.pow = s.pow := rfl
@[simp] theorem State.setWakeCause_win (s : State) : s.setWakeCause.win = s.win := rfl
@[simp] theorem State.setWakeCause_irq (s : State) : s.setWakeCause.irq = { s.irq with wake := true } := rfl
@[simp] theorem State.setWakeCause_clock (s : State) : s.setWakeCause.clock = s.clock := rfl
@[simp] theorem State.setWakeCause_choices (s : State) : s.setWakeCause.choices = s.choices := rfl

/-! ### setResult -/

@[simp] theorem State.setResult_pending (s : State) (x : CommandResult) : (s.setResult x).pending = s.pending := rfl
@[simp] theorem State.setResult_fe (s : State) (x : CommandResult) : (s.setResult x).fe = s.fe := rfl
@[simp] theorem State.setResult_dec (s : State) (x : CommandResult) : (s.setResult x).dec = s.dec := rfl
@[simp] theorem State.setResult_rep (s : State) (x : CommandResult) : (s.setResult x).rep = s.rep := rfl
@[simp] theorem State.setResult_link (s : State) (x : CommandResult) : (s.setResult x).link = s.link := rfl
@[simp] theorem State.setResult_entries (s : State) (x : CommandResult) : (s.setResult x).entries = s.entries := rfl
@[simp] theorem State.setResult_mem (s : State) (x : CommandResult) : (s.setResult x).mem = s.mem := rfl
@[simp] theorem State.setResult_rq (s : State) (x : CommandResult) : (s.setResult x).rq = s.rq := rfl
@[simp] theorem State.setResult_cap (s : State) (x : CommandResult) : (s.setResult x).cap = s.cap := rfl
@[simp] theorem State.setResult_tx (s : State) (x : CommandResult) : (s.setResult x).tx = s.tx := rfl
@[simp] theorem State.setResult_pow (s : State) (x : CommandResult) : (s.setResult x).pow = s.pow := rfl
@[simp] theorem State.setResult_win (s : State) (x : CommandResult) : (s.setResult x).win = { s.win with result := x } := rfl
@[simp] theorem State.setResult_irq (s : State) (x : CommandResult) : (s.setResult x).irq = s.irq := rfl
@[simp] theorem State.setResult_clock (s : State) (x : CommandResult) : (s.setResult x).clock = s.clock := rfl
@[simp] theorem State.setResult_choices (s : State) (x : CommandResult) : (s.setResult x).choices = s.choices := rfl

/-! ### setArg -/

@[simp] theorem State.setArg_pending (s : State) (x : Byte) : (s.setArg x).pending = s.pending := rfl
@[simp] theorem State.setArg_fe (s : State) (x : Byte) : (s.setArg x).fe = s.fe := rfl
@[simp] theorem State.setArg_dec (s : State) (x : Byte) : (s.setArg x).dec = s.dec := rfl
@[simp] theorem State.setArg_rep (s : State) (x : Byte) : (s.setArg x).rep = s.rep := rfl
@[simp] theorem State.setArg_link (s : State) (x : Byte) : (s.setArg x).link = s.link := rfl
@[simp] theorem State.setArg_entries (s : State) (x : Byte) : (s.setArg x).entries = s.entries := rfl
@[simp] theorem State.setArg_mem (s : State) (x : Byte) : (s.setArg x).mem = s.mem := rfl
@[simp] theorem State.setArg_rq (s : State) (x : Byte) : (s.setArg x).rq = s.rq := rfl
@[simp] theorem State.setArg_cap (s : State) (x : Byte) : (s.setArg x).cap = s.cap := rfl
@[simp] theorem State.setArg_tx (s : State) (x : Byte) : (s.setArg x).tx = s.tx := rfl
@[simp] theorem State.setArg_pow (s : State) (x : Byte) : (s.setArg x).pow = s.pow := rfl
@[simp] theorem State.setArg_win (s : State) (x : Byte) : (s.setArg x).win = { s.win with arg := x } := rfl
@[simp] theorem State.setArg_irq (s : State) (x : Byte) : (s.setArg x).irq = s.irq := rfl
@[simp] theorem State.setArg_clock (s : State) (x : Byte) : (s.setArg x).clock = s.clock := rfl
@[simp] theorem State.setArg_choices (s : State) (x : Byte) : (s.setArg x).choices = s.choices := rfl

/-! ### driveBus -/

@[simp] theorem State.driveBus_pending (s : State) (x : Byte) : (s.driveBus x).pending = s.pending := rfl
@[simp] theorem State.driveBus_fe (s : State) (x : Byte) : (s.driveBus x).fe = s.fe := rfl
@[simp] theorem State.driveBus_dec (s : State) (x : Byte) : (s.driveBus x).dec = s.dec := rfl
@[simp] theorem State.driveBus_rep (s : State) (x : Byte) : (s.driveBus x).rep = s.rep := rfl
@[simp] theorem State.driveBus_link (s : State) (x : Byte) : (s.driveBus x).link = s.link := rfl
@[simp] theorem State.driveBus_entries (s : State) (x : Byte) : (s.driveBus x).entries = s.entries := rfl
@[simp] theorem State.driveBus_mem (s : State) (x : Byte) : (s.driveBus x).mem = s.mem := rfl
@[simp] theorem State.driveBus_rq (s : State) (x : Byte) : (s.driveBus x).rq = s.rq := rfl
@[simp] theorem State.driveBus_cap (s : State) (x : Byte) : (s.driveBus x).cap = s.cap := rfl
@[simp] theorem State.driveBus_tx (s : State) (x : Byte) : (s.driveBus x).tx = s.tx := rfl
@[simp] theorem State.driveBus_pow (s : State) (x : Byte) : (s.driveBus x).pow = s.pow := rfl
@[simp] theorem State.driveBus_win (s : State) (x : Byte) : (s.driveBus x).win = { s.win with dataBus := x } := rfl
@[simp] theorem State.driveBus_irq (s : State) (x : Byte) : (s.driveBus x).irq = s.irq := rfl
@[simp] theorem State.driveBus_clock (s : State) (x : Byte) : (s.driveBus x).clock = s.clock := rfl
@[simp] theorem State.driveBus_choices (s : State) (x : Byte) : (s.driveBus x).choices = s.choices := rfl

/-! ### elapse -/

@[simp] theorem State.elapse_pending (s : State) (x : Nat) : (s.elapse x).pending = s.pending := rfl
@[simp] theorem State.elapse_fe (s : State) (x : Nat) : (s.elapse x).fe = s.fe := rfl
@[simp] theorem State.elapse_dec (s : State) (x : Nat) : (s.elapse x).dec = s.dec := rfl
@[simp] theorem State.elapse_rep (s : State) (x : Nat) : (s.elapse x).rep = s.rep := rfl
@[simp] theorem State.elapse_link (s : State) (x : Nat) : (s.elapse x).link = s.link := rfl
@[simp] theorem State.elapse_entries (s : State) (x : Nat) : (s.elapse x).entries = s.entries := rfl
@[simp] theorem State.elapse_mem (s : State) (x : Nat) : (s.elapse x).mem = s.mem := rfl
@[simp] theorem State.elapse_rq (s : State) (x : Nat) : (s.elapse x).rq = s.rq := rfl
@[simp] theorem State.elapse_cap (s : State) (x : Nat) : (s.elapse x).cap = s.cap := rfl
@[simp] theorem State.elapse_tx (s : State) (x : Nat) : (s.elapse x).tx = s.tx := rfl
@[simp] theorem State.elapse_pow (s : State) (x : Nat) : (s.elapse x).pow = s.pow := rfl
@[simp] theorem State.elapse_win (s : State) (x : Nat) : (s.elapse x).win = s.win := rfl
@[simp] theorem State.elapse_irq (s : State) (x : Nat) : (s.elapse x).irq = s.irq := rfl
@[simp] theorem State.elapse_clock (s : State) (x : Nat) : (s.elapse x).clock = { s.clock with now := s.clock.now + x } := rfl
@[simp] theorem State.elapse_choices (s : State) (x : Nat) : (s.elapse x).choices = s.choices := rfl

/-! ### reachInstant -/

@[simp] theorem State.reachInstant_pending (s : State) (x : Nat) : (s.reachInstant x).pending = s.pending := rfl
@[simp] theorem State.reachInstant_fe (s : State) (x : Nat) : (s.reachInstant x).fe = s.fe := rfl
@[simp] theorem State.reachInstant_dec (s : State) (x : Nat) : (s.reachInstant x).dec = s.dec := rfl
@[simp] theorem State.reachInstant_rep (s : State) (x : Nat) : (s.reachInstant x).rep = s.rep := rfl
@[simp] theorem State.reachInstant_link (s : State) (x : Nat) : (s.reachInstant x).link = s.link := rfl
@[simp] theorem State.reachInstant_entries (s : State) (x : Nat) : (s.reachInstant x).entries = s.entries := rfl
@[simp] theorem State.reachInstant_mem (s : State) (x : Nat) : (s.reachInstant x).mem = s.mem := rfl
@[simp] theorem State.reachInstant_rq (s : State) (x : Nat) : (s.reachInstant x).rq = s.rq := rfl
@[simp] theorem State.reachInstant_cap (s : State) (x : Nat) : (s.reachInstant x).cap = s.cap := rfl
@[simp] theorem State.reachInstant_tx (s : State) (x : Nat) : (s.reachInstant x).tx = s.tx := rfl
@[simp] theorem State.reachInstant_pow (s : State) (x : Nat) : (s.reachInstant x).pow = s.pow := rfl
@[simp] theorem State.reachInstant_win (s : State) (x : Nat) : (s.reachInstant x).win = s.win := rfl
@[simp] theorem State.reachInstant_irq (s : State) (x : Nat) : (s.reachInstant x).irq = s.irq := rfl
@[simp] theorem State.reachInstant_clock (s : State) (x : Nat) : (s.reachInstant x).clock = { s.clock with now := max s.clock.now x } := rfl
@[simp] theorem State.reachInstant_choices (s : State) (x : Nat) : (s.reachInstant x).choices = s.choices := rfl

/-! ### setPower -/

@[simp] theorem State.setPower_pending (s : State) (x : PowerState) : (s.setPower x).pending = s.pending := rfl
@[simp] theorem State.setPower_fe (s : State) (x : PowerState) : (s.setPower x).fe = s.fe := rfl
@[simp] theorem State.setPower_dec (s : State) (x : PowerState) : (s.setPower x).dec = s.dec := rfl
@[simp] theorem State.setPower_rep (s : State) (x : PowerState) : (s.setPower x).rep = s.rep := rfl
@[simp] theorem State.setPower_link (s : State) (x : PowerState) : (s.setPower x).link = s.link := rfl
@[simp] theorem State.setPower_entries (s : State) (x : PowerState) : (s.setPower x).entries = s.entries := rfl
@[simp] theorem State.setPower_mem (s : State) (x : PowerState) : (s.setPower x).mem = s.mem := rfl
@[simp] theorem State.setPower_rq (s : State) (x : PowerState) : (s.setPower x).rq = s.rq := rfl
@[simp] theorem State.setPower_cap (s : State) (x : PowerState) : (s.setPower x).cap = s.cap := rfl
@[simp] theorem State.setPower_tx (s : State) (x : PowerState) : (s.setPower x).tx = s.tx := rfl
@[simp] theorem State.setPower_pow (s : State) (x : PowerState) : (s.setPower x).pow = { s.pow with st := x } := rfl
@[simp] theorem State.setPower_win (s : State) (x : PowerState) : (s.setPower x).win = s.win := rfl
@[simp] theorem State.setPower_irq (s : State) (x : PowerState) : (s.setPower x).irq = s.irq := rfl
@[simp] theorem State.setPower_clock (s : State) (x : PowerState) : (s.setPower x).clock = s.clock := rfl
@[simp] theorem State.setPower_choices (s : State) (x : PowerState) : (s.setPower x).choices = s.choices := rfl

/-! ### assertWake -/

@[simp] theorem State.assertWake_pending (s : State) : s.assertWake.pending = s.pending := rfl
@[simp] theorem State.assertWake_fe (s : State) : s.assertWake.fe = s.fe := rfl
@[simp] theorem State.assertWake_dec (s : State) : s.assertWake.dec = s.dec := rfl
@[simp] theorem State.assertWake_rep (s : State) : s.assertWake.rep = s.rep := rfl
@[simp] theorem State.assertWake_link (s : State) : s.assertWake.link = s.link := rfl
@[simp] theorem State.assertWake_entries (s : State) : s.assertWake.entries = s.entries := rfl
@[simp] theorem State.assertWake_mem (s : State) : s.assertWake.mem = s.mem := rfl
@[simp] theorem State.assertWake_rq (s : State) : s.assertWake.rq = s.rq := rfl
@[simp] theorem State.assertWake_cap (s : State) : s.assertWake.cap = s.cap := rfl
@[simp] theorem State.assertWake_tx (s : State) : s.assertWake.tx = s.tx := rfl
@[simp] theorem State.assertWake_pow (s : State) : s.assertWake.pow = { s.pow with wakePin := true } := rfl
@[simp] theorem State.assertWake_win (s : State) : s.assertWake.win = s.win := rfl
@[simp] theorem State.assertWake_irq (s : State) : s.assertWake.irq = s.irq := rfl
@[simp] theorem State.assertWake_clock (s : State) : s.assertWake.clock = s.clock := rfl
@[simp] theorem State.assertWake_choices (s : State) : s.assertWake.choices = s.choices := rfl

/-! ### pin -/

@[simp] theorem State.pin_pending (s : State) : s.pin.pending = s.pending := rfl
@[simp] theorem State.pin_fe (s : State) : s.pin.fe = s.fe := rfl
@[simp] theorem State.pin_dec (s : State) : s.pin.dec = s.dec := rfl
@[simp] theorem State.pin_rep (s : State) : s.pin.rep = s.rep := rfl
@[simp] theorem State.pin_link (s : State) : s.pin.link = s.link := rfl
@[simp] theorem State.pin_entries (s : State) : s.pin.entries = s.entries := rfl
@[simp] theorem State.pin_mem (s : State) : s.pin.mem = s.mem := rfl
@[simp] theorem State.pin_rq (s : State) : s.pin.rq = s.rq := rfl
@[simp] theorem State.pin_cap (s : State) : s.pin.cap = { s.cap with pins := s.cap.pins + 1 } := rfl
@[simp] theorem State.pin_tx (s : State) : s.pin.tx = s.tx := rfl
@[simp] theorem State.pin_pow (s : State) : s.pin.pow = s.pow := rfl
@[simp] theorem State.pin_win (s : State) : s.pin.win = s.win := rfl
@[simp] theorem State.pin_irq (s : State) : s.pin.irq = s.irq := rfl
@[simp] theorem State.pin_clock (s : State) : s.pin.clock = s.clock := rfl
@[simp] theorem State.pin_choices (s : State) : s.pin.choices = s.choices := rfl

/-! ### unpin -/

@[simp] theorem State.unpin_pending (s : State) : s.unpin.pending = s.pending := rfl
@[simp] theorem State.unpin_fe (s : State) : s.unpin.fe = s.fe := rfl
@[simp] theorem State.unpin_dec (s : State) : s.unpin.dec = s.dec := rfl
@[simp] theorem State.unpin_rep (s : State) : s.unpin.rep = s.rep := rfl
@[simp] theorem State.unpin_link (s : State) : s.unpin.link = s.link := rfl
@[simp] theorem State.unpin_entries (s : State) : s.unpin.entries = s.entries := rfl
@[simp] theorem State.unpin_mem (s : State) : s.unpin.mem = s.mem := rfl
@[simp] theorem State.unpin_rq (s : State) : s.unpin.rq = s.rq := rfl
@[simp] theorem State.unpin_cap (s : State) : s.unpin.cap = { s.cap with pins := s.cap.pins - 1 } := rfl
@[simp] theorem State.unpin_tx (s : State) : s.unpin.tx = s.tx := rfl
@[simp] theorem State.unpin_pow (s : State) : s.unpin.pow = s.pow := rfl
@[simp] theorem State.unpin_win (s : State) : s.unpin.win = s.win := rfl
@[simp] theorem State.unpin_irq (s : State) : s.unpin.irq = s.irq := rfl
@[simp] theorem State.unpin_clock (s : State) : s.unpin.clock = s.clock := rfl
@[simp] theorem State.unpin_choices (s : State) : s.unpin.choices = s.choices := rfl

/-! ### dropJob -/

@[simp] theorem State.dropJob_pending (s : State) : s.dropJob.pending = s.pending := rfl
@[simp] theorem State.dropJob_fe (s : State) : s.dropJob.fe = s.fe := rfl
@[simp] theorem State.dropJob_dec (s : State) : s.dropJob.dec = s.dec := rfl
@[simp] theorem State.dropJob_rep (s : State) : s.dropJob.rep = s.rep := rfl
@[simp] theorem State.dropJob_link (s : State) : s.dropJob.link = s.link := rfl
@[simp] theorem State.dropJob_entries (s : State) : s.dropJob.entries = s.entries := rfl
@[simp] theorem State.dropJob_mem (s : State) : s.dropJob.mem = s.mem := rfl
@[simp] theorem State.dropJob_rq (s : State) : s.dropJob.rq = s.rq := rfl
@[simp] theorem State.dropJob_cap (s : State) : s.dropJob.cap = s.cap := rfl
@[simp] theorem State.dropJob_tx (s : State) : s.dropJob.tx = { s.tx with jobs := s.tx.jobs.tail } := rfl
@[simp] theorem State.dropJob_pow (s : State) : s.dropJob.pow = s.pow := rfl
@[simp] theorem State.dropJob_win (s : State) : s.dropJob.win = s.win := rfl
@[simp] theorem State.dropJob_irq (s : State) : s.dropJob.irq = s.irq := rfl
@[simp] theorem State.dropJob_clock (s : State) : s.dropJob.clock = s.clock := rfl
@[simp] theorem State.dropJob_choices (s : State) : s.dropJob.choices = s.choices := rfl

/-! ### countBurst -/

@[simp] theorem State.countBurst_pending (s : State) : s.countBurst.pending = s.pending := rfl
@[simp] theorem State.countBurst_fe (s : State) : s.countBurst.fe = s.fe := rfl
@[simp] theorem State.countBurst_dec (s : State) : s.countBurst.dec = s.dec := rfl
@[simp] theorem State.countBurst_rep (s : State) : s.countBurst.rep = s.rep := rfl
@[simp] theorem State.countBurst_link (s : State) : s.countBurst.link = s.link := rfl
@[simp] theorem State.countBurst_entries (s : State) : s.countBurst.entries = s.entries := rfl
@[simp] theorem State.countBurst_mem (s : State) : s.countBurst.mem = s.mem := rfl
@[simp] theorem State.countBurst_rq (s : State) : s.countBurst.rq = s.rq := rfl
@[simp] theorem State.countBurst_cap (s : State) : s.countBurst.cap = s.cap := rfl
@[simp] theorem State.countBurst_tx (s : State) : s.countBurst.tx = { s.tx with bursts := bump Config.countCap s.tx.bursts } := rfl
@[simp] theorem State.countBurst_pow (s : State) : s.countBurst.pow = s.pow := rfl
@[simp] theorem State.countBurst_win (s : State) : s.countBurst.win = s.win := rfl
@[simp] theorem State.countBurst_irq (s : State) : s.countBurst.irq = s.irq := rfl
@[simp] theorem State.countBurst_clock (s : State) : s.countBurst.clock = s.clock := rfl
@[simp] theorem State.countBurst_choices (s : State) : s.countBurst.choices = s.choices := rfl

/-! ### complete -/

@[simp] theorem State.complete_pending (s : State) (j : Job) (x : CompletionStatus) (n : Nat) : (s.complete j x n).pending = s.pending := rfl
@[simp] theorem State.complete_fe (s : State) (j : Job) (x : CompletionStatus) (n : Nat) : (s.complete j x n).fe = s.fe := rfl
@[simp] theorem State.complete_dec (s : State) (j : Job) (x : CompletionStatus) (n : Nat) : (s.complete j x n).dec = s.dec := rfl
@[simp] theorem State.complete_rep (s : State) (j : Job) (x : CompletionStatus) (n : Nat) : (s.complete j x n).rep = s.rep := rfl
@[simp] theorem State.complete_link (s : State) (j : Job) (x : CompletionStatus) (n : Nat) : (s.complete j x n).link = s.link := rfl
@[simp] theorem State.complete_entries (s : State) (j : Job) (x : CompletionStatus) (n : Nat) : (s.complete j x n).entries = s.entries := rfl
@[simp] theorem State.complete_mem (s : State) (j : Job) (x : CompletionStatus) (n : Nat) : (s.complete j x n).mem = s.mem := rfl
@[simp] theorem State.complete_rq (s : State) (j : Job) (x : CompletionStatus) (n : Nat) : (s.complete j x n).rq = s.rq := rfl
@[simp] theorem State.complete_cap (s : State) (j : Job) (x : CompletionStatus) (n : Nat) : (s.complete j x n).cap = s.cap := rfl
@[simp] theorem State.complete_tx (s : State) (j : Job) (x : CompletionStatus) (n : Nat) : (s.complete j x n).tx = { s.tx with completions := s.tx.completions ++ [⟨j.tag, x, n⟩] } := rfl
@[simp] theorem State.complete_pow (s : State) (j : Job) (x : CompletionStatus) (n : Nat) : (s.complete j x n).pow = s.pow := rfl
@[simp] theorem State.complete_win (s : State) (j : Job) (x : CompletionStatus) (n : Nat) : (s.complete j x n).win = s.win := rfl
@[simp] theorem State.complete_irq (s : State) (j : Job) (x : CompletionStatus) (n : Nat) : (s.complete j x n).irq = s.irq := rfl
@[simp] theorem State.complete_clock (s : State) (j : Job) (x : CompletionStatus) (n : Nat) : (s.complete j x n).clock = s.clock := rfl
@[simp] theorem State.complete_choices (s : State) (j : Job) (x : CompletionStatus) (n : Nat) : (s.complete j x n).choices = s.choices := rfl

/-! ### What is on its way after an outcome has been taken -/

@[simp] theorem Links.dropOutcome_toDecoder (k : Links) : k.dropOutcome.toDecoder = k.toDecoder := rfl
@[simp] theorem Links.dropOutcome_toCapture (k : Links) : k.dropOutcome.toCapture = k.toCapture := rfl
@[simp] theorem Links.dropOutcome_outcome (k : Links) : k.dropOutcome.outcome = none := rfl
@[simp] theorem Links.dropOutcome_reports (k : Links) : k.dropOutcome.reports = k.reports := rfl
@[simp] theorem Links.dropOutcome_offers (k : Links) : k.dropOutcome.offers = k.offers := rfl
@[simp] theorem Links.dropOutcome_wakeEdges (k : Links) : k.dropOutcome.wakeEdges = k.wakeEdges := rfl
@[simp] theorem Links.dropOutcome_expireRequests (k : Links) : k.dropOutcome.expireRequests = k.expireRequests.map (· - 1) := rfl
@[simp] theorem Links.dropOutcome_oldBursts (k : Links) : k.dropOutcome.oldBursts = k.oldBursts - 1 := rfl
@[simp] theorem Links.dropOutcome_posts (k : Links) : k.dropOutcome.posts = k.posts := rfl

end Sys2Proof.Machine
end

