-- ==== Sys2Proof/Laws/Frames.lean ====
section
/-! SUPPORT. Frames: for each shared operation, the blocks it leaves exactly as they were. Each lemma is a conjunction of
field equations and a simp lemma, so that a later proof reads off an untouched block without unfolding the operation. -/

namespace Sys2Proof.Machine

open Sys2Proof (Byte Time Payload Line)

/-! ### Receive queue and last-frame memories -/

@[simp] theorem State.sendNotice_frame (s : State) (l : Line) (n : Notice) :
    (s.sendNotice l n).pending = s.pending ∧ (s.sendNotice l n).fe = s.fe ∧ (s.sendNotice l n).dec = s.dec ∧
    (s.sendNotice l n).rep = s.rep ∧ (s.sendNotice l n).entries = s.entries ∧ (s.sendNotice l n).mem = s.mem ∧
    (s.sendNotice l n).rq = s.rq ∧ (s.sendNotice l n).cap = s.cap ∧ (s.sendNotice l n).tx = s.tx ∧
    (s.sendNotice l n).pow = s.pow ∧ (s.sendNotice l n).win = s.win ∧ (s.sendNotice l n).irq = s.irq ∧
    (s.sendNotice l n).clock = s.clock := by
  simp [State.sendNotice]

@[simp] theorem State.sendPost_frame (s : State) (l : Line) (p : Post) :
    (s.sendPost l p).pending = s.pending ∧ (s.sendPost l p).fe = s.fe ∧ (s.sendPost l p).dec = s.dec ∧
    (s.sendPost l p).rep = s.rep ∧ (s.sendPost l p).entries = s.entries ∧ (s.sendPost l p).mem = s.mem ∧
    (s.sendPost l p).rq = s.rq ∧ (s.sendPost l p).cap = s.cap ∧ (s.sendPost l p).tx = s.tx ∧
    (s.sendPost l p).pow = s.pow ∧ (s.sendPost l p).win = s.win ∧ (s.sendPost l p).irq = s.irq ∧
    (s.sendPost l p).clock = s.clock := by
  simp [State.sendPost]

@[simp] theorem State.takePost_frame (s : State) (p : Post) :
    (s.takePost p).pending = s.pending ∧ (s.takePost p).fe = s.fe ∧ (s.takePost p).dec = s.dec ∧
    (s.takePost p).rep = s.rep ∧ (s.takePost p).link = s.link ∧ (s.takePost p).entries = s.entries ∧
    (s.takePost p).mem = s.mem ∧ (s.takePost p).cap = s.cap ∧ (s.takePost p).tx = s.tx ∧ (s.takePost p).pow = s.pow ∧
    (s.takePost p).win = s.win ∧ (s.takePost p).clock = s.clock := by
  unfold State.takePost
  split <;> simp

@[simp] theorem State.dropRequest_frame (s : State) (l : Line) (which : Post → Bool) :
    (s.dropRequest l which).pending = s.pending ∧ (s.dropRequest l which).fe = s.fe ∧
    (s.dropRequest l which).dec = s.dec ∧ (s.dropRequest l which).rep = s.rep ∧
    (s.dropRequest l which).entries = s.entries ∧ (s.dropRequest l which).mem = s.mem ∧
    (s.dropRequest l which).rq = s.rq ∧ (s.dropRequest l which).cap = s.cap ∧ (s.dropRequest l which).tx = s.tx ∧
    (s.dropRequest l which).pow = s.pow ∧ (s.dropRequest l which).win = s.win ∧ (s.dropRequest l which).irq = s.irq ∧
    (s.dropRequest l which).clock = s.clock := by
  simp [State.dropRequest]

@[simp] theorem State.takeIncrement_frame (s : State) (l : Line) :
    (s.takeIncrement l).pending = s.pending ∧ (s.takeIncrement l).fe = s.fe ∧ (s.takeIncrement l).dec = s.dec ∧
    (s.takeIncrement l).rep = s.rep ∧ (s.takeIncrement l).link = s.link ∧ (s.takeIncrement l).entries = s.entries ∧
    (s.takeIncrement l).mem = s.mem ∧ (s.takeIncrement l).cap = s.cap ∧ (s.takeIncrement l).tx = s.tx ∧
    (s.takeIncrement l).pow = s.pow ∧ (s.takeIncrement l).win = s.win ∧ (s.takeIncrement l).irq = s.irq ∧
    (s.takeIncrement l).clock = s.clock := by
  simp [State.takeIncrement]

@[simp] theorem State.takeRequest_frame (s : State) (l : Line) (p : Post) :
    (s.takeRequest l p).pending = s.pending ∧ (s.takeRequest l p).fe = s.fe ∧ (s.takeRequest l p).dec = s.dec ∧
    (s.takeRequest l p).rep = s.rep ∧ (s.takeRequest l p).link = s.link ∧ (s.takeRequest l p).entries = s.entries ∧
    (s.takeRequest l p).mem = s.mem ∧ (s.takeRequest l p).cap = s.cap ∧ (s.takeRequest l p).tx = s.tx ∧
    (s.takeRequest l p).pow = s.pow ∧ (s.takeRequest l p).win = s.win ∧ (s.takeRequest l p).clock = s.clock := by
  unfold State.takeRequest
  split <;> simp

@[simp] theorem State.takeRequestAll_frame (s : State) (l : Line) (ps : List Post) :
    (ps.foldl (fun s p => s.takeRequest l p) s).pending = s.pending ∧
    (ps.foldl (fun s p => s.takeRequest l p) s).fe = s.fe ∧ (ps.foldl (fun s p => s.takeRequest l p) s).dec = s.dec ∧
    (ps.foldl (fun s p => s.takeRequest l p) s).rep = s.rep ∧
    (ps.foldl (fun s p => s.takeRequest l p) s).link = s.link ∧
    (ps.foldl (fun s p => s.takeRequest l p) s).entries = s.entries ∧
    (ps.foldl (fun s p => s.takeRequest l p) s).mem = s.mem ∧
    (ps.foldl (fun s p => s.takeRequest l p) s).cap = s.cap ∧ (ps.foldl (fun s p => s.takeRequest l p) s).tx = s.tx ∧
    (ps.foldl (fun s p => s.takeRequest l p) s).pow = s.pow ∧
    (ps.foldl (fun s p => s.takeRequest l p) s).win = s.win ∧
    (ps.foldl (fun s p => s.takeRequest l p) s).clock = s.clock := by
  induction ps generalizing s with
  | nil => simp
  | cons p ps ih => simp [ih]

@[simp] theorem State.takeRequests_frame (s : State) (l : Line) :
    (s.takeRequests l).pending = s.pending ∧ (s.takeRequests l).fe = s.fe ∧ (s.takeRequests l).dec = s.dec ∧
    (s.takeRequests l).rep = s.rep ∧ (s.takeRequests l).entries = s.entries ∧ (s.takeRequests l).mem = s.mem ∧
    (s.takeRequests l).cap = s.cap ∧ (s.takeRequests l).tx = s.tx ∧ (s.takeRequests l).pow = s.pow ∧
    (s.takeRequests l).win = s.win ∧ (s.takeRequests l).clock = s.clock := by
  simp [State.takeRequests]

@[simp] theorem State.popRecord_frame (s : State) :
    s.popRecord.1.pending = s.pending ∧ s.popRecord.1.fe = s.fe ∧ s.popRecord.1.dec = s.dec ∧
    s.popRecord.1.rep = s.rep ∧ s.popRecord.1.link = s.link ∧ s.popRecord.1.entries = s.entries ∧
    s.popRecord.1.mem = s.mem ∧ s.popRecord.1.cap = s.cap ∧ s.popRecord.1.tx = s.tx ∧ s.popRecord.1.pow = s.pow ∧
    s.popRecord.1.win = s.win ∧ s.popRecord.1.irq = s.irq ∧ s.popRecord.1.clock = s.clock := by
  unfold State.popRecord
  split <;> simp

@[simp] theorem State.flushRecords_frame (s : State) :
    s.flushRecords.1.pending = s.pending ∧ s.flushRecords.1.fe = s.fe ∧ s.flushRecords.1.dec = s.dec ∧
    s.flushRecords.1.rep = s.rep ∧ s.flushRecords.1.link = s.link ∧ s.flushRecords.1.entries = s.entries ∧
    s.flushRecords.1.mem = s.mem ∧ s.flushRecords.1.cap = s.cap ∧ s.flushRecords.1.tx = s.tx ∧
    s.flushRecords.1.pow = s.pow ∧ s.flushRecords.1.irq = s.irq ∧ s.flushRecords.1.clock = s.clock := by
  simp [State.flushRecords]

@[simp] theorem State.settleIncrements_frame (s : State) (l : Line) :
    (s.settleIncrements l).pending = s.pending ∧ (s.settleIncrements l).fe = s.fe ∧
    (s.settleIncrements l).dec = s.dec ∧ (s.settleIncrements l).rep = s.rep ∧
    (s.settleIncrements l).entries = s.entries ∧ (s.settleIncrements l).mem = s.mem ∧
    (s.settleIncrements l).cap = s.cap ∧ (s.settleIncrements l).tx = s.tx ∧ (s.settleIncrements l).pow = s.pow ∧
    (s.settleIncrements l).win = s.win ∧ (s.settleIncrements l).irq = s.irq ∧
    (s.settleIncrements l).clock = s.clock := by
  unfold State.settleIncrements
  split <;> simp

@[simp] theorem State.forgetReference_frame (s : State) (l : Line) :
    (s.forgetReference l).pending = s.pending ∧ (s.forgetReference l).fe = s.fe ∧ (s.forgetReference l).dec = s.dec ∧
    (s.forgetReference l).rep = s.rep ∧ (s.forgetReference l).entries = s.entries ∧
    (s.forgetReference l).mem = s.mem ∧ (s.forgetReference l).cap = s.cap ∧ (s.forgetReference l).tx = s.tx ∧
    (s.forgetReference l).pow = s.pow ∧ (s.forgetReference l).win = s.win ∧ (s.forgetReference l).irq = s.irq ∧
    (s.forgetReference l).clock = s.clock := by
  simp [State.forgetReference]

@[simp] theorem State.dropReference_frame (s : State) (l : Line) :
    (s.dropReference l).pending = s.pending ∧ (s.dropReference l).fe = s.fe ∧ (s.dropReference l).dec = s.dec ∧
    (s.dropReference l).rep = s.rep ∧ (s.dropReference l).entries = s.entries ∧ (s.dropReference l).mem = s.mem ∧
    (s.dropReference l).cap = s.cap ∧ (s.dropReference l).tx = s.tx ∧ (s.dropReference l).pow = s.pow ∧
    (s.dropReference l).win = s.win ∧ (s.dropReference l).irq = s.irq ∧ (s.dropReference l).clock = s.clock := by
  simp [State.dropReference]

@[simp] theorem State.clearMemory_frame (s : State) (l : Line) :
    (s.clearMemory l).pending = s.pending ∧ (s.clearMemory l).fe = s.fe ∧ (s.clearMemory l).dec = s.dec ∧
    (s.clearMemory l).entries = s.entries ∧ (s.clearMemory l).mem = s.mem ∧ (s.clearMemory l).cap = s.cap ∧
    (s.clearMemory l).tx = s.tx ∧ (s.clearMemory l).pow = s.pow ∧ (s.clearMemory l).win = s.win ∧
    (s.clearMemory l).irq = s.irq ∧ (s.clearMemory l).clock = s.clock := by
  simp [State.clearMemory]

@[simp] theorem State.clearMemoryNaming_frame (s : State) (n : Fin 8) (l : Line) :
    (s.clearMemoryNaming n l).pending = s.pending ∧ (s.clearMemoryNaming n l).fe = s.fe ∧
    (s.clearMemoryNaming n l).dec = s.dec ∧ (s.clearMemoryNaming n l).entries = s.entries ∧
    (s.clearMemoryNaming n l).mem = s.mem ∧ (s.clearMemoryNaming n l).cap = s.cap ∧
    (s.clearMemoryNaming n l).tx = s.tx ∧ (s.clearMemoryNaming n l).pow = s.pow ∧
    (s.clearMemoryNaming n l).win = s.win ∧ (s.clearMemoryNaming n l).irq = s.irq ∧
    (s.clearMemoryNaming n l).clock = s.clock := by
  unfold State.clearMemoryNaming
  split <;> (try split) <;> simp

@[simp] theorem State.clearMemoriesNaming_frame (s : State) (n : Fin 8) :
    (s.clearMemoriesNaming n).pending = s.pending ∧ (s.clearMemoriesNaming n).fe = s.fe ∧
    (s.clearMemoriesNaming n).dec = s.dec ∧ (s.clearMemoriesNaming n).entries = s.entries ∧
    (s.clearMemoriesNaming n).mem = s.mem ∧ (s.clearMemoriesNaming n).cap = s.cap ∧
    (s.clearMemoriesNaming n).tx = s.tx ∧ (s.clearMemoriesNaming n).pow = s.pow ∧
    (s.clearMemoriesNaming n).win = s.win ∧ (s.clearMemoriesNaming n).irq = s.irq ∧
    (s.clearMemoriesNaming n).clock = s.clock := by
  simp [State.clearMemoriesNaming]

@[simp] theorem State.postRelease_frame (s : State) (l : Line) (m : LastFrame) :
    (s.postRelease l m).pending = s.pending ∧ (s.postRelease l m).fe = s.fe ∧ (s.postRelease l m).dec = s.dec ∧
    (s.postRelease l m).rep = s.rep ∧ (s.postRelease l m).entries = s.entries ∧ (s.postRelease l m).mem = s.mem ∧
    (s.postRelease l m).rq = s.rq ∧ (s.postRelease l m).cap = s.cap ∧ (s.postRelease l m).tx = s.tx ∧
    (s.postRelease l m).pow = s.pow ∧ (s.postRelease l m).win = s.win ∧ (s.postRelease l m).irq = s.irq ∧
    (s.postRelease l m).clock = s.clock := by
  unfold State.postRelease
  split <;> simp

@[simp] theorem State.expireMemory_frame (s : State) (l : Line) :
    (s.expireMemory l).pending = s.pending ∧ (s.expireMemory l).fe = s.fe ∧ (s.expireMemory l).dec = s.dec ∧
    (s.expireMemory l).entries = s.entries ∧ (s.expireMemory l).mem = s.mem ∧ (s.expireMemory l).cap = s.cap ∧
    (s.expireMemory l).tx = s.tx ∧ (s.expireMemory l).pow = s.pow ∧ (s.expireMemory l).win = s.win ∧
    (s.expireMemory l).irq = s.irq ∧ (s.expireMemory l).clock = s.clock := by
  unfold State.expireMemory
  split <;> simp

@[simp] theorem State.noteDue_frame (s : State) (l : Line) :
    (s.noteDue l).pending = s.pending ∧ (s.noteDue l).fe = s.fe ∧ (s.noteDue l).dec = s.dec ∧
    (s.noteDue l).link = s.link ∧ (s.noteDue l).entries = s.entries ∧ (s.noteDue l).mem = s.mem ∧
    (s.noteDue l).rq = s.rq ∧ (s.noteDue l).cap = s.cap ∧ (s.noteDue l).tx = s.tx ∧ (s.noteDue l).pow = s.pow ∧
    (s.noteDue l).win = s.win ∧ (s.noteDue l).irq = s.irq ∧ (s.noteDue l).clock = s.clock := by
  unfold State.noteDue
  split <;> (try split) <;> simp

/-! ### Format table -/

@[simp] theorem State.joinHolder_frame (s : State) (h : Holder) (n : Fin 8) :
    (s.joinHolder h n).pending = s.pending ∧ (s.joinHolder h n).fe = s.fe ∧ (s.joinHolder h n).dec = s.dec ∧
    (s.joinHolder h n).rep = s.rep ∧ (s.joinHolder h n).link = s.link ∧ (s.joinHolder h n).mem = s.mem ∧
    (s.joinHolder h n).rq = s.rq ∧ (s.joinHolder h n).cap = s.cap ∧ (s.joinHolder h n).tx = s.tx ∧
    (s.joinHolder h n).pow = s.pow ∧ (s.joinHolder h n).win = s.win ∧ (s.joinHolder h n).irq = s.irq ∧
    (s.joinHolder h n).clock = s.clock := by
  simp [State.joinHolder]

@[simp] theorem State.leaveHolder_frame (s : State) (h : Holder) (n : Fin 8) :
    (s.leaveHolder h n).pending = s.pending ∧ (s.leaveHolder h n).fe = s.fe ∧ (s.leaveHolder h n).dec = s.dec ∧
    (s.leaveHolder h n).mem = s.mem ∧ (s.leaveHolder h n).cap = s.cap ∧ (s.leaveHolder h n).tx = s.tx ∧
    (s.leaveHolder h n).pow = s.pow ∧ (s.leaveHolder h n).win = s.win ∧ (s.leaveHolder h n).clock = s.clock := by
  unfold State.leaveHolder
  split <;> simp

@[simp] theorem State.leaveHolders_frame (s : State) (h : Holder) (ns : List (Fin 8)) :
    (s.leaveHolders h ns).pending = s.pending ∧ (s.leaveHolders h ns).fe = s.fe ∧ (s.leaveHolders h ns).dec = s.dec ∧
    (s.leaveHolders h ns).mem = s.mem ∧ (s.leaveHolders h ns).cap = s.cap ∧ (s.leaveHolders h ns).tx = s.tx ∧
    (s.leaveHolders h ns).pow = s.pow ∧ (s.leaveHolders h ns).win = s.win ∧
    (s.leaveHolders h ns).clock = s.clock := by
  unfold State.leaveHolders
  induction ns generalizing s with
  | nil => simp
  | cons n ns ih => simp [ih]

@[simp] theorem State.makeEnabled_frame (s : State) (n : Fin 8) :
    (s.makeEnabled n).pending = s.pending ∧ (s.makeEnabled n).fe = s.fe ∧ (s.makeEnabled n).dec = s.dec ∧
    (s.makeEnabled n).rep = s.rep ∧ (s.makeEnabled n).link = s.link ∧ (s.makeEnabled n).mem = s.mem ∧
    (s.makeEnabled n).rq = s.rq ∧ (s.makeEnabled n).cap = s.cap ∧ (s.makeEnabled n).tx = s.tx ∧
    (s.makeEnabled n).pow = s.pow ∧ (s.makeEnabled n).win = s.win ∧ (s.makeEnabled n).irq = s.irq ∧
    (s.makeEnabled n).clock = s.clock := by
  simp [State.makeEnabled]

@[simp] theorem State.enableFormat_frame (s : State) :
    s.enableFormat.1.pending = s.pending ∧ s.enableFormat.1.fe = s.fe ∧ s.enableFormat.1.dec = s.dec ∧
    s.enableFormat.1.rep = s.rep ∧ s.enableFormat.1.link = s.link ∧ s.enableFormat.1.mem = s.mem ∧
    s.enableFormat.1.rq = s.rq ∧ s.enableFormat.1.cap = s.cap ∧ s.enableFormat.1.tx = s.tx ∧
    s.enableFormat.1.pow = s.pow ∧ s.enableFormat.1.win = s.win ∧ s.enableFormat.1.irq = s.irq ∧
    s.enableFormat.1.clock = s.clock := by
  unfold State.enableFormat
  split <;> (try split) <;> (try split) <;> simp

@[simp] theorem State.disableFormat_frame (s : State) :
    s.disableFormat.1.pending = s.pending ∧ s.disableFormat.1.fe = s.fe ∧ s.disableFormat.1.dec = s.dec ∧
    s.disableFormat.1.mem = s.mem ∧ s.disableFormat.1.cap = s.cap ∧ s.disableFormat.1.tx = s.tx ∧
    s.disableFormat.1.pow = s.pow ∧ s.disableFormat.1.irq = s.irq ∧ s.disableFormat.1.clock = s.clock := by
  unfold State.disableFormat
  split <;> (try split) <;> (try split) <;> simp

/-! ### Front ends -/

@[simp] theorem State.actOnThreshold_frame (s : State) (l : Line) :
    (s.actOnThreshold l).pending = s.pending ∧ (s.actOnThreshold l).dec = s.dec ∧ (s.actOnThreshold l).rep = s.rep ∧
    (s.actOnThreshold l).entries = s.entries ∧ (s.actOnThreshold l).mem = s.mem ∧ (s.actOnThreshold l).rq = s.rq ∧
    (s.actOnThreshold l).cap = s.cap ∧ (s.actOnThreshold l).tx = s.tx ∧ (s.actOnThreshold l).pow = s.pow ∧
    (s.actOnThreshold l).win = s.win ∧ (s.actOnThreshold l).clock = s.clock := by
  unfold State.actOnThreshold
  split <;> simp

@[simp] theorem State.settleThreshold_frame (s : State) (l : Line) :
    (s.settleThreshold l).pending = s.pending ∧ (s.settleThreshold l).dec = s.dec ∧
    (s.settleThreshold l).rep = s.rep ∧ (s.settleThreshold l).entries = s.entries ∧
    (s.settleThreshold l).mem = s.mem ∧ (s.settleThreshold l).rq = s.rq ∧ (s.settleThreshold l).cap = s.cap ∧
    (s.settleThreshold l).tx = s.tx ∧ (s.settleThreshold l).pow = s.pow ∧ (s.settleThreshold l).win = s.win ∧
    (s.settleThreshold l).clock = s.clock := by
  unfold State.settleThreshold
  split <;> simp

@[simp] theorem State.acceptEdge_frame (s : State) (l : Line) (g : GlitchTest) :
    (s.acceptEdge l g).pending = s.pending ∧ (s.acceptEdge l g).dec = s.dec ∧ (s.acceptEdge l g).rep = s.rep ∧
    (s.acceptEdge l g).entries = s.entries ∧ (s.acceptEdge l g).mem = s.mem ∧ (s.acceptEdge l g).rq = s.rq ∧
    (s.acceptEdge l g).cap = s.cap ∧ (s.acceptEdge l g).tx = s.tx ∧ (s.acceptEdge l g).pow = s.pow ∧
    (s.acceptEdge l g).win = s.win ∧ (s.acceptEdge l g).irq = s.irq ∧ (s.acceptEdge l g).clock = s.clock := by
  unfold State.acceptEdge
  split <;> simp

@[simp] theorem State.settleTest_frame (s : State) (l : Line) :
    (s.settleTest l).pending = s.pending ∧ (s.settleTest l).dec = s.dec ∧ (s.settleTest l).rep = s.rep ∧
    (s.settleTest l).entries = s.entries ∧ (s.settleTest l).mem = s.mem ∧ (s.settleTest l).rq = s.rq ∧
    (s.settleTest l).cap = s.cap ∧ (s.settleTest l).tx = s.tx ∧ (s.settleTest l).pow = s.pow ∧
    (s.settleTest l).win = s.win ∧ (s.settleTest l).irq = s.irq ∧ (s.settleTest l).clock = s.clock := by
  unfold State.settleTest
  split <;> (try split) <;> simp

@[simp] theorem State.catchUp_frame (s : State) (l : Line) :
    (s.catchUp l).pending = s.pending ∧ (s.catchUp l).dec = s.dec ∧ (s.catchUp l).rep = s.rep ∧
    (s.catchUp l).entries = s.entries ∧ (s.catchUp l).mem = s.mem ∧ (s.catchUp l).rq = s.rq ∧
    (s.catchUp l).cap = s.cap ∧ (s.catchUp l).tx = s.tx ∧ (s.catchUp l).pow = s.pow ∧ (s.catchUp l).win = s.win ∧
    (s.catchUp l).clock = s.clock := by
  simp [State.catchUp]

@[simp] theorem State.rejectEdge_frame (s : State) (l : Line) :
    (s.rejectEdge l).pending = s.pending ∧ (s.rejectEdge l).dec = s.dec ∧ (s.rejectEdge l).rep = s.rep ∧
    (s.rejectEdge l).entries = s.entries ∧ (s.rejectEdge l).mem = s.mem ∧ (s.rejectEdge l).rq = s.rq ∧
    (s.rejectEdge l).cap = s.cap ∧ (s.rejectEdge l).tx = s.tx ∧ (s.rejectEdge l).pow = s.pow ∧
    (s.rejectEdge l).win = s.win ∧ (s.rejectEdge l).clock = s.clock := by
  simp [State.rejectEdge]

@[simp] theorem State.startTest_frame (s : State) (l : Line) :
    (s.startTest l).pending = s.pending ∧ (s.startTest l).dec = s.dec ∧ (s.startTest l).rep = s.rep ∧
    (s.startTest l).entries = s.entries ∧ (s.startTest l).mem = s.mem ∧ (s.startTest l).rq = s.rq ∧
    (s.startTest l).cap = s.cap ∧ (s.startTest l).tx = s.tx ∧ (s.startTest l).pow = s.pow ∧
    (s.startTest l).win = s.win ∧ (s.startTest l).irq = s.irq ∧ (s.startTest l).clock = s.clock := by
  simp [State.startTest]

@[simp] theorem State.rawEdge_frame (s : State) (l : Line) :
    (s.rawEdge l).pending = s.pending ∧ (s.rawEdge l).dec = s.dec ∧ (s.rawEdge l).rep = s.rep ∧
    (s.rawEdge l).entries = s.entries ∧ (s.rawEdge l).mem = s.mem ∧ (s.rawEdge l).rq = s.rq ∧
    (s.rawEdge l).cap = s.cap ∧ (s.rawEdge l).tx = s.tx ∧ (s.rawEdge l).pow = s.pow ∧ (s.rawEdge l).win = s.win ∧
    (s.rawEdge l).clock = s.clock := by
  unfold State.rawEdge
  split <;> (try split) <;> simp

@[simp] theorem State.thresholdEvent_frame (s : State) (l : Line) (st : LineState) :
    (s.thresholdEvent l st).pending = s.pending ∧ (s.thresholdEvent l st).dec = s.dec ∧
    (s.thresholdEvent l st).rep = s.rep ∧ (s.thresholdEvent l st).entries = s.entries ∧
    (s.thresholdEvent l st).mem = s.mem ∧ (s.thresholdEvent l st).rq = s.rq ∧ (s.thresholdEvent l st).cap = s.cap ∧
    (s.thresholdEvent l st).tx = s.tx ∧ (s.thresholdEvent l st).pow = s.pow ∧
    (s.thresholdEvent l st).win = s.win := by
  unfold State.thresholdEvent
  split <;> (try split) <;> simp

@[simp] theorem State.enableLine_frame (s : State) (l : Line) :
    (s.enableLine l).pending = s.pending ∧ (s.enableLine l).dec = s.dec ∧ (s.enableLine l).rep = s.rep ∧
    (s.enableLine l).link = s.link ∧ (s.enableLine l).entries = s.entries ∧ (s.enableLine l).mem = s.mem ∧
    (s.enableLine l).rq = s.rq ∧ (s.enableLine l).cap = s.cap ∧ (s.enableLine l).tx = s.tx ∧
    (s.enableLine l).pow = s.pow ∧ (s.enableLine l).win = s.win ∧ (s.enableLine l).irq = s.irq ∧
    (s.enableLine l).clock = s.clock := by
  unfold State.enableLine
  split <;> simp

@[simp] theorem State.requestExpiry_frame (s : State) (l : Line) :
    (s.requestExpiry l).pending = s.pending ∧ (s.requestExpiry l).fe = s.fe ∧ (s.requestExpiry l).dec = s.dec ∧
    (s.requestExpiry l).rep = s.rep ∧ (s.requestExpiry l).entries = s.entries ∧ (s.requestExpiry l).mem = s.mem ∧
    (s.requestExpiry l).rq = s.rq ∧ (s.requestExpiry l).cap = s.cap ∧ (s.requestExpiry l).tx = s.tx ∧
    (s.requestExpiry l).pow = s.pow ∧ (s.requestExpiry l).win = s.win ∧ (s.requestExpiry l).irq = s.irq ∧
    (s.requestExpiry l).clock = s.clock := by
  simp [State.requestExpiry]

@[simp] theorem State.abortBurst_frame (s : State) (l : Line) (r : AbortReason) :
    (s.abortBurst l r).pending = s.pending ∧ (s.abortBurst l r).fe = s.fe ∧ (s.abortBurst l r).dec = s.dec ∧
    (s.abortBurst l r).rep = s.rep ∧ (s.abortBurst l r).entries = s.entries ∧ (s.abortBurst l r).mem = s.mem ∧
    (s.abortBurst l r).rq = s.rq ∧ (s.abortBurst l r).cap = s.cap ∧ (s.abortBurst l r).tx = s.tx ∧
    (s.abortBurst l r).pow = s.pow ∧ (s.abortBurst l r).win = s.win ∧ (s.abortBurst l r).irq = s.irq ∧
    (s.abortBurst l r).clock = s.clock := by
  unfold State.abortBurst
  split <;> simp

@[simp] theorem State.disableLine_frame (s : State) (l : Line) :
    (s.disableLine l).pending = s.pending ∧ (s.disableLine l).dec = s.dec ∧ (s.disableLine l).rep = s.rep ∧
    (s.disableLine l).entries = s.entries ∧ (s.disableLine l).mem = s.mem ∧ (s.disableLine l).rq = s.rq ∧
    (s.disableLine l).cap = s.cap ∧ (s.disableLine l).tx = s.tx ∧ (s.disableLine l).pow = s.pow ∧
    (s.disableLine l).win = s.win ∧ (s.disableLine l).irq = s.irq ∧ (s.disableLine l).clock = s.clock := by
  simp [State.disableLine]

@[simp] theorem State.writeControl_frame (l : Line) (v : Byte) (s : State) :
    (State.writeControl l v s).pending = s.pending ∧ (State.writeControl l v s).dec = s.dec ∧
    (State.writeControl l v s).rep = s.rep ∧ (State.writeControl l v s).entries = s.entries ∧
    (State.writeControl l v s).mem = s.mem ∧ (State.writeControl l v s).rq = s.rq ∧
    (State.writeControl l v s).cap = s.cap ∧ (State.writeControl l v s).tx = s.tx ∧
    (State.writeControl l v s).pow = s.pow ∧ (State.writeControl l v s).win = s.win ∧
    (State.writeControl l v s).clock = s.clock := by
  unfold State.writeControl
  split <;> (try split) <;> (try split) <;> simp

@[simp] theorem State.writeIdle_frame (l : Line) (v : Byte) (s : State) :
    (State.writeIdle l v s).pending = s.pending ∧ (State.writeIdle l v s).dec = s.dec ∧
    (State.writeIdle l v s).rep = s.rep ∧ (State.writeIdle l v s).link = s.link ∧
    (State.writeIdle l v s).entries = s.entries ∧ (State.writeIdle l v s).mem = s.mem ∧
    (State.writeIdle l v s).rq = s.rq ∧ (State.writeIdle l v s).cap = s.cap ∧ (State.writeIdle l v s).tx = s.tx ∧
    (State.writeIdle l v s).pow = s.pow ∧ (State.writeIdle l v s).win = s.win ∧
    (State.writeIdle l v s).clock = s.clock := by
  unfold State.writeIdle
  split <;> simp

@[simp] theorem State.writeGlitch_frame (l : Line) (v : Byte) (s : State) :
    (State.writeGlitch l v s).pending = s.pending ∧ (State.writeGlitch l v s).dec = s.dec ∧
    (State.writeGlitch l v s).rep = s.rep ∧ (State.writeGlitch l v s).link = s.link ∧
    (State.writeGlitch l v s).entries = s.entries ∧ (State.writeGlitch l v s).mem = s.mem ∧
    (State.writeGlitch l v s).rq = s.rq ∧ (State.writeGlitch l v s).cap = s.cap ∧
    (State.writeGlitch l v s).tx = s.tx ∧ (State.writeGlitch l v s).pow = s.pow ∧
    (State.writeGlitch l v s).win = s.win ∧ (State.writeGlitch l v s).clock = s.clock := by
  unfold State.writeGlitch
  split <;> simp

@[simp] theorem State.writeLineStatus_frame (l : Line) (v : Byte) (s : State) :
    (State.writeLineStatus l v s).pending = s.pending ∧ (State.writeLineStatus l v s).dec = s.dec ∧
    (State.writeLineStatus l v s).rep = s.rep ∧ (State.writeLineStatus l v s).link = s.link ∧
    (State.writeLineStatus l v s).entries = s.entries ∧ (State.writeLineStatus l v s).mem = s.mem ∧
    (State.writeLineStatus l v s).rq = s.rq ∧ (State.writeLineStatus l v s).cap = s.cap ∧
    (State.writeLineStatus l v s).tx = s.tx ∧ (State.writeLineStatus l v s).pow = s.pow ∧
    (State.writeLineStatus l v s).win = s.win ∧ (State.writeLineStatus l v s).irq = s.irq ∧
    (State.writeLineStatus l v s).clock = s.clock := by
  unfold State.writeLineStatus
  split <;> simp

@[simp] theorem State.takeBlanking_frame (s : State) (l : Line) :
    (s.takeBlanking l).pending = s.pending ∧ (s.takeBlanking l).dec = s.dec ∧ (s.takeBlanking l).rep = s.rep ∧
    (s.takeBlanking l).entries = s.entries ∧ (s.takeBlanking l).mem = s.mem ∧ (s.takeBlanking l).rq = s.rq ∧
    (s.takeBlanking l).cap = s.cap ∧ (s.takeBlanking l).tx = s.tx ∧ (s.takeBlanking l).pow = s.pow ∧
    (s.takeBlanking l).win = s.win ∧ (s.takeBlanking l).irq = s.irq ∧ (s.takeBlanking l).clock = s.clock := by
  simp [State.takeBlanking]

@[simp] theorem State.unblank_frame (s : State) (l : Line) :
    (s.unblank l).pending = s.pending ∧ (s.unblank l).dec = s.dec ∧ (s.unblank l).rep = s.rep ∧
    (s.unblank l).link = s.link ∧ (s.unblank l).entries = s.entries ∧ (s.unblank l).mem = s.mem ∧
    (s.unblank l).rq = s.rq ∧ (s.unblank l).cap = s.cap ∧ (s.unblank l).tx = s.tx ∧ (s.unblank l).pow = s.pow ∧
    (s.unblank l).win = s.win ∧ (s.unblank l).irq = s.irq ∧ (s.unblank l).clock = s.clock := by
  unfold State.unblank
  split <;> simp

@[simp] theorem State.endGuardHold_frame (s : State) (l : Line) :
    (s.endGuardHold l).pending = s.pending ∧ (s.endGuardHold l).dec = s.dec ∧ (s.endGuardHold l).rep = s.rep ∧
    (s.endGuardHold l).link = s.link ∧ (s.endGuardHold l).entries = s.entries ∧ (s.endGuardHold l).mem = s.mem ∧
    (s.endGuardHold l).rq = s.rq ∧ (s.endGuardHold l).cap = s.cap ∧ (s.endGuardHold l).tx = s.tx ∧
    (s.endGuardHold l).pow = s.pow ∧ (s.endGuardHold l).win = s.win ∧ (s.endGuardHold l).irq = s.irq ∧
    (s.endGuardHold l).clock = s.clock := by
  simp [State.endGuardHold]

@[simp] theorem State.passToGuard_frame (s : State) (t : Nat) (l : Line) :
    (s.passToGuard t l).pending = s.pending ∧ (s.passToGuard t l).dec = s.dec ∧ (s.passToGuard t l).rep = s.rep ∧
    (s.passToGuard t l).link = s.link ∧ (s.passToGuard t l).entries = s.entries ∧ (s.passToGuard t l).mem = s.mem ∧
    (s.passToGuard t l).rq = s.rq ∧ (s.passToGuard t l).cap = s.cap ∧ (s.passToGuard t l).tx = s.tx ∧
    (s.passToGuard t l).pow = s.pow ∧ (s.passToGuard t l).win = s.win ∧ (s.passToGuard t l).irq = s.irq ∧
    (s.passToGuard t l).clock = s.clock := by
  unfold State.passToGuard
  split <;> simp

@[simp] theorem State.parkLine_frame (s : State) (b : Bool) (l : Line) :
    (s.parkLine b l).pending = s.pending ∧ (s.parkLine b l).dec = s.dec ∧ (s.parkLine b l).rep = s.rep ∧
    (s.parkLine b l).entries = s.entries ∧ (s.parkLine b l).mem = s.mem ∧ (s.parkLine b l).rq = s.rq ∧
    (s.parkLine b l).cap = s.cap ∧ (s.parkLine b l).tx = s.tx ∧ (s.parkLine b l).pow = s.pow ∧
    (s.parkLine b l).win = s.win ∧ (s.parkLine b l).irq = s.irq ∧ (s.parkLine b l).clock = s.clock := by
  simp [State.parkLine]

@[simp] theorem State.unparkLine_frame (s : State) (l : Line) :
    (s.unparkLine l).pending = s.pending ∧ (s.unparkLine l).dec = s.dec ∧ (s.unparkLine l).rep = s.rep ∧
    (s.unparkLine l).link = s.link ∧ (s.unparkLine l).entries = s.entries ∧ (s.unparkLine l).mem = s.mem ∧
    (s.unparkLine l).rq = s.rq ∧ (s.unparkLine l).cap = s.cap ∧ (s.unparkLine l).tx = s.tx ∧
    (s.unparkLine l).pow = s.pow ∧ (s.unparkLine l).win = s.win ∧ (s.unparkLine l).irq = s.irq ∧
    (s.unparkLine l).clock = s.clock := by
  unfold State.unparkLine
  split <;> simp

/-! ### Decoders and repeat units -/

@[simp] theorem State.handOver_frame (s : State) (l : Line) (o : BurstOutcome) :
    (s.handOver l o).pending = s.pending ∧ (s.handOver l o).fe = s.fe ∧ (s.handOver l o).dec = s.dec ∧
    (s.handOver l o).rep = s.rep ∧ (s.handOver l o).entries = s.entries ∧ (s.handOver l o).mem = s.mem ∧
    (s.handOver l o).rq = s.rq ∧ (s.handOver l o).cap = s.cap ∧ (s.handOver l o).tx = s.tx ∧
    (s.handOver l o).pow = s.pow ∧ (s.handOver l o).win = s.win ∧ (s.handOver l o).irq = s.irq ∧
    (s.handOver l o).clock = s.clock := by
  simp [State.handOver]

@[simp] theorem State.finishBurst_frame (s : State) (l : Line) :
    (s.finishBurst l).pending = s.pending ∧ (s.finishBurst l).fe = s.fe ∧ (s.finishBurst l).mem = s.mem ∧
    (s.finishBurst l).cap = s.cap ∧ (s.finishBurst l).tx = s.tx ∧ (s.finishBurst l).pow = s.pow ∧
    (s.finishBurst l).win = s.win ∧ (s.finishBurst l).clock = s.clock := by
  simp [State.finishBurst]

@[simp] theorem State.dropDecoderNotice_frame (s : State) (l : Line) :
    (s.dropDecoderNotice l).pending = s.pending ∧ (s.dropDecoderNotice l).fe = s.fe ∧
    (s.dropDecoderNotice l).dec = s.dec ∧ (s.dropDecoderNotice l).rep = s.rep ∧
    (s.dropDecoderNotice l).entries = s.entries ∧ (s.dropDecoderNotice l).mem = s.mem ∧
    (s.dropDecoderNotice l).rq = s.rq ∧ (s.dropDecoderNotice l).cap = s.cap ∧ (s.dropDecoderNotice l).tx = s.tx ∧
    (s.dropDecoderNotice l).pow = s.pow ∧ (s.dropDecoderNotice l).win = s.win ∧ (s.dropDecoderNotice l).irq = s.irq ∧
    (s.dropDecoderNotice l).clock = s.clock := by
  simp [State.dropDecoderNotice]

@[simp] theorem State.openBurst_frame (s : State) (l : Line) :
    (s.openBurst l).pending = s.pending ∧ (s.openBurst l).fe = s.fe ∧ (s.openBurst l).dec = s.dec ∧
    (s.openBurst l).link = s.link ∧ (s.openBurst l).entries = s.entries ∧ (s.openBurst l).mem = s.mem ∧
    (s.openBurst l).rq = s.rq ∧ (s.openBurst l).cap = s.cap ∧ (s.openBurst l).tx = s.tx ∧
    (s.openBurst l).pow = s.pow ∧ (s.openBurst l).win = s.win ∧ (s.openBurst l).irq = s.irq ∧
    (s.openBurst l).clock = s.clock := by
  simp [State.openBurst]

@[simp] theorem State.joinAll_frame (s : State) (h : Holder) (ns : List (Fin 8)) :
    (ns.foldl (fun s n => s.joinHolder h n) s).pending = s.pending ∧
    (ns.foldl (fun s n => s.joinHolder h n) s).fe = s.fe ∧ (ns.foldl (fun s n => s.joinHolder h n) s).dec = s.dec ∧
    (ns.foldl (fun s n => s.joinHolder h n) s).rep = s.rep ∧ (ns.foldl (fun s n => s.joinHolder h n) s).link = s.link ∧
    (ns.foldl (fun s n => s.joinHolder h n) s).mem = s.mem ∧ (ns.foldl (fun s n => s.joinHolder h n) s).rq = s.rq ∧
    (ns.foldl (fun s n => s.joinHolder h n) s).cap = s.cap ∧ (ns.foldl (fun s n => s.joinHolder h n) s).tx = s.tx ∧
    (ns.foldl (fun s n => s.joinHolder h n) s).pow = s.pow ∧ (ns.foldl (fun s n => s.joinHolder h n) s).win = s.win ∧
    (ns.foldl (fun s n => s.joinHolder h n) s).irq = s.irq ∧
    (ns.foldl (fun s n => s.joinHolder h n) s).clock = s.clock := by
  induction ns generalizing s with
  | nil => simp
  | cons n ns ih => simp [ih]

@[simp] theorem State.formCandidates_frame (s : State) (l : Line) (t : Time) :
    (s.formCandidates l t).pending = s.pending ∧ (s.formCandidates l t).fe = s.fe ∧
    (s.formCandidates l t).rep = s.rep ∧ (s.formCandidates l t).link = s.link ∧ (s.formCandidates l t).mem = s.mem ∧
    (s.formCandidates l t).rq = s.rq ∧ (s.formCandidates l t).cap = s.cap ∧ (s.formCandidates l t).tx = s.tx ∧
    (s.formCandidates l t).pow = s.pow ∧ (s.formCandidates l t).win = s.win ∧ (s.formCandidates l t).irq = s.irq ∧
    (s.formCandidates l t).clock = s.clock := by
  simp [State.formCandidates]

@[simp] theorem State.offerElement_frame (s : State) (l : Line) (v : Level) (d : Nat) :
    (s.offerElement l v d).pending = s.pending ∧ (s.offerElement l v d).fe = s.fe ∧
    (s.offerElement l v d).mem = s.mem ∧ (s.offerElement l v d).cap = s.cap ∧ (s.offerElement l v d).tx = s.tx ∧
    (s.offerElement l v d).pow = s.pow ∧ (s.offerElement l v d).win = s.win ∧
    (s.offerElement l v d).clock = s.clock := by
  simp [State.offerElement]

@[simp] theorem State.setMemory_frame (s : State) (l : Line) (m : LastFrame) :
    (s.setMemory l m).pending = s.pending ∧ (s.setMemory l m).fe = s.fe ∧ (s.setMemory l m).dec = s.dec ∧
    (s.setMemory l m).link = s.link ∧ (s.setMemory l m).entries = s.entries ∧ (s.setMemory l m).mem = s.mem ∧
    (s.setMemory l m).rq = s.rq ∧ (s.setMemory l m).cap = s.cap ∧ (s.setMemory l m).tx = s.tx ∧
    (s.setMemory l m).pow = s.pow ∧ (s.setMemory l m).win = s.win ∧ (s.setMemory l m).irq = s.irq ∧
    (s.setMemory l m).clock = s.clock := by
  simp [State.setMemory]

@[simp] theorem State.countRepeat_frame (s : State) (l : Line) (m : LastFrame) (o : BurstOutcome) :
    (s.countRepeat l m o).pending = s.pending ∧ (s.countRepeat l m o).fe = s.fe ∧ (s.countRepeat l m o).dec = s.dec ∧
    (s.countRepeat l m o).entries = s.entries ∧ (s.countRepeat l m o).mem = s.mem ∧ (s.countRepeat l m o).rq = s.rq ∧
    (s.countRepeat l m o).cap = s.cap ∧ (s.countRepeat l m o).tx = s.tx ∧ (s.countRepeat l m o).pow = s.pow ∧
    (s.countRepeat l m o).win = s.win ∧ (s.countRepeat l m o).irq = s.irq ∧
    (s.countRepeat l m o).clock = s.clock := by
  simp [State.countRepeat]

@[simp] theorem State.releaseOld_frame (s : State) (l : Line) :
    (s.releaseOld l).pending = s.pending ∧ (s.releaseOld l).fe = s.fe ∧ (s.releaseOld l).dec = s.dec ∧
    (s.releaseOld l).rep = s.rep ∧ (s.releaseOld l).entries = s.entries ∧ (s.releaseOld l).mem = s.mem ∧
    (s.releaseOld l).rq = s.rq ∧ (s.releaseOld l).cap = s.cap ∧ (s.releaseOld l).tx = s.tx ∧
    (s.releaseOld l).pow = s.pow ∧ (s.releaseOld l).win = s.win ∧ (s.releaseOld l).irq = s.irq ∧
    (s.releaseOld l).clock = s.clock := by
  unfold State.releaseOld
  split <;> simp

@[simp] theorem State.newFrame_frame (s : State) (l : Line) (n : Fin 8) (b : Nat) (p : Payload) (t e : Time) :
    (s.newFrame l n b p t e).pending = s.pending ∧ (s.newFrame l n b p t e).fe = s.fe ∧
    (s.newFrame l n b p t e).dec = s.dec ∧ (s.newFrame l n b p t e).entries = s.entries ∧
    (s.newFrame l n b p t e).mem = s.mem ∧ (s.newFrame l n b p t e).cap = s.cap ∧
    (s.newFrame l n b p t e).tx = s.tx ∧ (s.newFrame l n b p t e).pow = s.pow ∧
    (s.newFrame l n b p t e).win = s.win ∧ (s.newFrame l n b p t e).irq = s.irq ∧
    (s.newFrame l n b p t e).clock = s.clock := by
  simp [State.newFrame]

@[simp] theorem State.takeOther_frame (s : State) (l : Line) (o : BurstOutcome) :
    (s.takeOther l o).pending = s.pending ∧ (s.takeOther l o).fe = s.fe ∧ (s.takeOther l o).dec = s.dec ∧
    (s.takeOther l o).entries = s.entries ∧ (s.takeOther l o).mem = s.mem ∧ (s.takeOther l o).cap = s.cap ∧
    (s.takeOther l o).tx = s.tx ∧ (s.takeOther l o).pow = s.pow ∧ (s.takeOther l o).win = s.win ∧
    (s.takeOther l o).irq = s.irq ∧ (s.takeOther l o).clock = s.clock := by
  unfold State.takeOther
  split <;> simp

@[simp] theorem State.takeOutcome_frame (s : State) (l : Line) (o : BurstOutcome) :
    (s.takeOutcome l o).pending = s.pending ∧ (s.takeOutcome l o).fe = s.fe ∧ (s.takeOutcome l o).dec = s.dec ∧
    (s.takeOutcome l o).entries = s.entries ∧ (s.takeOutcome l o).mem = s.mem ∧ (s.takeOutcome l o).cap = s.cap ∧
    (s.takeOutcome l o).tx = s.tx ∧ (s.takeOutcome l o).pow = s.pow ∧ (s.takeOutcome l o).win = s.win ∧
    (s.takeOutcome l o).irq = s.irq ∧ (s.takeOutcome l o).clock = s.clock := by
  unfold State.takeOutcome
  split <;> (try split) <;> simp

@[simp] theorem State.closeBurst_frame (s : State) (l : Line) :
    (s.closeBurst l).pending = s.pending ∧ (s.closeBurst l).fe = s.fe ∧ (s.closeBurst l).dec = s.dec ∧
    (s.closeBurst l).link = s.link ∧ (s.closeBurst l).entries = s.entries ∧ (s.closeBurst l).mem = s.mem ∧
    (s.closeBurst l).rq = s.rq ∧ (s.closeBurst l).cap = s.cap ∧ (s.closeBurst l).tx = s.tx ∧
    (s.closeBurst l).pow = s.pow ∧ (s.closeBurst l).win = s.win ∧ (s.closeBurst l).irq = s.irq ∧
    (s.closeBurst l).clock = s.clock := by
  simp [State.closeBurst]

@[simp] theorem State.takeHandedOutcome_frame (s : State) (l : Line) :
    (s.takeHandedOutcome l).pending = s.pending ∧ (s.takeHandedOutcome l).fe = s.fe ∧
    (s.takeHandedOutcome l).mem = s.mem ∧ (s.takeHandedOutcome l).cap = s.cap ∧ (s.takeHandedOutcome l).tx = s.tx ∧
    (s.takeHandedOutcome l).pow = s.pow ∧ (s.takeHandedOutcome l).win = s.win ∧
    (s.takeHandedOutcome l).clock = s.clock := by
  unfold State.takeHandedOutcome
  split
  · simp
  · dsimp only
    split <;> simp

@[simp] theorem State.actOnNotice_frame (s : State) (l : Line) (n : Notice) :
    (s.actOnNotice l n).pending = s.pending ∧ (s.actOnNotice l n).fe = s.fe ∧ (s.actOnNotice l n).mem = s.mem ∧
    (s.actOnNotice l n).cap = s.cap ∧ (s.actOnNotice l n).tx = s.tx ∧ (s.actOnNotice l n).pow = s.pow ∧
    (s.actOnNotice l n).win = s.win ∧ (s.actOnNotice l n).clock = s.clock := by
  unfold State.actOnNotice
  split <;> (try split) <;> simp

@[simp] theorem State.takeNotice_frame (s : State) (l : Line) (n : Notice) :
    (s.takeNotice l n).pending = s.pending ∧ (s.takeNotice l n).fe = s.fe ∧ (s.takeNotice l n).mem = s.mem ∧
    (s.takeNotice l n).cap = s.cap ∧ (s.takeNotice l n).tx = s.tx ∧ (s.takeNotice l n).pow = s.pow ∧
    (s.takeNotice l n).win = s.win ∧ (s.takeNotice l n).clock = s.clock := by
  unfold State.takeNotice
  split <;> simp

@[simp] theorem State.settleNotice_frame (s : State) (l : Line) (n : Notice) :
    (s.settleNotice l n).pending = s.pending ∧ (s.settleNotice l n).fe = s.fe ∧ (s.settleNotice l n).mem = s.mem ∧
    (s.settleNotice l n).cap = s.cap ∧ (s.settleNotice l n).tx = s.tx ∧ (s.settleNotice l n).pow = s.pow ∧
    (s.settleNotice l n).win = s.win ∧ (s.settleNotice l n).clock = s.clock := by
  unfold State.settleNotice
  split <;> simp

@[simp] theorem State.settleNotices_frame (s : State) (l : Line) (ns : List Notice) :
    (ns.foldl (fun s n => s.settleNotice l n) s).pending = s.pending ∧
    (ns.foldl (fun s n => s.settleNotice l n) s).fe = s.fe ∧
    (ns.foldl (fun s n => s.settleNotice l n) s).mem = s.mem ∧
    (ns.foldl (fun s n => s.settleNotice l n) s).cap = s.cap ∧
    (ns.foldl (fun s n => s.settleNotice l n) s).tx = s.tx ∧
    (ns.foldl (fun s n => s.settleNotice l n) s).pow = s.pow ∧
    (ns.foldl (fun s n => s.settleNotice l n) s).win = s.win ∧
    (ns.foldl (fun s n => s.settleNotice l n) s).clock = s.clock := by
  induction ns generalizing s with
  | nil => simp
  | cons n ns ih => simp [ih]

@[simp] theorem State.settleDecoder_frame (s : State) (l : Line) :
    (s.settleDecoder l).pending = s.pending ∧ (s.settleDecoder l).fe = s.fe ∧ (s.settleDecoder l).mem = s.mem ∧
    (s.settleDecoder l).cap = s.cap ∧ (s.settleDecoder l).tx = s.tx ∧ (s.settleDecoder l).pow = s.pow ∧
    (s.settleDecoder l).win = s.win ∧ (s.settleDecoder l).clock = s.clock := by
  simp [State.settleDecoder]

/-! ### Capture unit -/

@[simp] theorem State.dropCaptureNotice_frame (s : State) (l : Line) :
    (s.dropCaptureNotice l).pending = s.pending ∧ (s.dropCaptureNotice l).fe = s.fe ∧
    (s.dropCaptureNotice l).dec = s.dec ∧ (s.dropCaptureNotice l).rep = s.rep ∧
    (s.dropCaptureNotice l).entries = s.entries ∧ (s.dropCaptureNotice l).mem = s.mem ∧
    (s.dropCaptureNotice l).rq = s.rq ∧ (s.dropCaptureNotice l).cap = s.cap ∧ (s.dropCaptureNotice l).tx = s.tx ∧
    (s.dropCaptureNotice l).pow = s.pow ∧ (s.dropCaptureNotice l).win = s.win ∧ (s.dropCaptureNotice l).irq = s.irq ∧
    (s.dropCaptureNotice l).clock = s.clock := by
  simp [State.dropCaptureNotice]

@[simp] theorem State.appendElement_frame (s : State) (v : Level) (d : Nat) :
    (s.appendElement v d).pending = s.pending ∧ (s.appendElement v d).fe = s.fe ∧ (s.appendElement v d).dec = s.dec ∧
    (s.appendElement v d).rep = s.rep ∧ (s.appendElement v d).link = s.link ∧
    (s.appendElement v d).entries = s.entries ∧ (s.appendElement v d).rq = s.rq ∧ (s.appendElement v d).tx = s.tx ∧
    (s.appendElement v d).pow = s.pow ∧ (s.appendElement v d).win = s.win ∧ (s.appendElement v d).irq = s.irq ∧
    (s.appendElement v d).clock = s.clock := by
  unfold State.appendElement
  split <;> simp

@[simp] theorem State.dropReport_frame (s : State) (l : Line) :
    (s.dropReport l).pending = s.pending ∧ (s.dropReport l).fe = s.fe ∧ (s.dropReport l).dec = s.dec ∧
    (s.dropReport l).rep = s.rep ∧ (s.dropReport l).entries = s.entries ∧ (s.dropReport l).mem = s.mem ∧
    (s.dropReport l).rq = s.rq ∧ (s.dropReport l).cap = s.cap ∧ (s.dropReport l).tx = s.tx ∧
    (s.dropReport l).pow = s.pow ∧ (s.dropReport l).win = s.win ∧ (s.dropReport l).irq = s.irq ∧
    (s.dropReport l).clock = s.clock := by
  simp [State.dropReport]

@[simp] theorem State.armCapture_frame (s : State) :
    s.armCapture.1.pending = s.pending ∧ s.armCapture.1.fe = s.fe ∧ s.armCapture.1.dec = s.dec ∧
    s.armCapture.1.rep = s.rep ∧ s.armCapture.1.link = s.link ∧ s.armCapture.1.entries = s.entries ∧
    s.armCapture.1.mem = s.mem ∧ s.armCapture.1.rq = s.rq ∧ s.armCapture.1.tx = s.tx ∧ s.armCapture.1.pow = s.pow ∧
    s.armCapture.1.win = s.win ∧ s.armCapture.1.irq = s.irq ∧ s.armCapture.1.clock = s.clock := by
  unfold State.armCapture
  split <;> simp

@[simp] theorem State.disarmCapture_frame (s : State) :
    s.disarmCapture.1.pending = s.pending ∧ s.disarmCapture.1.fe = s.fe ∧ s.disarmCapture.1.dec = s.dec ∧
    s.disarmCapture.1.rep = s.rep ∧ s.disarmCapture.1.link = s.link ∧ s.disarmCapture.1.entries = s.entries ∧
    s.disarmCapture.1.mem = s.mem ∧ s.disarmCapture.1.rq = s.rq ∧ s.disarmCapture.1.tx = s.tx ∧
    s.disarmCapture.1.pow = s.pow ∧ s.disarmCapture.1.win = s.win ∧ s.disarmCapture.1.irq = s.irq ∧
    s.disarmCapture.1.clock = s.clock := by
  unfold State.disarmCapture
  split <;> simp

@[simp] theorem State.releaseCapture_frame (s : State) :
    s.releaseCapture.1.pending = s.pending ∧ s.releaseCapture.1.fe = s.fe ∧ s.releaseCapture.1.dec = s.dec ∧
    s.releaseCapture.1.rep = s.rep ∧ s.releaseCapture.1.link = s.link ∧ s.releaseCapture.1.entries = s.entries ∧
    s.releaseCapture.1.mem = s.mem ∧ s.releaseCapture.1.rq = s.rq ∧ s.releaseCapture.1.tx = s.tx ∧
    s.releaseCapture.1.pow = s.pow ∧ s.releaseCapture.1.win = s.win ∧ s.releaseCapture.1.irq = s.irq ∧
    s.releaseCapture.1.clock = s.clock := by
  unfold State.releaseCapture
  split <;> (try split) <;> simp

@[simp] theorem State.loadCapture_frame (s : State) :
    s.loadCapture.1.pending = s.pending ∧ s.loadCapture.1.fe = s.fe ∧ s.loadCapture.1.dec = s.dec ∧
    s.loadCapture.1.rep = s.rep ∧ s.loadCapture.1.link = s.link ∧ s.loadCapture.1.entries = s.entries ∧
    s.loadCapture.1.mem = s.mem ∧ s.loadCapture.1.rq = s.rq ∧ s.loadCapture.1.tx = s.tx ∧
    s.loadCapture.1.pow = s.pow ∧ s.loadCapture.1.win = s.win ∧ s.loadCapture.1.irq = s.irq ∧
    s.loadCapture.1.clock = s.clock := by
  unfold State.loadCapture
  split <;> (try split) <;> simp

@[simp] theorem State.writeCaptureControl_frame (v : Byte) (s : State) :
    (State.writeCaptureControl v s).pending = s.pending ∧ (State.writeCaptureControl v s).fe = s.fe ∧
    (State.writeCaptureControl v s).dec = s.dec ∧ (State.writeCaptureControl v s).rep = s.rep ∧
    (State.writeCaptureControl v s).link = s.link ∧ (State.writeCaptureControl v s).entries = s.entries ∧
    (State.writeCaptureControl v s).mem = s.mem ∧ (State.writeCaptureControl v s).rq = s.rq ∧
    (State.writeCaptureControl v s).tx = s.tx ∧ (State.writeCaptureControl v s).pow = s.pow ∧
    (State.writeCaptureControl v s).win = s.win ∧ (State.writeCaptureControl v s).irq = s.irq ∧
    (State.writeCaptureControl v s).clock = s.clock := by
  simp [State.writeCaptureControl]

@[simp] theorem State.writeLoadLength_frame (hi : Bool) (v : Byte) (s : State) :
    (State.writeLoadLength hi v s).pending = s.pending ∧ (State.writeLoadLength hi v s).fe = s.fe ∧
    (State.writeLoadLength hi v s).dec = s.dec ∧ (State.writeLoadLength hi v s).rep = s.rep ∧
    (State.writeLoadLength hi v s).link = s.link ∧ (State.writeLoadLength hi v s).entries = s.entries ∧
    (State.writeLoadLength hi v s).mem = s.mem ∧ (State.writeLoadLength hi v s).rq = s.rq ∧
    (State.writeLoadLength hi v s).tx = s.tx ∧ (State.writeLoadLength hi v s).pow = s.pow ∧
    (State.writeLoadLength hi v s).win = s.win ∧ (State.writeLoadLength hi v s).irq = s.irq ∧
    (State.writeLoadLength hi v s).clock = s.clock := by
  simp [State.writeLoadLength]

/-! ### Transmitter -/

@[simp] theorem State.writeStaging_frame (r : Fin 14) (v : Byte) (s : State) :
    (State.writeStaging r v s).pending = s.pending ∧ (State.writeStaging r v s).fe = s.fe ∧
    (State.writeStaging r v s).dec = s.dec ∧ (State.writeStaging r v s).rep = s.rep ∧
    (State.writeStaging r v s).link = s.link ∧ (State.writeStaging r v s).entries = s.entries ∧
    (State.writeStaging r v s).mem = s.mem ∧ (State.writeStaging r v s).rq = s.rq ∧
    (State.writeStaging r v s).cap = s.cap ∧ (State.writeStaging r v s).pow = s.pow ∧
    (State.writeStaging r v s).win = s.win ∧ (State.writeStaging r v s).irq = s.irq ∧
    (State.writeStaging r v s).clock = s.clock := by
  simp [State.writeStaging]

@[simp] theorem State.appendJob_frame (s : State) :
    s.appendJob.pending = s.pending ∧ s.appendJob.fe = s.fe ∧ s.appendJob.dec = s.dec ∧ s.appendJob.rep = s.rep ∧
    s.appendJob.link = s.link ∧ s.appendJob.entries = s.entries ∧ s.appendJob.mem = s.mem ∧ s.appendJob.rq = s.rq ∧
    s.appendJob.pow = s.pow ∧ s.appendJob.win = s.win ∧ s.appendJob.irq = s.irq ∧ s.appendJob.clock = s.clock := by
  unfold State.appendJob
  dsimp only
  split <;> simp

@[simp] theorem State.submitJob_frame (s : State) :
    s.submitJob.1.pending = s.pending ∧ s.submitJob.1.fe = s.fe ∧ s.submitJob.1.dec = s.dec ∧
    s.submitJob.1.rep = s.rep ∧ s.submitJob.1.link = s.link ∧ s.submitJob.1.entries = s.entries ∧
    s.submitJob.1.mem = s.mem ∧ s.submitJob.1.rq = s.rq ∧ s.submitJob.1.pow = s.pow ∧ s.submitJob.1.win = s.win ∧
    s.submitJob.1.irq = s.irq ∧ s.submitJob.1.clock = s.clock := by
  unfold State.submitJob
  split <;> simp

@[simp] theorem State.unpinJob_frame (s : State) (j : Job) :
    (s.unpinJob j).pending = s.pending ∧ (s.unpinJob j).fe = s.fe ∧ (s.unpinJob j).dec = s.dec ∧
    (s.unpinJob j).rep = s.rep ∧ (s.unpinJob j).link = s.link ∧ (s.unpinJob j).entries = s.entries ∧
    (s.unpinJob j).mem = s.mem ∧ (s.unpinJob j).rq = s.rq ∧ (s.unpinJob j).tx = s.tx ∧ (s.unpinJob j).pow = s.pow ∧
    (s.unpinJob j).win = s.win ∧ (s.unpinJob j).irq = s.irq ∧ (s.unpinJob j).clock = s.clock := by
  unfold State.unpinJob
  split <;> simp

@[simp] theorem State.beginBurst_frame (s : State) (f : Format) (j : Job) (i t : Nat) :
    (s.beginBurst f j i t).pending = s.pending ∧ (s.beginBurst f j i t).fe = s.fe ∧
    (s.beginBurst f j i t).dec = s.dec ∧ (s.beginBurst f j i t).rep = s.rep ∧ (s.beginBurst f j i t).link = s.link ∧
    (s.beginBurst f j i t).entries = s.entries ∧ (s.beginBurst f j i t).mem = s.mem ∧
    (s.beginBurst f j i t).rq = s.rq ∧ (s.beginBurst f j i t).cap = s.cap ∧ (s.beginBurst f j i t).pow = s.pow ∧
    (s.beginBurst f j i t).win = s.win ∧ (s.beginBurst f j i t).irq = s.irq ∧
    (s.beginBurst f j i t).clock = s.clock := by
  simp [State.beginBurst]

@[simp] theorem State.blankFor_frame (s : State) (j : Job) (l : Line) :
    (s.blankFor j l).pending = s.pending ∧ (s.blankFor j l).dec = s.dec ∧ (s.blankFor j l).rep = s.rep ∧
    (s.blankFor j l).entries = s.entries ∧ (s.blankFor j l).mem = s.mem ∧ (s.blankFor j l).rq = s.rq ∧
    (s.blankFor j l).cap = s.cap ∧ (s.blankFor j l).tx = s.tx ∧ (s.blankFor j l).pow = s.pow ∧
    (s.blankFor j l).win = s.win ∧ (s.blankFor j l).irq = s.irq ∧ (s.blankFor j l).clock = s.clock := by
  unfold State.blankFor
  split <;> simp

@[simp] theorem State.jobUnavailable_frame (s : State) (j : Job) :
    (s.jobUnavailable j).pending = s.pending ∧ (s.jobUnavailable j).fe = s.fe ∧ (s.jobUnavailable j).dec = s.dec ∧
    (s.jobUnavailable j).rep = s.rep ∧ (s.jobUnavailable j).link = s.link ∧
    (s.jobUnavailable j).entries = s.entries ∧ (s.jobUnavailable j).mem = s.mem ∧ (s.jobUnavailable j).rq = s.rq ∧
    (s.jobUnavailable j).pow = s.pow ∧ (s.jobUnavailable j).win = s.win ∧ (s.jobUnavailable j).irq = s.irq ∧
    (s.jobUnavailable j).clock = s.clock := by
  simp [State.jobUnavailable]

@[simp] theorem State.jobActive_frame (s : State) (j : Job) (n : Fin 8) :
    (s.jobActive j n).pending = s.pending ∧ (s.jobActive j n).dec = s.dec ∧ (s.jobActive j n).rep = s.rep ∧
    (s.jobActive j n).mem = s.mem ∧ (s.jobActive j n).rq = s.rq ∧ (s.jobActive j n).cap = s.cap ∧
    (s.jobActive j n).pow = s.pow ∧ (s.jobActive j n).win = s.win ∧ (s.jobActive j n).irq = s.irq ∧
    (s.jobActive j n).clock = s.clock := by
  simp [State.jobActive]

@[simp] theorem State.releaseEntry_frame (s : State) (j : Job) :
    (s.releaseEntry j).pending = s.pending ∧ (s.releaseEntry j).fe = s.fe ∧ (s.releaseEntry j).dec = s.dec ∧
    (s.releaseEntry j).mem = s.mem ∧ (s.releaseEntry j).cap = s.cap ∧ (s.releaseEntry j).tx = s.tx ∧
    (s.releaseEntry j).pow = s.pow ∧ (s.releaseEntry j).win = s.win ∧ (s.releaseEntry j).clock = s.clock := by
  unfold State.releaseEntry
  split <;> simp

@[simp] theorem State.endJob_frame (s : State) (j : Job) (st : CompletionStatus) (t : Nat) :
    (s.endJob j st t).pending = s.pending ∧ (s.endJob j st t).dec = s.dec ∧ (s.endJob j st t).mem = s.mem ∧
    (s.endJob j st t).pow = s.pow ∧ (s.endJob j st t).win = s.win ∧ (s.endJob j st t).clock = s.clock := by
  simp [State.endJob]

@[simp] theorem State.enterGap_frame (s : State) (j : Job) :
    (s.enterGap j).pending = s.pending ∧ (s.enterGap j).fe = s.fe ∧ (s.enterGap j).dec = s.dec ∧
    (s.enterGap j).rep = s.rep ∧ (s.enterGap j).link = s.link ∧ (s.enterGap j).entries = s.entries ∧
    (s.enterGap j).mem = s.mem ∧ (s.enterGap j).rq = s.rq ∧ (s.enterGap j).cap = s.cap ∧ (s.enterGap j).pow = s.pow ∧
    (s.enterGap j).win = s.win ∧ (s.enterGap j).irq = s.irq ∧ (s.enterGap j).clock = s.clock := by
  simp [State.enterGap]

@[simp] theorem State.afterBurst_frame (s : State) (j : Job) :
    (s.afterBurst j).pending = s.pending ∧ (s.afterBurst j).dec = s.dec ∧ (s.afterBurst j).mem = s.mem ∧
    (s.afterBurst j).pow = s.pow ∧ (s.afterBurst j).win = s.win ∧ (s.afterBurst j).clock = s.clock := by
  unfold State.afterBurst
  split <;> simp

@[simp] theorem State.stopTx_frame (s : State) :
    s.stopTx.1.pending = s.pending ∧ s.stopTx.1.dec = s.dec ∧ s.stopTx.1.mem = s.mem ∧ s.stopTx.1.pow = s.pow ∧
    s.stopTx.1.win = s.win ∧ s.stopTx.1.clock = s.clock := by
  unfold State.stopTx
  split <;> simp

@[simp] theorem State.abortActive_frame (s : State) :
    s.abortActive.1.pending = s.pending ∧ s.abortActive.1.dec = s.dec ∧ s.abortActive.1.mem = s.mem ∧
    s.abortActive.1.pow = s.pow ∧ s.abortActive.1.win = s.win ∧ s.abortActive.1.clock = s.clock := by
  unfold State.abortActive
  split <;> simp

@[simp] theorem State.unpinAll_frame (s : State) (js : List Job) :
    (js.foldl (fun s j => s.unpinJob j) s).pending = s.pending ∧ (js.foldl (fun s j => s.unpinJob j) s).fe = s.fe ∧
    (js.foldl (fun s j => s.unpinJob j) s).dec = s.dec ∧ (js.foldl (fun s j => s.unpinJob j) s).rep = s.rep ∧
    (js.foldl (fun s j => s.unpinJob j) s).link = s.link ∧ (js.foldl (fun s j => s.unpinJob j) s).entries = s.entries ∧
    (js.foldl (fun s j => s.unpinJob j) s).mem = s.mem ∧ (js.foldl (fun s j => s.unpinJob j) s).rq = s.rq ∧
    (js.foldl (fun s j => s.unpinJob j) s).tx = s.tx ∧ (js.foldl (fun s j => s.unpinJob j) s).pow = s.pow ∧
    (js.foldl (fun s j => s.unpinJob j) s).win = s.win ∧ (js.foldl (fun s j => s.unpinJob j) s).irq = s.irq ∧
    (js.foldl (fun s j => s.unpinJob j) s).clock = s.clock := by
  induction js generalizing s with
  | nil => simp
  | cons j js ih => simp [ih]

@[simp] theorem State.removeWaiting_frame (s : State) :
    s.removeWaiting.pending = s.pending ∧ s.removeWaiting.fe = s.fe ∧ s.removeWaiting.dec = s.dec ∧
    s.removeWaiting.rep = s.rep ∧ s.removeWaiting.link = s.link ∧ s.removeWaiting.entries = s.entries ∧
    s.removeWaiting.mem = s.mem ∧ s.removeWaiting.rq = s.rq ∧ s.removeWaiting.pow = s.pow ∧
    s.removeWaiting.irq = s.irq ∧ s.removeWaiting.clock = s.clock := by
  simp [State.removeWaiting]

@[simp] theorem State.abortTx_frame (s : State) :
    s.abortTx.1.pending = s.pending ∧ s.abortTx.1.dec = s.dec ∧ s.abortTx.1.mem = s.mem ∧ s.abortTx.1.pow = s.pow ∧
    s.abortTx.1.clock = s.clock := by
  unfold State.abortTx
  split <;> (try split) <;> simp

@[simp] theorem State.popCompletion_frame (s : State) :
    s.popCompletion.1.pending = s.pending ∧ s.popCompletion.1.fe = s.fe ∧ s.popCompletion.1.dec = s.dec ∧
    s.popCompletion.1.rep = s.rep ∧ s.popCompletion.1.link = s.link ∧ s.popCompletion.1.entries = s.entries ∧
    s.popCompletion.1.mem = s.mem ∧ s.popCompletion.1.rq = s.rq ∧ s.popCompletion.1.cap = s.cap ∧
    s.popCompletion.1.pow = s.pow ∧ s.popCompletion.1.win = s.win ∧ s.popCompletion.1.irq = s.irq ∧
    s.popCompletion.1.clock = s.clock := by
  unfold State.popCompletion
  split <;> simp

/-! ### Power unit, time base and host window -/

@[simp] theorem State.tick_frame (s : State) :
    s.tick.pending = s.pending ∧ s.tick.fe = s.fe ∧ s.tick.dec = s.dec ∧ s.tick.link = s.link ∧
    s.tick.entries = s.entries ∧ s.tick.mem = s.mem ∧ s.tick.rq = s.rq ∧ s.tick.cap = s.cap ∧ s.tick.tx = s.tx ∧
    s.tick.pow = s.pow ∧ s.tick.win = s.win ∧ s.tick.irq = s.irq := by
  simp [State.tick]

@[simp] theorem State.enterListen_frame (s : State) :
    s.enterListen.1.pending = s.pending ∧ s.enterListen.1.fe = s.fe ∧ s.enterListen.1.dec = s.dec ∧
    s.enterListen.1.rep = s.rep ∧ s.enterListen.1.link = s.link ∧ s.enterListen.1.entries = s.entries ∧
    s.enterListen.1.mem = s.mem ∧ s.enterListen.1.rq = s.rq ∧ s.enterListen.1.cap = s.cap ∧
    s.enterListen.1.tx = s.tx ∧ s.enterListen.1.win = s.win ∧ s.enterListen.1.irq = s.irq ∧
    s.enterListen.1.clock = s.clock := by
  unfold State.enterListen
  split <;> (try split) <;> simp

@[simp] theorem State.quietRepeatUnit_frame (s : State) (l : Line) :
    (s.quietRepeatUnit l).pending = s.pending ∧ (s.quietRepeatUnit l).fe = s.fe ∧ (s.quietRepeatUnit l).dec = s.dec ∧
    (s.quietRepeatUnit l).entries = s.entries ∧ (s.quietRepeatUnit l).mem = s.mem ∧
    (s.quietRepeatUnit l).cap = s.cap ∧ (s.quietRepeatUnit l).tx = s.tx ∧ (s.quietRepeatUnit l).pow = s.pow ∧
    (s.quietRepeatUnit l).win = s.win ∧ (s.quietRepeatUnit l).irq = s.irq ∧
    (s.quietRepeatUnit l).clock = s.clock := by
  simp [State.quietRepeatUnit]

@[simp] theorem State.takeAllRequests_frame (s : State) (first : Line) :
    let t := s.eachLine first State.takeRequests
    t.pending = s.pending ∧ t.fe = s.fe ∧ t.dec = s.dec ∧ t.rep = s.rep ∧ t.entries = s.entries ∧ t.mem = s.mem ∧
    t.cap = s.cap ∧ t.tx = s.tx ∧ t.pow = s.pow ∧ t.win = s.win ∧ t.clock = s.clock := by
  simp [State.eachLine]

@[simp] theorem State.settleInFlight_frame (s : State) (first : Line) :
    (s.settleInFlight first).pending = s.pending ∧ (s.settleInFlight first).fe = s.fe ∧
    (s.settleInFlight first).mem = s.mem ∧ (s.settleInFlight first).cap = s.cap ∧
    (s.settleInFlight first).tx = s.tx ∧ (s.settleInFlight first).pow = s.pow ∧
    (s.settleInFlight first).win = s.win ∧ (s.settleInFlight first).clock = s.clock := by
  simp [State.settleInFlight, State.eachLine]

@[simp] theorem State.parkLines_frame (s : State) (v : Byte) :
    (s.parkLines v).pending = s.pending ∧ (s.parkLines v).dec = s.dec ∧ (s.parkLines v).rep = s.rep ∧
    (s.parkLines v).entries = s.entries ∧ (s.parkLines v).mem = s.mem ∧ (s.parkLines v).rq = s.rq ∧
    (s.parkLines v).cap = s.cap ∧ (s.parkLines v).tx = s.tx ∧ (s.parkLines v).pow = s.pow ∧
    (s.parkLines v).win = s.win ∧ (s.parkLines v).irq = s.irq ∧ (s.parkLines v).clock = s.clock := by
  simp [State.parkLines]

@[simp] theorem State.quietReceivers_frame (s : State) (v : Byte) (o : EntryOrder) :
    (s.quietReceivers v o).pending = s.pending ∧ (s.quietReceivers v o).mem = s.mem ∧
    (s.quietReceivers v o).cap = s.cap ∧ (s.quietReceivers v o).tx = s.tx ∧ (s.quietReceivers v o).pow = s.pow ∧
    (s.quietReceivers v o).win = s.win ∧ (s.quietReceivers v o).clock = s.clock := by
  simp only [State.quietReceivers, State.eachLine]
  split <;> split <;> simp

@[simp] theorem State.goDormantIn_frame (s : State) (v : Byte) (o : EntryOrder) :
    (s.goDormantIn v o).pending = s.pending ∧ (s.goDormantIn v o).mem = s.mem ∧ (s.goDormantIn v o).tx = s.tx ∧
    (s.goDormantIn v o).win = s.win := by
  simp [State.goDormantIn, State.eachLine]

@[simp] theorem State.goDormant_frame (s : State) (v : Byte) :
    (s.goDormant v).pending = s.pending ∧ (s.goDormant v).mem = s.mem ∧ (s.goDormant v).tx = s.tx ∧
    (s.goDormant v).win = s.win := by
  simp [State.goDormant]

@[simp] theorem State.enterDormant_frame (s : State) :
    s.enterDormant.1.pending = s.pending ∧ s.enterDormant.1.mem = s.mem ∧ s.enterDormant.1.tx = s.tx ∧
    s.enterDormant.1.win = s.win := by
  unfold State.enterDormant
  split <;> (try split) <;> simp

@[simp] theorem State.leaveDormant_frame (s : State) (p : PowerState) :
    (s.leaveDormant p).pending = s.pending ∧ (s.leaveDormant p).dec = s.dec ∧ (s.leaveDormant p).rep = s.rep ∧
    (s.leaveDormant p).link = s.link ∧ (s.leaveDormant p).entries = s.entries ∧ (s.leaveDormant p).mem = s.mem ∧
    (s.leaveDormant p).rq = s.rq ∧ (s.leaveDormant p).cap = s.cap ∧ (s.leaveDormant p).tx = s.tx ∧
    (s.leaveDormant p).win = s.win ∧ (s.leaveDormant p).irq = s.irq := by
  simp [State.leaveDormant]

@[simp] theorem State.noteWake_frame (s : State) (w : WakeSource) :
    (s.noteWake w).pending = s.pending ∧ (s.noteWake w).fe = s.fe ∧ (s.noteWake w).dec = s.dec ∧
    (s.noteWake w).rep = s.rep ∧ (s.noteWake w).link = s.link ∧ (s.noteWake w).entries = s.entries ∧
    (s.noteWake w).mem = s.mem ∧ (s.noteWake w).rq = s.rq ∧ (s.noteWake w).cap = s.cap ∧ (s.noteWake w).tx = s.tx ∧
    (s.noteWake w).win = s.win ∧ (s.noteWake w).irq = s.irq ∧ (s.noteWake w).clock = s.clock := by
  unfold State.noteWake
  split <;> simp

@[simp] theorem State.wakeUp_frame (s : State) :
    s.wakeUp.pending = s.pending ∧ s.wakeUp.dec = s.dec ∧ s.wakeUp.rep = s.rep ∧ s.wakeUp.link = s.link ∧
    s.wakeUp.entries = s.entries ∧ s.wakeUp.mem = s.mem ∧ s.wakeUp.rq = s.rq ∧ s.wakeUp.cap = s.cap ∧
    s.wakeUp.tx = s.tx ∧ s.wakeUp.win = s.win ∧ s.wakeUp.irq = s.irq := by
  unfold State.wakeUp
  split <;> simp

@[simp] theorem State.commandWakeUp_frame (s : State) :
    s.commandWakeUp.pending = s.pending ∧ s.commandWakeUp.dec = s.dec ∧ s.commandWakeUp.rep = s.rep ∧
    s.commandWakeUp.link = s.link ∧ s.commandWakeUp.entries = s.entries ∧ s.commandWakeUp.mem = s.mem ∧
    s.commandWakeUp.rq = s.rq ∧ s.commandWakeUp.cap = s.cap ∧ s.commandWakeUp.tx = s.tx ∧
    s.commandWakeUp.irq = s.irq := by
  unfold State.commandWakeUp State.windowWrite
  split <;> simp

@[simp] theorem State.clearWake_frame (s : State) :
    s.clearWake.1.pending = s.pending ∧ s.clearWake.1.fe = s.fe ∧ s.clearWake.1.dec = s.dec ∧
    s.clearWake.1.rep = s.rep ∧ s.clearWake.1.link = s.link ∧ s.clearWake.1.entries = s.entries ∧
    s.clearWake.1.mem = s.mem ∧ s.clearWake.1.rq = s.rq ∧ s.clearWake.1.cap = s.cap ∧ s.clearWake.1.tx = s.tx ∧
    s.clearWake.1.win = s.win ∧ s.clearWake.1.irq = s.irq ∧ s.clearWake.1.clock = s.clock := by
  simp [State.clearWake]

@[simp] theorem State.wakeByEdge_frame (s : State) (l : Line) :
    (s.wakeByEdge l).pending = s.pending ∧ (s.wakeByEdge l).dec = s.dec ∧ (s.wakeByEdge l).rep = s.rep ∧
    (s.wakeByEdge l).link = s.link ∧ (s.wakeByEdge l).entries = s.entries ∧ (s.wakeByEdge l).mem = s.mem ∧
    (s.wakeByEdge l).rq = s.rq ∧ (s.wakeByEdge l).cap = s.cap ∧ (s.wakeByEdge l).tx = s.tx ∧
    (s.wakeByEdge l).win = s.win := by
  simp [State.wakeByEdge]

@[simp] theorem State.wakeByMatch_frame (s : State) (n : Fin 4) :
    (s.wakeByMatch n).pending = s.pending ∧ (s.wakeByMatch n).fe = s.fe ∧ (s.wakeByMatch n).dec = s.dec ∧
    (s.wakeByMatch n).rep = s.rep ∧ (s.wakeByMatch n).link = s.link ∧ (s.wakeByMatch n).entries = s.entries ∧
    (s.wakeByMatch n).mem = s.mem ∧ (s.wakeByMatch n).rq = s.rq ∧ (s.wakeByMatch n).cap = s.cap ∧
    (s.wakeByMatch n).tx = s.tx ∧ (s.wakeByMatch n).win = s.win ∧ (s.wakeByMatch n).clock = s.clock := by
  simp [State.wakeByMatch]

@[simp] theorem State.takeOffer_frame (s : State) (l : Line) (o : Offer) :
    (s.takeOffer l o).pending = s.pending ∧ (s.takeOffer l o).fe = s.fe ∧ (s.takeOffer l o).dec = s.dec ∧
    (s.takeOffer l o).rep = s.rep ∧ (s.takeOffer l o).link = s.link ∧ (s.takeOffer l o).entries = s.entries ∧
    (s.takeOffer l o).mem = s.mem ∧ (s.takeOffer l o).rq = s.rq ∧ (s.takeOffer l o).cap = s.cap ∧
    (s.takeOffer l o).tx = s.tx ∧ (s.takeOffer l o).win = s.win ∧ (s.takeOffer l o).clock = s.clock := by
  unfold State.takeOffer
  split <;> (try split) <;> simp

@[simp] theorem State.advancePointer_frame (s : State) :
    s.advancePointer.pending = s.pending ∧ s.advancePointer.fe = s.fe ∧ s.advancePointer.dec = s.dec ∧
    s.advancePointer.rep = s.rep ∧ s.advancePointer.link = s.link ∧ s.advancePointer.entries = s.entries ∧
    s.advancePointer.mem = s.mem ∧ s.advancePointer.rq = s.rq ∧ s.advancePointer.cap = s.cap ∧
    s.advancePointer.tx = s.tx ∧ s.advancePointer.pow = s.pow ∧ s.advancePointer.irq = s.irq ∧
    s.advancePointer.clock = s.clock := by
  simp [State.advancePointer]

@[simp] theorem State.offerTableByte_frame (s : State) (a : Nat) (v : Byte) :
    (s.offerTableByte a v).pending = s.pending ∧ (s.offerTableByte a v).fe = s.fe ∧
    (s.offerTableByte a v).dec = s.dec ∧ (s.offerTableByte a v).rep = s.rep ∧ (s.offerTableByte a v).link = s.link ∧
    (s.offerTableByte a v).entries = s.entries ∧ (s.offerTableByte a v).rq = s.rq ∧
    (s.offerTableByte a v).cap = s.cap ∧ (s.offerTableByte a v).tx = s.tx ∧ (s.offerTableByte a v).pow = s.pow ∧
    (s.offerTableByte a v).win = s.win ∧ (s.offerTableByte a v).clock = s.clock := by
  unfold State.offerTableByte
  split <;> (try split) <;> simp

@[simp] theorem State.writeTableData_frame (s : State) (v : Byte) :
    (s.writeTableData v).pending = s.pending ∧ (s.writeTableData v).fe = s.fe ∧ (s.writeTableData v).dec = s.dec ∧
    (s.writeTableData v).rep = s.rep ∧ (s.writeTableData v).link = s.link ∧
    (s.writeTableData v).entries = s.entries ∧ (s.writeTableData v).rq = s.rq ∧ (s.writeTableData v).cap = s.cap ∧
    (s.writeTableData v).tx = s.tx ∧ (s.writeTableData v).pow = s.pow ∧ (s.writeTableData v).clock = s.clock := by
  unfold State.writeTableData State.windowWrite
  split <;> simp

@[simp] theorem State.writeIrqCause_frame (v : Byte) (s : State) :
    (State.writeIrqCause v s).pending = s.pending ∧ (State.writeIrqCause v s).fe = s.fe ∧
    (State.writeIrqCause v s).dec = s.dec ∧ (State.writeIrqCause v s).rep = s.rep ∧
    (State.writeIrqCause v s).link = s.link ∧ (State.writeIrqCause v s).entries = s.entries ∧
    (State.writeIrqCause v s).mem = s.mem ∧ (State.writeIrqCause v s).rq = s.rq ∧
    (State.writeIrqCause v s).cap = s.cap ∧ (State.writeIrqCause v s).tx = s.tx ∧
    (State.writeIrqCause v s).pow = s.pow ∧ (State.writeIrqCause v s).win = s.win ∧
    (State.writeIrqCause v s).clock = s.clock := by
  simp [State.writeIrqCause]

@[simp] theorem State.writeIrqEnable_frame (v : Byte) (s : State) :
    (State.writeIrqEnable v s).pending = s.pending ∧ (State.writeIrqEnable v s).fe = s.fe ∧
    (State.writeIrqEnable v s).dec = s.dec ∧ (State.writeIrqEnable v s).rep = s.rep ∧
    (State.writeIrqEnable v s).link = s.link ∧ (State.writeIrqEnable v s).entries = s.entries ∧
    (State.writeIrqEnable v s).mem = s.mem ∧ (State.writeIrqEnable v s).rq = s.rq ∧
    (State.writeIrqEnable v s).cap = s.cap ∧ (State.writeIrqEnable v s).tx = s.tx ∧
    (State.writeIrqEnable v s).pow = s.pow ∧ (State.writeIrqEnable v s).win = s.win ∧
    (State.writeIrqEnable v s).clock = s.clock := by
  simp [State.writeIrqEnable]

@[simp] theorem State.writeWatermark_frame (v : Byte) (s : State) :
    (State.writeWatermark v s).pending = s.pending ∧ (State.writeWatermark v s).fe = s.fe ∧
    (State.writeWatermark v s).dec = s.dec ∧ (State.writeWatermark v s).rep = s.rep ∧
    (State.writeWatermark v s).link = s.link ∧ (State.writeWatermark v s).entries = s.entries ∧
    (State.writeWatermark v s).mem = s.mem ∧ (State.writeWatermark v s).cap = s.cap ∧
    (State.writeWatermark v s).tx = s.tx ∧ (State.writeWatermark v s).pow = s.pow ∧
    (State.writeWatermark v s).win = s.win ∧ (State.writeWatermark v s).irq = s.irq ∧
    (State.writeWatermark v s).clock = s.clock := by
  simp [State.writeWatermark]

@[simp] theorem State.writePointerLo_frame (v : Byte) (s : State) :
    (State.writePointerLo v s).pending = s.pending ∧ (State.writePointerLo v s).fe = s.fe ∧
    (State.writePointerLo v s).dec = s.dec ∧ (State.writePointerLo v s).rep = s.rep ∧
    (State.writePointerLo v s).link = s.link ∧ (State.writePointerLo v s).entries = s.entries ∧
    (State.writePointerLo v s).mem = s.mem ∧ (State.writePointerLo v s).rq = s.rq ∧
    (State.writePointerLo v s).cap = s.cap ∧ (State.writePointerLo v s).tx = s.tx ∧
    (State.writePointerLo v s).pow = s.pow ∧ (State.writePointerLo v s).irq = s.irq ∧
    (State.writePointerLo v s).clock = s.clock := by
  simp [State.writePointerLo]

@[simp] theorem State.writePointerHi_frame (v : Byte) (s : State) :
    (State.writePointerHi v s).pending = s.pending ∧ (State.writePointerHi v s).fe = s.fe ∧
    (State.writePointerHi v s).dec = s.dec ∧ (State.writePointerHi v s).rep = s.rep ∧
    (State.writePointerHi v s).link = s.link ∧ (State.writePointerHi v s).entries = s.entries ∧
    (State.writePointerHi v s).mem = s.mem ∧ (State.writePointerHi v s).rq = s.rq ∧
    (State.writePointerHi v s).cap = s.cap ∧ (State.writePointerHi v s).tx = s.tx ∧
    (State.writePointerHi v s).pow = s.pow ∧ (State.writePointerHi v s).irq = s.irq ∧
    (State.writePointerHi v s).clock = s.clock := by
  simp [State.writePointerHi]

@[simp] theorem State.writeGuard_frame (v : Byte) (s : State) :
    (State.writeGuard v s).pending = s.pending ∧ (State.writeGuard v s).fe = s.fe ∧
    (State.writeGuard v s).dec = s.dec ∧ (State.writeGuard v s).rep = s.rep ∧ (State.writeGuard v s).link = s.link ∧
    (State.writeGuard v s).entries = s.entries ∧ (State.writeGuard v s).mem = s.mem ∧
    (State.writeGuard v s).rq = s.rq ∧ (State.writeGuard v s).cap = s.cap ∧ (State.writeGuard v s).pow = s.pow ∧
    (State.writeGuard v s).win = s.win ∧ (State.writeGuard v s).irq = s.irq ∧
    (State.writeGuard v s).clock = s.clock := by
  simp [State.writeGuard]

end Sys2Proof.Machine
end

