-- ==== Sys2Proof/Laws/Memory.lean ====
section
/-! SUPPORT. The laws of the table space: a read after a write, the canonical form kept by every write, and the bytes an
appended capture entry changes. -/

namespace Sys2Proof.Machine

open Sys2Proof (Byte Time Payload Line)

@[simp] theorem Memory.read_nil (a : Nat) : Memory.read [] a = 0 := rfl

@[simp] theorem Memory.read_cons (k : Nat) (v : Byte) (m : List Host.Cell) (a : Nat) :
    Memory.read ((k, v) :: m) a = if k = a then v else Memory.read m a := rfl

/-- An address below every listed address reads 0. -/
theorem Memory.read_eq_zero_of_lt {m : List Host.Cell} {a : Nat} (h : ∀ c ∈ m, a < c.1) : Memory.read m a = 0 := by
  induction m with
  | nil => rfl
  | cons c m ih =>
    obtain ⟨k, v⟩ := c
    have hk : a < k := h (k, v) (by simp)
    rw [Memory.read_cons, if_neg (by omega)]
    exact ih fun c hc => h c (by simp [hc])

/-- A write leaves every other address as it was. -/
theorem Memory.read_write_ne (m : List Host.Cell) {a b : Nat} (v : Byte) (h : b ≠ a) :
    Memory.read (Memory.write m a v) b = Memory.read m b := by
  have h' : ¬ a = b := fun e => h e.symm
  induction m with
  | nil => unfold Memory.write; split <;> simp [h']
  | cons c m ih =>
    obtain ⟨k, w⟩ := c
    unfold Memory.write
    split
    · split <;> simp [h']
    · split
      · subst k
        split <;> simp [h']
      · simp [ih]

/-- A read after a write to the same address gives the written byte. -/
theorem Memory.read_write_same {m : List Host.Cell} (hm : Memory.wf m) (a : Nat) (v : Byte) :
    Memory.read (Memory.write m a v) a = v := by
  obtain ⟨hp, hc⟩ := hm
  induction m with
  | nil =>
    unfold Memory.write
    split <;> simp_all
  | cons c m ih =>
    obtain ⟨k, w⟩ := c
    rw [List.pairwise_cons] at hp
    have hcm : ∀ c ∈ m, c.2 ≠ 0 ∧ c.1 < Config.tableSize := fun c h => hc c (by simp [h])
    unfold Memory.write
    split
    · rename_i hlt
      split
      · rename_i hv
        rw [hv, Memory.read_cons, if_neg (by omega)]
        exact Memory.read_eq_zero_of_lt fun c h => lt_trans hlt (hp.1 c h)
      · simp
    · split
      · rename_i hak
        split
        · rename_i hv
          rw [hv]
          exact Memory.read_eq_zero_of_lt fun c h => by rw [hak]; exact hp.1 c h
        · simp
      · rename_i hne
        rw [Memory.read_cons, if_neg (fun e => hne e.symm)]
        exact ih hp.2 hcm

/-- What a read gives after a write. -/
theorem Memory.read_write {m : List Host.Cell} (hm : Memory.wf m) (a b : Nat) (v : Byte) :
    Memory.read (Memory.write m a v) b = if b = a then v else Memory.read m b := by
  split
  · rename_i h; rw [h]; exact Memory.read_write_same hm a v
  · rename_i h; exact Memory.read_write_ne m v h

/-- Every listed address after a write is the written one or was listed before, with the same byte. -/
theorem Memory.mem_write {m : List Host.Cell} {a : Nat} {v : Byte} {c : Host.Cell} (h : c ∈ Memory.write m a v) :
    (c = (a, v) ∧ v ≠ 0) ∨ c ∈ m := by
  induction m with
  | nil =>
    unfold Memory.write at h
    split at h <;> simp_all
  | cons d m ih =>
    obtain ⟨k, w⟩ := d
    unfold Memory.write at h
    split at h
    · split at h <;> simp_all
    · split at h
      · split at h
        · right; simp [h]
        · rcases List.mem_cons.mp h with h | h
          · left; exact ⟨h, by assumption⟩
          · right; simp [h]
      · rcases List.mem_cons.mp h with h | h
        · right; simp [h]
        · rcases ih h with h | h
          · left; exact h
          · right; simp [h]

/-- A write keeps the canonical form. -/
theorem Memory.write_wf {m : List Host.Cell} (hm : Memory.wf m) {a : Nat} (ha : a < Config.tableSize) (v : Byte) :
    Memory.wf (Memory.write m a v) := by
  obtain ⟨hp, hc⟩ := hm
  refine ⟨?_, fun c h => ?_⟩
  · clear hc
    induction m with
    | nil => unfold Memory.write; split <;> simp
    | cons d m ih =>
      obtain ⟨k, w⟩ := d
      have hp' := hp
      rw [List.pairwise_cons] at hp
      unfold Memory.write
      split
      · rename_i hlt
        split
        · exact hp'
        · rw [List.pairwise_cons]
          refine ⟨fun c h => ?_, hp'⟩
          rcases List.mem_cons.mp h with h | h
          · subst h; exact hlt
          · exact lt_trans hlt (hp.1 c h)
      · split
        · rename_i hak
          split
          · exact hp.2
          · rw [List.pairwise_cons]
            exact ⟨fun c h => by show a < c.1; rw [hak]; exact hp.1 c h, hp.2⟩
        · rename_i hnlt hne
          rw [List.pairwise_cons]
          refine ⟨fun c h => ?_, ih hp.2⟩
          rcases Memory.mem_write h with ⟨h, -⟩ | h
          · subst h
            show k < a
            omega
          · exact hp.1 c h
  · rcases Memory.mem_write h with ⟨h, hv⟩ | h
    · subst h; exact ⟨hv, ha⟩
    · exact hc c h

/-- The empty table space has the canonical form. -/
theorem Memory.nil_wf : Memory.wf [] := by simp [Memory.wf]

/-- The two addresses of capture entry `k` lie in the capture buffer. -/
theorem captureAddress_lt {k : Nat} (h : k < Config.captureCapacity) : captureAddress k + 1 < Config.tableSize := by
  simp only [captureAddress, Config.captureBase, Config.tableSize, Config.captureCapacity] at *
  omega

/-- Writing capture entry `k` leaves every byte but its two as it was. -/
theorem writeCaptureEntry_read_ne (m : List Host.Cell) (k : Nat) (lvl : Level) (d : Nat) {a : Nat}
    (h₀ : a ≠ captureAddress k) (h₁ : a ≠ captureAddress k + 1) :
    Memory.read (writeCaptureEntry m k lvl d) a = Memory.read m a := by
  unfold writeCaptureEntry
  rw [Memory.read_write_ne _ _ h₁, Memory.read_write_ne _ _ h₀]

/-- Writing capture entry `k` keeps the canonical form. -/
theorem writeCaptureEntry_wf {m : List Host.Cell} (hm : Memory.wf m) {k : Nat} (hk : k < Config.captureCapacity)
    (lvl : Level) (d : Nat) : Memory.wf (writeCaptureEntry m k lvl d) :=
  Memory.write_wf (Memory.write_wf hm (by have := captureAddress_lt hk; omega) _) (captureAddress_lt hk) _

end Sys2Proof.Machine
end

