-- ==== Sys2Proof/Laws/Queue.lean ====
section
/-! SUPPORT. The shared operations of the receive queue and the last-frame memories: what each can do, said once. -/

namespace Sys2Proof.Machine

open Sys2Proof (Byte Time Payload Line)
open Sys2Proof.Safety (identity)

/-! ### References -/

theorem Record.refersFor_iff (r : Record) (l : Line) : r.refersFor l = true ↔ r.referred = true ∧ r.line = l := by
  simp [Record.refersFor]

/-- A record is referred to by the memory of one line at most. -/
theorem Record.refersFor_unique {r : Record} {l m : Line} (h : r.refersFor l = true) (h' : r.refersFor m = true) :
    l = m := by
  rw [Record.refersFor_iff] at h h'
  rw [← h.2, h'.2]

theorem ReceiveQueue.hasReference_iff (q : ReceiveQueue) (l : Line) :
    q.hasReference l = true ↔ ∃ r ∈ q.records, r.refersFor l = true := by
  simp [ReceiveQueue.hasReference]

theorem ReceiveQueue.hasReference_eq_false (q : ReceiveQueue) (l : Line) :
    q.hasReference l = false ↔ ∀ r ∈ q.records, r.refersFor l = false := by
  simp [ReceiveQueue.hasReference]

@[simp] theorem ReceiveQueue.dropReference_held (q : ReceiveQueue) (l : Line) : (q.dropReference l).held = q.held := rfl

@[simp] theorem ReceiveQueue.dropReference_watermark (q : ReceiveQueue) (l : Line) :
    (q.dropReference l).watermark = q.watermark := rfl

@[simp] theorem ReceiveQueue.dropReference_length (q : ReceiveQueue) (l : Line) :
    (q.dropReference l).records.length = q.records.length := by simp [ReceiveQueue.dropReference]

/-- Dropping a reference changes the reference alone. -/
@[simp] theorem ReceiveQueue.dropReference_identity (q : ReceiveQueue) (l : Line) :
    (q.dropReference l).records.map identity = q.records.map identity := by
  simp only [ReceiveQueue.dropReference, List.map_map]
  refine List.map_congr_left fun r _ => ?_
  simp only [Function.comp]
  split <;> rfl

/-- After a reference is dropped, the memory of its line refers to no record. -/
@[simp] theorem ReceiveQueue.hasReference_dropReference (q : ReceiveQueue) (l : Line) :
    (q.dropReference l).hasReference l = false := by
  rw [ReceiveQueue.hasReference_eq_false]
  intro r hr
  simp only [ReceiveQueue.dropReference, List.mem_map] at hr
  obtain ⟨r', -, rfl⟩ := hr
  split
  · simp [Record.refersFor]
  · rename_i h; simpa using h

@[simp] theorem ReceiveQueue.countRepeats_held (q : ReceiveQueue) (l : Line) (k : Nat) :
    (q.countRepeats l k).held = q.held := rfl

@[simp] theorem ReceiveQueue.countRepeats_watermark (q : ReceiveQueue) (l : Line) (k : Nat) :
    (q.countRepeats l k).watermark = q.watermark := rfl

@[simp] theorem ReceiveQueue.countRepeats_length (q : ReceiveQueue) (l : Line) (k : Nat) :
    (q.countRepeats l k).records.length = q.records.length := by simp [ReceiveQueue.countRepeats]

/-- Counting repeats changes REPEATS alone. -/
@[simp] theorem ReceiveQueue.countRepeats_identity (q : ReceiveQueue) (l : Line) (k : Nat) :
    (q.countRepeats l k).records.map identity = q.records.map identity := by
  simp only [ReceiveQueue.countRepeats, List.map_map]
  refine List.map_congr_left fun r _ => ?_
  simp only [Function.comp]
  split <;> rfl

/-- Marking a loss on the newest record changes LOSS and LOST of that record alone. -/
theorem markNewest_append (older : List Record) (newest : Record) :
    markNewest (older ++ [newest]) = older ++ [newest.markLoss] := by
  induction older with
  | nil => rfl
  | cons r older ih => cases older <;> simp_all [markNewest]

@[simp] theorem markNewest_length (rs : List Record) : (markNewest rs).length = rs.length := by
  rcases List.eq_nil_or_concat rs with rfl | ⟨older, newest, rfl⟩
  · rfl
  · simp [markNewest_append]

@[simp] theorem markNewest_identity (rs : List Record) : (markNewest rs).map identity = rs.map identity := by
  rcases List.eq_nil_or_concat rs with rfl | ⟨older, newest, rfl⟩
  · rfl
  · simp [markNewest_append, identity, Record.markLoss]

/-! ### Memories -/

/-- Settling the increments on their way changes no record but in REPEATS. -/
@[simp] theorem State.settleIncrements_identity (s : State) (l : Line) :
    (s.settleIncrements l).rq.records.map identity = s.rq.records.map identity := by
  unfold State.settleIncrements
  split <;> simp

@[simp] theorem State.dropReference_identity (s : State) (l : Line) :
    (s.dropReference l).rq.records.map identity = s.rq.records.map identity := by
  simp [State.dropReference, State.forgetReference]

@[simp] theorem State.dropReference_held (s : State) (l : Line) : (s.dropReference l).rq.held = s.rq.held := by
  simp only [State.dropReference, State.forgetReference, State.settleIncrements]
  split <;> simp

@[simp] theorem State.dropReference_watermark (s : State) (l : Line) :
    (s.dropReference l).rq.watermark = s.rq.watermark := by
  simp only [State.dropReference, State.forgetReference, State.settleIncrements]
  split <;> simp

/-- After the reference of a line is dropped, no record is its reference. -/
@[simp] theorem State.dropReference_hasReference (s : State) (l : Line) :
    (s.dropReference l).rq.hasReference l = false := by
  simp [State.dropReference, State.forgetReference]

/-- Dropping the reference of a line leaves what is on its way on the other line. -/
theorem State.dropReference_link_ne (s : State) {l m : Line} (h : m ≠ l) :
    (s.dropReference l).link.get m = s.link.get m := by
  simp only [State.dropReference, State.forgetReference, State.settleIncrements]
  split <;> simp [PerLine.get_set_ne _ _ h]

/-- What is on its way on the line itself: every request but the increments settled, with no request to become the
reference; without a reference no request is settled. -/
theorem State.dropReference_link (s : State) (l : Line) :
    (s.dropReference l).link.get l = { s.link.get l with
      posts := ((if s.rq.hasReference l then (s.link.get l).posts.filter (fun p => !p.counts) else (s.link.get l).posts).map
        fun p => { p with counts := false, refers := false }) } := by
  simp only [State.dropReference, State.forgetReference, State.settleIncrements]
  split <;> simp

/-- The records that the requests of a line carry after its reference is dropped: those that are not settled. -/
theorem State.dropReference_posts (s : State) (l : Line) :
    ((s.dropReference l).link.get l).posts.map (·.record) =
      (if s.rq.hasReference l then (s.link.get l).posts.filter (fun p => !p.counts) else (s.link.get l).posts).map
        (·.record) := by
  rw [State.dropReference_link]
  simp [Function.comp_def]

/-- Emptying a memory empties it, clears DUE and keeps OPEN. -/
@[simp] theorem State.clearMemory_rep (s : State) (l : Line) :
    (s.clearMemory l).rep = s.rep.set l { s.rep.get l with memory := none, due := false, dueReached := false } := by
  simp [State.clearMemory]

@[simp] theorem State.clearMemory_link (s : State) (l : Line) : (s.clearMemory l).link = (s.dropReference l).link := by
  simp [State.clearMemory]

@[simp] theorem State.clearMemory_rq (s : State) (l : Line) : (s.clearMemory l).rq = (s.dropReference l).rq := by
  simp [State.clearMemory]

/-- What a clearing by entry does to a memory: emptied where it names the entry, and left as it is elsewhere. -/
theorem State.clearMemoryNaming_rep (s : State) (n : Fin 8) (l : Line) :
    (s.clearMemoryNaming n l).rep =
      if (s.rep.get l).memory.any (fun m => decide (m.entry = n)) then
        s.rep.set l { s.rep.get l with memory := none, due := false, dueReached := false }
      else s.rep := by
  unfold State.clearMemoryNaming
  cases h : (s.rep.get l).memory with
  | none => simp
  | some m => by_cases hm : m.entry = n <;> simp [hm]

@[simp] theorem State.clearMemoryNaming_identity (s : State) (n : Fin 8) (l : Line) :
    (s.clearMemoryNaming n l).rq.records.map identity = s.rq.records.map identity := by
  unfold State.clearMemoryNaming
  split
  · rfl
  · split <;> simp

/-- Both memories after a clearing by entry. -/
theorem State.clearMemoriesNaming_rep_get (s : State) (n : Fin 8) (l : Line) :
    (s.clearMemoriesNaming n).rep.get l =
      if (s.rep.get l).memory.any (fun m => decide (m.entry = n)) then
        { s.rep.get l with memory := none, due := false, dueReached := false }
      else s.rep.get l := by
  simp only [State.clearMemoriesNaming, State.clearMemoryNaming_rep]
  cases l <;> split <;> split <;> simp_all

@[simp] theorem State.clearMemoriesNaming_identity (s : State) (n : Fin 8) :
    (s.clearMemoriesNaming n).rq.records.map identity = s.rq.records.map identity := by
  simp [State.clearMemoriesNaming]

@[simp] theorem State.expireMemory_identity (s : State) (l : Line) :
    (s.expireMemory l).rq.records.map identity = s.rq.records.map identity := by
  unfold State.expireMemory
  split <;> simp

/-- The memory of a line is empty after it expires. -/
@[simp] theorem State.expireMemory_memory (s : State) (l : Line) : ((s.expireMemory l).rep.get l).memory = none := by
  unfold State.expireMemory
  split
  · assumption
  · simp

/-- The other line's memory is left as it is. -/
theorem State.expireMemory_rep_ne (s : State) {l m : Line} (h : m ≠ l) : (s.expireMemory l).rep.get m = s.rep.get m := by
  unfold State.expireMemory
  split
  · rfl
  · simp [PerLine.get_set_ne _ _ h]

/-! ### Requests -/

/-- Taking an increment changes REPEATS alone. -/
@[simp] theorem State.takeIncrement_identity (s : State) (l : Line) :
    (s.takeIncrement l).rq.records.map identity = s.rq.records.map identity := by
  simp [State.takeIncrement]

/-- A post taken with room is appended with its reference set; without room the newest record is marked and LOSS is set. -/
theorem State.takePost_rq (s : State) (p : Post) :
    (s.takePost p).rq = { s.rq with records :=
      (if s.rq.records.length < Config.queueCapacity then s.rq.records ++ [{ p.record with referred := p.refers }]
      else markNewest s.rq.records) } := by
  unfold State.takePost
  split <;> simp [State.setLoss]

/-- The records stay where they are when a request is taken, and a new one comes after the newest. -/
theorem State.takeRequest_identity (s : State) (l : Line) (p : Post) :
    s.rq.records.map identity <+: (s.takeRequest l p).rq.records.map identity := by
  unfold State.takeRequest
  split
  · simp
  · rw [State.takePost_rq]
    dsimp only
    split <;> simp

/-- When every request of a line is taken, none is left on its way. -/
@[simp] theorem State.takeRequests_link (s : State) (l : Line) :
    (s.takeRequests l).link = s.link.set l { s.link.get l with posts := [] } := by
  simp [State.takeRequests]

/-- When the queue takes every request of both lines, none is left on its way, and nothing else that is on its way moves,
whichever line goes first. -/
@[simp] theorem State.takeAllRequests_link_get (s : State) (first l : Line) :
    (s.eachLine first State.takeRequests).link.get l = { s.link.get l with posts := [] } := by
  cases first <;> cases l <;> simp [State.eachLine, otherLine]

/-- The records stay where they are when the requests of a line are taken, and new ones come after the newest. -/
theorem State.takeRequests_identity (s : State) (l : Line) :
    s.rq.records.map identity <+: (s.takeRequests l).rq.records.map identity := by
  have aux : ∀ (ps : List Post) (u : State),
      u.rq.records.map identity <+: (ps.foldl (fun s p => s.takeRequest l p) u).rq.records.map identity := by
    intro ps
    induction ps with
    | nil => exact fun u => List.prefix_refl _
    | cons p ps ih => exact fun u => (u.takeRequest_identity l p).trans (ih _)
  simpa [State.takeRequests] using aux (s.link.get l).posts (s.setLink l { s.link.get l with posts := [] })

/-! ### The guarded forms of a host access -/

theorem State.windowWrite_held (s : State) (f : State → State) (h : s.pow.resetHeld = true) : s.windowWrite f = s :=
  if_pos h

theorem State.windowWrite_running (s : State) (f : State → State) (h : s.pow.resetHeld = false) :
    s.windowWrite f = f s := by simp [State.windowWrite, h]

theorem State.windowRead_held (s : State) (v : Byte) (f : State → State) (h : s.pow.resetHeld = true) :
    s.windowRead v f = s.driveBus 0 := if_pos h

theorem State.windowRead_running (s : State) (v : Byte) (f : State → State) (h : s.pow.resetHeld = false) :
    s.windowRead v f = (f s).driveBus v := by simp [State.windowRead, h]

theorem State.registerAccess_held (s : State) (f : State → State) (h : s.pow.resetHeld = true) :
    s.registerAccess f = s := State.windowWrite_held s _ h

theorem State.registerAccess_dormant (s : State) (f : State → State) (hr : s.pow.resetHeld = false)
    (h : s.pow.st = .dormant) : s.registerAccess f = s.refuseAccess := by
  simp [State.registerAccess, State.windowWrite, hr, h]

theorem State.registerAccess_awake (s : State) (f : State → State) (hr : s.pow.resetHeld = false)
    (h : s.pow.st ≠ .dormant) : s.registerAccess f = f s := by
  simp [State.registerAccess, State.windowWrite, hr, h]

theorem State.command_held (s : State) (f : State → State × CommandResult) (h : s.pow.resetHeld = true) :
    s.command f = s := State.windowWrite_held s _ h

theorem State.command_dormant (s : State) (f : State → State × CommandResult) (hr : s.pow.resetHeld = false)
    (h : s.pow.st = .dormant) : s.command f = s.setResult .state := by
  simp [State.command, State.windowWrite, hr, h]

theorem State.command_awake (s : State) (f : State → State × CommandResult) (hr : s.pow.resetHeld = false)
    (h : s.pow.st ≠ .dormant) : s.command f = (f s).1.setResult (f s).2 := by
  simp [State.command, State.windowWrite, hr, h]

end Sys2Proof.Machine
end

