-- ==== Sys2Proof/Laws/Operations.lean ====
section
/-! SUPPORT. What the shared operations do to the blocks they touch, said once: notices, holders, lines, job ends, windows,
payloads and element runs. The blocks each leaves alone stand in Laws/Frames.lean. -/

namespace Sys2Proof.Machine

open Sys2Proof (Byte Time Payload Line)
open Sys2Proof.Safety (identity)

/-! ### Sending -/

/-- A notice goes to the decoder and to the capture unit of its line, last in both. -/
@[simp] theorem State.sendNotice_link (s : State) (l : Line) (n : Notice) :
    (s.sendNotice l n).link = s.link.set l { s.link.get l with
      toDecoder := (s.link.get l).toDecoder ++ [n], toCapture := (s.link.get l).toCapture ++ [n] } := by
  simp [State.sendNotice]

@[simp] theorem State.sendPost_link (s : State) (l : Line) (p : Post) :
    (s.sendPost l p).link = s.link.set l { s.link.get l with posts := (s.link.get l).posts ++ [p] } := by
  simp [State.sendPost]

/-- A burst in progress is aborted with one notice; without one nothing is sent. -/
@[simp] theorem State.abortBurst_link (s : State) (l : Line) (why : AbortReason) :
    (s.abortBurst l why).link = s.link.set l { s.link.get l with
      toDecoder := (s.link.get l).toDecoder ++ (if (s.fe.get l).inBurst then [.burstAbort why] else [])
      toCapture := (s.link.get l).toCapture ++ (if (s.fe.get l).inBurst then [.burstAbort why] else []) } := by
  unfold State.abortBurst
  split
  · simp
  · simp only [*, List.append_nil]
    exact (PerLine.set_get s.link l).symm

/-! ### Holders -/

@[simp] theorem State.joinHolder_entries (s : State) (h : Holder) (n : Fin 8) :
    (s.joinHolder h n).entries = s.entries.set n (s.entries[n].setHolder h true) := by
  simp [State.joinHolder]

/-- The entries after a holder leaves entry `n`: the holder is gone, and a RETIRING entry left without holders is DISABLED. -/
@[simp] theorem State.leaveHolder_entries (s : State) (h : Holder) (n : Fin 8) :
    (s.leaveHolder h n).entries = s.entries.set n
      (if s.entries[n].st = .retiring ∧ (s.entries[n].setHolder h false).unheld then
        { s.entries[n].setHolder h false with st := .disabled }
      else s.entries[n].setHolder h false) := by
  unfold State.leaveHolder
  split <;> simp [State.clearMemoriesNaming, State.setRetired]

/-- A memory after a holder leaves entry `n`: emptied when the retirement of its entry completes, and as it was otherwise. -/
theorem State.leaveHolder_rep_get (s : State) (h : Holder) (n : Fin 8) (l : Line) :
    (s.leaveHolder h n).rep.get l =
      if (s.entries[n].st = .retiring ∧ (s.entries[n].setHolder h false).unheld) ∧
          (s.rep.get l).memory.any (fun m => decide (m.entry = n)) then
        { s.rep.get l with memory := none, due := false, dueReached := false }
      else s.rep.get l := by
  unfold State.leaveHolder
  split
  · rename_i hr
    rw [State.clearMemoriesNaming_rep_get]
    exact if_congr (and_iff_right hr).symm rfl rfl
  · rename_i hr
    exact (if_neg fun h => hr h.1).symm

@[simp] theorem State.leaveHolder_identity (s : State) (h : Holder) (n : Fin 8) :
    (s.leaveHolder h n).rq.records.map identity = s.rq.records.map identity := by
  unfold State.leaveHolder
  split <;> simp [State.setRetired]

@[simp] theorem State.leaveHolders_identity (s : State) (h : Holder) (ns : List (Fin 8)) :
    (s.leaveHolders h ns).rq.records.map identity = s.rq.records.map identity := by
  unfold State.leaveHolders
  induction ns generalizing s with
  | nil => rfl
  | cons n ns ih => simp [ih]

/-- An entry that no holder leaves keeps its state and holders. -/
theorem State.leaveHolders_entries_of_not_mem (s : State) (h : Holder) (ns : List (Fin 8)) (m : Fin 8) (hm : m ∉ ns) :
    (s.leaveHolders h ns).entries[m] = s.entries[m] := by
  unfold State.leaveHolders
  induction ns generalizing s with
  | nil => rfl
  | cons n ns ih =>
    simp only [List.mem_cons, not_or] at hm
    rw [List.foldl_cons, ih _ hm.2, State.leaveHolder_entries]
    have : (n : Nat) ≠ m := fun e => hm.1 (Fin.ext e.symm)
    simp [this]

/-! ### Lines -/

/-- A hold given up leaves a BLANKED line in SETTLE when no holder is left, and changes no line else. -/
theorem State.unblank_fe (s : State) (l : Line) :
    (s.unblank l).fe =
      if (s.fe.get l).st = .blanked ∧ ¬ (s.fe.get l).blankingHeld then
        s.fe.set l ((s.fe.get l).enterSettle s.clock.now)
      else s.fe := by
  unfold State.unblank
  split <;> simp

@[simp] theorem State.unblank_fe_ne (s : State) {l m : Line} (h : m ≠ l) : (s.unblank l).fe.get m = s.fe.get m := by
  rw [State.unblank_fe]
  split <;> simp [PerLine.get_set_ne _ _ h]

/-- A line that the transmitter does not hold is left as it is at a job's end. -/
theorem State.passToGuard_of_not_held (s : State) (t : Nat) (l : Line) (h : (s.fe.get l).txHold = false) :
    s.passToGuard t l = s := by
  simp [State.passToGuard, h]

/-- With GUARD above 0 the hold passes to the guard timer, and the line stays as it is. -/
theorem State.passToGuard_of_guard (s : State) (t : Nat) (l : Line) (h : (s.fe.get l).txHold = true)
    (hg : s.tx.guardSetting ≠ 0) :
    s.passToGuard t l = s.setFe l { s.fe.get l with
      txHold := false, guardHold := some (t + Config.hundredUs s.tx.guardSetting.toNat) } := by
  have hg' : ¬ s.tx.guardSetting = 0#8 := hg
  simp [State.passToGuard, h, hg', State.unblank, FrontEnd.blankingHeld]

theorem State.passToGuard_fe_ne (s : State) (t : Nat) {l m : Line} (h : m ≠ l) :
    (s.passToGuard t l).fe.get m = s.fe.get m := by
  unfold State.passToGuard
  split <;> simp [PerLine.get_set_ne _ _ h, h]

@[simp] theorem State.takeBlanking_fe (s : State) (l : Line) :
    (s.takeBlanking l).fe = s.fe.set l { s.fe.get l with
      st := (s.fe.get l).st.underHold
      txHold := true
      guardHold := none
      test := if (s.fe.get l).st.underHold = .blanked then none else (s.fe.get l).test } := by
  simp [State.takeBlanking]

@[simp] theorem State.parkLine_fe (s : State) (named : Bool) (l : Line) :
    (s.parkLine named l).fe = s.fe.set l (if (s.fe.get l).enabled then
      { s.fe.get l with guardHold := none, test := none, st := if named then .watch else .parked }
      else { s.fe.get l with guardHold := none }) := by
  simp [State.parkLine]

theorem State.unparkLine_fe (s : State) (l : Line) :
    (s.unparkLine l).fe =
      if (s.fe.get l).enabled then s.fe.set l ((s.fe.get l).enterSettle s.clock.now) else s.fe := by
  unfold State.unparkLine
  split <;> simp

/-! ### Job ends -/

/-- The transmitter at the end of a job: in TAIL, the job gone, its completion last in the FIFO. -/
@[simp] theorem State.endJob_tx (s : State) (j : Job) (st : CompletionStatus) (t : Nat) :
    (s.endJob j st t).tx = { s.tx with
      st := .tail
      jobs := s.tx.jobs.tail
      completions := s.tx.completions ++ [⟨j.tag, st, s.tx.bursts⟩]
      tailEnd := t + Config.hundredUs (s.jobFormat j).txGap } := by
  simp [State.endJob, State.complete, State.dropJob]

/-- The capture unit at the end of a job: a REPLAY job gives up its pin. -/
@[simp] theorem State.endJob_cap (s : State) (j : Job) (st : CompletionStatus) (t : Nat) :
    (s.endJob j st t).cap = { s.cap with pins := if j.kind = .replay then s.cap.pins - 1 else s.cap.pins } := by
  by_cases h : j.kind = .replay <;> simp [State.endJob, State.complete, State.dropJob, State.unpinJob, State.unpin, h]

/-! ### Windows and validation -/

/-- The nominal duration of a window of legal form matches the window. -/
theorem Window.nominal_matches (w : Window) (h : w.lo ≤ w.hi) : w.matches w.nominal = true := by
  refine decide_eq_true ?_
  simp only [Window.nominal]
  omega

/-- A duration that matches two windows shows that they overlap. -/
theorem Window.overlaps_of_matches {v w : Window} {d : Nat} (hv : v.matches d = true) (hw : w.matches d = true) :
    v.overlaps w = true := by
  simp only [Window.matches, Window.overlaps, decide_eq_true_eq] at *
  omega

/-- An entry passes validation when it passes each of the seven steps. -/
theorem Format.validate_eq_ok (f : Format) (idleA idleB : Byte) :
    f.validate idleA idleB = .ok ↔ f.codesLegal = true ∧ f.bitCountsLegal = true ∧ f.windowsLegal = true ∧
      f.bitsDistinct = true ∧ f.repeatFieldsLegal = true ∧ f.belowIdle idleA idleB = true ∧ f.carrierLegal = true ∧
      f.txGap ≠ 0 := by
  unfold Format.validate
  repeat' split
  all_goals simp_all

/-! ### Payloads -/

theorem natOfBits_lt (bits : List Bool) : natOfBits bits < 2 ^ bits.length := by
  induction bits with
  | nil => simp [natOfBits]
  | cons b bits ih =>
    simp only [natOfBits, List.length_cons, Nat.pow_succ]
    cases b <;> simp <;> omega

/-- Digit `i` of the number is bit `i` of the list. -/
theorem natOfBits_testBit (bits : List Bool) (i : Nat) : (natOfBits bits).testBit i = bits.getD i false := by
  induction bits generalizing i with
  | nil => simp [natOfBits]
  | cons b bits ih =>
    cases i with
    | zero => cases b <;> simp [natOfBits, Nat.testBit_zero, Nat.add_mod]
    | succ i =>
      rw [Nat.testBit_succ, natOfBits]
      have : (b.toNat + 2 * natOfBits bits) / 2 = natOfBits bits := by cases b <;> (simp; try omega)
      rw [this, ih]
      simp

/-! ### Runs of elements -/

/-- Joining runs of equal level keeps the length of the burst. -/
theorem joinRuns_length (es : List Element) : burstLength (joinRuns es) = burstLength es := by
  induction es with
  | nil => rfl
  | cons e es ih =>
    simp only [joinRuns]
    rw [show burstLength (e :: es) = e.us + burstLength es by simp [burstLength], ← ih]
    cases joinRuns es with
    | nil => simp [burstLength]
    | cons f fs => by_cases h : e.level = f.level <;> simp [h, burstLength, Nat.add_assoc]

/-- The first run has the level of the first element. -/
theorem joinRuns_head (e : Element) (es : List Element) : ∃ u fs, joinRuns (e :: es) = ⟨e.level, u⟩ :: fs := by
  simp only [joinRuns]
  cases joinRuns es with
  | nil => exact ⟨e.us, [], rfl⟩
  | cons f fs =>
    by_cases h : e.level = f.level
    · exact ⟨e.us + f.us, fs, by simp [h]⟩
    · exact ⟨e.us, f :: fs, by simp [h]⟩

end Sys2Proof.Machine
end

