-- ==== Sys2Proof/Tests/Slice0.lean ====
section
/-! SUPPORT. Tests of the model: ill-formed operands that the check refuses, one or two single steps for each row with the
values of the spec's worked examples, and for each statement with hypotheses a concrete state and operands that meet them. -/

namespace Sys2Proof.Tests

open Sys2Proof Sys2Proof.Machine Sys2Proof.Safety

/-! ### Helpers -/

/-- The state after a command. -/
def after (c : Instr) (s : State) : State :=
  match exec c s with
  | .next t => t
  | .fault _ => s
  | .refused _ => s

/-- The reset state with another front end A. -/
def withA (f : FrontEnd) : State := { State.reset with fe := ⟨f, State.reset.fe.b⟩ }

/-- Front end A as reset leaves it. -/
def feA : FrontEnd := State.reset.fe.a

/-- What is on its way on line A after a reset: nothing. -/
def noLinks : Links := State.reset.link.a

/-- The reset state with other links on line A. -/
def linkA (k : Links) : State := { State.reset with link := ⟨k, State.reset.link.b⟩ }

/-- A number of 16 bits as two bytes, the less significant first. -/
def le (n : Nat) : List Nat := [n % 256, n / 256]

/-- Stored bytes from an address on, the zero ones left out. -/
def cells (a : Nat) : List Nat → List Host.Cell
  | [] => []
  | b :: bs => if b = 0 then cells (a + 1) bs else (a, BitVec.ofNat 8 b) :: cells (a + 1) bs

/-- Entry 1 of Table 3-7, with COALESCE and RELEASE of section 4.7 and the transmission fields of section 7.13. -/
def bytes1 : List Nat :=
  [0x70, 0x09, 4, 4] ++ le 4000 ++ le 5000 ++ le 1800 ++ le 2200 ++ le 400 ++ le 700 ++ le 400 ++ le 700
    ++ le 400 ++ le 700 ++ le 1100 ++ le 1500 ++ le 400 ++ le 700 ++ le 4000 ++ le 5000 ++ le 900 ++ le 1300
    ++ [110, 40, 50, 33] ++ le 210

/-- Entry 3 of Table 2-6. -/
def bytes3 : List Nat :=
  [0x6D, 0x01, 14, 14] ++ le 0 ++ le 0 ++ le 0 ++ le 0 ++ le 700 ++ le 1080 ++ le 0xFFFF ++ le 0
    ++ le 1500 ++ le 2100 ++ le 0xFFFF ++ le 0 ++ le 0 ++ le 0 ++ le 0 ++ le 0 ++ le 0 ++ le 0
    ++ [120, 114, 20, 25] ++ le 222

/-- The table space with entries 1 and 3. -/
def table : List Host.Cell := cells 48 bytes1 ++ cells 144 bytes3

/-- Entry 1 as a format. -/
def format1 : Format := formatAt table 1

/-- Entry 3 as a format. -/
def format3 : Format := formatAt table 3

/-- Entry 6 of section 3.11. -/
def format6 : Format :=
  { format3 with minBits := 4, maxBits := 4, mark0 := ⟨400, 600⟩, mark1 := ⟨800, 1200⟩ }

/-- The reset state with the table, and entry 1 in a state. -/
def withEntry1 (e : EntryControl) : State :=
  { State.reset with mem := table, entries := State.reset.entries.set 1 e }

/-- An ENABLED entry without holders. -/
def enabledEntry : EntryControl := ⟨.enabled, false, false, false⟩

/-- The frame of section 4.7 in the memory. -/
def key : LastFrame := ⟨1, 4, 5, 1023, 0, true⟩

/-- The FRAME record of the key. -/
def keyRecord : Record := ⟨.frame, .A, 1, 4, 5, 0, false, false, 0, 1000, true⟩

/-- The entry-1 state with line A in IDLE, a memory and an outcome. -/
def withOutcome (m : Option LastFrame) (due : Bool) (o : BurstOutcome) : State :=
  { withEntry1 enabledEntry with
    fe := ⟨{ feA with st := .idle }, State.reset.fe.b⟩
    rep := ⟨⟨m, true, due, false⟩, State.reset.rep.b⟩
    link := ⟨{ noLinks with outcome := some o }, noLinks⟩ }

/-- The job of section 7.13. -/
def job : Job := ⟨0x01, 1, 4, 2, 7, 0x01, 5⟩

/-- The state in which that job is staged. -/
def staged : State :=
  { withEntry1 enabledEntry with tx := { State.reset.tx with staging := job } }

/-- The job active in a transmitter state, with line A blanked. -/
def active (st : TxState) : State :=
  { withEntry1 ⟨.enabled, false, false, true⟩ with
    fe := ⟨{ feA with st := .blanked, txHold := true }, State.reset.fe.b⟩
    tx := { State.reset.tx with
      st := st, jobs := [job], bursts := 2, index := 3, burstStart := 640000, elements := [⟨.mark, 6150⟩] } }

/-- The reset state in another power state. -/
def inPower (p : PowerState) : State := { State.reset with pow := { State.reset.pow with st := p } }

/-- RESET# is low. -/
def held : State := State.reset.holdReset .pin []

/-- The reset state with another capture unit. -/
def withCapture (c : Capture) : State := { State.reset with cap := c }

/-- The capture unit as reset leaves it. -/
def capture : Capture := State.reset.cap

/-! ### Ill-formed operands -/

theorem test_lineEnable_refuses_disable : (Instr.lineEnable .A 0x02).WellFormed = false := by decide
theorem test_lineDisable_refuses_enable : (Instr.lineDisable .B 0x03).WellFormed = false := by decide
theorem test_faultClear_refuses_fault_zero : (Instr.faultClear .A 0x7F).WellFormed = false := by decide
theorem test_unknownCommand_refuses_pop : (Instr.unknownCommand 0x10).WellFormed = false := by decide
theorem test_registerWrite_refuses_command : (Instr.registerWrite 0x05 0x00).WellFormed = false := by decide
theorem test_registerWrite_refuses_fault_one : (Instr.registerWrite 0x0D 0x80).WellFormed = false := by decide
theorem test_registerWrite_admits_guard : (Instr.registerWrite 0x3E 0x20).WellFormed = true := by decide

/-! ### Resets -/

/-- Table 9-1: the reset values of RESET SOURCE, GUARD and the table space. -/
theorem test_powerOnReset_zeroes_table : (after .powerOnReset (withEntry1 enabledEntry)).mem = [] := by decide
theorem test_pinReset_keeps_table : Memory.read (after .pinReset (withEntry1 enabledEntry)).mem 50 = 4 := by decide
/-- While RESET# is low a read returns 0 and a write is discarded (R174). -/
theorem test_held_window : held.readWindow 0x00 = 0 ∧ after (.registerWrite 0x3E 7) held = held ∧
    after .timeTick held = held ∧ (after .pinReset held).readWindow 0x00 = 0x5B := by decide
theorem test_pinReset_source : (after .pinReset (inPower .dormant)).readRegister 0x03 = 2 := by decide
theorem test_softReset_disables_entry : (after .softReset (withEntry1 enabledEntry)).entries[1].st = .disabled := by
  decide
theorem test_softReset_guard : (after .softReset (inPower .dormant)).readRegister 0x3E = 20 := by decide

/-! ### Time base -/

/-- TIME wraps from 65535 to 0 (R18). -/
theorem test_timeTick_wraps :
    (after .timeTick { State.reset with clock := ⟨0xFFFF, 0, 0, 8000, 0⟩ }).clock.time = 0 := by decide
theorem test_timeLoRead_snapshot :
    (after .timeLoRead { State.reset with clock := ⟨0x12FE, 0, 0, 8000, 0⟩ }).readRegister 0x13 = 0x12 := by decide

/-! ### Line front ends: Table 1-4, in eighths of a microsecond from the first falling edge -/

/-- Line A of section 1.8, in a state. -/
def lineA (st : LineState) (level : Bool) (test : Option GlitchTest) (since : Nat) : FrontEnd :=
  { feA with st := st, glitch := 20, level := level, test := test, since := since, threshold := 80000 }

theorem test_rxEdge_starts_test :
    (after (.rxEdge .A 0) (withA (lineA .idle true none 0))).fe.a.test = some ⟨0, 80000⟩ := by decide
/-- The pulse from 900 to 908 is absorbed into the space. -/
theorem test_rxEdge_rejects_pulse :
    (after (.rxEdge .A 64) { withA (lineA .space false (some ⟨7200, 80000⟩) 4800) with
      clock := { State.reset.clock with now := 7200 } }).fe.a = lineA .space true none 4800 := by decide
theorem test_glitchTestAccept_burst_start :
    (after (.glitchTestAccept .A) (withA (lineA .idle false (some ⟨0, 80000⟩) 0))).link.a.toDecoder = [.burstStart 0] := by
  decide
theorem test_glitchTestAccept_space_600 :
    (after (.glitchTestAccept .A) (withA (lineA .space false (some ⟨9600, 80000⟩) 4800))).link.a.toCapture
      = [.element .space 600] := by decide
theorem test_burstEnd_instant :
    (after (.burstEnd .A) (withA (lineA .space true none 14080))).clock.now = 8 * 11760 := by decide
theorem test_burstEnd_state : (after (.burstEnd .A) (withA (lineA .space true none 14080))).fe.a.st = .idle := by decide
theorem test_settleWaitEnd :
    (after (.settleWaitEnd .A) (withA { lineA .settle true none 0 with wait := some 0 })).fe.a.st = .idle := by decide
theorem test_stuck_fault : (after (.stuck .A) (withA (lineA .mark false none 0))).readRegister 0x0D = 0x85 := by decide
theorem test_stuck_cause : (after (.stuck .A) (withA (lineA .mark false none 0))).irqCause = 0x10 := by decide
theorem test_lineEnable_settles : (after (.lineEnable .A 0x03) State.reset).fe.a.st = .settle := by decide
theorem test_lineEnable_keeps_polarity :
    (after (.lineEnable .A 0x01) (withA (lineA .idle true none 0))).readRegister 0x0A = 0x03 := by decide
theorem test_lineDisable_aborts :
    (after (.lineDisable .A 0x02) (withA (lineA .mark false none 0))).link.a.toDecoder = [.burstAbort .disabled] := by
  decide
theorem test_lineDisable_asks_expiry :
    (after (.lineDisable .A 0x02) (withA (lineA .idle true none 0))).link.a.expireRequests = [0] := by decide
/-- A burst in the decoder's hand and one whose BURST START is on its way have begun when the line is disabled. -/
theorem test_lineDisable_counts_bursts :
    (after (.lineDisable .A 0x02) { withA (lineA .idle true none 0) with
      dec := ⟨⟨.stopped, 0, []⟩, State.reset.dec.b⟩
      link := ⟨{ noLinks with toDecoder := [.burstEnd 5, .burstStart 9, .burstEnd 12] }, noLinks⟩ }).link.a.expireRequests
      = [2] := by decide
/-- Section 2.4.1: writing IDLE 32 to line B stores it. -/
theorem test_idleWrite_stores : (after (.idleWrite .B 32) State.reset).readRegister 0x10 = 32 := by decide
theorem test_idleWrite_refuses_zero : (after (.idleWrite .B 0) State.reset).irq.access = true := by decide
theorem test_faultClear :
    (after (.faultClear .A 0x80) (withA { lineA .stuck false none 0 with fault := true })).readRegister 0x0D = 0x05 := by
  decide

/-! ### Decoders: sections 3.10 and 3.11 -/

/-- Decoder A of section 3.10 with a candidate of entry 1 and a notice. -/
def decoding (c : List Candidate) (n : Notice) : State :=
  { withEntry1 ⟨.enabled, true, false, false⟩ with
    dec := ⟨⟨.active, 1000, c⟩, State.reset.dec.b⟩
    link := ⟨{ noLinks with toDecoder := [n] }, noLinks⟩ }

/-- The frame candidate of entry 1 in BITS with a pending mark. -/
def frame1 (m : Option Nat) (bits : List Bool) : Candidate := ⟨1, .frame, .bits, m, some .space, false, bits⟩

theorem test_decoderBurstStart_candidates :
    (after (.decoderBurstStart .A) { decoding [] (.burstStart 1000) with dec := State.reset.dec }).dec.a.candidates
      = [⟨1, .frame, .header, none, some .space, false, []⟩, newRepeatCandidate 1] := by decide
theorem test_decoderElement_bit :
    (after (.decoderElement .A) (decoding [frame1 (some 560) []] (.element .space 1300))).dec.a.candidates
      = [frame1 none [true]] := by decide
/-- Table 3-8: SPACE(2000) removes REPEAT 1, and decoder A keeps its hold on entry 1 by FRAME 1 alone. -/
theorem test_decoderElement_removes_repeat :
    (after (.decoderElement .A) (decoding
      [{ newFrameCandidate 1 format1 with pendingMark := some 4500 }, { newRepeatCandidate 1 with pendingMark := some 4500 }]
      (.element .space 2000))).dec.a.candidates = [frame1 none []] := by decide
theorem test_decoderBurstEnd_frame :
    (after (.decoderBurstEnd .A) (decoding [frame1 (some 560) [true, false, true, false]] (.burstEnd 1023))).link.a.outcome
      = some (.frame 1 4 5 false 1000 1023) := by decide
/-- Section 3.10.2: the repeat candidate with an empty memory is an orphan. -/
theorem test_decoderBurstEnd_orphan :
    (after (.decoderBurstEnd .A) (decoding [{ newRepeatCandidate 1 with phase := .tail, pendingMark := some 560 }]
      (.burstEnd 1156))).link.a.outcome = some (.orphan 1000 1156) := by decide
theorem test_decoderBurstAbort :
    (after (.decoderBurstAbort .A) (decoding [frame1 none []] (.burstAbort .blanked))).link.a.reports = [.aborted] := by
  decide
/-- Section 3.11: the burst of entry 6 gives the bits 1, 0, 0, 1, and byte 0 0x09 under MSB FIRST. -/
theorem test_biphase_example :
    decodeFrame 6 format6 [⟨.mark, 500⟩, ⟨.space, 500⟩, ⟨.mark, 1000⟩, ⟨.space, 500⟩, ⟨.mark, 500⟩, ⟨.space, 1000⟩,
      ⟨.mark, 500⟩] = some [true, false, false, true] := by decide
theorem test_biphase_payload : payloadOf true [true, false, false, true] = 0x09 := by decide

/-! ### Repeat units: Table 4-5 -/

/-- Step 1: the new frame fills the memory. -/
theorem test_outcomeTaken_new_frame :
    (after (.outcomeTaken .A) (withOutcome none false (.frame 1 4 5 false 1000 1023))).rep.a.memory = some key := by decide
/-- Step 2: the repeat moves the last end. -/
theorem test_outcomeTaken_repeat :
    (after (.outcomeTaken .A) (withOutcome (some key) false (.repeated 1 1100 1116))).rep.a.memory
      = some { key with repeats := 1, lastEnd := 1116 } := by decide
/-- Step 6: the due instant comes with OPEN set. -/
theorem test_lfmDue_sets_due :
    (after (.lfmDue .A) { State.reset with rep := ⟨⟨some key, true, false, true⟩, State.reset.rep.b⟩ }).rep.a
      = ⟨some key, true, true, false⟩ := by decide
theorem test_expireRequest_releases :
    ((after (.expireRequest .A) { linkA { noLinks with expireRequests := [0] } with
      rep := ⟨⟨some key, true, false, false⟩, State.reset.rep.b⟩ }).link.a.posts.map fun p => (p.record.kind, p.record.bits))
      = [(.release, 4)] := by decide

/-- A frame won by RETIRING entry 1, whose last holder is the decoder of line A, with that line in a state. -/
def retiringFrame (st : LineState) : State :=
  { withOutcome none false (.frame 1 4 5 false 1000 1023) with
    fe := ⟨{ feA with st := st }, State.reset.fe.b⟩
    entries := State.reset.entries.set 1 ⟨.retiring, true, false, false⟩
    dec := ⟨⟨.active, 1000, [newFrameCandidate 1 format1]⟩, State.reset.dec.b⟩ }

/-- R40, R67: a frame won by a RETIRING entry fills the memory and is cleared from it; no RELEASE follows its FRAME record, on
an OFF line either. -/
theorem test_outcomeTaken_retires : ∀ st ∈ [LineState.idle, .off],
    (after (.outcomeTaken .A) (retiringFrame st)).link.a.posts.map (·.record.kind) = [.frame] ∧
    (after (.outcomeTaken .A) (retiringFrame st)).rep.a.memory = none ∧
    (after (.outcomeTaken .A) (retiringFrame st)).entries[1] = ⟨.disabled, false, false, false⟩ := by decide

/-- R85: a frame decoded before the disable leaves no memory when it is taken after the line has been enabled again; a frame of
a burst that began after that fills it. -/
theorem test_outcomeTaken_after_enable :
    let s := withOutcome none false (.frame 1 4 5 false 1000 1023)
    let before (n : Nat) : State := { s with link := ⟨{ s.link.a with oldBursts := n }, noLinks⟩ }
    (after (.outcomeTaken .A) (before 1)).rep.a.memory = none ∧ (after (.outcomeTaken .A) (before 1)).link.a.oldBursts = 0 ∧
    (after (.outcomeTaken .A) (before 0)).rep.a.memory = some key := by decide

/-! ### Receive queue: section 5.8 -/

/-- The queue with `n` records of the key, of which none is referred to but the newest. -/
def queueOf (n : Nat) : ReceiveQueue :=
  ⟨List.replicate (n - 1) { keyRecord with line := .B, referred := false } ++ [keyRecord], false, 12⟩

/-- A request on line A with a queue. -/
def posting (n : Nat) (p : Post) : State := { linkA { noLinks with posts := [p] } with rq := queueOf n }

theorem test_post_appends : (after (.post .A) (posting 15 ⟨keyRecord, false, false⟩)).readRegister 0x17 = 16 := by decide
theorem test_post_lost :
    ((after (.post .A) (posting 16 ⟨keyRecord, false, false⟩)).rq.records.getLast?).map (fun r => (r.loss, r.lost))
      = some (true, 1) := by decide
theorem test_increment_counts :
    ((after (.repeatCountIncrement .A) (posting 15 ⟨keyRecord, true, true⟩)).rq.records.getLast?).map (·.repeats)
      = some 1 := by decide
theorem test_headKindLineRead_value :
    (after .headKindLineRead { State.reset with rq := queueOf 2 }).win.dataBus = 0x11 := by decide
theorem test_headKindLineRead_drops_reference :
    (after .headKindLineRead { State.reset with rq := queueOf 1 }).rq.hasReference .A = false := by decide
theorem test_pop : (after .pop { State.reset with rq := queueOf 16 }).readRegister 0x17 = 15 := by decide
theorem test_pop_empty : (after .pop State.reset).readRegister 0x06 = 0x05 := by decide
theorem test_flushQueue : (after .flushQueue { State.reset with rq := queueOf 16 }).readRegister 0x07 = 16 := by decide
theorem test_rqWatermark_high : (after (.rqWatermarkWrite 17) State.reset).readRegister 0x18 = 16 := by decide
theorem test_rqWatermark_low : (after (.rqWatermarkWrite 0) State.reset).readRegister 0x18 = 1 := by decide

/-! ### Capture unit: Table 6-3 -/

/-- A capture unit and a notice to it on line A. -/
def capturing (c : Capture) (n : Notice) : State := { linkA { noLinks with toCapture := [n] } with cap := c }

theorem test_captureBurstStart_claims :
    (after (.captureBurstStart .A) (capturing { capture with st := .armed } (.burstStart 0))).readRegister 0x29 = 2 := by
  decide
theorem test_captureBurstStart_passes :
    (after (.captureBurstStart .A) (capturing { capture with st := .filling .B } (.burstStart 0))).cap.lists.a
      = [.passed] := by decide
/-- A mark of 40000 µs is stored as 32767 with the level bit: 0xFFFF, low byte first. -/
theorem test_captureElement_long :
    (after (.captureElement .A) (capturing { capture with st := .filling .A } (.element .mark 40000))).mem
      = [(0x200, 0xFF), (0x201, 0xFF)] := by decide
theorem test_captureElement_truncated :
    (after (.captureElement .A) (capturing { capture with st := .filling .A, count := 256 } (.element .mark 1))).cap.truncated
      = true := by decide
theorem test_captureClose_waits :
    (after (.captureClose .A) (capturing { capture with st := .filling .A } (.burstEnd 0))).cap.closed = true := by decide
/-- Step 6: UNMATCHED is kept under MODE UNMATCHED. -/
theorem test_captureReport_keeps :
    (after (.captureReport .A) { linkA { noLinks with reports := [.unmatched] } with
      cap := { capture with st := .filling .A, closed := true, count := 9, lists := ⟨[.recorded], []⟩ } }).readRegister 0x29
      = 4 := by decide
theorem test_captureReport_missed :
    (after (.captureReport .A) { linkA { noLinks with reports := [.unmatched] } with
      cap := { capture with st := .armed, lists := ⟨[.passed], []⟩ } }).cap.missed = true := by decide
theorem test_armCapture : (after .armCapture State.reset).readRegister 0x29 = 1 := by decide
theorem test_disarmCapture :
    (after .disarmCapture (withCapture { capture with st := .filling .A, count := 3, lists := ⟨[.recorded], []⟩ })).cap.lists.a
      = [.ignored] := by decide
/-- A BURST START still on its way in DORMANT: passed over while a recording is held, ignored by an ARMED capture unit (R114, R128). -/
theorem test_captureBurstStart_dormant : ∀ x ∈ [(CaptureState.full (.line .B), Tag.passed), (.armed, .ignored)],
    (after (.captureBurstStart .A) { capturing { capture with st := x.1 } (.burstStart 9) with pow := (inPower .dormant).pow }).cap
      = { capture with st := x.1, lists := ⟨[x.2], []⟩ } := by decide
/-- Step 7: AUTO REARM. -/
theorem test_releaseCapture_rearms :
    (after .releaseCapture (withCapture { capture with st := .full (.line .B), count := 9, rearm := true })).readRegister 0x29
      = 1 := by decide
theorem test_releaseCapture_pinned :
    (after .releaseCapture (withCapture { capture with st := .full .host, pins := 1 })).readRegister 0x06 = 0x08 := by decide
theorem test_loadCapture : (after .loadCapture (withCapture { capture with loadLength := 256 })).readRegister 0x2B = 1 := by
  decide
theorem test_loadCapture_length_zero : (after .loadCapture State.reset).readRegister 0x06 = 0x02 := by decide
theorem test_captureControl_any : (after (.captureControlWrite 0x0C) State.reset).readRegister 0x28 = 0x0F := by decide
theorem test_loadLength_high : (after (.loadLengthWrite true 1) State.reset).cap.loadLength = 256 := by decide

/-! ### Table port and format table: sections 2.4.1 and 9.4.1 -/

/-- The window with the pointer at an address. -/
def pointing (s : State) (a : Nat) : State := { s with win := { s.win with pointer := BitVec.ofNat 10 a } }

/-- The window with a command argument. -/
def withArg (s : State) (v : Byte) : State := { s with win := { s.win with arg := v } }

theorem test_tableDataRead_wraps : (after .tableDataRead (pointing State.reset 0x3FF)).win.pointer = 0 := by decide
theorem test_tableDataWrite_refused :
    (after (.tableDataWrite 1) (pointing (withEntry1 enabledEntry) 88)).irq.access = true := by decide
theorem test_tableDataWrite_unstored :
    (after (.tableDataWrite 7) (pointing State.reset 46)) = pointing State.reset 47 := by decide
theorem test_enableFormat_biphase :
    (after .enableFormat (withArg { State.reset with mem := table } 3)).entries[3].st = .enabled := by decide
/-- With MARK1 from 1000 the result is BAD WINDOW, with REPEAT KIND CODE as well. -/
theorem test_enableFormat_bad_window :
    ({ format3 with mark1 := ⟨1000, 2100⟩, repeatKind := .code } : Format).validate 100 30 = .badWindow := by decide
/-- With both lines and a 2T window that runs to 3100, line B fails. -/
theorem test_enableFormat_exceeds_idle :
    ({ format3 with mark1 := ⟨1500, 3100⟩, lineB := true } : Format).validate 100 30 = .exceedsIdle := by decide
theorem test_disableFormat_at_once :
    (after .disableFormat (withArg (withEntry1 enabledEntry) 1)).readRegister 0x07 = 0 := by decide
theorem test_disableFormat_retiring :
    (after .disableFormat (withArg (withEntry1 ⟨.enabled, true, false, false⟩) 1)).readRegister 0x07 = 2 := by decide

/-! ### Transmitter: Table 7-5 -/

theorem test_staging_write : (after (.stagingRegisterWrite 13 0xA5) State.reset).tx.staging.payload = 0xA500000000000000 := by
  decide
theorem test_submit : (after .submit staged).readRegister 0x3A = 4 := by decide
theorem test_submit_unavailable :
    (after .submit { staged with entries := State.reset.entries }).readRegister 0x06 = 0x07 := by decide
/-- The frame burst of section 7.13 lasts 12950 µs. -/
theorem test_jobStart_burst :
    burstLength (after .jobStart { staged with tx := { staged.tx with jobs := [job] } }).tx.elements = 12950 := by decide
theorem test_jobStart_blanks :
    (after .jobStart { staged with
      fe := ⟨lineA .idle true none 0, State.reset.fe.b⟩, tx := { staged.tx with jobs := [job] } }).fe.a.st = .blanked := by
  decide
/-- Burst 3 ends at 86150: the TAIL ends at 91150, the completion is TAG 7, DONE, BURSTS 3. -/
theorem test_txBurstEnd_done : (after .txBurstEnd (active .burst)).tx.completions = [⟨7, .done, 3⟩] := by decide
theorem test_txBurstEnd_tail : (after .txBurstEnd (active .burst)).tx.tailEnd = 8 * 91150 := by decide
theorem test_nextBurstStart : (after .nextBurstStart (active .gap)).tx.index = 4 := by decide
theorem test_tailEnd : (after .tailEnd { State.reset with tx := { State.reset.tx with st := .tail } }).tx.st = .idle := by
  decide
/-- The guard hold of line A ends at 88150, and the line enters SETTLE. -/
theorem test_guardHoldEnd :
    (after (.guardHoldEnd .A) (withA { feA with st := .blanked, guardHold := some 705200 })).fe.a.wait = some 705200 := by
  decide
theorem test_stopTx_gap : (after .stopTx (active .gap)).tx.completions = [⟨7, .stopped, 2⟩] := by decide
theorem test_abortTx_cut : (after .abortTx (active .burst)).tx.completions = [⟨7, .aborted, 3⟩] := by decide
theorem test_popCompletion_empty : (after .popCompletion State.reset).readRegister 0x06 = 0x05 := by decide
/-- REPLAY leaves out entries of duration 0 and joins equal levels (R141). -/
theorem test_replay_joins :
    replayBurst (cells 0x200 (le (32768 + 600) ++ le 0 ++ le (32768 + 400) ++ le 500)) 4 = [⟨.mark, 1000⟩, ⟨.space, 500⟩] := by
  decide

/-! ### Power unit and interrupt unit: sections 8.10 and 10.6 -/

/-- Wake list entry 1 of Table 8-6, in LISTEN, with the frame offered. -/
def offered : State :=
  { inPower .listen with
    mem := cells 0x192 ([0xD3, 14, 0x0C, 0x30, 0, 0, 0, 0, 0, 0, 0xFF, 0x37, 0xFF, 0xFF, 0xFF, 0xFF, 0xFF, 0xFF])
    link := ⟨{ noLinks with offers := [⟨3, 14, 0x380C⟩] }, noLinks⟩ }

theorem test_wakeOffer_matches : (after (.wakeOffer .A) offered).readRegister 0x3F = 0x07 := by decide
theorem test_wakeOffer_resumes : (after (.wakeOffer .A) offered).readRegister 0x02 = 0 := by decide
theorem test_wakeEdge : (after (.wakeEdge .A) { linkA { noLinks with wakeEdges := 1 } with
    pow := { State.reset.pow with st := .dormant } }).readRegister 0x02 = 1 := by decide
theorem test_enterListen : (after .enterListen State.reset).readRegister 0x02 = 1 := by decide
theorem test_enterListen_busy : (after .enterListen (active .burst)).readRegister 0x06 = 0x04 := by decide
theorem test_enterDormant_watch :
    (after .enterDormant (withArg (withA (lineA .idle true none 0)) 1)).readRegister 0x0D = 8 := by decide
theorem test_enterDormant_bad_mask : (after .enterDormant (withArg State.reset 4)).readRegister 0x06 = 0x02 := by decide
theorem test_wakeUp_source : (after .wakeUp (inPower .dormant)).readRegister 0x04 = 3 := by decide
theorem test_clearWake : (after .clearWake { State.reset with
    pow := { State.reset.pow with wakePin := true, matched := some 2, wakeSource := .matched 2 } }).readRegister 0x3F = 0 := by
  decide
/-- Step 5 of Table 10-2: 0x80 clears ACCESS and nothing else. -/
theorem test_irqCauseWrite : (after (.irqCauseWrite 0x80) { State.reset with
    irq := { State.reset.irq with access := true, loss := true } }).irqCause = 0x02 := by decide
/-- Step 7: the new mask asserts IRQ# with no new event. -/
theorem test_irqEnableWrite :
    (after (.irqEnableWrite 0x8F) (withCapture { capture with st := .full (.line .B) })).irqAsserted = true := by decide
theorem test_unknownCommand : (after (.unknownCommand 0x03) (inPower .dormant)).readRegister 0x06 = 0x01 := by decide
theorem test_registerWrite_guard : (after (.registerWrite 0x3E 0) State.reset).tx.guardSetting = 0 := by decide
theorem test_registerWrite_glitch_refused :
    (after (.registerWrite 0x0B 9) (withA (lineA .idle true none 0))).irqCause = 0x80 := by decide
theorem test_step_idles : step State.reset = .next { State.reset with clock := { State.reset.clock with now := 1 } } := by
  rfl

/-! ### Witnesses: for each statement with hypotheses, states and operands that meet them, clause by clause -/

/-- The hypothesis that no reset is held, in each power state and in the states of the witnesses below. -/
theorem witness_NoResetIsHeld :
    (∀ p ∈ [PowerState.active, .listen, .dormant], (inPower p).pow.resetHeld = false) ∧ State.reset.pow.resetHeld = false ∧
    staged.pow.resetHeld = false ∧ (active .burst).pow.resetHeld = false ∧ (active .gap).pow.resetHeld = false ∧
    (withEntry1 enabledEntry).pow.resetHeld = false ∧ offered.pow.resetHeld = false ∧ held.pow.resetHeld = true := by decide

theorem witness_StepRunsFrontCommand :
    { State.reset with pending := [.pop, .timeTick] }.pending = [Instr.pop, .timeTick] ∧ State.reset.pending = [] := by decide

/-- For ResetLeavesRegisters, TimeAdvancesByTicks, TimeLoReadTakesSnapshot, RecordsKeepTheirOrder, HeadReadPlacesHold and
StickyCausesStaySet: a command that is no reset, well formed, none of those the clauses leave out, and completes. -/
theorem witness_CommandsThatAreNoReset :
    isReset (.rxEdge .A 5) = false ∧ (Instr.rxEdge .A 5).WellFormed = true ∧ Instr.rxEdge .A 5 ≠ .timeTick ∧
    Instr.rxEdge .A 5 ≠ .timeLoRead ∧ Instr.rxEdge .A 5 ≠ .pop ∧ Instr.rxEdge .A 5 ≠ .flushQueue ∧
    (∀ v, Instr.rxEdge .A 5 ≠ .irqCauseWrite v) ∧ (∀ v, Instr.rxEdge .A 5 ≠ .irqEnableWrite v) ∧
    ∃ t, exec (.rxEdge .A 5) { State.reset with rq := { queueOf 1 with held := true } } = .next t := by
  refine ⟨by decide, by decide, by decide, by decide, by decide, by decide, (by intro v h; cases h), (by intro v h; cases h), ?_⟩
  exact ⟨_, rfl⟩

/-- The hypotheses on causes of StickyCausesStaySet: a cause set before, and each cause that a row sets. -/
theorem witness_StickyCausesStaySet :
    (after (.post .A) (posting 16 ⟨keyRecord, false, false⟩)).irq.loss = true ∧
    (after (.stuck .A) (withA (lineA .mark false none 0))).irq.lineFault = true ∧
    (after (.wakeOffer .A) offered).irq.wake = true ∧
    (after (.irqEnableWrite 1) (inPower .dormant)).irq.access = true ∧ writesRegister (.irqEnableWrite 1) = true ∧
    (after .stopTx { active .gap with entries := State.reset.entries.set 1 ⟨.retiring, false, false, true⟩ }).irq.retired
      = true := by decide

theorem witness_TimeAdvancesByTicks :
    State.reset.pow.st ≠ .dormant ∧ (inPower .dormant).pow.st = .dormant ∧ (withArg State.reset 3).win.arg.toNat ≤ 3 ∧
    State.reset.tx.st = .idle ∧ State.reset.tx.jobs = [] := by decide

/-- A memory of entry 1 comes to its due instant, 110 ms after its last end, and not a millisecond before. -/
theorem witness_TimeAdvancesByTicks_due :
    let s : Time → State := fun t => { withEntry1 enabledEntry with
      rep := ⟨⟨some key, false, false, false⟩, State.reset.rep.b⟩, clock := ⟨t, 0, 0, 8000, 0⟩ }
    (s 1132).pow.st ≠ .dormant ∧ (s 1132).pow.resetHeld = false ∧
    (s 1132).clock.time + 1 = key.lastEnd + BitVec.ofNat 16 ((s 1132).format key.entry).rw ∧
    (after .timeTick (s 1132)).rep.a.dueReached = true ∧ (after .timeTick (s 1131)).rep.a.dueReached = false := by decide

theorem witness_RawEdgeIsTestedFirst_starts :
    testsEdges (lineA .mark false none 0).st ∧ (lineA .mark false none 0).test = none ∧
    thresholdAhead (lineA .mark false none 0) (8 * 65535 - 1) ∧ (lineA .mark false none 0).glitch ≠ 0 ∧
    ({ lineA .mark false none 0 with glitch := 0 } : FrontEnd).glitch = 0 :=
  ⟨Or.inr (Or.inr (Or.inl rfl)), rfl, fun t h => by cases h; decide, by decide, rfl⟩

theorem witness_RawEdgeIsTestedFirst_rejects :
    testsEdges (lineA .space false (some ⟨7200, 80000⟩) 4800).st ∧
    7359 < 7200 + Config.us (lineA .space false (some ⟨7200, 80000⟩) 4800).glitch.toNat ∧
    thresholdAhead (lineA .space false (some ⟨7200, 80000⟩) 4800) 7359 ∧
    ¬ thresholdAhead (lineA .space false (some ⟨84700, 80000⟩) 4800) 84800 :=
  ⟨Or.inr (Or.inr (Or.inr (Or.inl rfl))), by decide, fun t h => by cases h; decide,
    fun h => absurd (h 84800 rfl) (by decide)⟩

theorem witness_RawEdgeIsTestedFirst_others :
    State.reset.fe.a.st = .off ∧ (lineA .watch true none 0).st = .watch ∧ (lineA .watch true none 0).active = false ∧
    (lineA .watch false none 0).active = true ∧ (lineA .watch false (some ⟨0, 80000⟩) 0).test = some ⟨0, 80000⟩ ∧
    159 < 0 + Config.us (lineA .watch false (some ⟨0, 80000⟩) 0).glitch.toNat := by decide

/-- An edge at the instant of the threshold of a space, and one at the instant a test ends. -/
theorem witness_RawEdgeIsTestedFirst_late :
    (lineA .space true none 4800).test = none ∧ ¬ thresholdAhead (lineA .space true none 4800) 84800 ∧
    testsEdges (lineA .idle false (some ⟨7200, 80000⟩) 0).st ∧
    (lineA .idle false (some ⟨7200, 80000⟩) 0).test = some ⟨7200, 80000⟩ ∧
    7200 + Config.us (lineA .idle false (some ⟨7200, 80000⟩) 0).glitch.toNat ≤ 7360 :=
  ⟨rfl, fun h => absurd (h 84800 rfl) (by decide), Or.inr (Or.inl rfl), rfl, by decide⟩

theorem witness_AcceptedEdgeActsByLineState :
    (lineA .idle true none 0).test = none ∧
    ∀ st ∈ [LineState.idle, .mark, .space, .settle, .stuck, .watch],
      ((withA (lineA st false (some ⟨8, 80000⟩) 0)).fe.get .A).test = some ⟨8, 80000⟩ ∧
      ((withA (lineA st false (some ⟨8, 80000⟩) 0)).fe.get .A).st = st := by decide

theorem witness_ThresholdsEndWaitsAndBursts :
    (∀ st ∈ [LineState.settle, .space, .mark], (lineA st true none 0).st = st ∧ (lineA st true none 0).test = none) ∧
    ({ lineA .settle true none 0 with wait := some 5 } : FrontEnd).wait = some 5 ∧ (lineA .settle true none 0).wait = none ∧
    (lineA .space true (some ⟨0, 0⟩) 0).test ≠ none := by decide

theorem witness_LineRegisterWritesFollowRules_control :
    State.reset.pow.st ≠ .dormant ∧ (0x03 : Byte).getLsbD 0 = true ∧ (0x02 : Byte).getLsbD 0 = false ∧
    feA.st = .off ∧ ({ feA with txHold := true } : FrontEnd).blankingHeld = true ∧ feA.blankingHeld = false ∧
    (lineA .mark false none 0).st ≠ .off ∧ (0x0B : BitVec 6).toNat = lineOffset .A + 1 ∧
    (0x0F : BitVec 6).toNat = lineOffset .B + 1 := by decide

/-- Entry 1 reaches 2200 µs: IDLE 22 is refused and IDLE 23 is not. -/
theorem witness_LineRegisterWritesFollowRules_idle :
    (∃ n : Fin 8, (withEntry1 enabledEntry).entries[n].st ≠ .disabled ∧
      ((withEntry1 enabledEntry).format n).namesLine .A = true ∧ 100 * (22 : Byte).toNat ≤ ((withEntry1 enabledEntry).format n).headerSpace.hi) ∧
    ¬ (∃ n : Fin 8, (withEntry1 enabledEntry).entries[n].st ≠ .disabled ∧
      ((withEntry1 enabledEntry).format n).namesLine .A = true ∧
      ∃ w ∈ ((withEntry1 enabledEntry).format n).spaceWindows, 100 * (23 : Byte).toNat ≤ w.hi) ∧ (23 : Byte) ≠ 0 := by
  decide

theorem witness_LineStatusAndFault :
    State.reset.pow.st ≠ .dormant ∧ (0x80 : Byte).getLsbD 7 = true ∧ (0x7F : Byte).getLsbD 7 = false ∧
    ((withA { lineA .stuck false none 0 with fault := true }).fe.get .A).fault = true ∧
    ((withA (lineA .mark false none 0)).fe.get .A).fault = false ∧
    ((after (.stuck .A) (withA (lineA .mark false none 0))).fe.get .A).fault = true := by decide

theorem witness_BurstStartFormsCandidates :
    let s : State := { decoding [] (.burstStart 1000) with dec := State.reset.dec }
    (s.link.get .A).outcome = none ∧ (s.link.get .A).toDecoder = .burstStart 1000 :: [] ∧ (s.dec.get .A).st = .wait ∧
    s.pow.st ≠ .dormant ∧ s.entries[1].st = .enabled ∧ (s.format 1).namesLine .A = true := by decide

theorem witness_ElementIsOfferedToCandidates :
    let s := decoding [frame1 (some 560) []] (.element .space 1300)
    let u : State := { s with dec := ⟨{ s.dec.a with st := .stopped }, s.dec.b⟩ }
    (s.link.get .A).outcome = none ∧ (s.link.get .A).toDecoder = .element .space 1300 :: [] ∧ (s.dec.get .A).st = .active ∧
    (u.dec.get .A).st = .stopped := by decide

/-- A retirement that completes at an element: the last candidate of a RETIRING entry goes. -/
theorem witness_ElementIsOfferedToCandidates_retires :
    let s : State := { decoding [frame1 (some 560) []] (.element .space 9999) with
      entries := State.reset.entries.set 1 ⟨.retiring, true, false, false⟩ }
    (after (.decoderElement .A) s).entries[1].st = .disabled ∧ (after (.decoderElement .A) s).irq.retired = true := by decide

/-- A BIPHASE candidate of section 3.11 with its open half inactive, active and none, at 3 and 4 of at most 4 bits. -/
theorem witness_ElementIsOfferedToCandidates_cells :
    let c : Option Level → Bool → List Bool → Candidate := fun h done bits => ⟨6, .frame, .cells, none, h, done, bits⟩
    (newFrameCandidate 6 format6).phase = .cells ∧ (newFrameCandidate 6 format6).openHalf = some .space ∧
    (newFrameCandidate 6 format6).startCellDone = false ∧ (c (some .mark) true [true, false, false]).openHalf = some .mark ∧
    (c none true []).openHalf = none ∧ [true, false, false].length < format6.maxBits ∧
    format6.maxBits ≤ [true, false, false, true].length ∧ (format6.mark0.lo ≤ 500 ∧ 500 ≤ format6.mark0.hi) ∧
    (format6.mark1.lo ≤ 1000 ∧ 1000 ≤ format6.mark1.hi) ∧ ¬ 700 ≤ format6.mark0.hi ∧ ¬ format6.mark1.lo ≤ 700 := by decide

/-- A header pair of entry 1, and the end of a frame with a trailer window and of one without. -/
theorem witness_PairElementsAreClassified_ends :
    ({ newFrameCandidate 1 format1 with pendingMark := some 4500 } : Candidate).phase = .header ∧
    (format1.headerMark.lo ≤ 4500 ∧ 4500 ≤ format1.headerMark.hi) ∧
    (format1.headerSpace.lo ≤ 2000 ∧ 2000 ≤ format1.headerSpace.hi ∧ ¬ 2201 ≤ format1.headerSpace.hi) ∧
    (frame1 (some 560) [true, false, true, false]).phase = .bits ∧
    (frame1 (some 560) [true, false, true, false]).pendingMark = some 560 ∧ ¬ (format1.trailerMark.lo = 0) ∧
    (format3.trailerMark.lo = 0 ∧ format3.trailerMark.hi = 0) := by decide

theorem witness_PairElementsAreClassified :
    (frame1 (some 560) []).phase = .bits ∧ (frame1 (some 560) []).pendingMark = some 560 ∧
    (frame1 (some 560) []).bits.length < format1.maxBits ∧
    format1.maxBits ≤ (frame1 (some 560) [true, true, true, true]).bits.length ∧
    (format1.space0.lo ≤ 400 ∧ 700 ≤ format1.space0.hi ∧ ¬ 701 ≤ format1.space0.hi) ∧
    (format1.space1.lo ≤ 1100 ∧ ¬ format1.space1.lo ≤ 1099) ∧
    ({ newRepeatCandidate 1 with pendingMark := some 4000 } : Candidate).phase = .lead ∧
    (format1.repeatMark.lo ≤ 4000 ∧ 4000 ≤ format1.repeatMark.hi) ∧
    (format1.repeatSpace.lo ≤ 1300 ∧ 1300 ≤ format1.repeatSpace.hi ∧ ¬ 1301 ≤ format1.repeatSpace.hi) ∧
    ({ newRepeatCandidate 1 with phase := .tail, pendingMark := some 560 } : Candidate).phase = .tail := by decide

theorem witness_BurstEndHandsOverOutcome :
    let s := decoding [frame1 (some 560) [true, false, true, false]] (.burstEnd 1023)
    let u := decoding [frame1 none []] (.burstAbort .stuck)
    (s.link.get .A).outcome = none ∧ (s.link.get .A).toDecoder = .burstEnd 1023 :: [] ∧ (s.dec.get .A).st ≠ .wait ∧
    (∀ m, m < (1 : Fin 8) → s.completeFrame (s.dec.get .A).candidates m = none ∧
      ¬ (s.completeRepeat (s.dec.get .A).candidates m = true ∧ s.validRepeat .A m 1000 = true)) ∧
    s.completeFrame (s.dec.get .A).candidates 1 = some [true, false, true, false] ∧
    (u.link.get .A).toDecoder = .burstAbort .stuck :: [] ∧ (u.dec.get .A).st ≠ .wait := by decide

/-- The clauses of a burst that only a repeat candidate survives: with the memory of section 3.10.2 it is valid, with an
empty memory it is an orphan. -/
theorem witness_BurstEndHandsOverOutcome_repeat :
    let c : Candidate := { newRepeatCandidate 1 with phase := .tail, pendingMark := some 560 }
    let s := decoding [c] (.burstEnd 1116)
    let u : State := { s with rep := ⟨⟨some key, true, false, false⟩, s.rep.b⟩ }
    s.completeFrame [c] 1 = none ∧ s.completeRepeat [c] 1 = true ∧ s.validRepeat .A 1 1100 = false ∧
    u.validRepeat .A 1 1100 = true ∧ u.validRepeat .A 1 1133 = true ∧ u.validRepeat .A 1 1134 = false := by decide

/-- Entries of each CHECK, with bits that pass and that fail INVERTED PAIRS, by the last and by their number. -/
theorem witness_BurstEndHandsOverOutcome_check :
    let f : Check → Format := fun c => { format1 with check := c }
    let bits : Bool → List Bool := fun b => List.replicate 8 true ++ List.replicate 7 false ++ [b]
    (∀ c ∈ [Check.none, .invertedPairs, .evenParity, .oddParity], (f c).check = c) ∧
    (f .invertedPairs).passesCheck (bits false) = true ∧ (f .invertedPairs).passesCheck (bits true) = false ∧
    (f .invertedPairs).passesCheck (bits false ++ [true]) = false ∧ (f .evenParity).passesCheck (bits false) = true ∧
    (f .oddParity).passesCheck (bits true) = true := by decide

theorem witness_PayloadKeepsBitOrder : (List.replicate 64 true).length ≤ 64 ∧ 63 < (List.replicate 64 true).length := by decide

theorem witness_PairEntryDecodesItsOwnBurst :
    format1.coding = .pair ∧ format1.validate 100 100 = .ok ∧ format1.countInRange [true, false, true, false].length = true := by
  decide

theorem witness_BiphaseEntryDecodesItsOwnBurst :
    format6.coding = .biphase ∧ format6.validate 100 100 = .ok ∧
    format6.countInRange [true, false, false, true].length = true := by decide

/-- A new frame with an empty memory, and one that differs from the memory. -/
theorem witness_NewFrameReplacesMemory :
    let s := withOutcome (some key) true (.frame 1 4 9 false 1100 1123)
    (s.link.get .A).outcome = some (.frame 1 4 9 false 1100 1123) ∧ s.pow.st ≠ .dormant ∧
    ¬ retiresAtEnd s .A 1 ∧ ¬ staysEmptyAfterDisable s .A ∧ (s.rep.get .A).memory = some key ∧ key.payload ≠ 9 ∧
    ((withOutcome none false (.frame 1 4 9 false 1100 1123)).rep.get .A).memory = none ∧
    retiresAtEnd (retiringFrame .idle) .A 1 ∧ ((retiringFrame .idle).rep.get .A).memory = none ∧
    ((retiringFrame .idle).link.get .A).outcome = some (.frame 1 4 5 false 1000 1023) := by decide

/-- A frame on its way when its line is disabled and the request to expire is taken first: it is posted and let go, and the
memory stays empty. -/
theorem witness_NewFrameReplacesMemory_quiet :
    let s : State := { withOutcome none false (.frame 1 4 9 false 1100 1123) with fe := State.reset.fe }
    let t := after (.outcomeTaken .A) s
    staysEmptyAfterDisable s .A ∧ ¬ retiresAtEnd s .A 1 ∧ s.pow.st ≠ .dormant ∧
    (s.link.get .A).outcome = some (.frame 1 4 9 false 1100 1123) ∧ t.rep.a.memory = none ∧
    t.link.a.posts.map (·.record.kind) = [.frame, .release] := by decide

/-- A repeat burst, and a frame of a SAME entry equal to the memory and started 120 ms, its RW, after the last end. -/
theorem witness_RepeatIsCountedInMemory :
    let s := withOutcome (some key) false (.repeated 1 1100 1116)
    let m : LastFrame := ⟨3, 14, 5, 1000, 255, true⟩
    let u : State := { withOutcome (some m) false (.frame 3 14 5 false 1120 1143) with
      entries := State.reset.entries.set 3 enabledEntry }
    (s.rep.get .A).memory = some key ∧ (s.link.get .A).outcome = some (.repeated key.entry 1100 1116) ∧ s.pow.st ≠ .dormant ∧
    ¬ retiresAtEnd s .A 1 ∧ (u.rep.get .A).memory = some m ∧
    (u.link.get .A).outcome = some (.frame m.entry m.bits m.payload false 1120 1143) ∧
    ¬ staysEmptyAfterDisable s .A ∧ ¬ staysEmptyAfterDisable u .A ∧ (u.format m.entry).repeatKind = .same ∧
    ((1120 : Time) - m.lastEnd).toNat ≤ (u.format m.entry).rw ∧ ¬ retiresAtEnd u .A 3 := by decide

/-- A repeat of RETIRING entry 1, with a FRAME record that the memory refers to and without one. -/
theorem witness_RepeatIsCountedInMemory_retires :
    let u : State := { retiringFrame .idle with
      rep := ⟨⟨some key, true, false, false⟩, State.reset.rep.b⟩
      link := ⟨{ noLinks with outcome := some (.repeated 1 1100 1116) }, noLinks⟩ }
    let s : State := { u with rq := ⟨[keyRecord], false, 1⟩ }
    let t := after (.outcomeTaken .A) s
    retiresAtEnd s .A 1 ∧ retiresAtEnd u .A 1 ∧ ¬ staysEmptyAfterDisable s .A ∧ s.rq.records[0]? = some keyRecord ∧
    keyRecord.refersFor .A = true ∧ t.rep.a.memory = none ∧ t.link.a.posts = [] ∧
    t.rq.records = [{ keyRecord with referred := false, repeats := 1 }] := by decide

theorem witness_OtherOutcomesKeepMemory :
    ∀ o ∈ [BurstOutcome.frame 1 4 5 true 1100 1123, .orphan 1100 1123, .unmatched 1100 1123, .aborted 1100, .repeated 2 1100 1123],
    ∀ due ∈ [true, false],
      let s := withOutcome (some key) due o
      (s.link.get .A).outcome = some o ∧ s.pow.st ≠ .dormant ∧ ¬ retiresAtEnd s .A 1 ∧
      (s.rep.get .A).memory = some key ∧ (s.rep.get .A).due = due ∧ key.entry ≠ 2 ∧ ¬ staysEmptyAfterDisable s .A := by decide

/-- An aborted burst whose decoder is the last holder of the RETIRING entry that both memories name. -/
theorem witness_OtherOutcomesKeepMemory_retires :
    let s : State := { retiringFrame .idle with
      rep := ⟨⟨some key, true, false, false⟩, ⟨some key, false, false, false⟩⟩
      link := ⟨{ noLinks with outcome := some (.aborted 1000) }, noLinks⟩ }
    retiresAtEnd s .A key.entry ∧ (s.rep.get .A).memory = some key ∧ (s.rep.get .B).memory = some key ∧
    (s.link.get .A).outcome = some (.aborted 1000) ∧ (s.rep.get .A).due = false ∧ s.pow.st ≠ .dormant := by decide

theorem witness_MemoryExpiresWithRelease :
    let s : Bool → Bool → State := fun opened reached =>
      { linkA { noLinks with expireRequests := [2] } with rep := ⟨⟨some key, opened, false, reached⟩, State.reset.rep.b⟩ }
    (∀ opened ∈ [true, false], ∀ reached ∈ [true, false], ((s opened reached).rep.get .A).memory = some key ∧
      ((s opened reached).rep.get .A).opened = opened ∧ ((s opened reached).rep.get .A).dueReached = reached ∧
      ((s opened reached).link.get .A).expireRequests = [2] ∧ (s opened reached).rq.hasReference .A = false) ∧
    ((linkA { noLinks with expireRequests := [2] }).rep.get .A).memory = none ∧
    (State.reset.link.get .A).expireRequests = [] ∧ (State.reset.rep.get .A).memory = none := by decide

/-- A memory with a reference and an increment still on its way: the increment counts, and the RELEASE follows. -/
theorem witness_MemoryExpiresWithRelease_referred :
    let s : State := { posting 2 ⟨{ keyRecord with kind := .repeated, referred := false }, true, true⟩ with
      rep := ⟨⟨some key, false, false, true⟩, State.reset.rep.b⟩ }
    let t := after (.lfmDue .A) s
    s.rq.hasReference .A = true ∧ (s.rep.get .A).memory = some key ∧ t.rq.records.map (·.repeats) = [0, 1] ∧
    t.link.a.posts.map (·.record.kind) = [.release] := by decide

/-- A holder that leaves the last and one that does not, with a memory that names the entry. -/
theorem witness_LastHolderCompletesRetirement :
    let e : EntryControl := ⟨.retiring, true, false, false⟩
    let f : EntryControl := ⟨.retiring, true, false, true⟩
    ((withEntry1 e).entries[1].st = .retiring ∧ ((withEntry1 e).entries[1].setHolder (.decoder .A) false).unheld = true) ∧
    ¬ ((withEntry1 f).entries[1].st = .retiring ∧ ((withEntry1 f).entries[1].setHolder (.decoder .A) false).unheld = true) ∧
    (({ withEntry1 e with rep := ⟨⟨some key, false, false, false⟩, State.reset.rep.b⟩ } : State).rep.get .A).memory = some key ∧
    key.entry = 1 := by decide

theorem witness_QueueTakesPostsAndIncrements :
    let s := posting 15 ⟨keyRecord, false, false⟩
    let u := posting 16 ⟨keyRecord, true, true⟩
    (s.link.get .A).posts = [] ++ ⟨keyRecord, false, false⟩ :: [] ∧ s.rq.records.length < 16 ∧ 16 ≤ u.rq.records.length ∧
    u.rq.hasReference .A = true ∧
    u.rq.records = List.replicate 15 { keyRecord with line := .B, referred := false } ++ [keyRecord] ∧
    (State.reset.link.get .A).posts = [] := by decide

/-- A CHECK post ahead of an increment, and an increment ahead of a CHECK post: neither holds the other back. -/
theorem witness_QueueTakesPostsAndIncrements_past :
    let check : Post := ⟨{ keyRecord with check := true, referred := false }, false, false⟩
    let count : Post := ⟨{ keyRecord with kind := .repeated, referred := false }, true, true⟩
    let s : State := { linkA { noLinks with posts := [check, count] } with rq := queueOf 2 }
    let u : State := { linkA { noLinks with posts := [count, check] } with rq := queueOf 2 }
    (s.link.get .A).posts = [check] ++ count :: [] ∧ (u.link.get .A).posts = [count] ++ check :: [] ∧
    s.rq.hasReference .A = true ∧ (after (.repeatCountIncrement .A) s).rq.records.map (·.repeats) = [0, 1] ∧
    (after (.repeatCountIncrement .A) s).link.a.posts = [check] ∧ (after (.post .A) u).link.a.posts = [count] ∧
    (after (.post .A) u).rq.records.map (·.check) = [false, false, true] := by decide

theorem witness_HeadReadPlacesHold :
    State.reset.rq.records = [] ∧ ({ queueOf 1 with held := true } : ReceiveQueue).records = keyRecord :: [] ∧
    ({ queueOf 1 with held := true } : ReceiveQueue).held = true ∧ (queueOf 1).held = false ∧
    0x19 ≤ (0x19 : BitVec 6).toNat ∧ (0x27 : BitVec 6).toNat ≤ 0x27 := by decide

theorem witness_PopAndFlushRemoveRecords :
    (inPower .dormant).pow.st = .dormant ∧ State.reset.pow.st ≠ .dormant ∧ State.reset.rq.records = [] ∧
    (queueOf 1).records = keyRecord :: [] := by decide

/-- The boundary values of the watermark: 0, 1, 16 and 17. -/
theorem witness_WatermarkIsHeldInRange :
    State.reset.pow.st ≠ .dormant ∧ (inPower .dormant).pow.st = .dormant ∧ (0 : Byte) = 0 ∧ ¬ (17 ≤ (16 : Byte).toNat) ∧
    17 ≤ (17 : Byte).toNat ∧ watermarkOf 16 = 16 ∧ watermarkOf 1 = 1 := by decide

theorem witness_CaptureClaimsEligibleBurst :
    ∀ st ∈ [CaptureState.armed, .filling .B, .full (.line .A), .idle, .full .host],
      let s := capturing { capture with st := st } (.burstStart 0)
      (s.link.get .A).toCapture = .burstStart 0 :: [] ∧ s.pow.st ≠ .dormant ∧ s.cap.latchedSelect = .any ∧ s.cap.st = st := by
  decide

theorem witness_CaptureClaimsEligibleBurst_stamp :
    (after (.captureBurstStart .A) (capturing { capture with st := .armed } (.burstStart 1000))).cap.stamp = 1000 := by decide

theorem witness_CaptureClaimsEligibleBurst_not_eligible :
    let s := capturing { capture with st := .armed, latchedSelect := .b } (.burstStart 0)
    ¬ (s.cap.latchedSelect = .any ∨ (s.cap.latchedSelect = .a ∧ Line.A = .A) ∨ (s.cap.latchedSelect = .b ∧ Line.A = .B)) := by
  decide

theorem witness_CaptureElementIsAppended :
    ∀ count ∈ [255, 256], ∀ closed ∈ [true, false],
      let s := capturing { capture with st := .filling .A, count := count, closed := closed } (.element .mark 32768)
      (s.link.get .A).toCapture = .element .mark 32768 :: [] ∧ Memory.wf s.mem ∧ s.cap.st = .filling .A ∧
      s.cap.closed = closed ∧ s.cap.count = count := by decide

theorem witness_CloseAndReportDecideRecording :
    let c : Option Report → Bool → Capture := fun v closed =>
      { capture with st := .filling .A, verdict := v, closed := closed, lists := ⟨[.recorded], []⟩ }
    let s := capturing (c (some .unmatched) false) (.burstEnd 0)
    let u : State := { linkA { noLinks with reports := [.matched] } with cap := c none true }
    s.cap.st = .filling .A ∧ (s.link.get .A).toCapture = .burstEnd 0 :: [] ∧ s.cap.closed = false ∧
    s.cap.verdict = some .unmatched ∧ (c none false).verdict = none ∧
    (u.link.get .A).reports = .matched :: [] ∧ u.cap.lists.get .A = .recorded :: [] ∧ u.cap.closed = true ∧
    (⟨[.passed], []⟩ : PerLine (List Tag)).get .A = .passed :: [] ∧ Tag.passed ≠ .recorded := by decide

/-- An UNMATCHED report on a PASSED burst in DORMANT: the entry goes and MISSED stays clear. -/
theorem witness_CloseAndReportDecideRecording_dormant :
    let s : State := { linkA { noLinks with reports := [.unmatched] } with
      cap := { capture with st := .full (.line .A), lists := ⟨[.passed], []⟩ }, pow := (inPower .dormant).pow }
    s.pow.st = .dormant ∧ (s.link.get .A).reports = .unmatched :: [] ∧ s.cap.lists.get .A = .passed :: [] ∧
    (after (.captureReport .A) s).cap.missed = false ∧ (after (.captureReport .A) s).cap.lists.a = [] := by decide

theorem witness_CaptureCommandsFollowState :
    (inPower .dormant).pow.st = .dormant ∧ State.reset.pow.st ≠ .dormant ∧ capture.st = .idle ∧
    (∀ st ∈ [CaptureState.armed, .filling .B, .full .host, .full (.line .A)], (withCapture { capture with st := st }).cap.st = st) ∧
    capture.pins = 0 ∧ ({ capture with pins := 1 } : Capture).pins ≠ 0 ∧ capture.rearm = false ∧
    ({ capture with rearm := true } : Capture).rearm = true ∧ 1 ≤ (1 : BitVec 16).toNat ∧ (256 : BitVec 16).toNat ≤ 256 ∧
    capture.loadLength.toNat = 0 ∧ 257 ≤ (257 : BitVec 16).toNat := by decide

theorem witness_CaptureRegistersAreStored :
    (inPower .dormant).pow.st = .dormant ∧ State.reset.pow.st ≠ .dormant ∧ ({ capture with count := 256 } : Capture).count ≤ 256 ∧
    (0x04 : Byte) &&& 3 = 0 ∧ (0x05 : Byte) &&& 3 = 1 ∧ (0x0A : Byte) &&& 3 = 2 := by decide

theorem witness_TablePointerIsReadAndAdvanced :
    State.reset.pow.st ≠ .dormant ∧ (inPower .dormant).pow.st = .dormant ∧ (pointing State.reset 0x0FF).win.pointer.toNat = 255 ∧
    (pointing State.reset 0x3FF).win.pointer.toNat = 1023 := by decide

/-- Addresses at the edges of the ranges: the last byte of entry 7, the wake list, the hole, the capture buffer; and bytes 45
and 46 of an entry. -/
theorem witness_TableWriteIsJudgedByOwner :
    Memory.wf (withEntry1 enabledEntry).mem ∧ State.reset.pow.st = .active ∧ State.reset.cap.st = .idle ∧
    (∀ a ∈ [0x000, 45, 46, 0x17F, 0x180, 0x1C7, 0x1C8, 0x1FF, 0x200, 0x3FF], (pointing State.reset a).win.pointer.toNat = a) ∧
    (∃ n : Fin 8, 48 * n.val ≤ 0x17F ∧ 0x17F < 48 * n.val + 48 ∧ State.reset.entries[n].st = .disabled) ∧
    ¬ (∃ n : Fin 8, 48 * n.val ≤ 0x180 ∧ 0x180 < 48 * n.val + 48) ∧ ¬ (46 ≤ 45 % 48) ∧ 46 ≤ 46 % 48 ∧
    (withEntry1 enabledEntry).entries[1].st ≠ .disabled := by decide

theorem witness_FormatCommandsFollowEntryState :
    (inPower .dormant).pow.st = .dormant ∧ State.reset.pow.st ≠ .dormant ∧ 7 < (withArg State.reset 8).win.arg.toNat ∧
    (withArg State.reset 7).win.arg.toNat = (7 : Fin 8).val ∧ State.reset.entries[7].st = .disabled ∧
    (withEntry1 enabledEntry).entries[1].st = .enabled ∧ (withEntry1 enabledEntry).entries[1].unheld = true ∧
    (withEntry1 ⟨.enabled, true, false, false⟩).entries[1].unheld = false ∧
    (withEntry1 ⟨.retiring, true, false, false⟩).entries[1].st = .retiring ∧
    format1.validate 100 100 = .ok ∧ (formatAt [] 7).validate 100 100 ≠ .ok := by decide

theorem witness_PairValidationAcceptsExactly : format1.coding = .pair ∧ format1.validate 100 100 = .ok := by decide

/-- A failure at each of the steps, from the BIPHASE entry 3 and the PAIR entry 1. -/
theorem witness_PairValidationAcceptsExactly_steps :
    ({ format3 with coding := .illegal } : Format).validate 100 100 = .badCoding ∧
    ({ format3 with minBits := 0 } : Format).validate 100 100 = .badBits ∧
    ({ format3 with headerMark := ⟨1, 1⟩ } : Format).validate 100 100 = .badWindow ∧
    ({ format1 with space1 := format1.space0 } : Format).validate 100 100 = .ambiguous ∧
    ({ format3 with repeatKind := .code } : Format).validate 100 100 = .badRepeat ∧ format3.validate 21 100 = .exceedsIdle ∧
    ({ format3 with period := 79 } : Format).validate 100 100 = .badCarrier ∧
    ({ format3 with txGap := 0 } : Format).validate 100 100 = .badTiming ∧ format3.validate 100 100 = .ok := by decide

theorem witness_StagingIsStoredAndSubmitted :
    State.reset.pow.st ≠ .dormant ∧ (inPower .dormant).pow.st = .dormant ∧ (inPower .listen).pow.st ≠ .active ∧
    staged.pow.st = .active ∧ staged.tx.jobs.length < 4 ∧ 4 ≤ (List.replicate 4 job).length ∧
    (List.replicate 3 job).length < 4 ∧ staged.tx.staging.kindFlags &&& 3 = 1 ∧
    staged.tx.staging.format.toNat = (1 : Fin 8).val ∧ staged.entries[1].st = .enabled ∧ State.reset.entries[1].st ≠ .enabled ∧
    (staged.format 1).minBits ≤ 4 ∧ 4 ≤ (staged.format 1).maxBits ∧ (3 < (staged.format 1).minBits) ∧
    ((staged.format 1).maxBits < 5) ∧ (0 : Byte) &&& 3 = 0 ∧ (0x83 : Byte) &&& 3 = 3 ∧ (0x82 : Byte) &&& 3 = 2 ∧
    7 < (8 : Byte).toNat := by decide

theorem witness_JobStartsOrIsUnavailable :
    let s : State := { staged with tx := { staged.tx with jobs := [job] } }
    s.tx.jobs = job :: [] ∧ s.tx.st = .idle ∧ s.pow.st = .active ∧ s.tx.completions.length < 4 ∧ job.entry = some 1 ∧
    s.entries[1].st = .enabled ∧ State.reset.entries[1].st ≠ .enabled ∧ ({ job with format := 8 } : Job).entry = none ∧
    job.blanks .A = true ∧ job.blanks .B = false ∧ 4 ≤ (List.replicate 4 (⟨0, .done, 0⟩ : Completion)).length ∧
    (List.replicate 3 (⟨0, .done, 0⟩ : Completion)).length < 4 := by decide

/-- Burst 3 of 3 is the last, burst 2 is not. -/
theorem witness_BurstEndLeadsToGapOrJobEnd :
    (active .burst).tx.st = .burst ∧ (active .burst).tx.jobs = job :: [] ∧ job.entry = some 1 ∧
    (active .burst).entries[1].st ≠ .retiring ∧ State.reset.tx.st ≠ .burst ∧
    ¬ ((active .burst).tx.stopping = false ∧ (job.kindFlags.getLsbD 7 = true ∨ 3 < 1 + job.repeats.toNat)) ∧
    ((active .burst).tx.stopping = false ∧ (job.kindFlags.getLsbD 7 = true ∨ 2 < 1 + job.repeats.toNat)) := by decide

theorem witness_GapTailAndGuardRunOut :
    (active .gap).tx.st = .gap ∧ (active .gap).tx.jobs = job :: [] ∧ job.entry = some 1 ∧ (active .tail).tx.st = .tail ∧
    State.reset.tx.st ≠ .gap ∧ State.reset.tx.st ≠ .tail ∧ (State.reset.fe.get .A).guardHold = none ∧
    ((withA { feA with st := .blanked, guardHold := some 705200 }).fe.get .A).guardHold = some 705200 ∧
    ((withA { feA with st := .blanked, guardHold := some 705200 }).fe.get .A).txHold = false ∧
    ((withA { feA with st := .blanked, guardHold := some 705200, txHold := true }).fe.get .A).txHold = true ∧
    ((withA { feA with guardHold := some 705200 }).fe.get .A).st ≠ .blanked := by decide

/-- Replay and frame jobs, a CODE entry at its first and second burst, and an instant inside the second of two elements. -/
theorem witness_BurstIsBuiltFromEntry :
    ({ job with kindFlags := 0x02 } : Job).kind = .replay ∧ job.kind ≠ .replay ∧ format1.coding ≠ .biphase ∧
    format1.repeatKind = .code ∧ 1 < 2 ∧ format3.repeatKind ≠ .code ∧ State.reset.tx.st ≠ .burst ∧
    (active .burst).tx.st = .burst ∧ (active .burst).tx.elements = [] ++ ⟨.mark, 6150⟩ :: [] ∧
    (640000 : Nat) + 8 * burstLength [] ≤ 640000 ∧ (689199 : Nat) < 640000 + 8 * (burstLength [] + 6150) := by decide

theorem witness_StopTxAndPopCompletion :
    State.reset.pow.st ≠ .dormant ∧ (inPower .dormant).pow.st = .dormant ∧ State.reset.tx.st = .idle ∧
    (active .tail).tx.st = .tail ∧ (active .burst).tx.jobs = job :: [] ∧ job.entry = some 1 ∧
    (active .burst).entries[1].st ≠ .retiring ∧ (active .burst).tx.st = .burst ∧ (active .gap).tx.st = .gap ∧
    State.reset.tx.completions = [] ∧ (after .txBurstEnd (active .burst)).tx.completions = ⟨7, .done, 3⟩ :: [] := by decide

theorem witness_AbortCutsActiveJob :
    State.reset.pow.st ≠ .dormant ∧ (withArg State.reset 2).win.arg ≠ 0 ∧ (withArg State.reset 2).win.arg ≠ 1 ∧
    (withArg (active .burst) 0).win.arg = 0 ∧ (withArg (active .burst) 1).win.arg = 1 ∧ (active .tail).tx.st = .tail ∧
    (withArg (active .burst) 1).tx.jobs = job :: [] ∧ job.entry = some 1 ∧ (active .burst).entries[1].st ≠ .retiring ∧
    (active .burst).tx.st = .burst ∧ (active .gap).tx.st = .gap := by decide

theorem witness_ListenWakeUpAndClearWake :
    (inPower .dormant).pow.st = .dormant ∧ (inPower .listen).pow.st = .listen ∧ State.reset.pow.st = .active ∧
    State.reset.tx.st = .idle ∧ State.reset.tx.jobs = [] ∧ (active .burst).pow.st = .active ∧ (active .burst).tx.st ≠ .idle ∧
    State.reset.fe.a.st = .off ∧ (lineA .parked true none 0).st ≠ .off := by decide

/-- ENTER DORMANT with the masks 3 and 4, from a state with a burst on line A, a memory to release and a recording under way. -/
theorem witness_EnterDormantQuietsProcessor :
    let s : State := { withArg (withA (lineA .mark false none 0)) 3 with
      rep := ⟨⟨some key, true, true, false⟩, State.reset.rep.b⟩
      cap := { capture with st := .filling .A, count := 2, lists := ⟨[.recorded], []⟩ } }
    s.pow.st ≠ .dormant ∧ s.win.arg.toNat ≤ 3 ∧ 3 < (withArg s 4).win.arg.toNat ∧ s.tx.st = .idle ∧ s.tx.jobs = [] ∧
    (active .tail).tx.st ≠ .idle ∧ (s.fe.get .A).st = .mark ∧ (s.fe.get .B).st = .off ∧ (s.rep.get .A).memory = some key ∧
    (s.link.get .A).toDecoder = [] ∧ (s.link.get .A).outcome = none ∧ (s.link.get .A).posts = [] ∧
    s.cap.st = .filling .A := by decide

/-- ENTER DORMANT with a frame on its way to the repeat unit of a line with a burst in progress: the queue takes the frame and
then its RELEASE within the entry. -/
theorem witness_EnterDormantQuietsProcessor_inFlight :
    let o := withOutcome none false (.frame 1 4 5 false 1000 1023)
    let s : State := { o with
      fe := ⟨lineA .mark false none 0, o.fe.b⟩, link := ⟨{ o.link.a with toDecoder := [.burstStart 1024] }, o.link.b⟩ }
    let t := after .enterDormant s
    s.pow.st ≠ .dormant ∧ s.win.arg.toNat ≤ 3 ∧ s.tx.st = .idle ∧ s.tx.jobs = [] ∧ ((s.settleInFlight .A).dec.get .A).st ≠ .wait ∧
    t.rq.records.map (·.kind) = [.frame, .release] ∧ t.link.a.posts = [] ∧ t.dec.a.st = .wait ∧
    t.link.a.reports = [.aborted] ∧ t.link.a.toCapture = [.burstAbort .dormant] := by decide

/-- ENTER DORMANT with a memory to release on each line, one free slot, and a request to expire on its way: the RELEASE of the
line that goes first is appended, the other is lost at the entry (R94), and the request is taken with it. -/
theorem witness_EnterDormantQuietsProcessor_loses :
    let s : State := { linkA { noLinks with expireRequests := [0] } with
      rep := ⟨⟨some key, false, false, false⟩, ⟨some key, false, false, false⟩⟩, rq := queueOf 15 }
    s.rq.records.length = 15 ∧ ∀ first ∈ [Line.A, .B],
      let t := s.goDormantIn 0 ⟨.A, ⟨false, false⟩, .A, first⟩
      t.rq.records.length = 16 ∧ t.irq.loss = true ∧ t.link.a.expireRequests = [] ∧
      (t.rq.records.getLast?.map fun r => (r.kind, r.line, r.loss, r.lost)) = some (.release, first, true, 1) ∧
      t.link.a.posts = [] ∧ t.link.b.posts = [] := by decide

/-- ENTER DORMANT in a burst whose decoder is the last holder of RETIRING entry 1, which the memory names: with the expiry before
the abort the RELEASE is posted, with the expiry after it the memory is cleared (R87, R159). -/
theorem witness_EnterDormantQuietsProcessor_retires : ∀ late ∈ [true, false],
    let o := retiringFrame .mark
    let s : State := { o with link := State.reset.link, rep := ⟨⟨some key, true, false, false⟩, o.rep.b⟩ }
    let t := s.goDormantIn 0 ⟨.A, ⟨late, false⟩, .A, .A⟩
    t.rq.records.map (·.kind) = (if late then [] else [.release]) ∧ t.rep.a.memory = none ∧ t.irq.retired = true ∧
    t.entries[1].st = .disabled := by decide

theorem witness_WakeEdgeAndWakeMatch :
    (State.reset.link.get .A).wakeEdges = 0 ∧ (State.reset.link.get .A).offers = [] ∧
    ((linkA { noLinks with wakeEdges := 1 }).link.get .A).wakeEdges = 0 + 1 ∧ State.reset.pow.st ≠ .dormant ∧
    (inPower .dormant).pow.st = .dormant ∧ (offered.link.get .A).offers = ⟨3, 14, 0x380C⟩ :: [] ∧ offered.pow.st = .listen ∧
    (wakeEntryAt offered.mem 1).matchesOffer .A ⟨3, 14, 0x380C⟩ = true ∧
    (wakeEntryAt offered.mem 0).matchesOffer .A ⟨3, 14, 0x380C⟩ = false ∧
    (∀ n : Fin 4, (wakeEntryAt offered.mem n).matchesOffer .B ⟨3, 14, 0x380C⟩ = false) := by decide

theorem witness_InterruptCausesAndMask : State.reset.pow.st ≠ .dormant ∧ (inPower .dormant).pow.st = .dormant := by decide

theorem witness_PlainRegistersAndDormantWindow :
    State.reset.pow.st ≠ .dormant ∧ (inPower .dormant).pow.st = .dormant ∧ (0x04 : BitVec 6).toNat ≤ 0x04 ∧
    (0x19 ≤ (0x19 : BitVec 6).toNat ∧ (0x27 : BitVec 6).toNat ≤ 0x27) ∧
    (0x3A ≤ (0x3A : BitVec 6).toNat ∧ (0x3D : BitVec 6).toNat ≤ 0x3D) ∧ (Instr.unknownCommand 0x5B).WellFormed = true ∧
    (0x3F : BitVec 6) ≠ 0x05 ∧ (0x3F : BitVec 6) ≠ 0x16 := by decide

/-- A byte that changes, in each region of the table space. -/
theorem witness_StoredBytesChangeOnlyByTheirOwners :
    (Instr.tableDataWrite 1).WellFormed = true ∧ Instr.tableDataWrite 1 ≠ .powerOnReset ∧
    (∀ a ∈ [0x000, 45, 0x180, 0x1C7, 0x200, 0x3FF],
      Memory.read (after (.tableDataWrite 1) (pointing State.reset a)).mem a ≠ Memory.read State.reset.mem a) ∧
    Memory.read (after (.captureElement .A) (capturing { capture with st := .filling .A } (.element .mark 1))).mem 0x201 ≠ 0 := by
  decide

/-! #### States that meet the laws, and a step from each -/

/-- A recording of one byte. -/
def tableState : State := { State.reset with mem := [(0x200, 1)], pending := [.timeTick] }

theorem witness_TableLawIsKept : TableLaw tableState ∧ ∃ t, step tableState = .next t := by
  refine ⟨⟨by decide, fun a h => ?_⟩, _, rfl⟩
  have : a ≠ 0x200 := by rintro rfl; revert h; decide
  simp [tableState, Memory.read, Ne.symm this]

/-- A full queue with its head held, the newest record the reference of a memory, and a post on its way. -/
def queueState : State :=
  { linkA { noLinks with posts := [⟨{ keyRecord with referred := false }, false, false⟩] } with
    rq := { queueOf 16 with held := true }
    rep := ⟨⟨some key, false, false, false⟩, State.reset.rep.b⟩
    pending := [.post .A] }

theorem witness_QueueLawIsKept : QueueLaw queueState ∧ ∃ t, step queueState = .next t := by
  refine ⟨⟨by decide, by decide, by decide, by decide, by decide, fun l => ⟨?_, fun m h => ?_⟩⟩, _, rfl⟩
  · cases l <;> decide
  · cases l <;> cases h
    decide

theorem witness_ReferenceLawIsKept : (QueueLaw queueState ∧ ReferenceLaw queueState) ∧ ∃ t, step queueState = .next t := by
  refine ⟨⟨witness_QueueLawIsKept.1, fun _ r h => by cases h; rfl, fun l => ?_⟩, _, rfl⟩
  have mem : ∀ r ∈ queueState.rq.records, r.refersFor .A = true →
      ∃ m, (queueState.rep.get .A).memory = some m ∧ carries .A m r := by
    intro r hr h
    have : r = keyRecord := by
      revert h
      revert r
      decide
    subst this
    exact ⟨key, rfl, by decide, by decide, by decide, by decide, by decide⟩
  have none : ∀ (l : Line) (p : Post), p ∈ (queueState.link.get l).posts → p.refers = false := by
    intro l
    cases l <;> decide
  have free : ∀ p ∈ (queueState.link.get l).posts, p.refers = true →
      ∃ m, (queueState.rep.get l).memory = some m ∧ carries l m p.record := fun p hp h =>
    absurd h (by rw [none l p hp]; decide)
  cases l
  · exact ⟨by decide, mem, by decide, free, by decide, by decide⟩
  · refine ⟨by decide, fun r hr h => absurd h ?_, by decide, free, by decide, by decide⟩
    revert r
    decide

/-- A burst on line A with a candidate of entry 1, and a job of entry 1 active, with line A blanked. -/
def busyState : State :=
  { active .gap with
    entries := State.reset.entries.set 1 ⟨.retiring, true, false, true⟩
    dec := ⟨⟨.active, 1000, [frame1 none []]⟩, State.reset.dec.b⟩
    rep := ⟨⟨some key, true, false, false⟩, State.reset.rep.b⟩
    pending := [.stopTx] }

theorem witness_HolderLawIsKept : HolderLaw busyState ∧ ∃ t, step busyState = .next t := by
  refine ⟨⟨fun n l => ?_, fun l h => ?_, by unfold jobActiveNow; decide, fun n => ?_, by decide, by decide, fun l m h => ?_,
    fun l o n h => ?_⟩, _, rfl⟩
  · cases l <;> revert n <;> decide
  · cases l
    · exact absurd h (by decide)
    · rfl
  · have : jobActiveNow busyState := Or.inr rfl
    constructor
    · intro h
      have : n = 1 := by
        revert n
        decide
      subst this
      exact ⟨Or.inr rfl, job, rfl, by decide⟩
    · rintro ⟨-, j, hj, hn⟩
      cases hj
      have : n = 1 := by
        revert n
        decide
      subst this
      decide
  · cases l <;> cases h
    decide
  · cases l <;> cases h

/-- Entry 1 ENABLED on line A with IDLE 100, above its windows. -/
theorem witness_IdleLawIsKept :
    IdleLaw { withEntry1 enabledEntry with pending := [.idleWrite .A 23] } ∧
    ∃ t, step { withEntry1 enabledEntry with pending := [.idleWrite .A 23] } = .next t := by
  refine ⟨fun n l => ?_, _, rfl⟩
  cases l <;> revert n <;> decide

theorem witness_JobAndPinLawsAreKept :
    JobLaw busyState ∧ PinLaw busyState ∧ ∃ t, step busyState = .next t := by
  refine ⟨⟨by decide, by decide, by decide, fun _ => by decide, by decide⟩, by unfold PinLaw; decide, _, rfl⟩

/-- In ACTIVE, a line blanked by an active job, whose memory holds a frame; in DORMANT, a line in WATCH whose wake edge is on its
way. -/
theorem witness_LineLawIsKept :
    LineLaw busyState ∧ LineLaw { withA (lineA .watch true none 0) with
      link := ⟨{ noLinks with wakeEdges := 1 }, noLinks⟩, pow := (inPower .dormant).pow } := by
  refine ⟨⟨fun l => ?_, fun h => absurd h (by decide)⟩, ⟨fun l => ?_, fun _ => ⟨by decide, by decide, ?_, fun l => ?_⟩⟩⟩
  · cases l
    · exact ⟨by decide, fun _ => Or.inr rfl, by decide, by decide⟩
    · exact ⟨by decide, fun h => absurd h (by decide), by decide, by decide⟩
  · cases l
    · exact ⟨by decide, fun h => absurd h (by decide), by decide, by decide⟩
    · exact ⟨by decide, fun h => absurd h (by decide), by decide, by decide⟩
  · intro l
    cases l <;> decide
  · cases l <;> decide

/-- RESET# is low, and a write that is discarded waits. -/
theorem witness_LineLawIsKept_reset :
    ResetLaw { held with pending := [.registerWrite 0x3E 7] } ∧ held.pow.resetHeld = true ∧
    ∃ t, step { held with pending := [.registerWrite 0x3E 7] } = .next t :=
  ⟨fun _ => ⟨⟨true, true, rfl⟩, rfl, rfl, rfl, rfl, rfl, rfl, rfl, ⟨.pin, rfl⟩, rfl, rfl, rfl, rfl⟩, rfl, _, rfl⟩

end Sys2Proof.Tests
end

