-- ==== Sys2Proof/Proofs/Outcomes.lean ====
section
/-! SUPPORT. Reading the outcome of a row, and what a guarded host access can come to: the layer under the statements about
every row. -/

namespace Sys2Proof.Machine

open Sys2Proof (Byte Time Payload Line)

/-! ### Outcomes -/

/-- Every next state that an outcome answers meets `P`. -/
def AllNext (P : State → Prop) (o : Host.Outcome State Fault Refusal) : Prop := ∀ t, o = .next t → P t

theorem AllNext.next {P : State → Prop} {u : State} (h : P u) : AllNext P (.next u) := by
  intro t ht
  cases ht
  exact h

theorem AllNext.mono {P Q : State → Prop} {o : Host.Outcome State Fault Refusal} (h : AllNext P o) (hPQ : ∀ t, P t → Q t) :
    AllNext Q o := fun t ht => hPQ t (h t ht)

/-! ### Host accesses -/

/-- A write to the window is discarded or done. -/
theorem State.windowWrite_cases (s : State) (f : State → State) : s.windowWrite f = s ∨ s.windowWrite f = f s := by
  cases h : s.pow.resetHeld with
  | true => exact .inl (s.windowWrite_held f h)
  | false => exact .inr (s.windowWrite_running f h)

/-- A register write is discarded, refused or done. -/
theorem State.registerAccess_cases (s : State) (f : State → State) :
    s.registerAccess f = s ∨ s.registerAccess f = s.refuseAccess ∨ s.registerAccess f = f s := by
  cases h : s.pow.resetHeld with
  | true => exact .inl (s.registerAccess_held f h)
  | false =>
    by_cases hd : s.pow.st = .dormant
    · exact .inr (.inl (s.registerAccess_dormant f h hd))
    · exact .inr (.inr (s.registerAccess_awake f h hd))

/-- A command is discarded, refused or carried out. -/
theorem State.command_cases (s : State) (f : State → State × CommandResult) :
    s.command f = s ∨ s.command f = s.setResult .state ∨ s.command f = (f s).1.setResult (f s).2 := by
  cases h : s.pow.resetHeld with
  | true => exact .inl (s.command_held f h)
  | false =>
    by_cases hd : s.pow.st = .dormant
    · exact .inr (.inl (s.command_dormant f h hd))
    · exact .inr (.inr (s.command_awake f h hd))

/-- A view of the state in which the window's own marks of an access do not show: a command's result, a refused write and
the byte on the bus. -/
structure WindowBlind {α : Type} (view : State → α) : Prop where
  setResult : ∀ (s : State) (r : CommandResult), view (s.setResult r) = view s
  refuseAccess : ∀ s : State, view s.refuseAccess = view s
  driveBus : ∀ (s : State) (v : Byte), view (s.driveBus v) = view s

section
variable {α : Type} {view : State → α} {s : State}

theorem WindowBlind.registerAccess (hv : WindowBlind view) {f : State → State} (hf : view (f s) = view s) :
    view (s.registerAccess f) = view s := by
  rcases s.registerAccess_cases f with h | h | h
  · rw [h]
  · rw [h, hv.refuseAccess]
  · rw [h, hf]

theorem WindowBlind.command (hv : WindowBlind view) {f : State → State × CommandResult} (hf : view (f s).1 = view s) :
    view (s.command f) = view s := by
  rcases s.command_cases f with h | h | h
  · rw [h]
  · rw [h, hv.setResult]
  · rw [h, hv.setResult, hf]

theorem WindowBlind.windowRead (hv : WindowBlind view) {v : Byte} {f : State → State} (hf : view (f s) = view s) :
    view (s.windowRead v f) = view s := by
  cases h : s.pow.resetHeld with
  | true => rw [s.windowRead_held v f h, hv.driveBus]
  | false => rw [s.windowRead_running v f h, hv.driveBus, hf]

/-- What WAKE UP keeps, its command keeps. -/
theorem WindowBlind.commandWakeUp (hv : WindowBlind view) (hw : view s.wakeUp = view s) : view s.commandWakeUp = view s := by
  rcases s.windowWrite_cases fun s => s.wakeUp.setResult .ok with h | h
  · rw [State.commandWakeUp, h]
  · rw [State.commandWakeUp, h, hv.setResult, hw]

/-- What no command of Table 9-8 but SOFT RESET changes, a write to COMMAND changes only as a SOFT RESET. -/
theorem WindowBlind.writeCommand (hv : WindowBlind view) (hc : ∀ k, k ≠ .softReset → view (s.carryOut k) = view s)
    {code : Byte} (h : commandOf code ≠ some .softReset) : view (s.writeCommand code) = view s := by
  unfold State.writeCommand
  split
  · rcases s.windowWrite_cases fun s => s.setResult .unknown with h | h
    · rw [h]
    · rw [h, hv.setResult]
  · next k hk => exact hc k fun e => h (e ▸ hk)

end

/-- SOFT RESET is the command of the code 0x5A and of no other. -/
theorem commandOf_eq_softReset {code : Byte} : commandOf code = some .softReset ↔ code = 0x5A := by
  revert code
  decide

/-! ### Deliveries -/

/-- The rows by which one block takes what another has sent it, but for the wake edge. -/
def isDelivery : Instr → Bool
  | .decoderBurstStart _ | .decoderElement _ | .decoderBurstEnd _ | .decoderBurstAbort _ => true
  | .outcomeTaken _ | .lfmDue _ | .expireRequest _ | .post _ | .repeatCountIncrement _ => true
  | .captureBurstStart _ | .captureElement _ | .captureClose _ | .captureReport _ | .wakeOffer _ => true
  | _ => false

/-- A delivery touches no front end, no transmitter, no register of the window and no clock. -/
theorem exec_delivery_frame {c : Instr} (hc : isDelivery c = true) (s : State) :
    AllNext (fun t => t.pending = s.pending ∧ t.fe = s.fe ∧ t.tx = s.tx ∧ t.win = s.win ∧ t.clock = s.clock) (exec c s) := by
  cases c with
  | decoderBurstStart l =>
    show AllNext _ (execDecoderBurstStart l s)
    unfold execDecoderBurstStart
    split <;> exact .next (by simp)
  | decoderElement l =>
    show AllNext _ (execDecoderElement l s)
    unfold execDecoderElement
    split <;> exact .next (by simp)
  | decoderBurstEnd l =>
    show AllNext _ (execDecoderBurstEnd l s)
    unfold execDecoderBurstEnd
    split <;> exact .next (by simp)
  | decoderBurstAbort l =>
    show AllNext _ (execDecoderBurstAbort l s)
    unfold execDecoderBurstAbort
    split <;> exact .next (by simp)
  | outcomeTaken l => exact .next (by simp)
  | lfmDue l =>
    show AllNext _ (execLfmDue l s)
    unfold execLfmDue
    split
    · split <;> exact .next (by simp)
    · exact .next (by simp)
  | expireRequest l =>
    show AllNext _ (execExpireRequest l s)
    unfold execExpireRequest
    split <;> exact .next (by simp)
  | post l =>
    show AllNext _ (execPost l s)
    unfold execPost
    split <;> exact .next (by simp)
  | repeatCountIncrement l =>
    show AllNext _ (execRepeatCountIncrement l s)
    unfold execRepeatCountIncrement
    split <;> exact .next (by simp)
  | captureBurstStart l =>
    show AllNext _ (execCaptureBurstStart l s)
    unfold execCaptureBurstStart
    split <;> exact .next (by simp)
  | captureElement l =>
    show AllNext _ (execCaptureElement l s)
    unfold execCaptureElement
    split
    · split <;> exact .next (by simp)
    · exact .next (by simp)
  | captureClose l =>
    show AllNext _ (execCaptureClose l s)
    unfold execCaptureClose
    split <;> exact .next (by simp)
  | captureReport l =>
    show AllNext _ (execCaptureReport l s)
    unfold execCaptureReport
    split <;> exact .next (by simp)
  | wakeOffer l =>
    show AllNext _ (execWakeOffer l s)
    unfold execWakeOffer
    split <;> exact .next (by simp)
  | _ => cases hc

/-! ### Events that may not occur

A row that stands for an event leaves the state as it is when the event does not occur. What holds of that state and of the
state after the event holds of every next state of the row. -/

section
variable {P : State → Prop} {s : State}

theorem execGlitchTestAccept_allNext {l : Line} (h₀ : P s)
    (h : ∀ g, (s.fe.get l).test = some g → P ((s.reachInstant ((s.fe.get l).acceptInstant g)).acceptEdge l g)) :
    AllNext P (execGlitchTestAccept l s) := by
  unfold execGlitchTestAccept
  split
  · exact .next h₀
  · next g hg => exact .next (h g hg)

theorem execGuardHoldEnd_allNext {l : Line} (h₀ : P s)
    (h : ∀ t, (s.fe.get l).guardHold = some t → P ((s.reachInstant t).endGuardHold l)) :
    AllNext P (execGuardHoldEnd l s) := by
  unfold execGuardHoldEnd
  split
  · exact .next h₀
  · next t ht => exact .next (h t ht)

/-- A job start finds its entry ENABLED, or the job completes UNAVAILABLE. -/
theorem execJobStart_allNext (h₀ : P s) (hu : ∀ j, s.tx.jobs.head? = some j → P (s.jobUnavailable j))
    (ha : ∀ j n, s.tx.jobs.head? = some j → j.entry = some n → s.entries[n].st = .enabled → P (s.jobActive j n)) :
    AllNext P (execJobStart s) := by
  unfold execJobStart
  split
  · exact .next h₀
  · next j js hj =>
    have hhead : s.tx.jobs.head? = some j := by rw [hj, List.head?_cons]
    split
    · split
      · exact .next (hu j hhead)
      · next n hn =>
        split
        · next hst => exact .next (ha j n hhead hn hst)
        · exact .next (hu j hhead)
    · exact .next h₀

theorem execTxBurstEnd_allNext (h₀ : P s)
    (h : ∀ j, s.tx.st = .burst → s.tx.jobs.head? = some j → P (((s.reachInstant s.tx.burstEnd).countBurst).afterBurst j)) :
    AllNext P (execTxBurstEnd s) := by
  unfold execTxBurstEnd
  split
  · next j js hst hj => exact .next (h j hst (by rw [hj, List.head?_cons]))
  · exact .next h₀

theorem execNextBurstStart_allNext (h₀ : P s)
    (h : ∀ j, s.tx.st = .gap → s.tx.jobs.head? = some j →
      P ((s.reachInstant s.tx.nextStart).beginBurst (s.jobFormat j) j (s.tx.index + 1) s.tx.nextStart)) :
    AllNext P (execNextBurstStart s) := by
  unfold execNextBurstStart
  split
  · next j js hst hj => exact .next (h j hst (by rw [hj, List.head?_cons]))
  · exact .next h₀

theorem execTailEnd_allNext (h₀ : P s)
    (h : s.tx.st = .tail → P { s.reachInstant s.tx.tailEnd with tx := { s.tx with st := .idle } }) :
    AllNext P (execTailEnd s) := by
  unfold execTailEnd
  split
  · next hst => exact .next (h hst)
  · exact .next h₀

/-- A WAKE EDGE is taken off its link, and wakes the processor in DORMANT alone. -/
theorem execWakeEdge_allNext {l : Line} (h₀ : P s)
    (hw : ∀ k, s.pow.st = .dormant → P ((s.setLink l { s.link.get l with wakeEdges := k }).wakeByEdge l))
    (hd : ∀ k, s.pow.st ≠ .dormant → P (s.setLink l { s.link.get l with wakeEdges := k })) :
    AllNext P (execWakeEdge l s) := by
  unfold execWakeEdge
  split
  · exact .next h₀
  · next k hk =>
    refine .next ?_
    split
    · next hst => exact hw k hst
    · next hst => exact hd k hst

end

end Sys2Proof.Machine
end

