-- ==== Sys2Proof/Proofs/ReceiveReset.lean ====
section
/-! PROOF. O3: every kind of reset leaves the receive side at its reset values. -/

namespace Sys2Proof.Machine

open Sys2Proof (Byte Time Payload Line)
open Sys2Proof.Safety (resetRow)

/-- The table space that a reset of each kind leaves (R41, R129, R172). -/
def ResetKind.tableSpace (k : ResetKind) (m : List Host.Cell) : List Host.Cell :=
  match k with
  | .powerOn => []
  | .pin => m
  | .soft => m

/-- Each kind of reset, taken whole, leaves every block at its reset values. A SOFT RESET is taken while no other reset is
held. -/
theorem exec_resetRow {k : ResetKind} {s : State} (h : k = .soft → s.pow.resetHeld = false) :
    exec (resetRow k) s = .next (s.resetTo k (k.tableSpace s.mem)) := by
  cases k with
  | powerOn => rfl
  | pin => rfl
  | soft =>
    have hw := s.windowWrite_running (fun s => s.resetTo .soft s.mem) (h rfl)
    exact congrArg Host.Outcome.next hw

/-- The views of the head record read 0 while the queue is empty (R97). -/
theorem State.readQueue_of_empty {s : State} (h : s.rq.records = []) {n : Nat} (hn : 0x19 ≤ n) : s.readQueue n = 0 := by
  unfold State.readQueue
  split
  case h_1 => omega
  case h_2 => omega
  all_goals simp only [ReceiveQueue.headKindLine, ReceiveQueue.headView, h]

/-- The registers from 0x17 to 0x27 show the receive queue. -/
theorem State.readRegister_queue (s : State) {off : BitVec 6} (h₀ : 0x17 ≤ off.toNat) (h₁ : off.toNat ≤ 0x27) :
    s.readRegister off = s.readQueue off.toNat := by
  rw [State.readRegister, if_neg (by omega), if_pos (by omega)]

end Sys2Proof.Machine

open Sys2Proof Sys2Proof.Machine Sys2Proof.Safety

/-- Settles O3: the state after a reset is `State.resetTo`, whose blocks are the constants `*.reset`; the head views of its
queue read 0, because it is empty. -/
theorem resetClearsReceiveSide : Obligations.ResetClearsReceiveSide := by
  intro k s hk
  refine ⟨_, exec_resetRow hk, fun l => ?_, rfl, rfl, rfl, rfl, rfl, rfl, fun off h₀ h₁ => ?_⟩
  · cases l <;> simp [State.resetTo, State.afterReset, FrontEnd.reset, FrontEnd.enabled, Decoder.reset, RepeatUnit.reset,
      Links.reset, ReceiveQueue.reset, ReceiveQueue.hasReference, State.repeatedMemory]
  · rw [State.readRegister_queue _ (by omega) h₁]
    exact State.readQueue_of_empty rfl h₀

end

