-- ==== Sys2Proof/Proofs/Snapshot.lean ====
section
/-! PROOF. O7: the snapshot of TIME LO and TIME HI. -/

namespace Sys2Proof.Machine

open Sys2Proof (Byte Time Payload Line)
open Sys2Proof.Safety (isReset)

/-! ### The operations that move the clock keep the snapshot -/

@[simp] theorem State.thresholdEvent_snapshot (s : State) (l : Line) (st : LineState) :
    (s.thresholdEvent l st).clock.snapshot = s.clock.snapshot := by
  unfold State.thresholdEvent
  split
  · rfl
  · split <;> simp

@[simp] theorem State.tick_snapshot (s : State) : s.tick.clock.snapshot = s.clock.snapshot := by
  simp [State.tick]

@[simp] theorem State.goDormant_snapshot (s : State) (mask : Byte) :
    (s.goDormant mask).clock.snapshot = s.clock.snapshot := by
  simp [State.goDormant, State.goDormantIn]

@[simp] theorem State.enterDormant_snapshot (s : State) : s.enterDormant.1.clock.snapshot = s.clock.snapshot := by
  unfold State.enterDormant
  split
  · rfl
  · split <;> simp

@[simp] theorem State.leaveDormant_snapshot (s : State) (p : PowerState) :
    (s.leaveDormant p).clock.snapshot = s.clock.snapshot := by
  simp [State.leaveDormant]

@[simp] theorem State.wakeUp_snapshot (s : State) : s.wakeUp.clock.snapshot = s.clock.snapshot := by
  unfold State.wakeUp
  split <;> simp

@[simp] theorem State.wakeByEdge_snapshot (s : State) (l : Line) :
    (s.wakeByEdge l).clock.snapshot = s.clock.snapshot := by
  simp [State.wakeByEdge]

/-! ### Host accesses -/

theorem snapshot_windowBlind : WindowBlind fun s => s.clock.snapshot := ⟨fun _ _ => rfl, fun _ => rfl, fun _ _ => rfl⟩

theorem State.storeRegister_snapshot (s : State) (off : Nat) (v : Byte) :
    (s.storeRegister off v).clock.snapshot = s.clock.snapshot := by
  unfold State.storeRegister
  split
  case h_19 => split <;> simp
  all_goals simp

theorem State.carryOut_snapshot (s : State) {k : CommandCode} (hk : k ≠ .softReset) :
    (s.carryOut k).clock.snapshot = s.clock.snapshot := by
  cases k with
  | softReset => exact absurd rfl hk
  | wakeUp => exact snapshot_windowBlind.commandWakeUp (by simp)
  | _ => exact snapshot_windowBlind.command (by simp)

/-- A write to COMMAND keeps the snapshot unless it is a SOFT RESET. -/
theorem State.writeCommand_snapshot (s : State) {code : Byte} (h : code ≠ 0x5A) :
    (s.writeCommand code).clock.snapshot = s.clock.snapshot :=
  snapshot_windowBlind.writeCommand (fun _ hk => s.carryOut_snapshot hk) fun e => h (commandOf_eq_softReset.mp e)

theorem execRegisterWrite_snapshot {off : BitVec 6} {v : Byte} (hr : isReset (.registerWrite off v) = false) (s : State) :
    AllNext (fun t => t.clock.snapshot = s.clock.snapshot) (execRegisterWrite off v s) := by
  unfold execRegisterWrite
  split
  · next hoff =>
    refine .next (s.writeCommand_snapshot fun hv => ?_)
    have hoff' : off = 0x05 := BitVec.eq_of_toNat_eq hoff
    simp [isReset, hoff', hv] at hr
  · split
    · exact .next (by simp)
    · exact .next (snapshot_windowBlind.registerAccess (s.storeRegister_snapshot _ _))

/-! ### Every row -/

/-- No row but a reset and TIME_LO_READ changes the snapshot (R19). -/
theorem exec_snapshot {c : Instr} (hr : isReset c = false) (hc : c ≠ .timeLoRead) (s : State) :
    AllNext (fun t => t.clock.snapshot = s.clock.snapshot) (exec c s) := by
  have delivery : isDelivery c = true → AllNext (fun t => t.clock.snapshot = s.clock.snapshot) (exec c s) :=
    fun hd => (exec_delivery_frame hd s).mono fun t ⟨_, _, _, _, hclock⟩ => congrArg TimeBase.snapshot hclock
  cases c with
  | powerOnReset | pinReset | softReset => cases hr
  | timeLoRead => exact absurd rfl hc
  | timeTick =>
    refine .next ?_
    split <;> simp
  | rxEdge l dt => exact .next (by simp)
  | glitchTestAccept l => exact execGlitchTestAccept_allNext rfl fun g _ => by simp
  | settleWaitEnd l | burstEnd l | stuck l => exact .next (by simp)
  | lineEnable l v | lineDisable l v | idleWrite l v | faultClear l v | rqWatermarkWrite v | captureControlWrite v
  | loadLengthWrite hi v | stagingRegisterWrite r v | irqCauseWrite v | irqEnableWrite v =>
    exact .next (snapshot_windowBlind.registerAccess (by simp))
  | registerWrite off v => exact execRegisterWrite_snapshot hr s
  | tableDataWrite v => exact .next (by simp)
  | headKindLineRead | tableDataRead => exact .next (snapshot_windowBlind.windowRead (by simp))
  | pop | flushQueue | armCapture | disarmCapture | releaseCapture | loadCapture | enableFormat | disableFormat | submit
  | stopTx | abortTx | popCompletion | enterListen | enterDormant | clearWake =>
    exact .next (snapshot_windowBlind.command (by simp))
  | wakeUp => exact .next (snapshot_windowBlind.commandWakeUp (by simp))
  | unknownCommand code => exact .next (s.writeCommand_snapshot (by simpa [isReset] using hr))
  | jobStart => exact execJobStart_allNext rfl (fun j _ => by simp) fun j n _ _ _ => by simp
  | txBurstEnd => exact execTxBurstEnd_allNext rfl fun j _ _ => by simp
  | nextBurstStart => exact execNextBurstStart_allNext rfl fun j _ _ => by simp
  | tailEnd => exact execTailEnd_allNext rfl fun _ => by simp
  | guardHoldEnd l => exact execGuardHoldEnd_allNext rfl fun t _ => by simp
  | wakeEdge l => exact execWakeEdge_allNext rfl (fun k _ => by simp) fun k _ => by simp
  | _ => exact delivery rfl

end Sys2Proof.Machine

open Sys2Proof Sys2Proof.Machine Sys2Proof.Safety

/-- Settles O7: the read itself and the two registers are the definitions' own branches; that no other row touches the snapshot
is `exec_snapshot`, and a reset puts the time base at `TimeBase.reset`. -/
theorem timeLoReadTakesSnapshot : Obligations.TimeLoReadTakesSnapshot := by
  refine ⟨fun s h => ?_, fun s h => ?_, fun s => ⟨rfl, rfl⟩, fun c s t hr hc => exec_snapshot hr hc s t, fun k s hk => ?_⟩
  · exact congrArg Host.Outcome.next (s.windowRead_running _ _ h)
  · exact congrArg Host.Outcome.next (s.windowRead_held _ _ h)
  · exact ⟨_, exec_resetRow hk, rfl⟩

end

