-- ==== Sys2Proof/Proofs/Fault.lean ====
section
/-! PROOF. O12: the STATUS register of a line and its FAULT bit. -/

namespace Sys2Proof.Machine

open Sys2Proof (Byte Time Payload Line)
open Sys2Proof.Safety (isReset clearsFault lineOffset)

/-! ### STATUS -/

/-- STATUS field by field. -/
theorem FrontEnd.status_eq (f : FrontEnd) :
    f.status = BitVec.ofNat 8 (f.st.code + (if f.st = .mark ∨ f.st = .space then 16 else 0) + (if f.fault then 128 else 0)) := by
  have hb : 16 * f.inBurst.toNat = if f.st = .mark ∨ f.st = .space then 16 else 0 := by
    by_cases h : f.st = .mark ∨ f.st = .space <;> simp [FrontEnd.inBurst, h]
  have hf : 128 * f.fault.toNat = if f.fault then 128 else 0 := by cases f.fault <;> rfl
  rw [FrontEnd.status, hb, hf]

theorem State.readRegister_status (s : State) (l : Line) :
    s.readRegister (BitVec.ofNat 6 (lineOffset l + 3)) = (s.fe.get l).status := by cases l <;> rfl

/-- The register at the STATUS offset of a line is written by the rule of STATUS. -/
theorem exec_registerWrite_status (s : State) (l : Line) (v : Byte) :
    exec (.registerWrite (BitVec.ofNat 6 (lineOffset l + 3)) v) s = .next (s.registerAccess (State.writeLineStatus l v)) := by
  cases l <;> rfl

theorem State.writeLineStatus_of_set {v : Byte} (h : v.getLsbD 7 = true) (l : Line) (s : State) :
    State.writeLineStatus l v s = s.setFe l { s.fe.get l with fault := false } := if_pos h

theorem State.writeLineStatus_of_clear {v : Byte} (h : v.getLsbD 7 = false) (l : Line) (s : State) :
    State.writeLineStatus l v s = s := if_neg (by rw [h]; exact Bool.false_ne_true)

/-! ### The operations that keep FAULT -/

/-- A front end replaced by one with its FAULT leaves the FAULT of both lines. -/
@[simp] theorem PerLine.get_set_fault (p : PerLine FrontEnd) {l : Line} {f : FrontEnd} (h : f.fault = (p.get l).fault)
    (m : Line) : ((p.set l f).get m).fault = (p.get m).fault := by
  by_cases hm : m = l
  · rw [hm, PerLine.get_set_same, h]
  · rw [PerLine.get_set_ne p f hm]

@[simp] theorem FrontEnd.enterSettle_fault (f : FrontEnd) (now : Nat) : (f.enterSettle now).fault = f.fault := by
  simp only [FrontEnd.enterSettle]

@[simp] theorem State.acceptEdge_fault (s : State) (l : Line) (g : GlitchTest) (m : Line) :
    ((s.acceptEdge l g).fe.get m).fault = (s.fe.get m).fault := by
  unfold State.acceptEdge
  split <;> simp

@[simp] theorem State.settleTest_fault (s : State) (l m : Line) :
    ((s.settleTest l).fe.get m).fault = (s.fe.get m).fault := by
  unfold State.settleTest
  split
  · rfl
  · split <;> simp

@[simp] theorem State.startTest_fault (s : State) (l m : Line) :
    ((s.startTest l).fe.get m).fault = (s.fe.get m).fault := by
  simp [State.startTest]

@[simp] theorem State.enableLine_fault (s : State) (l m : Line) :
    ((s.enableLine l).fe.get m).fault = (s.fe.get m).fault := by
  unfold State.enableLine
  split <;> simp

@[simp] theorem State.disableLine_fault (s : State) (l m : Line) :
    ((s.disableLine l).fe.get m).fault = (s.fe.get m).fault := by
  simp [State.disableLine]

@[simp] theorem State.writeControl_fault (l : Line) (v : Byte) (s : State) (m : Line) :
    ((State.writeControl l v s).fe.get m).fault = (s.fe.get m).fault := by
  unfold State.writeControl
  split
  · split <;> split <;> simp
  · split <;> simp

@[simp] theorem State.writeIdle_fault (l : Line) (v : Byte) (s : State) (m : Line) :
    ((State.writeIdle l v s).fe.get m).fault = (s.fe.get m).fault := by
  unfold State.writeIdle
  split <;> simp

@[simp] theorem State.writeGlitch_fault (l : Line) (v : Byte) (s : State) (m : Line) :
    ((State.writeGlitch l v s).fe.get m).fault = (s.fe.get m).fault := by
  unfold State.writeGlitch
  split <;> simp

@[simp] theorem State.blankFor_fault (s : State) (j : Job) (l m : Line) :
    ((s.blankFor j l).fe.get m).fault = (s.fe.get m).fault := by
  unfold State.blankFor
  split <;> simp

@[simp] theorem State.jobActive_fault (s : State) (j : Job) (n : Fin 8) (m : Line) :
    ((s.jobActive j n).fe.get m).fault = (s.fe.get m).fault := by
  simp [State.jobActive]

@[simp] theorem State.unblank_fault (s : State) (l m : Line) :
    ((s.unblank l).fe.get m).fault = (s.fe.get m).fault := by
  rw [State.unblank_fe]
  split <;> simp

@[simp] theorem State.endGuardHold_fault (s : State) (l m : Line) :
    ((s.endGuardHold l).fe.get m).fault = (s.fe.get m).fault := by
  simp [State.endGuardHold]

@[simp] theorem State.passToGuard_fault (s : State) (t : Nat) (l m : Line) :
    ((s.passToGuard t l).fe.get m).fault = (s.fe.get m).fault := by
  unfold State.passToGuard
  split <;> simp

@[simp] theorem State.endJob_fault (s : State) (j : Job) (st : CompletionStatus) (t : Nat) (m : Line) :
    ((s.endJob j st t).fe.get m).fault = (s.fe.get m).fault := by
  simp [State.endJob]

@[simp] theorem State.afterBurst_fault (s : State) (j : Job) (m : Line) :
    ((s.afterBurst j).fe.get m).fault = (s.fe.get m).fault := by
  unfold State.afterBurst
  split <;> simp

@[simp] theorem State.stopTx_fault (s : State) (m : Line) : (s.stopTx.1.fe.get m).fault = (s.fe.get m).fault := by
  unfold State.stopTx
  split <;> simp

@[simp] theorem State.abortActive_fault (s : State) (m : Line) :
    (s.abortActive.1.fe.get m).fault = (s.fe.get m).fault := by
  unfold State.abortActive
  split <;> simp

@[simp] theorem State.abortTx_fault (s : State) (m : Line) : (s.abortTx.1.fe.get m).fault = (s.fe.get m).fault := by
  unfold State.abortTx
  split
  · simp
  · split <;> simp

theorem State.parkLine_fault (s : State) (named : Bool) (l m : Line) :
    ((s.parkLine named l).fe.get m).fault = (s.fe.get m).fault := by
  rw [State.parkLine_fe]
  split <;> simp

@[simp] theorem State.parkLines_fault (s : State) (mask : Byte) (m : Line) :
    ((s.parkLines mask).fe.get m).fault = (s.fe.get m).fault := by
  rw [State.parkLines, State.parkLine_fault, State.parkLine_fault]

@[simp] theorem State.quietReceivers_fault (s : State) (mask : Byte) (o : EntryOrder) (m : Line) :
    ((s.quietReceivers mask o).fe.get m).fault = (s.fe.get m).fault := by
  simp only [State.quietReceivers, State.eachLine]
  split <;> split <;> simp

@[simp] theorem State.goDormant_fault (s : State) (mask : Byte) (m : Line) :
    ((s.goDormant mask).fe.get m).fault = (s.fe.get m).fault := by
  simp [State.goDormant, State.goDormantIn]

@[simp] theorem State.enterDormant_fault (s : State) (m : Line) :
    (s.enterDormant.1.fe.get m).fault = (s.fe.get m).fault := by
  unfold State.enterDormant
  split
  · rfl
  · split <;> simp

@[simp] theorem State.unparkLine_fault (s : State) (l m : Line) :
    ((s.unparkLine l).fe.get m).fault = (s.fe.get m).fault := by
  rw [State.unparkLine_fe]
  split <;> simp

@[simp] theorem State.leaveDormant_fault (s : State) (p : PowerState) (m : Line) :
    ((s.leaveDormant p).fe.get m).fault = (s.fe.get m).fault := by
  simp [State.leaveDormant]

@[simp] theorem State.wakeUp_fault (s : State) (m : Line) : (s.wakeUp.fe.get m).fault = (s.fe.get m).fault := by
  unfold State.wakeUp
  split <;> simp

@[simp] theorem State.wakeByEdge_fault (s : State) (l m : Line) :
    ((s.wakeByEdge l).fe.get m).fault = (s.fe.get m).fault := by
  simp [State.wakeByEdge]

theorem fault_windowBlind (l : Line) : WindowBlind fun s => (s.fe.get l).fault :=
  ⟨fun _ _ => rfl, fun _ => rfl, fun _ _ => rfl⟩

theorem State.carryOut_fault (s : State) {k : CommandCode} (hk : k ≠ .softReset) (l : Line) :
    ((s.carryOut k).fe.get l).fault = (s.fe.get l).fault := by
  cases k with
  | softReset => exact absurd rfl hk
  | wakeUp => exact (fault_windowBlind l).commandWakeUp (by simp)
  | _ => exact (fault_windowBlind l).command (by simp)

/-! ### The threshold of a mark -/

/-- Acting on a threshold sets the FAULT of the line in MARK, and leaves FAULT otherwise (R10). -/
theorem State.actOnThreshold_fault (s : State) (l m : Line) :
    ((s.actOnThreshold l).fe.get m).fault =
      if m = l ∧ (s.fe.get l).st = .mark then true else (s.fe.get m).fault := by
  unfold State.actOnThreshold
  split
  case h_3 hst =>
    by_cases hm : m = l
    · simp [hm, hst]
    · simp [hm, PerLine.get_set_ne _ _ hm]
  all_goals simp_all

/-- From `s` to `t` the FAULT of `l` may have been set, and no other FAULT has changed. -/
def FaultOnlySet (l : Line) (s t : State) : Prop :=
  ∀ m, (t.fe.get m).fault = (s.fe.get m).fault ∨ (m = l ∧ (t.fe.get m).fault = true)

theorem FaultOnlySet.of_eq {l : Line} {s t : State} (h : ∀ m, (t.fe.get m).fault = (s.fe.get m).fault) :
    FaultOnlySet l s t := fun m => .inl (h m)

theorem FaultOnlySet.trans {l : Line} {s t u : State} (hst : FaultOnlySet l s t) (htu : FaultOnlySet l t u) :
    FaultOnlySet l s u := by
  intro m
  rcases htu m with h | h
  · rw [h]
    exact hst m
  · exact .inr h

theorem State.actOnThreshold_faultOnlySet (s : State) (l : Line) : FaultOnlySet l s (s.actOnThreshold l) := by
  intro m
  rw [State.actOnThreshold_fault]
  split
  · next h => exact .inr ⟨h.1, rfl⟩
  · exact .inl rfl

theorem State.settleThreshold_faultOnlySet (s : State) (l : Line) : FaultOnlySet l s (s.settleThreshold l) := by
  unfold State.settleThreshold
  split
  · exact s.actOnThreshold_faultOnlySet l
  · exact .of_eq fun _ => rfl

theorem State.catchUp_faultOnlySet (s : State) (l : Line) : FaultOnlySet l s (s.catchUp l) :=
  (s.settleThreshold_faultOnlySet l).trans
    (FaultOnlySet.trans (.of_eq (State.settleTest_fault _ l)) (State.settleThreshold_faultOnlySet _ l))

theorem State.rejectEdge_faultOnlySet (s : State) (l : Line) : FaultOnlySet l s (s.rejectEdge l) :=
  FaultOnlySet.trans (.of_eq fun m => by simp) (State.settleThreshold_faultOnlySet _ l)

theorem State.rawEdge_faultOnlySet (s : State) (l : Line) : FaultOnlySet l s (s.rawEdge l) := by
  have flipped : FaultOnlySet l s (s.setFe l { s.fe.get l with level := !(s.fe.get l).level }) := .of_eq fun m => by simp
  unfold State.rawEdge
  split
  case h_1 | h_2 | h_3 => exact flipped
  case h_4 => split <;> exact .of_eq fun m => by simp
  all_goals
    split
    · exact flipped.trans (State.rejectEdge_faultOnlySet _ l)
    · exact .of_eq fun m => by simp

/-- The threshold of a state other than MARK keeps FAULT. -/
theorem State.thresholdEvent_fault_of_ne_mark (s : State) (l : Line) {st : LineState} (h : st ≠ .mark) (m : Line) :
    ((s.thresholdEvent l st).fe.get m).fault = (s.fe.get m).fault := by
  unfold State.thresholdEvent
  split
  · rfl
  · split
    · next hst => simp [State.actOnThreshold_fault, hst.1, h]
    · rfl

theorem State.thresholdEvent_faultOnlySet (s : State) (l : Line) (st : LineState) :
    FaultOnlySet l s (s.thresholdEvent l st) := by
  unfold State.thresholdEvent
  split
  · exact .of_eq fun _ => rfl
  · split
    · exact FaultOnlySet.trans (.of_eq fun m => by simp) (State.actOnThreshold_faultOnlySet _ l)
    · exact .of_eq fun _ => rfl

/-! ### Every row -/

/-- What a row can do to the FAULT of line `l`: keep it; clear it, in a reset or a write of 1 to its bit; or set it, in the two
rows by which a mark reaches its threshold (R10, R16). -/
inductive FaultAfter (l : Line) (c : Instr) (s t : State) : Prop
  | kept (h : (t.fe.get l).fault = (s.fe.get l).fault)
  | cleared (h : (t.fe.get l).fault = false) (hc : isReset c = true ∨ clearsFault l c = true)
  | set (h : (t.fe.get l).fault = true) (hc : c = .stuck l ∨ ∃ dt, c = .rxEdge l dt)

section
variable {l : Line} {c : Instr} {s t : State}

theorem FaultAfter.of_faultOnlySet {m : Line} (h : FaultOnlySet m s t)
    (hc : m = l → c = .stuck l ∨ ∃ dt, c = .rxEdge l dt) : FaultAfter l c s t := by
  rcases h l with h | ⟨hm, h⟩
  · exact .kept h
  · exact .set h (hc hm.symm)

/-- A command that is not SOFT RESET keeps FAULT, and a SOFT RESET clears it where it is taken. -/
theorem FaultAfter.writeCommand {code : Byte} (hc : code = 0x5A → isReset c = true) : FaultAfter l c s (s.writeCommand code) := by
  by_cases h : code = 0x5A
  · have hs : s.writeCommand code = s.softReset := by rw [h]; rfl
    rcases s.windowWrite_cases fun s => s.resetTo .soft s.mem with hw | hw
    · exact .kept (by rw [hs, State.softReset, hw])
    · refine .cleared ?_ (.inl (hc h))
      rw [hs, State.softReset, hw]
      cases l <;> rfl
  · exact .kept ((fault_windowBlind l).writeCommand (fun _ hk => s.carryOut_fault hk l)
      fun e => h (commandOf_eq_softReset.mp e))

/-- A write of the STATUS register of `m` can clear the FAULT of `m` alone, when it writes 1 to its bit. -/
theorem FaultAfter.writeLineStatus {m : Line} {v : Byte} (hc : m = l → v.getLsbD 7 = true → clearsFault l c = true) :
    FaultAfter l c s (State.writeLineStatus m v s) := by
  cases hv : v.getLsbD 7 with
  | false => exact .kept (by rw [State.writeLineStatus_of_clear hv])
  | true =>
    rw [State.writeLineStatus_of_set hv]
    by_cases hm : m = l
    · exact .cleared (by simp [hm]) (.inr (hc hm hv))
    · exact .kept (by rw [State.setFe_fe, PerLine.get_set_ne _ _ fun e => hm e.symm])

theorem FaultAfter.registerAccess {f : State → State} (hf : FaultAfter l c s (f s)) :
    FaultAfter l c s (s.registerAccess f) := by
  rcases s.registerAccess_cases f with h | h | h
  · exact .kept (by rw [h])
  · exact .kept (by rw [h, (fault_windowBlind l).refuseAccess])
  · rwa [h]

/-- Of the registers, a write of STATUS alone can change FAULT: the branches of 0x0D and 0x11. -/
theorem FaultAfter.storeRegister {off : Nat} {v : Byte}
    (hc : off = lineOffset l + 3 → v.getLsbD 7 = true → clearsFault l c = true) :
    FaultAfter l c s (s.storeRegister off v) := by
  unfold State.storeRegister
  split
  case h_7 | h_11 => exact .writeLineStatus fun hm => hc (hm ▸ rfl)
  case h_19 => split <;> exact .kept (by simp)
  all_goals exact .kept (by simp)

end

theorem execRegisterWrite_faultAfter (l : Line) (off : BitVec 6) (v : Byte) (s : State) :
    AllNext (FaultAfter l (.registerWrite off v) s) (execRegisterWrite off v s) := by
  unfold execRegisterWrite
  split
  · next hoff =>
    have hoff' : off = 0x05 := BitVec.eq_of_toNat_eq hoff
    exact .next (.writeCommand fun hv => by simp [isReset, hoff', hv])
  · split
    · exact .next (.kept (by simp))
    · exact .next (.registerAccess (.storeRegister fun ho hv => by
        simp only [clearsFault, ho, hv, decide_true, Bool.and_self]))

/-- Every row keeps, clears or sets FAULT as R10 and R16 say. -/
theorem exec_faultAfter (l : Line) (c : Instr) (s : State) : AllNext (FaultAfter l c s) (exec c s) := by
  have delivery : isDelivery c = true → AllNext (FaultAfter l c s) (exec c s) :=
    fun hd => (exec_delivery_frame hd s).mono fun t ⟨_, hfe, _⟩ => .kept (by rw [hfe])
  cases c with
  | powerOnReset | pinReset => exact .next (.cleared (by cases l <;> rfl) (.inl rfl))
  | softReset => exact .next (FaultAfter.writeCommand (code := 0x5A) fun _ => rfl)
  | timeTick =>
    refine .next (.kept ?_)
    split <;> simp
  | rxEdge m dt =>
    refine .next (.of_faultOnlySet (m := m) ?_ fun hm => .inr ⟨dt, by rw [hm]⟩)
    exact FaultOnlySet.trans (.of_eq fun _ => by simp)
      ((State.catchUp_faultOnlySet _ m).trans (State.rawEdge_faultOnlySet _ m))
  | glitchTestAccept m => exact execGlitchTestAccept_allNext (.kept rfl) fun g _ => .kept (by simp)
  | settleWaitEnd m | burstEnd m => exact .next (.kept (s.thresholdEvent_fault_of_ne_mark m (by decide) l))
  | stuck m => exact .next (.of_faultOnlySet (s.thresholdEvent_faultOnlySet m .mark) fun hm => .inl (by rw [hm]))
  | faultClear m v =>
    exact .next (.registerAccess (.writeLineStatus fun hm hv => by
      simp only [clearsFault, hm, hv, decide_true, Bool.and_self]))
  | lineEnable m v | lineDisable m v | idleWrite m v | rqWatermarkWrite v | captureControlWrite v | loadLengthWrite hi v
  | stagingRegisterWrite r v | irqCauseWrite v | irqEnableWrite v => exact .next (.registerAccess (.kept (by simp)))
  | registerWrite off v => exact execRegisterWrite_faultAfter l off v s
  | tableDataWrite v => exact .next (.kept (by simp))
  | timeLoRead | headKindLineRead | tableDataRead =>
    exact .next (.kept ((fault_windowBlind l).windowRead (by simp)))
  | pop | flushQueue | armCapture | disarmCapture | releaseCapture | loadCapture | enableFormat | disableFormat | submit
  | stopTx | abortTx | popCompletion | enterListen | enterDormant | clearWake =>
    exact .next (.kept ((fault_windowBlind l).command (by simp)))
  | wakeUp => exact .next (.kept ((fault_windowBlind l).commandWakeUp (by simp)))
  | unknownCommand code => exact .next (.writeCommand fun h => by simp [isReset, h])
  | jobStart => exact execJobStart_allNext (.kept rfl) (fun j _ => .kept (by simp)) fun j n _ _ _ => .kept (by simp)
  | txBurstEnd => exact execTxBurstEnd_allNext (.kept rfl) fun j _ _ => .kept (by simp)
  | nextBurstStart => exact execNextBurstStart_allNext (.kept rfl) fun j _ _ => .kept (by simp)
  | tailEnd => exact execTailEnd_allNext (.kept rfl) fun _ => .kept (by simp)
  | guardHoldEnd m => exact execGuardHoldEnd_allNext (.kept rfl) fun t _ => .kept (by simp)
  | wakeEdge m => exact execWakeEdge_allNext (.kept rfl) (fun k _ => .kept (by simp)) fun k _ => .kept (by simp)
  | _ => exact delivery rfl

end Sys2Proof.Machine

open Sys2Proof Sys2Proof.Machine Sys2Proof.Safety

/-- Settles O12: STATUS by its fields, its write by the guard of a register access, and the two laws of FAULT from the three
cases of `FaultAfter`. -/
theorem lineStatusAndFault : Obligations.LineStatusAndFault := by
  refine ⟨fun l s => ?_, fun l v s hd hr hv => ?_, fun l v s hd hr hv => ?_, fun l c s t ht hs => ?_, fun l c s t ht hs hf => ?_⟩
  · rw [State.readRegister_status, FrontEnd.status_eq]
  · refine congrArg Host.Outcome.next ?_
    rw [State.registerAccess_awake _ _ hr hd, State.writeLineStatus_of_set hv, State.setFe]
  · rw [exec_registerWrite_status, State.registerAccess_awake _ _ hr hd, State.writeLineStatus_of_clear hv]
  · cases exec_faultAfter l c s t ht with
    | kept h => exact .inl (h.trans hs)
    | cleared _ hc => exact .inr hc
    | set h _ => exact .inl h
  · cases exec_faultAfter l c s t ht with
    | kept h => simp [h, hs] at hf
    | cleared h _ => simp [h] at hf
    | set _ hc => exact hc

end

