-- ==== Sys2Proof/Proofs/SendReset.lean ====
section
/-! PROOF. O4: every kind of reset leaves the sending side at its reset values. -/

namespace Sys2Proof.Machine

open Sys2Proof (Byte Time Payload Line)
open Sys2Proof.Safety (tableAfterReset)

/-- The bytes of the table space after a reset of each kind. -/
theorem ResetKind.read_tableSpace (k : ResetKind) (m : List Host.Cell) (a : Nat) :
    Memory.read (k.tableSpace m) a = tableAfterReset k m a := by
  cases k <;> rfl

/-- An entry whose codes are legal fails step 2 of the validation when its lower bit count is 0 (R32). -/
theorem Format.validate_of_minBits_eq_zero {f : Format} (hcodes : f.codesLegal = true) (hbits : f.minBits = 0)
    (idleA idleB : Byte) : f.validate idleA idleB = .badBits := by
  have hillegal : f.bitCountsLegal = false := by simp [Format.bitCountsLegal, hbits]
  simp [Format.validate, hcodes, hillegal]

/-- An entry of zero bytes has legal codes: PAIR, and no repeat. -/
theorem formatAt_nil_codesLegal (n : Fin 8) : (formatAt [] n).codesLegal = true := by
  simp [Format.codesLegal, formatAt, codingOf, repeatKindOf]

/-- LOAD CAPTURE in capture IDLE refuses a load length of 0 (R125). -/
theorem State.loadCapture_of_loadLength_eq_zero {s : State} (hst : s.cap.st = .idle) (hlen : s.cap.loadLength = 0) :
    s.loadCapture = (s, .badArg) := by
  simp [State.loadCapture, hst, hlen]

/-- Every staging register reads 0 after a reset (R130). -/
theorem Job.reset_register (r : Fin 14) : Job.reset.register r = 0 := by
  revert r
  decide

end Sys2Proof.Machine

open Sys2Proof Sys2Proof.Machine Sys2Proof.Safety

/-- Settles O4: the state after a reset is `State.resetTo`, whose blocks are the constants `*.reset`; the zeroed table space
reads as eight entries of zero bytes, which fail step 2. -/
theorem resetClearsSendingSide : Obligations.ResetClearsSendingSide := by
  intro k s hk
  refine ⟨_, exec_resetRow hk, fun n => ?entries, k.read_tableSpace s.mem, rfl, fun hpor n => ?zeroed, rfl, rfl, rfl, rfl, rfl,
    rfl, rfl, rfl, rfl, rfl, rfl, rfl, rfl, State.loadCapture_of_loadLength_eq_zero rfl rfl, rfl, rfl, rfl, fun l => ?lines,
    rfl, Job.reset_register, rfl, rfl⟩
  case entries => simp [State.resetTo, State.afterReset, EntryControl.reset, EntryControl.unheld]
  case zeroed =>
    subst hpor
    exact ⟨rfl, Format.validate_of_minBits_eq_zero (formatAt_nil_codesLegal n) rfl _ _⟩
  case lines => cases l <;> exact ⟨rfl, rfl⟩

end

