-- ==== Sys2Proof/Proofs/FormatCommands.lean ====
section
/-! PROOF. O37: ENABLE FORMAT and DISABLE FORMAT by the state of the entry they name. -/

namespace Sys2Proof.Machine

open Sys2Proof (Byte Time Payload Line)

/-! ### References and memories, line by line -/

@[simp] theorem ReceiveQueue.hasReference_countRepeats (q : ReceiveQueue) (l m : Line) (k : Nat) :
    (q.countRepeats l k).hasReference m = q.hasReference m := by
  simp only [ReceiveQueue.hasReference, ReceiveQueue.countRepeats, List.any_map]
  congr 1
  funext r
  simp only [Function.comp]
  split <;> rfl

/-- Dropping the reference of one line leaves that of the other. -/
theorem ReceiveQueue.hasReference_dropReference_ne (q : ReceiveQueue) {l m : Line} (h : m ≠ l) :
    (q.dropReference l).hasReference m = q.hasReference m := by
  simp only [ReceiveQueue.hasReference, ReceiveQueue.dropReference, List.any_map]
  congr 1
  funext r
  simp only [Function.comp]
  split
  case isTrue hl =>
    have hm : r.refersFor m = false := Bool.eq_false_iff.mpr fun hm => h (Record.refersFor_unique hm hl)
    rw [hm]
    rfl
  case isFalse => rfl

theorem State.dropReference_hasReference_ne (s : State) {l m : Line} (h : m ≠ l) :
    (s.dropReference l).rq.hasReference m = s.rq.hasReference m := by
  simp only [State.dropReference, State.forgetReference, State.settleIncrements]
  split <;> simp [ReceiveQueue.hasReference_dropReference_ne _ h]

/-- No request is added when a reference is dropped: those that are left carry their records, in order. -/
theorem State.dropReference_posts_sublist (s : State) (l : Line) :
    (((s.dropReference l).link.get l).posts.map (·.record)).Sublist ((s.link.get l).posts.map (·.record)) := by
  rw [State.dropReference_posts]
  split
  · exact List.filter_sublist.map _
  · exact List.Sublist.refl _

/-- Whether the memory of `l` names format entry `n`. -/
def State.memoryNames (s : State) (n : Fin 8) (l : Line) : Bool :=
  (s.rep.get l).memory.any fun m => decide (m.entry = n)

theorem State.memoryNames_of_some {s : State} {l : Line} {m : LastFrame} (h : (s.rep.get l).memory = some m) (n : Fin 8) :
    s.memoryNames n l = decide (m.entry = n) := by
  simp [State.memoryNames, h]

/-- A clearing by entry empties a memory that names the entry and does nothing else. -/
theorem State.clearMemoryNaming_eq (s : State) (n : Fin 8) (l : Line) :
    s.clearMemoryNaming n l = if s.memoryNames n l then s.clearMemory l else s := by
  unfold State.clearMemoryNaming State.memoryNames
  cases h : (s.rep.get l).memory with
  | none => simp
  | some m => simp

section
variable (s : State) (n : Fin 8) {l m : Line} (h : m ≠ l)
include h

theorem State.clearMemoryNaming_rep_ne : (s.clearMemoryNaming n l).rep.get m = s.rep.get m := by
  rw [State.clearMemoryNaming_eq]
  split <;> simp [PerLine.get_set_ne _ _ h]

theorem State.clearMemoryNaming_link_ne : (s.clearMemoryNaming n l).link.get m = s.link.get m := by
  rw [State.clearMemoryNaming_eq]
  split <;> simp [State.dropReference_link_ne _ h]

theorem State.clearMemoryNaming_hasReference_ne :
    (s.clearMemoryNaming n l).rq.hasReference m = s.rq.hasReference m := by
  rw [State.clearMemoryNaming_eq]
  split <;> simp [State.dropReference_hasReference_ne _ h]

end

/-- What is on its way on a line after a clearing by entry of both lines: only the line's own memory counts. -/
theorem State.clearMemoriesNaming_link_get (s : State) (n : Fin 8) (l : Line) :
    (s.clearMemoriesNaming n).link.get l = if s.memoryNames n l then (s.dropReference l).link.get l else s.link.get l := by
  cases l with
  | A =>
    rw [State.clearMemoriesNaming, State.clearMemoryNaming_link_ne _ _ (by decide), State.clearMemoryNaming_eq]
    split <;> simp
  | B =>
    have hlink := s.clearMemoryNaming_link_ne n (l := .A) (m := .B) (by decide)
    have hrep := s.clearMemoryNaming_rep_ne n (l := .A) (m := .B) (by decide)
    have href := s.clearMemoryNaming_hasReference_ne n (l := .A) (m := .B) (by decide)
    rw [State.clearMemoriesNaming, State.clearMemoryNaming_eq, State.memoryNames, hrep, ← State.memoryNames]
    split
    · rw [State.clearMemory_link, State.dropReference_link, State.dropReference_link, hlink, href]
    · exact hlink

/-- A memory that a clearing by entry empties is left without its reference. -/
theorem State.clearMemoriesNaming_hasReference {s : State} {n : Fin 8} {l : Line} (h : s.memoryNames n l = true) :
    (s.clearMemoriesNaming n).rq.hasReference l = false := by
  cases l with
  | A =>
    rw [State.clearMemoriesNaming, State.clearMemoryNaming_hasReference_ne _ _ (by decide), State.clearMemoryNaming_eq,
      if_pos h]
    simp
  | B =>
    have hrep := s.clearMemoryNaming_rep_ne n (l := .A) (m := .B) (by decide)
    rw [State.memoryNames, ← hrep, ← State.memoryNames] at h
    rw [State.clearMemoriesNaming, State.clearMemoryNaming_eq, if_pos h]
    simp

/-- A memory that names the entry is emptied: OPEN stays, no record is its reference, and no request is added. -/
theorem State.clearMemoriesNaming_of_names {s : State} {n : Fin 8} {l : Line} (h : s.memoryNames n l = true) :
    (s.clearMemoriesNaming n).rep.get l = { s.rep.get l with memory := none, due := false, dueReached := false } ∧
    (∀ r ∈ (s.clearMemoriesNaming n).rq.records, r.refersFor l = false) ∧
    (((s.clearMemoriesNaming n).link.get l).posts.map (·.record)).Sublist ((s.link.get l).posts.map (·.record)) := by
  refine ⟨?rep, ?records, ?posts⟩
  case rep => rw [State.clearMemoriesNaming_rep_get, ← State.memoryNames, if_pos h]
  case records => exact (ReceiveQueue.hasReference_eq_false _ _).mp (State.clearMemoriesNaming_hasReference h)
  case posts =>
    rw [State.clearMemoriesNaming_link_get, if_pos h]
    exact s.dropReference_posts_sublist l

/-- A line whose memory does not name the entry keeps its repeat unit and what is on its way. -/
theorem State.clearMemoriesNaming_of_not_names {s : State} {n : Fin 8} {l : Line} (h : s.memoryNames n l = false) :
    (s.clearMemoriesNaming n).rep.get l = s.rep.get l ∧ (s.clearMemoriesNaming n).link.get l = s.link.get l := by
  rw [State.clearMemoriesNaming_rep_get, ← State.memoryNames, State.clearMemoriesNaming_link_get]
  simp [h]

/-! ### The commands, by the state of the entry -/

@[simp] theorem entryIndex_val (n : Fin 8) : entryIndex n.val = some n := dif_pos n.isLt

theorem entryIndex_of_lt {k : Nat} (h : 7 < k) : entryIndex k = none := dif_neg (by omega)

section
variable {s u : State} {r : CommandResult}

theorem exec_enableFormat_dormant (hr : s.pow.resetHeld = false) (hd : s.pow.st = .dormant) :
    exec .enableFormat s = .next (s.setResult .state) :=
  congrArg Host.Outcome.next (s.command_dormant State.enableFormat hr hd)

theorem exec_enableFormat_awake (hr : s.pow.resetHeld = false) (hd : s.pow.st ≠ .dormant) (h : s.enableFormat = (u, r)) :
    exec .enableFormat s = .next (u.setResult r) := by
  have hc := s.command_awake State.enableFormat hr hd
  rw [h] at hc
  exact congrArg Host.Outcome.next hc

theorem exec_disableFormat_dormant (hr : s.pow.resetHeld = false) (hd : s.pow.st = .dormant) :
    exec .disableFormat s = .next (s.setResult .state) :=
  congrArg Host.Outcome.next (s.command_dormant State.disableFormat hr hd)

theorem exec_disableFormat_awake (hr : s.pow.resetHeld = false) (hd : s.pow.st ≠ .dormant) (h : s.disableFormat = (u, r)) :
    exec .disableFormat s = .next (u.setResult r) := by
  have hc := s.command_awake State.disableFormat hr hd
  rw [h] at hc
  exact congrArg Host.Outcome.next hc

theorem State.enableFormat_of_badArg (ha : 7 < s.win.arg.toNat) : s.enableFormat = (s, .badArg) := by
  simp only [State.enableFormat, entryIndex_of_lt ha]

theorem State.disableFormat_of_badArg (ha : 7 < s.win.arg.toNat) : s.disableFormat = (s, .badArg) := by
  simp only [State.disableFormat, entryIndex_of_lt ha]

variable {n : Fin 8} (ha : s.win.arg.toNat = n.val)
include ha

theorem State.enableFormat_of_enabled (hst : s.entries[n].st = .enabled) : s.enableFormat = (s, .ok) := by
  simp only [State.enableFormat, ha, entryIndex_val, hst]

theorem State.enableFormat_of_retiring (hst : s.entries[n].st = .retiring) : s.enableFormat = (s, .busy) := by
  simp only [State.enableFormat, ha, entryIndex_val, hst]

theorem State.enableFormat_of_invalid (hst : s.entries[n].st = .disabled) (hv : s.validateEntry n ≠ .ok) :
    s.enableFormat = (s, s.validateEntry n) := by
  simp only [State.enableFormat, ha, entryIndex_val, hst, if_neg hv]

theorem State.enableFormat_of_valid (hst : s.entries[n].st = .disabled) (hv : s.validateEntry n = .ok) :
    s.enableFormat = (s.makeEnabled n, .ok) := by
  simp only [State.enableFormat, ha, entryIndex_val, hst, if_pos hv]

theorem State.disableFormat_of_disabled (hst : s.entries[n].st = .disabled) : s.disableFormat = (s.setArg 0, .ok) := by
  simp only [State.disableFormat, ha, entryIndex_val, hst]

theorem State.disableFormat_of_retiring (hst : s.entries[n].st = .retiring) : s.disableFormat = (s.setArg 2, .ok) := by
  simp only [State.disableFormat, ha, entryIndex_val, hst]

theorem State.disableFormat_of_held (hst : s.entries[n].st = .enabled) (hu : s.entries[n].unheld = false) :
    s.disableFormat = ((s.setEntry n { s.entries[n] with st := .retiring }).setArg 2, .ok) := by
  simp only [State.disableFormat, ha, entryIndex_val, hst, hu, Bool.false_eq_true, if_false]

theorem State.disableFormat_of_unheld (hst : s.entries[n].st = .enabled) (hu : s.entries[n].unheld = true) :
    s.disableFormat = (((s.setEntry n { s.entries[n] with st := .disabled }).clearMemoriesNaming n).setArg 0, .ok) := by
  simp only [State.disableFormat, ha, entryIndex_val, hst, hu, if_true]

end

end Sys2Proof.Machine

open Sys2Proof Sys2Proof.Machine Sys2Proof.Safety

/-- Settles O37: each command by the state of the entry it names. The one case with an effect beyond the entry is a DISABLE
FORMAT at once, which clears each line's memory by `State.clearMemoriesNaming`; what one line's clearing leaves alone on the
other line makes the two lines independent. -/
theorem formatCommandsFollowEntryState : Obligations.FormatCommandsFollowEntryState := by
  refine ⟨⟨fun s hd hr => exec_enableFormat_dormant hr hd, fun s hd hr => ⟨fun ha => ?badArg, fun n ha => ?enable⟩⟩,
    fun s hd hr => exec_disableFormat_dormant hr hd, fun s hd hr => ⟨fun ha => ?badArg', fun n ha => ?disable⟩⟩
  case badArg => exact exec_enableFormat_awake hr hd (State.enableFormat_of_badArg ha)
  case badArg' => exact exec_disableFormat_awake hr hd (State.disableFormat_of_badArg ha)
  case enable =>
    refine ⟨fun hst => ?enabled, fun hst => ?retiring, fun hst => ⟨fun hv => ?invalid, fun hv => ?valid⟩⟩
    case enabled => exact exec_enableFormat_awake hr hd (State.enableFormat_of_enabled ha hst)
    case retiring => exact exec_enableFormat_awake hr hd (State.enableFormat_of_retiring ha hst)
    case invalid => exact exec_enableFormat_awake hr hd (State.enableFormat_of_invalid ha hst hv)
    case valid => exact exec_enableFormat_awake hr hd (State.enableFormat_of_valid ha hst hv)
  case disable =>
    refine ⟨fun hst => ?disabled, fun hst => ?retiring, fun hst hu => ?held, fun hst hu => ?unheld⟩
    case disabled => exact exec_disableFormat_awake hr hd (State.disableFormat_of_disabled ha hst)
    case retiring => exact exec_disableFormat_awake hr hd (State.disableFormat_of_retiring ha hst)
    case held => exact exec_disableFormat_awake hr hd (State.disableFormat_of_held ha hst hu)
    case unheld =>
      refine ⟨_, exec_disableFormat_awake hr hd (State.disableFormat_of_unheld ha hst hu), by simp, by simp [State.setEntry],
        fun l m hm => ⟨fun hn => ?names, fun hn => ?spares⟩, by simp⟩
      case names => exact State.clearMemoriesNaming_of_names ((State.memoryNames_of_some hm n).trans (decide_eq_true hn))
      case spares =>
        exact State.clearMemoriesNaming_of_not_names ((State.memoryNames_of_some hm n).trans (decide_eq_false hn))

end

