-- ==== Sys2Proof/Proofs/PairDecoding.lean ====
section
/-! PROOF. O15: what an element and the end of the burst do to a candidate of a PAIR entry. -/

namespace Sys2Proof.Machine

open Sys2Proof (Byte Time Payload Line)
open Sys2Proof.Safety (gone)

/-! ### Windows -/

@[simp] theorem Window.matches_iff (w : Window) (d : Nat) : w.matches d = true ↔ w.lo ≤ d ∧ d ≤ w.hi := decide_eq_true_iff

theorem Window.absent_iff_gone (w : Window) : w.absent = true ↔ gone w := decide_eq_true_iff

/-! ### The bit of a pair (R49) -/

section
variable {f : Format} {m d : Nat}

theorem Format.pairBit_of_zero (h : f.mark0.matches m ∧ f.space0.matches d) : f.pairBit m d = some false := if_pos h

theorem Format.pairBit_of_one (h₀ : ¬ (f.mark0.matches m ∧ f.space0.matches d)) (h₁ : f.mark1.matches m ∧ f.space1.matches d) :
    f.pairBit m d = some true := by
  rw [Format.pairBit, if_neg h₀, if_pos h₁]

theorem Format.pairBit_of_neither (h₀ : ¬ (f.mark0.matches m ∧ f.space0.matches d))
    (h₁ : ¬ (f.mark1.matches m ∧ f.space1.matches d)) : f.pairBit m d = none := by
  rw [Format.pairBit, if_neg h₀, if_neg h₁]

end

section
variable {f : Format} {c : Candidate} {b : Bool}

theorem Candidate.addBit_of_room (h : c.bits.length < f.maxBits) : c.addBit f b = some { c with bits := c.bits ++ [b] } :=
  if_neg (by omega)

theorem Candidate.addBit_of_full (h : f.maxBits ≤ c.bits.length) : c.addBit f b = none := if_pos h

end

/-! ### Taking an element (R45, R47 to R49, R53) -/

section
variable {f : Format} {c : Candidate} {m d : Nat}

theorem Candidate.take_mark (h : c.phase ≠ .cells) : c.take f .mark d = some { c with pendingMark := some d } := if_neg h

theorem Candidate.take_space (h : c.phase ≠ .cells) : c.take f .space d = c.pendingMark.bind fun m => c.takePair f m d :=
  if_neg h

theorem Candidate.take_space_header (hp : c.phase = .header) (hm : c.pendingMark = some m) :
    c.take f .space d = if f.headerMark.matches m ∧ f.headerSpace.matches d then
      some { c with phase := .bits, pendingMark := none } else none := by
  simp [Candidate.take_space, Candidate.takePair, hp, hm]

theorem Candidate.take_space_lead (hp : c.phase = .lead) (hm : c.pendingMark = some m) :
    c.take f .space d = if f.repeatMark.matches m ∧ f.repeatSpace.matches d then
      some { c with phase := .tail, pendingMark := none } else none := by
  simp [Candidate.take_space, Candidate.takePair, hp, hm]

theorem Candidate.take_space_bits (hp : c.phase = .bits) (hm : c.pendingMark = some m) :
    c.take f .space d = (f.pairBit m d).bind (Candidate.addBit f { c with pendingMark := none }) := by
  cases h : f.pairBit m d <;> simp [Candidate.take_space, Candidate.takePair, hp, hm, h]

/-- A space removes a candidate in TAIL, whatever mark came before it. -/
theorem Candidate.take_space_tail (hp : c.phase = .tail) : c.take f .space d = none := by
  cases h : c.pendingMark <;> simp [Candidate.take_space, Candidate.takePair, hp, h]

/-- No space leads past MAX BITS: a pair that is no bit removes the candidate, and so does one that is a bit (R49). -/
theorem Candidate.take_space_bits_of_full (hp : c.phase = .bits) (hm : c.pendingMark = some m)
    (hfull : f.maxBits ≤ c.bits.length) : c.take f .space d = none := by
  rw [Candidate.take_space_bits hp hm]
  cases f.pairBit m d with
  | none => rfl
  | some b => exact Candidate.addBit_of_full hfull

theorem Candidate.take_space_bits_of_room {b : Bool} (hp : c.phase = .bits) (hm : c.pendingMark = some m)
    (hroom : c.bits.length < f.maxBits) (hb : f.pairBit m d = some b) :
    c.take f .space d = some { c with pendingMark := none, bits := c.bits ++ [b] } := by
  rw [Candidate.take_space_bits hp hm, hb]
  exact Candidate.addBit_of_room hroom

end

/-! ### The end of the burst (R50 to R52, R54) -/

theorem Format.complete_eq (f : Format) (bits : List Bool) :
    f.complete bits = if f.minBits ≤ bits.length ∧ bits.length ≤ f.maxBits then some bits else none := by
  simp [Format.complete, Format.countInRange]

theorem Format.complete_append_of_full {f : Format} {bits : List Bool} (h : f.maxBits ≤ bits.length) (b : Bool) :
    f.complete (bits ++ [b]) = none := by
  rw [Format.complete_eq, List.length_append, List.length_singleton, if_neg (by omega)]

section
variable {f : Format} {c : Candidate} {m : Nat}

theorem Candidate.endBits_of_trailer (h : ¬ gone f.trailerMark) :
    c.endBits f m = if f.trailerMark.matches m then f.complete c.bits else none :=
  if_neg (mt f.trailerMark.absent_iff_gone.mp h)

/-- With no trailer the mark decides the last bit. That a full candidate takes no further bit needs no test of its own: one
bit more would leave the range of the bit count. -/
theorem Candidate.endBits_of_no_trailer (h : gone f.trailerMark) :
    c.endBits f m = if f.mark0.matches m then f.complete (c.bits ++ [false])
      else if f.mark1.matches m then f.complete (c.bits ++ [true]) else none := by
  rw [Candidate.endBits, if_pos (f.trailerMark.absent_iff_gone.mpr h)]
  by_cases hfull : f.maxBits ≤ c.bits.length
  · simp only [if_pos hfull, Format.complete_append_of_full hfull, ite_self]
  · rw [if_neg hfull]

theorem Candidate.endTest_header (hp : c.phase = .header) : c.endTest f = none := by rw [Candidate.endTest, hp]

theorem Candidate.endTest_lead (hp : c.phase = .lead) : c.endTest f = none := by rw [Candidate.endTest, hp]

theorem Candidate.endTest_bits (hp : c.phase = .bits) (hm : c.pendingMark = some m) : c.endTest f = c.endBits f m := by
  rw [Candidate.endTest, hp, hm, Option.bind_some]

theorem Candidate.endTest_tail (hp : c.phase = .tail) (hm : c.pendingMark = some m) :
    c.endTest f = if f.trailerMark.matches m then some [] else none := by
  simp only [Candidate.endTest, hp, hm, Option.bind_some]

end

end Sys2Proof.Machine

open Sys2Proof Sys2Proof.Machine Sys2Proof.Safety

/-- Settles O15, phase by phase: the lemma for the phase says what the element or the end test does there, and the windows it
names decide which branch is taken. -/
theorem pairElementsAreClassified : Obligations.PairElementsAreClassified := by
  simp only [Obligations.PairElementsAreClassified, ← Window.matches_iff]
  refine ⟨fun f c hp => ⟨fun d => Candidate.take_mark (by simp [hp]), fun m d hm => ⟨?zero, ?one, ?full, ?neither⟩⟩,
    fun f c => ⟨?mark, ?header, Candidate.endTest_header, ?endInBits, ?lead, ?notLead, fun d => Candidate.take_space_tail,
      Candidate.endTest_lead, fun m hp hm => Candidate.endTest_tail hp hm⟩⟩
  case zero => exact fun hroom h₀ => Candidate.take_space_bits_of_room hp hm hroom (Format.pairBit_of_zero h₀)
  case one => exact fun hroom h₀ h₁ => Candidate.take_space_bits_of_room hp hm hroom (Format.pairBit_of_one h₀ h₁)
  case full => exact Candidate.take_space_bits_of_full hp hm
  case neither =>
    intro h₀ h₁
    rw [Candidate.take_space_bits hp hm, Format.pairBit_of_neither h₀ h₁, Option.bind_none]
  case mark => exact fun d hp => Candidate.take_mark (by rcases hp with hp | hp | hp <;> simp [hp])
  case header =>
    intro m d hp hm
    rw [Candidate.take_space_header hp hm]
    exact ⟨fun h => if_pos h, fun h => if_neg h⟩
  case lead =>
    intro m d hp hm hmark hspace
    rw [Candidate.take_space_lead hp hm, if_pos ⟨hmark, hspace⟩]
  case notLead =>
    intro m d hp hm h
    rw [Candidate.take_space_lead hp hm, if_neg h]
  case endInBits =>
    intro m hp hm
    rw [Candidate.endTest_bits hp hm]
    refine ⟨fun ht => ?trailer, fun ht => ?noTrailer⟩
    case trailer => rw [Candidate.endBits_of_trailer ht, Format.complete_eq, ← ite_and]
    case noTrailer =>
      simp only [Candidate.endBits_of_no_trailer ht, Format.complete_eq, List.length_append, List.length_singleton]
      exact ⟨fun h₀ => if_pos h₀, fun h₀ h₁ => by rw [if_neg h₀, if_pos h₁], fun h₀ h₁ => by rw [if_neg h₀, if_neg h₁]⟩

end

