-- ==== Sys2Proof/Proofs/QueueCommands.lean ====
section
/-! PROOF. O27 and O28: POP, FLUSH QUEUE and RQ WATERMARK. -/

namespace Sys2Proof.Machine

open Sys2Proof (Byte Time Payload Line)

/-! ### POP and FLUSH QUEUE (R102, R104) -/

section
variable {s : State}

theorem State.popRecord_of_empty (h : s.rq.records = []) : s.popRecord = (s, .empty) := by
  simp only [State.popRecord, h]

theorem State.popRecord_of_cons {r : Record} {rest : List Record} (h : s.rq.records = r :: rest) :
    s.popRecord = ({ s with rq := { s.rq with records := rest, held := false } }, .ok) := by
  simp only [State.popRecord, ReceiveQueue.pop, h, List.tail_cons]

theorem exec_pop_dormant (hr : s.pow.resetHeld = false) (hd : s.pow.st = .dormant) :
    exec .pop s = .next (s.setResult .state) :=
  congrArg Host.Outcome.next (s.command_dormant State.popRecord hr hd)

theorem exec_pop_awake (hr : s.pow.resetHeld = false) (hd : s.pow.st ≠ .dormant) :
    exec .pop s = .next (s.popRecord.1.setResult s.popRecord.2) :=
  congrArg Host.Outcome.next (s.command_awake State.popRecord hr hd)

theorem exec_flushQueue_dormant (hr : s.pow.resetHeld = false) (hd : s.pow.st = .dormant) :
    exec .flushQueue s = .next (s.setResult .state) :=
  congrArg Host.Outcome.next (s.command_dormant State.flushRecords hr hd)

theorem exec_flushQueue_awake (hr : s.pow.resetHeld = false) (hd : s.pow.st ≠ .dormant) :
    exec .flushQueue s = .next { s with
      rq := { s.rq with records := [], held := false }
      win := { s.win with arg := BitVec.ofNat 8 s.rq.records.length, result := .ok } } :=
  congrArg Host.Outcome.next (s.command_awake State.flushRecords hr hd)

/-- RQ COUNT (R97). -/
theorem State.readRegister_count (s : State) : s.readRegister 0x17 = BitVec.ofNat 8 s.rq.records.length := rfl

/-- The view of an empty queue: no record is counted, and every field of the head reads 0 (R97, R98). -/
theorem State.readRegister_of_empty (h : s.rq.records = []) {off : BitVec 6}
    (hoff : off = 0x17 ∨ (0x19 ≤ off.toNat ∧ off.toNat ≤ 0x27)) : s.readRegister off = 0 := by
  rcases hoff with rfl | ⟨h₀, h₁⟩
  · rw [State.readRegister_count, h]
    rfl
  · rw [State.readRegister_queue s (by omega) h₁]
    exact State.readQueue_of_empty h h₀

end

/-! ### RQ WATERMARK (R106) -/

theorem watermarkOf_eq (v : Byte) : watermarkOf v = if v = 0 then 1 else if 17 ≤ v.toNat then 16 else v.toNat := by
  rw [watermarkOf]
  by_cases h₀ : v = 0
  · subst h₀
    rfl
  · have hpos : v.toNat ≠ 0 := fun h => h₀ (BitVec.eq_of_toNat_eq h)
    rw [if_neg h₀]
    split <;> omega

/-- The stored watermark as a read returns it. -/
theorem ofNat_watermarkOf (v : Byte) :
    BitVec.ofNat 8 (watermarkOf v) = if v = 0 then 1 else if 17 ≤ v.toNat then 16 else v := by
  rw [watermarkOf_eq]
  split
  · rfl
  · split
    · rfl
    · rw [BitVec.ofNat_toNat, BitVec.setWidth_eq]

theorem State.readRegister_watermark (s : State) : s.readRegister 0x18 = BitVec.ofNat 8 s.rq.watermark := rfl

theorem State.rqCondition_iff (s : State) : s.rqCondition = true ↔ s.rq.watermark ≤ s.rq.records.length := decide_eq_true_iff

end Sys2Proof.Machine

open Sys2Proof Sys2Proof.Machine Sys2Proof.Safety

/-- Settles O27: each command by the power state, and a POP by the records. -/
theorem popAndFlushRemoveRecords : Obligations.PopAndFlushRemoveRecords := by
  refine ⟨⟨fun s hd hr => exec_pop_dormant hr hd, fun s hd hr h => ?empty, fun r rest s hd hr h => ?head⟩,
    fun s hd hr => exec_flushQueue_dormant hr hd,
    fun s hd hr => ⟨_, exec_flushQueue_awake hr hd, rfl, fun _ => rfl, fun _ => State.readRegister_of_empty rfl⟩⟩
  case empty =>
    rw [exec_pop_awake hr hd, State.popRecord_of_empty h]
    rfl
  case head =>
    rw [exec_pop_awake hr hd, State.popRecord_of_cons h]
    rfl

/-- Settles O28: the stored value by the three ranges of `watermarkOf_eq`, and the write by the guard of a register access. -/
theorem watermarkIsHeldInRange : Obligations.WatermarkIsHeldInRange := by
  refine ⟨fun v s hd hr => ?awake, fun v s hd hr => ?dormant⟩
  case awake =>
    refine ⟨_, congrArg Host.Outcome.next (s.registerAccess_awake (State.writeWatermark v) hr hd), ?_, ?_, ?_⟩
    · rw [State.writeWatermark, watermarkOf_eq]
    · exact (State.readRegister_watermark _).trans (ofNat_watermarkOf v)
    · rw [State.rqCondition_iff, ← watermarkOf_eq]
      rfl
  case dormant => exact congrArg Host.Outcome.next (s.registerAccess_dormant (State.writeWatermark v) hr hd)

end

