-- ==== Sys2Proof/Proofs/HeadHold.lean ====
section
/-! PROOF. O26: HOLD and the head view. No row but the read of HEAD KIND/LINE, POP, FLUSH QUEUE and a reset touches HOLD: each
operation that changes the records keeps it, and so does each row built of them. -/

namespace Sys2Proof.Machine

open Sys2Proof (Byte Time Payload Line)
open Sys2Proof.Safety (isReset)

/-! ### The operations that reach the records keep HOLD -/

@[simp] theorem State.takePost_held (s : State) (p : Post) : (s.takePost p).rq.held = s.rq.held := by
  rw [State.takePost_rq]

@[simp] theorem State.takeIncrement_held (s : State) (l : Line) : (s.takeIncrement l).rq.held = s.rq.held := rfl

@[simp] theorem State.takeRequest_held (s : State) (l : Line) (p : Post) :
    (s.takeRequest l p).rq.held = s.rq.held := by
  unfold State.takeRequest
  split <;> simp

@[simp] theorem State.takeRequestAll_held (s : State) (l : Line) (ps : List Post) :
    (ps.foldl (fun s p => s.takeRequest l p) s).rq.held = s.rq.held := by
  induction ps generalizing s with
  | nil => rfl
  | cons p ps ih => rw [List.foldl_cons, ih, State.takeRequest_held]

@[simp] theorem State.takeRequests_held (s : State) (l : Line) : (s.takeRequests l).rq.held = s.rq.held := by
  simp [State.takeRequests]

@[simp] theorem State.clearMemoryNaming_held (s : State) (n : Fin 8) (l : Line) :
    (s.clearMemoryNaming n l).rq.held = s.rq.held := by
  rw [State.clearMemoryNaming_eq]
  split <;> simp

@[simp] theorem State.clearMemoriesNaming_held (s : State) (n : Fin 8) :
    (s.clearMemoriesNaming n).rq.held = s.rq.held := by
  simp [State.clearMemoriesNaming]

@[simp] theorem State.expireMemory_held (s : State) (l : Line) : (s.expireMemory l).rq.held = s.rq.held := by
  unfold State.expireMemory
  split <;> simp

@[simp] theorem State.leaveHolder_held (s : State) (h : Holder) (n : Fin 8) :
    (s.leaveHolder h n).rq.held = s.rq.held := by
  unfold State.leaveHolder
  split <;> simp

@[simp] theorem State.leaveHolders_held (s : State) (h : Holder) (ns : List (Fin 8)) :
    (s.leaveHolders h ns).rq.held = s.rq.held := by
  unfold State.leaveHolders
  induction ns generalizing s with
  | nil => rfl
  | cons n ns ih => rw [List.foldl_cons, ih, State.leaveHolder_held]

/-! ### Decoders and repeat units -/

@[simp] theorem State.finishBurst_held (s : State) (l : Line) : (s.finishBurst l).rq.held = s.rq.held := by
  simp [State.finishBurst]

@[simp] theorem State.offerElement_held (s : State) (l : Line) (lvl : Level) (d : Nat) :
    (s.offerElement l lvl d).rq.held = s.rq.held := by
  simp [State.offerElement]

@[simp] theorem State.actOnNotice_held (s : State) (l : Line) (n : Notice) :
    (s.actOnNotice l n).rq.held = s.rq.held := by
  cases n with
  | element lvl d =>
    simp only [State.actOnNotice]
    split
    · simp
    · rfl
  | _ => simp [State.actOnNotice]

@[simp] theorem State.takeNotice_held (s : State) (l : Line) (n : Notice) :
    (s.takeNotice l n).rq.held = s.rq.held := by
  unfold State.takeNotice
  split <;> simp

@[simp] theorem State.takeOther_held (s : State) (l : Line) (o : BurstOutcome) :
    (s.takeOther l o).rq.held = s.rq.held := by
  unfold State.takeOther
  split
  case h_1 => simp [State.newFrame]
  all_goals simp

@[simp] theorem State.takeOutcome_held (s : State) (l : Line) (o : BurstOutcome) :
    (s.takeOutcome l o).rq.held = s.rq.held := by
  unfold State.takeOutcome
  split
  · simp
  · split <;> simp

@[simp] theorem State.takeHandedOutcome_held (s : State) (l : Line) :
    (s.takeHandedOutcome l).rq.held = s.rq.held := by
  unfold State.takeHandedOutcome
  split
  · rfl
  · dsimp only
    split <;> simp

@[simp] theorem State.settleNotice_held (s : State) (l : Line) (n : Notice) :
    (s.settleNotice l n).rq.held = s.rq.held := by
  unfold State.settleNotice
  split <;> simp

@[simp] theorem State.settleNotices_held (s : State) (l : Line) (ns : List Notice) :
    (ns.foldl (fun s n => s.settleNotice l n) s).rq.held = s.rq.held := by
  induction ns generalizing s with
  | nil => rfl
  | cons n ns ih => rw [List.foldl_cons, ih, State.settleNotice_held]

@[simp] theorem State.settleDecoder_held (s : State) (l : Line) : (s.settleDecoder l).rq.held = s.rq.held := by
  simp [State.settleDecoder]

/-! ### Commands -/

@[simp] theorem State.disableFormat_held (s : State) : s.disableFormat.1.rq.held = s.rq.held := by
  unfold State.disableFormat
  split
  · rfl
  · split
    · rfl
    · rfl
    · split <;> simp

@[simp] theorem State.releaseEntry_held (s : State) (j : Job) : (s.releaseEntry j).rq.held = s.rq.held := by
  unfold State.releaseEntry
  split <;> simp

@[simp] theorem State.endJob_held (s : State) (j : Job) (st : CompletionStatus) (t : Nat) :
    (s.endJob j st t).rq.held = s.rq.held := by
  simp [State.endJob, State.complete]

@[simp] theorem State.afterBurst_held (s : State) (j : Job) : (s.afterBurst j).rq.held = s.rq.held := by
  unfold State.afterBurst
  split <;> simp

@[simp] theorem State.stopTx_held (s : State) : s.stopTx.1.rq.held = s.rq.held := by
  unfold State.stopTx
  split <;> simp

@[simp] theorem State.abortActive_held (s : State) : s.abortActive.1.rq.held = s.rq.held := by
  unfold State.abortActive
  split <;> simp

@[simp] theorem State.abortTx_held (s : State) : s.abortTx.1.rq.held = s.rq.held := by
  unfold State.abortTx
  split
  · simp
  · split <;> simp

@[simp] theorem State.quietRepeatUnit_held (s : State) (l : Line) : (s.quietRepeatUnit l).rq.held = s.rq.held := by
  simp [State.quietRepeatUnit]

@[simp] theorem State.quietReceivers_held (s : State) (mask : Byte) (o : EntryOrder) :
    (s.quietReceivers mask o).rq.held = s.rq.held := by
  simp only [State.quietReceivers, State.eachLine]
  split <;> split <;> simp

@[simp] theorem State.goDormant_held (s : State) (mask : Byte) : (s.goDormant mask).rq.held = s.rq.held := by
  simp [State.goDormant, State.goDormantIn, State.settleInFlight, State.eachLine]

@[simp] theorem State.enterDormant_held (s : State) : s.enterDormant.1.rq.held = s.rq.held := by
  unfold State.enterDormant
  split
  · rfl
  · split <;> simp

/-! ### Host accesses -/

theorem held_windowBlind : WindowBlind fun s => s.rq.held := ⟨fun _ _ => rfl, fun _ => rfl, fun _ _ => rfl⟩

@[simp] theorem State.writeWatermark_held (v : Byte) (s : State) : (State.writeWatermark v s).rq.held = s.rq.held := rfl

theorem State.storeRegister_held (s : State) (off : Nat) (v : Byte) :
    (s.storeRegister off v).rq.held = s.rq.held := by
  unfold State.storeRegister
  split
  case h_19 => split <;> simp
  all_goals simp

/-- A byte outside Table 9-8 is no command's code (R185). -/
theorem commandOf_eq_none {code : Byte} (h : (Instr.unknownCommand code).WellFormed = true) : commandOf code = none := by
  revert code
  decide

/-- A write to COMMAND that is no command can change its result alone (R185). -/
theorem State.writeCommand_of_unknown (s : State) {code : Byte} (h : commandOf code = none) :
    s.writeCommand code = s.windowWrite fun s => s.setResult .unknown := by
  rw [State.writeCommand, h]

/-- A register without a row of its own is neither COMMAND nor TABLE DATA. -/
theorem execRegisterWrite_of_wellFormed {off : BitVec 6} {v : Byte} (h : (Instr.registerWrite off v).WellFormed = true)
    (s : State) : execRegisterWrite off v s = .next (s.registerAccess fun s => s.storeRegister off.toNat v) := by
  have hcommand : off.toNat ≠ 0x05 := by
    intro e
    rw [BitVec.eq_of_toNat_eq (y := 0x05) e] at h
    cases h
  have hdata : off.toNat ≠ 0x16 := by
    intro e
    rw [BitVec.eq_of_toNat_eq (y := 0x16) e] at h
    cases h
  rw [execRegisterWrite, if_neg hcommand, if_neg hdata]

/-! ### Deliveries -/

/-- The states a delivery can leave: the state as it was, when nothing has been sent, or the state after what was sent is
taken. What the capture unit comes to with a notice that is no element, or with a report, is left open. -/
inductive Delivered (s : State) : State → Prop
  | absent : Delivered s s
  | notice (l : Line) (n : Notice) (h : s.decoderNotice l = some n) : Delivered s (s.takeNotice l n)
  | outcome (l : Line) : Delivered s (s.takeHandedOutcome l)
  | dueInBurst (l : Line) (h : (s.rep.get l).opened = true) :
      Delivered s (s.setRep l { s.rep.get l with due := true, dueReached := false })
  | dueOutsideBurst (l : Line) (h : ¬ (s.rep.get l).opened = true) : Delivered s (s.expireMemory l)
  | expireRequest (l : Line) (n : Nat) (ns : List Nat) (h : (s.link.get l).expireRequests = n :: ns) :
      Delivered s (((s.setLink l { s.link.get l with
        expireRequests := ns
        oldBursts := max (s.link.get l).oldBursts n }).expireMemory l).closeBurst l)
  | post (l : Line) (p : Post) (h : s.oldestPost l = some p) :
      Delivered s ((s.dropRequest l fun p => !s.isIncrement l p).takePost p)
  | increment (l : Line) (p : Post) (h : s.oldestIncrement l = some p) :
      Delivered s ((s.dropRequest l fun p => s.isIncrement l p).takeIncrement l)
  | captureNotice (l : Line) (c : Capture) : Delivered s { s.dropCaptureNotice l with cap := c }
  | captureElement (l : Line) (lvl : Level) (d : Nat) (h : s.cap.records l = true) :
      Delivered s ((s.dropCaptureNotice l).appendElement lvl d)
  | report (l : Line) (c : Capture) : Delivered s { s.dropReport l with cap := c }
  | offer (l : Line) (o : Offer) (os : List Offer) (h : (s.link.get l).offers = o :: os) :
      Delivered s ((s.setLink l { s.link.get l with offers := os }).takeOffer l o)

/-- What a delivery can do, row by row. -/
theorem exec_delivered {c : Instr} (hc : isDelivery c = true) (s : State) : AllNext (Delivered s) (exec c s) := by
  cases c with
  | decoderBurstStart l | decoderElement l | decoderBurstEnd l | decoderBurstAbort l =>
    simp only [exec, execDecoderBurstStart, execDecoderElement, execDecoderBurstEnd, execDecoderBurstAbort]
    split
    · next h => exact .next (.notice l _ h)
    · exact .next .absent
  | outcomeTaken l => exact .next (.outcome l)
  | lfmDue l =>
    show AllNext _ (execLfmDue l s)
    unfold execLfmDue
    split
    · split
      · next h => exact .next (.dueInBurst l h)
      · next h => exact .next (.dueOutsideBurst l h)
    · exact .next .absent
  | expireRequest l =>
    show AllNext _ (execExpireRequest l s)
    unfold execExpireRequest
    split
    · exact .next .absent
    · next n ns h => exact .next (.expireRequest l n ns h)
  | post l =>
    show AllNext _ (execPost l s)
    unfold execPost
    split
    · exact .next .absent
    · next p h => exact .next (.post l p h)
  | repeatCountIncrement l =>
    show AllNext _ (execRepeatCountIncrement l s)
    unfold execRepeatCountIncrement
    split
    · exact .next .absent
    · next p h => exact .next (.increment l p h)
  | captureBurstStart l =>
    show AllNext _ (execCaptureBurstStart l s)
    unfold execCaptureBurstStart
    split
    · exact .next (.captureNotice l _)
    · exact .next .absent
  | captureElement l =>
    show AllNext _ (execCaptureElement l s)
    unfold execCaptureElement
    split
    · split
      · next h => exact .next (.captureElement l _ _ h)
      · exact .next (.captureNotice l s.cap)
    · exact .next .absent
  | captureClose l =>
    show AllNext _ (execCaptureClose l s)
    unfold execCaptureClose
    split
    · exact .next (.captureNotice l _)
    · exact .next (.captureNotice l _)
    · exact .next .absent
  | captureReport l =>
    show AllNext _ (execCaptureReport l s)
    unfold execCaptureReport
    split
    · exact .next (.report l _)
    · exact .next .absent
  | wakeOffer l =>
    show AllNext _ (execWakeOffer l s)
    unfold execWakeOffer
    split
    · exact .next .absent
    · next o os h => exact .next (.offer l o os h)
  | _ => cases hc

/-- A delivery keeps HOLD. -/
theorem Delivered.held {s t : State} (h : Delivered s t) : t.rq.held = s.rq.held := by
  cases h <;> simp

/-! ### Every row -/

/-- No row but a reset, the read of HEAD KIND/LINE, POP and FLUSH QUEUE changes HOLD (R99, R102, R104). -/
theorem exec_held {c : Instr} (hwf : c.WellFormed = true) (hr : isReset c = false) (hread : c ≠ .headKindLineRead)
    (hpop : c ≠ .pop) (hflush : c ≠ .flushQueue) (s : State) : AllNext (fun t => t.rq.held = s.rq.held) (exec c s) := by
  have delivery : isDelivery c = true → AllNext (fun t => t.rq.held = s.rq.held) (exec c s) :=
    fun hd => (exec_delivered hd s).mono fun t ht => ht.held
  cases c with
  | powerOnReset | pinReset | softReset => cases hr
  | headKindLineRead => exact absurd rfl hread
  | pop => exact absurd rfl hpop
  | flushQueue => exact absurd rfl hflush
  | timeTick =>
    refine .next ?_
    split <;> simp
  | rxEdge l dt => exact .next (by simp)
  | glitchTestAccept l => exact execGlitchTestAccept_allNext rfl fun g _ => by simp
  | settleWaitEnd l | burstEnd l | stuck l => exact .next (by simp)
  | lineEnable l v | lineDisable l v | idleWrite l v | faultClear l v | rqWatermarkWrite v | captureControlWrite v
  | loadLengthWrite hi v | stagingRegisterWrite r v | irqCauseWrite v | irqEnableWrite v =>
    exact .next (held_windowBlind.registerAccess (by simp))
  | registerWrite off v =>
    show AllNext _ (execRegisterWrite off v s)
    rw [execRegisterWrite_of_wellFormed hwf]
    exact .next (held_windowBlind.registerAccess (s.storeRegister_held _ _))
  | tableDataWrite v => exact .next (by simp)
  | timeLoRead | tableDataRead => exact .next (held_windowBlind.windowRead (by simp))
  | armCapture | disarmCapture | releaseCapture | loadCapture | enableFormat | disableFormat | submit | stopTx | abortTx
  | popCompletion | enterListen | enterDormant | clearWake => exact .next (held_windowBlind.command (by simp))
  | wakeUp => exact .next (held_windowBlind.commandWakeUp (by simp))
  | unknownCommand code =>
    refine .next ?_
    rw [State.writeCommand_of_unknown s (commandOf_eq_none hwf)]
    rcases s.windowWrite_cases fun s => s.setResult .unknown with h | h
    · rw [h]
    · rw [h, held_windowBlind.setResult]
  | jobStart => exact execJobStart_allNext rfl (fun j _ => by simp) fun j n _ _ _ => by simp
  | txBurstEnd => exact execTxBurstEnd_allNext rfl fun j _ _ => by simp
  | nextBurstStart => exact execNextBurstStart_allNext rfl fun j _ _ => by simp
  | tailEnd => exact execTailEnd_allNext rfl fun _ => by simp
  | guardHoldEnd l => exact execGuardHoldEnd_allNext rfl fun t _ => by simp
  | wakeEdge l => exact execWakeEdge_allNext rfl (fun k _ => by simp) fun k _ => by simp
  | _ => exact delivery rfl

/-! ### The read of HEAD KIND/LINE (R98, R99) -/

section
variable {q : ReceiveQueue}

theorem ReceiveQueue.hold_of_empty (h : q.records = []) : q.hold = q := by
  simp only [ReceiveQueue.hold, h]

theorem ReceiveQueue.hold_of_held (h : q.held = true) : q.hold = q := by
  unfold ReceiveQueue.hold
  split
  · rfl
  · exact if_pos h

variable {r : Record} {rest : List Record}

theorem ReceiveQueue.hold_of_not_held (h : q.records = r :: rest) (hh : q.held = false) :
    q.hold = { q with records := { r with referred := false } :: rest, held := true } := by
  simp only [ReceiveQueue.hold, h, hh, Bool.false_eq_true, if_false]

theorem ReceiveQueue.headKindLine_of_empty (h : q.records = []) : q.headKindLine = 0 := by
  simp only [ReceiveQueue.headKindLine, h]

theorem ReceiveQueue.headKindLine_of_cons (h : q.records = r :: rest) :
    q.headKindLine = BitVec.ofNat 8 (r.kind.code + 16 * lineCode r.line) := by
  simp only [ReceiveQueue.headKindLine, h]

theorem ReceiveQueue.headView_of_cons (h : q.records = r :: rest) (view : Record → Byte) : q.headView view = view r := by
  simp only [ReceiveQueue.headView, h]

end

section
variable {s : State}

theorem exec_headKindLineRead_resetHeld (h : s.pow.resetHeld = true) :
    exec .headKindLineRead s = .next (s.driveBus 0) :=
  congrArg Host.Outcome.next (s.windowRead_held _ _ h)

theorem exec_headKindLineRead_running (h : s.pow.resetHeld = false) :
    exec .headKindLineRead s = .next (({ s with rq := s.rq.hold } : State).driveBus s.rq.headKindLine) :=
  congrArg Host.Outcome.next (s.windowRead_running _ _ h)

/-- A read finds the head in HOLD and leaves it there. -/
theorem exec_headKindLineRead_of_held (h : s.rq.held = true) :
    AllNext (fun t => t.rq.held = s.rq.held) (exec .headKindLineRead s) :=
  .next (held_windowBlind.windowRead (congrArg ReceiveQueue.held (ReceiveQueue.hold_of_held h)))

end

/-! ### The head view (R97) -/

theorem Record.flags_eq (r : Record) :
    r.flags = BitVec.ofNat 8 (r.lost + (if r.loss then 64 else 0) + (if r.check then 128 else 0)) := by
  have hloss : 64 * r.loss.toNat = if r.loss then 64 else 0 := by cases r.loss <;> rfl
  have hcheck : 128 * r.check.toNat = if r.check then 128 else 0 := by cases r.check <;> rfl
  rw [Record.flags, hloss, hcheck]

/-- The registers from 0x20 on show the payload of the head. -/
theorem State.readQueue_payload (s : State) {n : Nat} (hn : 0x20 ≤ n) :
    s.readQueue n = s.rq.headView fun r => Payload.byte r.payload (n - 0x20) := by
  unfold State.readQueue
  split
  case h_10 => rfl
  all_goals omega

section
variable {r : Record} {rest : List Record} {s : State} (h : s.rq.records = r :: rest)
include h

theorem State.readRegister_headFields :
    s.readRegister 0x1A = BitVec.ofNat 8 r.format.val ∧ s.readRegister 0x1B = BitVec.ofNat 8 r.bits ∧
    s.readRegister 0x1C = BitVec.ofNat 8 r.repeats ∧ s.readRegister 0x1D = r.flags ∧
    s.readRegister 0x1E = r.stamp.extractLsb' 0 8 ∧ s.readRegister 0x1F = r.stamp.extractLsb' 8 8 :=
  have field : ∀ view : Record → Byte, s.rq.headView view = view r := ReceiveQueue.headView_of_cons h
  ⟨field _, field _, field _, field _, field _, field _⟩

theorem State.readRegister_headPayload (k : Fin 8) :
    s.readRegister (BitVec.ofNat 6 (0x20 + k.val)) = r.payload.extractLsb' (8 * k.val) 8 := by
  have hoff : (BitVec.ofNat 6 (0x20 + k.val)).toNat = 0x20 + k.val := by
    rw [BitVec.toNat_ofNat]
    omega
  rw [State.readRegister_queue _ (by omega) (by omega), hoff, State.readQueue_payload _ (by omega),
    ReceiveQueue.headView_of_cons h, Nat.add_sub_cancel_left, Payload.byte]

end

end Sys2Proof.Machine

open Sys2Proof Sys2Proof.Machine Sys2Proof.Safety

/-- Settles O26: the read by the state of the queue, HOLD over every other row by `exec_held`, and the view register by
register. -/
theorem headReadPlacesHold : Obligations.HeadReadPlacesHold := by
  refine ⟨fun s h => ?nothing, fun s h off h₀ h₁ => State.readRegister_of_empty h (.inr ⟨h₀, h₁⟩),
    fun c s t hwf hr hpop hflush ht hheld => ?kept, fun r rest s h hr hheld => ?held, fun r rest s h hr hheld => ?placed,
    fun r rest s h => ?view⟩
  case nothing =>
    cases hr : s.pow.resetHeld with
    | true => exact exec_headKindLineRead_resetHeld hr
    | false =>
      have hempty : s.rq.records = [] := h.resolve_right (by simp [hr])
      rw [exec_headKindLineRead_running hr, ReceiveQueue.hold_of_empty hempty,
        ReceiveQueue.headKindLine_of_empty hempty, State.driveBus]
  case kept =>
    by_cases hread : c = .headKindLineRead
    · subst hread
      rw [exec_headKindLineRead_of_held hheld t ht, hheld]
    · rw [exec_held hwf hr hread hpop hflush s t ht, hheld]
  case held =>
    rw [exec_headKindLineRead_running hr, ReceiveQueue.hold_of_held hheld, ReceiveQueue.headKindLine_of_cons h,
      State.driveBus]
  case placed =>
    rw [exec_headKindLineRead_running hr, ReceiveQueue.hold_of_not_held h hheld, ReceiveQueue.headKindLine_of_cons h,
      State.driveBus]
  case view =>
    obtain ⟨hformat, hbits, hrepeats, hflags, hlo, hhi⟩ := State.readRegister_headFields h
    refine ⟨?_, ReceiveQueue.headKindLine_of_cons h, hformat, hbits, hrepeats, ?_, hlo, hhi,
      State.readRegister_headPayload h⟩
    · rw [State.readRegister_count, h, List.length_cons]
    · rw [hflags, Record.flags_eq]

end

