-- ==== Sys2Proof/Proofs/CaptureCommands.lean ====
section
/-! PROOF. O33 and O34: the capture commands by the capture state, CAPTURE CONTROL, the load length and CAPTURE STATUS. -/

namespace Sys2Proof.Machine

open Sys2Proof (Byte Time Payload Line)

/-! ### What each command answers, by the capture state (R113, R121, R122, R125) -/

/-- A command outside DORMANT, by what it answers. -/
theorem State.command_awake_eq {s u : State} {r : CommandResult} {f : State → State × CommandResult}
    (hr : s.pow.resetHeld = false) (hd : s.pow.st ≠ .dormant) (h : f s = (u, r)) : s.command f = u.setResult r := by
  rw [s.command_awake f hr hd, h]

section
variable {s : State}

theorem State.armCapture_of_idle (h : s.cap.st = .idle) : s.armCapture = ({ s with cap := s.cap.arm }, .ok) := by
  simp only [State.armCapture, h]

theorem State.armCapture_of_not_idle (h : s.cap.st ≠ .idle) : s.armCapture = (s, .busy) := by
  unfold State.armCapture
  split
  · next hidle => exact absurd hidle h
  · rfl
  · rfl
  · rfl

theorem State.disarmCapture_of_idle (h : s.cap.st = .idle) : s.disarmCapture = (s, .ok) := by
  simp only [State.disarmCapture, h]

theorem State.disarmCapture_of_armed (h : s.cap.st = .armed) :
    s.disarmCapture = ({ s with cap := { s.cap with st := .idle } }, .ok) := by
  simp only [State.disarmCapture, h]

theorem State.disarmCapture_of_filling {l : Line} (h : s.cap.st = .filling l) :
    s.disarmCapture = ({ s with cap := s.cap.abandon .idle }, .ok) := by
  simp only [State.disarmCapture, h]

theorem State.disarmCapture_of_full {o : Owner} (h : s.cap.st = .full o) : s.disarmCapture = (s, .busy) := by
  simp only [State.disarmCapture, h]

theorem State.releaseCapture_of_pinned {o : Owner} (h : s.cap.st = .full o) (hp : s.cap.pins ≠ 0) :
    s.releaseCapture = (s, .pinned) := by
  simp only [State.releaseCapture, h, if_neg hp]

theorem State.releaseCapture_of_unpinned {o : Owner} (h : s.cap.st = .full o) (hp : s.cap.pins = 0) :
    s.releaseCapture = ({ s with cap := s.cap.giveUp }, .ok) := by
  simp only [State.releaseCapture, h, if_pos hp]

theorem State.releaseCapture_of_filling {l : Line} (h : s.cap.st = .filling l) : s.releaseCapture = (s, .busy) := by
  simp only [State.releaseCapture, h]

theorem State.releaseCapture_of_empty (h : s.cap.st = .idle ∨ s.cap.st = .armed) : s.releaseCapture = (s, .empty) := by
  rcases h with h | h <;> simp only [State.releaseCapture, h]

/-- A held recording that is given up re-arms with AUTO REARM (R122). -/
theorem Capture.giveUp_of_rearm {c : Capture} (h : c.rearm = true) : c.giveUp = c.arm := if_pos h

theorem Capture.giveUp_of_not_rearm {c : Capture} (h : c.rearm = false) : c.giveUp = { c with st := .idle, count := 0 } :=
  if_neg (by simp [h])

theorem State.loadCapture_of_not_idle (h : s.cap.st ≠ .idle) : s.loadCapture = (s, .busy) := by
  unfold State.loadCapture
  split
  · next hidle => exact absurd hidle h
  · rfl
  · rfl
  · rfl

theorem State.loadCapture_of_length (h : s.cap.st = .idle) (h₁ : 1 ≤ s.cap.loadLength.toNat)
    (h₂ : s.cap.loadLength.toNat ≤ Config.captureCapacity) : s.loadCapture = ({ s with cap := s.cap.load }, .ok) := by
  simp only [State.loadCapture, h, if_pos (And.intro h₁ h₂)]

theorem State.loadCapture_of_badLength (h : s.cap.st = .idle)
    (hlen : ¬ (1 ≤ s.cap.loadLength.toNat ∧ s.cap.loadLength.toNat ≤ Config.captureCapacity)) :
    s.loadCapture = (s, .badArg) := by
  simp only [State.loadCapture, h, if_neg hlen]

end

/-! ### The rows of the commands -/

section
variable {s u : State} {r : CommandResult} (hr : s.pow.resetHeld = false)
include hr

theorem exec_captureCommand_dormant (hd : s.pow.st = .dormant) {c : Instr}
    (hc : c ∈ [Instr.armCapture, .disarmCapture, .releaseCapture, .loadCapture]) :
    exec c s = .next (s.setResult .state) := by
  have refused (f) : Host.Outcome.next (s.command f) = (.next (s.setResult .state) : Host.Outcome State Fault Refusal) :=
    congrArg Host.Outcome.next (s.command_dormant f hr hd)
  simp only [List.mem_cons, List.not_mem_nil, or_false] at hc
  rcases hc with rfl | rfl | rfl | rfl
  · exact refused State.armCapture
  · exact refused State.disarmCapture
  · exact refused State.releaseCapture
  · exact refused State.loadCapture

variable (hd : s.pow.st ≠ .dormant)
include hd

theorem exec_armCapture_awake (h : s.armCapture = (u, r)) : exec .armCapture s = .next (u.setResult r) :=
  congrArg Host.Outcome.next (State.command_awake_eq hr hd h)

theorem exec_disarmCapture_awake (h : s.disarmCapture = (u, r)) : exec .disarmCapture s = .next (u.setResult r) :=
  congrArg Host.Outcome.next (State.command_awake_eq hr hd h)

theorem exec_releaseCapture_awake (h : s.releaseCapture = (u, r)) : exec .releaseCapture s = .next (u.setResult r) :=
  congrArg Host.Outcome.next (State.command_awake_eq hr hd h)

theorem exec_loadCapture_awake (h : s.loadCapture = (u, r)) : exec .loadCapture s = .next (u.setResult r) :=
  congrArg Host.Outcome.next (State.command_awake_eq hr hd h)

theorem exec_loadCapture_of_not_idle (h : s.cap.st ≠ .idle) : exec .loadCapture s = .next (s.setResult .busy) :=
  exec_loadCapture_awake hr hd (State.loadCapture_of_not_idle h)

end

/-! ### The fields of a byte -/

/-- A bit of a byte as a number. -/
theorem toNat_getLsbD (v : Byte) (i : Nat) : (v.getLsbD i).toNat = v.toNat / 2 ^ i % 2 := Nat.toNat_testBit v.toNat i

/-- The low two bits of a byte, bit by bit. -/
theorem and_three_eq (v : Byte) :
    v &&& 3 = byteOfBits false false false false false false (v.getLsbD 1) (v.getLsbD 0) := by
  apply BitVec.eq_of_toNat_eq
  have hmod : (v &&& 3).toNat = v.toNat % 4 := Nat.and_two_pow_sub_one_eq_mod v.toNat 2
  simp only [hmod, byteOfBits, BitVec.toNat_ofNat, toNat_getLsbD, Bool.toNat_false]
  omega

/-- The low four bits of a byte, bit by bit. -/
theorem and_fifteen_eq (v : Byte) :
    v &&& 0x0F = byteOfBits false false false false (v.getLsbD 3) (v.getLsbD 2) (v.getLsbD 1) (v.getLsbD 0) := by
  apply BitVec.eq_of_toNat_eq
  have hmod : (v &&& 0x0F).toNat = v.toNat % 16 := Nat.and_two_pow_sub_one_eq_mod v.toNat 4
  simp only [hmod, byteOfBits, BitVec.toNat_ofNat, toNat_getLsbD, Bool.toNat_false]
  omega

/-- A word put together of its high and its low byte. -/
theorem toNat_append_bytes (hi lo : Byte) : (hi ++ lo).toNat = 256 * hi.toNat + lo.toNat := by
  rw [BitVec.toNat_append, ← Nat.shiftLeft_add_eq_or_of_lt lo.isLt, Nat.shiftLeft_eq, Nat.mul_comm]

theorem toNat_highByte (w : BitVec 16) : (w.extractLsb' 8 8).toNat = w.toNat / 256 := by
  rw [BitVec.extractLsb'_toNat, Nat.shiftRight_eq_div_pow]
  omega

theorem toNat_lowByte (w : BitVec 16) : (w.extractLsb' 0 8).toNat = w.toNat % 256 := by
  rw [BitVec.extractLsb'_toNat, Nat.shiftRight_zero]

/-! ### CAPTURE CONTROL, the load length and CAPTURE STATUS (R112, R124, R127) -/

theorem lineSelectOf_eq (v : Byte) :
    lineSelectOf v = if v &&& 3 = 1 then .a else if v &&& 3 = 2 then .b else .any := by
  rw [and_three_eq, lineSelectOf]
  cases v.getLsbD 1 <;> cases v.getLsbD 0 <;> rfl

theorem State.writeCaptureControl_eq (v : Byte) (s : State) :
    State.writeCaptureControl v s = { s with cap := { s.cap with
      select := if v &&& 3 = 1 then .a else if v &&& 3 = 2 then .b else .any
      mode := if v.getLsbD 2 then .all else .unmatched
      rearm := v.getLsbD 3 } } := by
  rw [State.writeCaptureControl, lineSelectOf_eq]

theorem State.writeCaptureControl_control (v : Byte) (s : State) :
    (State.writeCaptureControl v s).cap.control =
      BitVec.ofNat 8 ((lineSelectOf v).code + 4 * (v.getLsbD 2).toNat + 8 * (v.getLsbD 3).toNat) := by
  rw [State.writeCaptureControl, Capture.control]
  cases v.getLsbD 2 <;> rfl

/-- The fields of CAPTURE CONTROL as a read returns them: the four bits written, with the LINE SELECT that names no line as
ANY. -/
theorem ofNat_controlFields (v : Byte) :
    BitVec.ofNat 8 ((lineSelectOf v).code + 4 * (v.getLsbD 2).toNat + 8 * (v.getLsbD 3).toNat) =
      if v &&& 3 = 0 then (v &&& 0x0F) ||| 3 else v &&& 0x0F := by
  rw [and_three_eq, and_fifteen_eq, lineSelectOf]
  cases v.getLsbD 3 <;> cases v.getLsbD 2 <;> cases v.getLsbD 1 <;> cases v.getLsbD 0 <;> decide

theorem State.writeLoadLength_low (v : Byte) (s : State) :
    (State.writeLoadLength false v s).cap.loadLength.toNat = 256 * (s.cap.loadLength.toNat / 256) + v.toNat := by
  rw [← toNat_highByte]
  exact toNat_append_bytes _ v

theorem State.writeLoadLength_high (v : Byte) (s : State) :
    (State.writeLoadLength true v s).cap.loadLength.toNat = 256 * v.toNat + s.cap.loadLength.toNat % 256 := by
  rw [← toNat_lowByte]
  exact toNat_append_bytes v _

/-- CAPTURE COUNT HI. -/
theorem State.readRegister_countHi (s : State) : s.readRegister 0x2B = if s.cap.count = 256 then 1 else 0 := by
  have hread : s.readRegister 0x2B = BitVec.ofNat 8 (decide (s.cap.count = 256)).toNat := rfl
  rw [hread]
  by_cases h : s.cap.count = 256 <;> simp [h]

/-- CAPTURE STATUS, with the flags as the values of their bits. -/
theorem Capture.status_eq (c : Capture) :
    c.status = BitVec.ofNat 8 (c.st.code + 8 * c.pins + (if c.truncated then 64 else 0) + (if c.missed then 128 else 0)) := by
  have htruncated : 64 * c.truncated.toNat = if c.truncated then 64 else 0 := by cases c.truncated <;> rfl
  have hmissed : 128 * c.missed.toNat = if c.missed then 128 else 0 := by cases c.missed <;> rfl
  rw [Capture.status, htruncated, hmissed]

theorem State.readRegister_captureStatus (s : State) : s.readRegister 0x29 = s.cap.status := rfl

end Sys2Proof.Machine

open Sys2Proof Sys2Proof.Machine Sys2Proof.Safety

/-- Settles O33: each command by the power state, and outside DORMANT by the capture state, the pins and the load length. -/
theorem captureCommandsFollowState : Obligations.CaptureCommandsFollowState := by
  refine ⟨⟨fun s hd hr c hc => exec_captureCommand_dormant hr hd hc, fun s hd hr =>
    ⟨fun h => ?armIdle, fun h => ?armBusy, fun h => ?disarmIdle, fun h => ?disarmArmed, fun l h => ?disarmFilling,
      fun o h => ?disarmFull⟩⟩,
    fun s hd hr => ⟨fun o h => ⟨fun hp => ?pinned, fun hp hrearm => ?giveUp, fun hp hrearm => ?rearm, ?loadFull⟩,
      fun l h => ⟨?releaseFilling, ?loadFilling⟩, fun h => ⟨?releaseArmed, ?loadArmed⟩,
      fun h => ⟨?releaseIdle, fun h₁ h₂ => ?load, fun hlen => ?loadBadLength⟩⟩⟩
  case armIdle => exact exec_armCapture_awake hr hd (State.armCapture_of_idle h)
  case armBusy => exact exec_armCapture_awake hr hd (State.armCapture_of_not_idle h)
  case disarmIdle => exact exec_disarmCapture_awake hr hd (State.disarmCapture_of_idle h)
  case disarmArmed => exact exec_disarmCapture_awake hr hd (State.disarmCapture_of_armed h)
  case disarmFilling => exact exec_disarmCapture_awake hr hd (State.disarmCapture_of_filling h)
  case disarmFull => exact exec_disarmCapture_awake hr hd (State.disarmCapture_of_full h)
  case pinned => exact exec_releaseCapture_awake hr hd (State.releaseCapture_of_pinned h hp)
  case giveUp =>
    rw [exec_releaseCapture_awake hr hd (State.releaseCapture_of_unpinned h hp), Capture.giveUp_of_not_rearm hrearm]
    rfl
  case rearm =>
    rw [exec_releaseCapture_awake hr hd (State.releaseCapture_of_unpinned h hp), Capture.giveUp_of_rearm hrearm]
    rfl
  case releaseFilling => exact exec_releaseCapture_awake hr hd (State.releaseCapture_of_filling h)
  case releaseArmed => exact exec_releaseCapture_awake hr hd (State.releaseCapture_of_empty (.inr h))
  case releaseIdle => exact exec_releaseCapture_awake hr hd (State.releaseCapture_of_empty (.inl h))
  case loadFull => exact exec_loadCapture_of_not_idle hr hd (by simp [h])
  case loadFilling => exact exec_loadCapture_of_not_idle hr hd (by simp [h])
  case loadArmed => exact exec_loadCapture_of_not_idle hr hd (by simp [h])
  case load => exact exec_loadCapture_awake hr hd (State.loadCapture_of_length h h₁ h₂)
  case loadBadLength =>
    refine exec_loadCapture_awake hr hd (State.loadCapture_of_badLength h ?_)
    rw [Config.captureCapacity]
    omega

/-- Settles O34: each write by the guard of a register access and the field it stores, and the reads by their registers. -/
theorem captureRegistersAreStored : Obligations.CaptureRegistersAreStored := by
  refine ⟨fun hi v s hd hr => ⟨?controlRefused, ?lengthRefused⟩,
    fun s hd hr => ⟨fun v => ?control, fun v => ?low, fun v => ?high, fun _ => ⟨rfl, s.readRegister_countHi⟩⟩,
    fun s => ?status⟩
  case controlRefused => exact congrArg Host.Outcome.next (s.registerAccess_dormant (State.writeCaptureControl v) hr hd)
  case lengthRefused => exact congrArg Host.Outcome.next (s.registerAccess_dormant (State.writeLoadLength hi v) hr hd)
  case control =>
    exact ⟨_, congrArg Host.Outcome.next (s.registerAccess_awake (State.writeCaptureControl v) hr hd),
      State.writeCaptureControl_eq v s, (State.writeCaptureControl_control v s).trans (ofNat_controlFields v)⟩
  case low =>
    exact ⟨_, congrArg Host.Outcome.next (s.registerAccess_awake (State.writeLoadLength false v) hr hd), rfl,
      State.writeLoadLength_low v s⟩
  case high =>
    exact ⟨_, congrArg Host.Outcome.next (s.registerAccess_awake (State.writeLoadLength true v) hr hd), rfl,
      State.writeLoadLength_high v s⟩
  case status => exact s.readRegister_captureStatus.trans s.cap.status_eq

end

