-- ==== Sys2Proof/Proofs/Staging.lean ====
section
/-! PROOF. O39: the staging registers and SUBMIT. A staging register is written and read as one of the fourteen bytes of a job,
and SUBMIT answers with the first of its tests that fails. -/

namespace Sys2Proof.Machine

open Sys2Proof (Byte Time Payload Line)

/-! ### The bytes of a payload -/

/-- The mask of payload byte `k`, bit by bit. -/
theorem getLsbD_byteMask (k i : Nat) :
    ((0xFF : Payload) <<< (8 * k)).getLsbD i = decide (i < 64 ∧ 8 * k ≤ i ∧ i < 8 * k + 8) := by
  have hmask : (0xFF : Payload) = (BitVec.allOnes 8).setWidth 64 := rfl
  rw [hmask, BitVec.getLsbD_shiftLeft, BitVec.getLsbD_setWidth, BitVec.getLsbD_allOnes, Bool.eq_iff_iff]
  simp only [Bool.and_eq_true, Bool.not_eq_true', decide_eq_true_eq, decide_eq_false_iff_not]
  omega

theorem Payload.getLsbD_setByte_of_mem {p : Payload} {k i : Nat} {v : Byte} (hi : i < 64) (h₁ : 8 * k ≤ i)
    (h₂ : i < 8 * k + 8) : (Payload.setByte p k v).getLsbD i = v.getLsbD (i - 8 * k) := by
  have hmask : ((0xFF : Payload) <<< (8 * k)).getLsbD i = true := by
    rw [getLsbD_byteMask]
    exact decide_eq_true ⟨hi, h₁, h₂⟩
  have hwidth : i - 8 * k < 64 := by omega
  simp only [Payload.setByte, BitVec.getLsbD_or, BitVec.getLsbD_and, BitVec.getLsbD_not, hmask, BitVec.getLsbD_shiftLeft,
    BitVec.getLsbD_setWidth, hi, hwidth, Nat.not_lt.mpr h₁, decide_true, decide_false, Bool.not_true, Bool.not_false,
    Bool.and_false, Bool.false_or, Bool.true_and]

theorem Payload.getLsbD_setByte_of_not_mem {p : Payload} {k i : Nat} {v : Byte} (hi : i < 64)
    (h : i < 8 * k ∨ 8 * k + 8 ≤ i) : (Payload.setByte p k v).getLsbD i = p.getLsbD i := by
  have hmask : ((0xFF : Payload) <<< (8 * k)).getLsbD i = false := by
    rw [getLsbD_byteMask]
    exact decide_eq_false (by omega)
  have hshift : ((v.setWidth 64 : Payload) <<< (8 * k)).getLsbD i = false := by
    rw [BitVec.getLsbD_shiftLeft, BitVec.getLsbD_setWidth]
    rcases h with h | h
    · simp only [h, decide_true, Bool.not_true, Bool.and_false, Bool.false_and]
    · rw [BitVec.getLsbD_of_ge v _ (by omega), Bool.and_false, Bool.and_false]
  simp only [Payload.setByte, BitVec.getLsbD_or, BitVec.getLsbD_and, BitVec.getLsbD_not, hmask, hshift, hi, decide_true,
    Bool.not_false, Bool.and_true, Bool.or_false]

theorem Payload.byte_setByte_same (p : Payload) {k : Nat} (hk : k < 8) (v : Byte) :
    Payload.byte (Payload.setByte p k v) k = v := by
  apply BitVec.eq_of_getLsbD_eq
  intro i hi
  rw [Payload.byte, BitVec.getLsbD_extractLsb',
    Payload.getLsbD_setByte_of_mem (by omega) (by omega) (by omega), Nat.add_sub_cancel_left, decide_eq_true hi, Bool.true_and]

theorem Payload.byte_setByte_ne (p : Payload) {k m : Nat} (hm : m < 8) (h : m ≠ k) (v : Byte) :
    Payload.byte (Payload.setByte p k v) m = Payload.byte p m := by
  apply BitVec.eq_of_getLsbD_eq
  intro i hi
  rw [Payload.byte, Payload.byte, BitVec.getLsbD_extractLsb', BitVec.getLsbD_extractLsb',
    Payload.getLsbD_setByte_of_not_mem (by omega) (by omega)]

/-! ### The fourteen staging registers (R130) -/

theorem Job.register_of_payload (j : Job) {r : Fin 14} (h : 6 ≤ r.val) :
    j.register r = Payload.byte j.payload (r.val - 6) := by
  unfold Job.register
  split
  case h_7 => rfl
  all_goals omega

theorem Job.setRegister_of_payload (j : Job) {r : Fin 14} (h : 6 ≤ r.val) (v : Byte) :
    j.setRegister r v = { j with payload := Payload.setByte j.payload (r.val - 6) v } := by
  unfold Job.setRegister
  split
  case h_7 => rfl
  all_goals omega

/-- The fields that a write of staging register `r` does not reach. -/
theorem Job.setRegister_frame (j : Job) (r : Fin 14) (v : Byte) :
    (r.val ≠ 0 → (j.setRegister r v).kindFlags = j.kindFlags) ∧ (r.val ≠ 1 → (j.setRegister r v).format = j.format) ∧
    (r.val ≠ 2 → (j.setRegister r v).bits = j.bits) ∧ (r.val ≠ 3 → (j.setRegister r v).repeats = j.repeats) ∧
    (r.val ≠ 4 → (j.setRegister r v).tag = j.tag) ∧ (r.val ≠ 5 → (j.setRegister r v).blank = j.blank) ∧
    (r.val < 6 → (j.setRegister r v).payload = j.payload) := by
  unfold Job.setRegister
  split
  case h_7 =>
    refine ⟨fun _ => rfl, fun _ => rfl, fun _ => rfl, fun _ => rfl, fun _ => rfl, fun _ => rfl, fun _ => ?_⟩
    simp only [imp_false] at *
    omega
  all_goals simp_all only [ne_eq, not_true_eq_false, false_implies, implies_true, and_self]

theorem Job.register_setRegister_same (j : Job) (r : Fin 14) (v : Byte) : (j.setRegister r v).register r = v := by
  by_cases hr : 6 ≤ r.val
  · rw [Job.register_of_payload _ hr, j.setRegister_of_payload hr, Payload.byte_setByte_same _ (by omega)]
  · unfold Job.register
    split
    case h_7 =>
      simp only [imp_false] at *
      omega
    all_goals next hval => simp only [Job.setRegister, hval]

theorem Job.register_setRegister_ne (j : Job) {r q : Fin 14} (h : q ≠ r) (v : Byte) :
    (j.setRegister r v).register q = j.register q := by
  have hne : q.val ≠ r.val := fun e => h (Fin.ext e)
  obtain ⟨hkind, hformat, hbits, hrepeats, htag, hblank, hpayload⟩ := j.setRegister_frame r v
  by_cases hq : 6 ≤ q.val
  · rw [Job.register_of_payload _ hq, Job.register_of_payload _ hq]
    by_cases hr : 6 ≤ r.val
    · rw [j.setRegister_of_payload hr, Payload.byte_setByte_ne _ (by omega) (by omega)]
    · rw [hpayload (by omega)]
  · unfold Job.register
    split
    · exact hkind (by omega)
    · exact hformat (by omega)
    · exact hbits (by omega)
    · exact hrepeats (by omega)
    · exact htag (by omega)
    · exact hblank (by omega)
    · simp only [imp_false] at *
      omega

theorem State.readHigh_staging (s : State) (q : Fin 14) : s.readHigh (0x2C + q.val) = s.tx.staging.register q := by
  unfold State.readHigh
  split
  case h_11 =>
    rw [Nat.add_sub_cancel_left]
    exact congrArg s.tx.staging.register (Fin.ofNat_val_eq_self q)
  all_goals omega

/-- A read of a staging register returns its byte. -/
theorem State.readRegister_staging (s : State) (q : Fin 14) :
    s.readRegister (BitVec.ofNat 6 (0x2C + q.val)) = s.tx.staging.register q := by
  have hoff : (BitVec.ofNat 6 (0x2C + q.val)).toNat = 0x2C + q.val := by
    rw [BitVec.toNat_ofNat]
    omega
  rw [State.readRegister, hoff, if_neg (by omega), if_neg (by omega), s.readHigh_staging q]

/-! ### The tests of SUBMIT (R131) -/

/-- KIND by the number in its two bits. -/
theorem Job.kind_eq (j : Job) :
    j.kind = if j.kindFlags &&& 3 = 1 then .frame else if j.kindFlags &&& 3 = 2 then .replay else .illegal := by
  rw [and_three_eq, Job.kind]
  cases j.kindFlags.getLsbD 1 <;> cases j.kindFlags.getLsbD 0 <;> rfl

theorem Job.kind_of_frame {j : Job} (h : j.kindFlags &&& 3 = 1) : j.kind = .frame := by
  rw [Job.kind_eq, if_pos h]

theorem Job.kind_of_replay {j : Job} (h : j.kindFlags &&& 3 = 2) : j.kind = .replay := by
  rw [Job.kind_eq, h]
  rfl

theorem Job.kind_of_illegal {j : Job} (h : j.kindFlags &&& 3 = 0 ∨ j.kindFlags &&& 3 = 3) : j.kind = .illegal := by
  rcases h with h | h <;> (rw [Job.kind_eq, h]; rfl)

theorem CaptureState.isFull_iff (c : CaptureState) : c.isFull = true ↔ ∃ o, c = .full o := by
  cases c <;> simp [CaptureState.isFull]

section
variable {s : State}

theorem State.submitTest_of_not_active (h : s.pow.st ≠ .active) : s.submitTest = .state := if_pos h

variable (ha : s.pow.st = .active)
include ha

theorem State.submitTest_of_full (h : 4 ≤ s.tx.jobs.length) : s.submitTest = .full := by
  rw [State.submitTest, Config.jobCapacity, if_neg (not_not_intro ha), if_pos h]

variable (hl : s.tx.jobs.length < 4)
include hl

theorem State.submitTest_of_illegal (h : s.tx.staging.kind = .illegal) : s.submitTest = .badArg := by
  rw [State.submitTest, Config.jobCapacity, if_neg (not_not_intro ha), if_neg (Nat.not_le.mpr hl), if_pos h]

/-- A job whose format byte names no entry fails the same test as one of an illegal KIND. -/
theorem State.submitTest_of_noEntry (h : 7 < s.tx.staging.format.toNat) : s.submitTest = .badArg := by
  rw [State.submitTest, Config.jobCapacity, if_neg (not_not_intro ha), if_neg (Nat.not_le.mpr hl), Job.entry,
    entryIndex_of_lt h, ite_self]

variable (hk : s.tx.staging.kind ≠ .illegal) {n : Fin 8} (hn : s.tx.staging.format.toNat = n.val)
include hk hn

theorem State.submitTest_of_entry : s.submitTest = s.submitEntryTest n := by
  rw [State.submitTest, Config.jobCapacity, if_neg (not_not_intro ha), if_neg (Nat.not_le.mpr hl), if_neg hk, Job.entry,
    hn, entryIndex_val]

end

section
variable {s : State} {n : Fin 8}

theorem State.submitEntryTest_of_not_enabled (h : s.entries[n].st ≠ .enabled) : s.submitEntryTest n = .unavailable := if_pos h

variable (he : s.entries[n].st = .enabled)
include he

theorem State.submitEntryTest_of_frame (hk : s.tx.staging.kind = .frame) :
    s.submitEntryTest n = if (s.format n).minBits ≤ s.tx.staging.bits.toNat ∧ s.tx.staging.bits.toNat ≤ (s.format n).maxBits
      then .ok else .badArg := by
  simp only [State.submitEntryTest, he, hk, Format.countInRange, decide_eq_true_eq, ne_eq, not_true_eq_false, true_and,
    reduceCtorEq, false_and, if_false, ite_not]

theorem State.submitEntryTest_of_replay (hk : s.tx.staging.kind = .replay) :
    s.submitEntryTest n = if s.cap.st.isFull = true then .ok else .unavailable := by
  simp only [State.submitEntryTest, he, hk, ne_eq, not_true_eq_false, true_and, reduceCtorEq, false_and, if_false, ite_not]

end

/-! ### SUBMIT by the result of its tests -/

section
variable {s : State}

theorem State.appendJob_of_not_replay (h : s.tx.staging.kind ≠ .replay) :
    s.appendJob = { s with tx := { s.tx with jobs := s.tx.jobs ++ [s.tx.staging] } } := if_neg h

theorem State.appendJob_of_replay (h : s.tx.staging.kind = .replay) :
    s.appendJob = { s with
      tx := { s.tx with jobs := s.tx.jobs ++ [s.tx.staging] }
      cap := { s.cap with pins := s.cap.pins + 1 } } := if_pos h

theorem State.submitJob_of_ok (h : s.submitTest = .ok) : s.submitJob = (s.appendJob, .ok) := if_pos h

theorem State.submitJob_of_ne_ok (h : s.submitTest ≠ .ok) : s.submitJob = (s, s.submitTest) := if_neg h

variable (hr : s.pow.resetHeld = false)
include hr

/-- A failed test gives the result; in DORMANT, where every command is refused with STATE, the first test fails with STATE
too. -/
theorem exec_submit_refused {r : CommandResult} (h : s.submitTest = r) (hne : r ≠ .ok) :
    exec .submit s = .next (s.setResult r) := by
  subst h
  by_cases hd : s.pow.st = .dormant
  · have hstate : s.submitTest = .state := State.submitTest_of_not_active (by simp [hd])
    rw [hstate]
    exact congrArg Host.Outcome.next (s.command_dormant State.submitJob hr hd)
  · exact congrArg Host.Outcome.next (State.command_awake_eq hr hd (State.submitJob_of_ne_ok hne))

theorem exec_submit_accepted (ha : s.pow.st = .active) (h : s.submitTest = .ok) :
    exec .submit s = .next (s.appendJob.setResult .ok) :=
  congrArg Host.Outcome.next (State.command_awake_eq hr (by simp [ha]) (State.submitJob_of_ok h))

end

end Sys2Proof.Machine

open Sys2Proof Sys2Proof.Machine Sys2Proof.Safety

/-- Settles O39: a staging write by the guard of a register access and the byte it stores; SUBMIT by the first of its tests that
fails, and by the KIND of the staged job when none does. -/
theorem stagingIsStoredAndSubmitted : Obligations.StagingIsStoredAndSubmitted := by
  refine ⟨fun r v s => ⟨fun hd hr => ?stored, fun hd hr => ?dormant⟩,
    fun s hr => ⟨fun hst => ?notActive, fun ha => ⟨fun hfull => ?full, fun hl => ⟨?badArg, fun n hn hcode => ?named⟩⟩⟩⟩
  case stored =>
    exact ⟨_, congrArg Host.Outcome.next (s.registerAccess_awake (State.writeStaging r v) hr hd), rfl,
      s.tx.staging.register_setRegister_same r v, fun q hq => s.tx.staging.register_setRegister_ne hq v,
      State.readRegister_staging _⟩
  case dormant => exact congrArg Host.Outcome.next (s.registerAccess_dormant (State.writeStaging r v) hr hd)
  case notActive => exact exec_submit_refused hr (State.submitTest_of_not_active hst) (by decide)
  case full => exact exec_submit_refused hr (State.submitTest_of_full ha hfull) (by decide)
  case badArg =>
    rintro (h | h | h)
    · exact exec_submit_refused hr (State.submitTest_of_illegal ha hl (Job.kind_of_illegal (.inl h))) (by decide)
    · exact exec_submit_refused hr (State.submitTest_of_illegal ha hl (Job.kind_of_illegal (.inr h))) (by decide)
    · exact exec_submit_refused hr (State.submitTest_of_noEntry ha hl h) (by decide)
  case named =>
    have hkind : s.tx.staging.kind ≠ .illegal := by
      rcases hcode with h | h
      · simp [Job.kind_of_frame h]
      · simp [Job.kind_of_replay h]
    have htest : s.submitTest = s.submitEntryTest n := State.submitTest_of_entry ha hl hkind hn
    refine ⟨fun he => ?notEnabled, fun he hcode => ?frame, fun he hcode => ?replay⟩
    case notEnabled => exact exec_submit_refused hr (htest.trans (State.submitEntryTest_of_not_enabled he)) (by decide)
    case frame =>
      have hk := Job.kind_of_frame hcode
      rw [State.submitEntryTest_of_frame he hk] at htest
      refine ⟨fun hout => ?_, fun hmin hmax => ?_⟩
      · exact exec_submit_refused hr (htest.trans (if_neg (by omega))) (by decide)
      · rw [exec_submit_accepted hr ha (htest.trans (if_pos ⟨hmin, hmax⟩)), State.appendJob_of_not_replay (by simp [hk])]
        rfl
    case replay =>
      have hk := Job.kind_of_replay hcode
      rw [State.submitEntryTest_of_replay he hk] at htest
      refine ⟨fun hnone => ?_, fun o ho => ?_⟩
      · refine exec_submit_refused hr (htest.trans (if_neg fun hfull => ?_)) (by decide)
        obtain ⟨o, ho⟩ := s.cap.st.isFull_iff.mp hfull
        exact hnone o ho
      · rw [exec_submit_accepted hr ha (htest.trans (if_pos (s.cap.st.isFull_iff.mpr ⟨o, ho⟩))), State.appendJob_of_replay hk]
        rfl

end

