-- ==== Sys2Proof/Proofs/TablePort.lean ====
section
/-! PROOF. O35 and O36: the table pointer and the table port. A write of TABLE DATA is judged by the owner of its address, one
lemma for each region of the table space. -/

namespace Sys2Proof.Machine

open Sys2Proof (Byte Time Payload Line)

/-! ### The table pointer (R177, R178) -/

/-- A value of any width put together of its high bits and its low byte. -/
theorem toNat_append_lowByte {w : Nat} (hi : BitVec w) (lo : Byte) : (hi ++ lo).toNat = 256 * hi.toNat + lo.toNat := by
  rw [BitVec.toNat_append, ← Nat.shiftLeft_add_eq_or_of_lt lo.isLt, Nat.shiftLeft_eq, Nat.mul_comm]

theorem toNat_pointerHigh (p : BitVec 10) : (p.extractLsb' 8 2).toNat = p.toNat / 256 := by
  rw [BitVec.extractLsb'_toNat, Nat.shiftRight_eq_div_pow]
  omega

theorem toNat_pointerLow (p : BitVec 10) : (p.extractLsb' 0 8).toNat = p.toNat % 256 := by
  rw [BitVec.extractLsb'_toNat, Nat.shiftRight_zero]

theorem State.writePointerLo_pointer (v : Byte) (s : State) :
    (State.writePointerLo v s).win.pointer.toNat = 256 * (s.win.pointer.toNat / 256) + v.toNat := by
  rw [← toNat_pointerHigh]
  exact toNat_append_lowByte _ v

theorem State.writePointerHi_pointer (v : Byte) (s : State) :
    (State.writePointerHi v s).win.pointer.toNat = 256 * (v.toNat % 4) + s.win.pointer.toNat % 256 := by
  have hbits : (v.extractLsb' 0 2).toNat = v.toNat % 4 := by rw [BitVec.extractLsb'_toNat, Nat.shiftRight_zero]
  rw [← toNat_pointerLow, ← hbits]
  exact toNat_append_lowByte _ _

theorem State.readRegister_pointerLo (s : State) : (s.readRegister 0x14).toNat = s.win.pointer.toNat % 256 :=
  toNat_pointerLow s.win.pointer

theorem State.readRegister_pointerHi (s : State) : (s.readRegister 0x15).toNat = s.win.pointer.toNat / 256 := by
  have hread : s.readRegister 0x15 = (s.win.pointer.extractLsb' 8 2).setWidth 8 := rfl
  rw [hread, BitVec.toNat_setWidth_of_le (by decide), toNat_pointerHigh]

/-- The pointer wraps from 0x3FF to 0x000. -/
theorem State.advancePointer_pointer (s : State) :
    s.advancePointer.win.pointer.toNat = (s.win.pointer.toNat + 1) % 1024 := BitVec.toNat_add s.win.pointer 1

theorem exec_tableDataRead_running {s : State} (h : s.pow.resetHeld = false) :
    exec .tableDataRead s = .next (s.advancePointer.driveBus (Memory.read s.mem s.win.pointer.toNat)) :=
  congrArg Host.Outcome.next (s.windowRead_running _ _ h)

theorem exec_tableDataWrite_running {s : State} (h : s.pow.resetHeld = false) (v : Byte) :
    exec (.tableDataWrite v) s = .next (s.offerTableByte s.win.pointer.toNat v).advancePointer :=
  congrArg Host.Outcome.next (s.windowWrite_running _ h)

/-! ### The owners of the table space (R29, R123, R165, R180) -/

/-- Where an address of the table space lies: a format entry, the wake list, the bytes not stored or the capture buffer. -/
theorem tableAddress_cases (a : Nat) :
    (∃ n : Fin 8, 48 * n.val ≤ a ∧ a < 48 * n.val + 48) ∨ (0x180 ≤ a ∧ a ≤ 0x1C7) ∨ (0x1C8 ≤ a ∧ a < 0x200) ∨ 0x200 ≤ a := by
  by_cases h : a < 0x180
  · exact .inl ⟨⟨a / 48, by omega⟩, by simp only; omega, by simp only; omega⟩
  · omega

section
variable (s : State) {a : Nat}

theorem State.takesTableWrite_entry {n : Fin 8} (h₀ : 48 * n.val ≤ a) (h₁ : a < 48 * n.val + 48) :
    s.takesTableWrite a = decide (s.entries[n].st = .disabled) := by
  have hbase : a < Config.wakeBase := by rw [Config.wakeBase]; omega
  have hindex : a / Config.entryStride = n.val := by rw [Config.entryStride]; omega
  simp only [State.takesTableWrite, if_pos hbase, hindex, entryIndex_val]

theorem State.takesTableWrite_wakeList (h₀ : 0x180 ≤ a) (h₁ : a ≤ 0x1C7) :
    s.takesTableWrite a = decide (s.pow.st = .active) := by
  rw [State.takesTableWrite, Config.wakeBase, Config.unstoredBase, if_neg (by omega), if_pos (by omega)]

theorem State.takesTableWrite_unstored (h₀ : 0x1C8 ≤ a) (h₁ : a < 0x200) : s.takesTableWrite a = false := by
  rw [State.takesTableWrite, Config.wakeBase, Config.unstoredBase, Config.captureBase, if_neg (by omega),
    if_neg (by omega), if_pos (by omega)]

theorem State.takesTableWrite_capture (h : 0x200 ≤ a) : s.takesTableWrite a = decide (s.cap.st = .idle) := by
  rw [State.takesTableWrite, Config.wakeBase, Config.unstoredBase, Config.captureBase, if_neg (by omega),
    if_neg (by omega), if_neg (by omega)]

/-- The owner of an address takes a write in three cases (R179). -/
theorem State.takesTableWrite_iff (a : Nat) :
    s.takesTableWrite a = true ↔
      (∃ n : Fin 8, 48 * n.val ≤ a ∧ a < 48 * n.val + 48 ∧ s.entries[n].st = .disabled) ∨
        (0x180 ≤ a ∧ a ≤ 0x1C7 ∧ s.pow.st = .active) ∨ (0x200 ≤ a ∧ s.cap.st = .idle) := by
  constructor
  · intro h
    rcases tableAddress_cases a with ⟨n, h₀, h₁⟩ | ⟨h₀, h₁⟩ | ⟨h₀, h₁⟩ | h₀
    · rw [s.takesTableWrite_entry h₀ h₁, decide_eq_true_iff] at h
      exact .inl ⟨n, h₀, h₁, h⟩
    · rw [s.takesTableWrite_wakeList h₀ h₁, decide_eq_true_iff] at h
      exact .inr (.inl ⟨h₀, h₁, h⟩)
    · rw [s.takesTableWrite_unstored h₀ h₁] at h
      cases h
    · rw [s.takesTableWrite_capture h₀, decide_eq_true_iff] at h
      exact .inr (.inr ⟨h₀, h⟩)
  · rintro (⟨n, h₀, h₁, h⟩ | ⟨h₀, h₁, h⟩ | ⟨h₀, h⟩)
    · rw [s.takesTableWrite_entry h₀ h₁, decide_eq_true h]
    · rw [s.takesTableWrite_wakeList h₀ h₁, decide_eq_true h]
    · rw [s.takesTableWrite_capture h₀, decide_eq_true h]

end

theorem addressStored_of_lt {a : Nat} (h : a < 0x180) : addressStored a = decide (a % 48 < 46) := if_pos h

theorem addressStored_of_ge {a : Nat} (h : 0x180 ≤ a) :
    addressStored a = decide (a < 0x1C8 ∨ (0x200 ≤ a ∧ a < 0x400)) := by
  rw [Bool.decide_or]
  exact if_neg (Nat.not_lt.mpr h)

/-- Of the addresses at which a write can be taken, bytes 46 and 47 of a format entry alone are not stored (R30). -/
theorem State.addressStored_of_takesTableWrite {s : State} {a : Nat} (ha : a < 1024) (h : s.takesTableWrite a = true) :
    addressStored a = true ↔ ¬ (a < 0x180 ∧ 46 ≤ a % 48) := by
  have hstored : ¬ (0x1C8 ≤ a ∧ a < 0x200) := by
    rintro ⟨h₀, h₁⟩
    rw [s.takesTableWrite_unstored h₀ h₁] at h
    cases h
  by_cases hentry : a < 0x180
  · rw [addressStored_of_lt hentry, decide_eq_true_iff]
    omega
  · rw [addressStored_of_ge (by omega), decide_eq_true_iff]
    omega

/-! ### An offer of a byte (R179) -/

section
variable {s : State} {a : Nat}

theorem State.offerTableByte_of_refused (h : ¬ (s.pow.st ≠ .dormant ∧ s.takesTableWrite a = true)) (v : Byte) :
    s.offerTableByte a v = s.refuseAccess := if_neg h

theorem State.offerTableByte_of_stored (h : s.pow.st ≠ .dormant ∧ s.takesTableWrite a = true) (hst : addressStored a = true)
    (v : Byte) : s.offerTableByte a v = { s with mem := Memory.write s.mem a v } := (if_pos h).trans (if_pos hst)

theorem State.offerTableByte_of_unstored (h : s.pow.st ≠ .dormant ∧ s.takesTableWrite a = true)
    (hst : ¬ addressStored a = true) (v : Byte) : s.offerTableByte a v = s := (if_pos h).trans (if_neg hst)

end

end Sys2Proof.Machine

open Sys2Proof Sys2Proof.Machine Sys2Proof.Safety

/-- Settles O36: the three outcomes of the offer, refused, taken and stored, and taken without being stored, under the advance
of the pointer that follows each. -/
theorem tableWriteIsJudgedByOwner : Obligations.TableWriteIsJudgedByOwner := by
  intro v s hwf hr a taken unstored
  have hlt : a < 1024 := s.win.pointer.isLt
  have htaken : taken ↔ s.pow.st ≠ .dormant ∧ s.takesTableWrite a = true :=
    and_congr_right fun _ => (s.takesTableWrite_iff a).symm
  have hexec := exec_tableDataWrite_running hr v
  by_cases ht : taken
  · have howner := htaken.mp ht
    have hstored : addressStored a = true ↔ ¬ unstored := State.addressStored_of_takesTableWrite hlt howner.2
    by_cases hu : unstored
    · rw [State.offerTableByte_of_unstored howner fun h => hstored.mp h hu] at hexec
      exact ⟨_, hexec, s.advancePointer_pointer, hwf, fun _ h => absurd hu h, fun _ _ => rfl, fun _ => rfl,
        fun h => absurd ht h, fun _ _ => rfl, rfl⟩
    · rw [State.offerTableByte_of_stored howner (hstored.mpr hu)] at hexec
      exact ⟨_, hexec, s.advancePointer_pointer, Memory.write_wf hwf hlt v, fun _ _ => Memory.read_write_same hwf a v,
        fun _ h => absurd h hu, fun _ => rfl, fun h => absurd ht h, fun _ hb => Memory.read_write_ne s.mem v hb, rfl⟩
  · rw [State.offerTableByte_of_refused (mt htaken.mpr ht)] at hexec
    exact ⟨_, hexec, s.advancePointer_pointer, hwf, fun h => absurd h ht, fun h => absurd h ht, fun h => absurd h ht,
      fun _ => ⟨rfl, rfl⟩, fun _ _ => rfl, rfl⟩

/-- Settles O35: a write of each half by the guard of a register access, and the read by the advance of the pointer. -/
theorem tablePointerIsReadAndAdvanced : Obligations.TablePointerIsReadAndAdvanced := by
  refine ⟨⟨fun v s hd hr => ?low, fun v s hd hr => ?high, fun s => ⟨s.readRegister_pointerLo, s.readRegister_pointerHi⟩,
    fun off v s hoff hd hr => ?dormant, fun k s hk => ⟨_, exec_resetRow hk, rfl⟩⟩, fun s hr => ?read⟩
  case low =>
    exact ⟨_, congrArg Host.Outcome.next (s.registerAccess_awake (State.writePointerLo v) hr hd), rfl,
      State.writePointerLo_pointer v s⟩
  case high =>
    exact ⟨_, congrArg Host.Outcome.next (s.registerAccess_awake (State.writePointerHi v) hr hd), rfl,
      State.writePointerHi_pointer v s⟩
  case dormant =>
    rcases hoff with rfl | rfl
    · exact congrArg Host.Outcome.next (s.registerAccess_dormant (State.writePointerLo v) hr hd)
    · exact congrArg Host.Outcome.next (s.registerAccess_dormant (State.writePointerHi v) hr hd)
  case read => exact ⟨_, exec_tableDataRead_running hr, rfl, s.advancePointer_pointer, fun _ => rfl, rfl⟩

end

section
/-! PROOF. O49: the interrupt registers. IRQ CAUSE is read bit by bit, each level cause by the condition it shows, and IRQ# by
the bits that IRQ CAUSE and IRQ ENABLE have in common. -/

namespace Sys2Proof.Machine

open Sys2Proof (Byte Time Payload Line)

/-! ### The bits of a byte -/

theorem getLsbD_eq_of_toNat {v : Byte} {i : Nat} {b : Bool} (h : v.toNat / 2 ^ i % 2 = b.toNat) : v.getLsbD i = b := by
  rw [← toNat_getLsbD] at h
  simpa only [Bool.ofNat_toNat] using congrArg Bool.ofNat h

/-- A byte given by its bits has each of them at its place. -/
theorem getLsbD_byteOfBits (b7 b6 b5 b4 b3 b2 b1 b0 : Bool) :
    let v := byteOfBits b7 b6 b5 b4 b3 b2 b1 b0
    v.getLsbD 0 = b0 ∧ v.getLsbD 1 = b1 ∧ v.getLsbD 2 = b2 ∧ v.getLsbD 3 = b3 ∧ v.getLsbD 4 = b4 ∧ v.getLsbD 5 = b5 ∧
      v.getLsbD 6 = b6 ∧ v.getLsbD 7 = b7 := by
  have h7 := b7.toNat_le
  have h6 := b6.toNat_le
  have h5 := b5.toNat_le
  have h4 := b4.toNat_le
  have h3 := b3.toNat_le
  have h2 := b2.toNat_le
  have h1 := b1.toNat_le
  have h0 := b0.toNat_le
  refine ⟨?_, ?_, ?_, ?_, ?_, ?_, ?_, ?_⟩ <;> apply getLsbD_eq_of_toNat <;>
    (rw [byteOfBits, BitVec.toNat_ofNat]; omega)

/-- Two bytes have a bit in common exactly when their conjunction is not 0. -/
theorem and_ne_zero_iff_getLsbD (v w : Byte) :
    v &&& w ≠ 0 ↔ ∃ i, i < 8 ∧ v.getLsbD i = true ∧ w.getLsbD i = true := by
  have hzero : v &&& w = 0 ↔ ∀ i, i < 8 → ¬ (v.getLsbD i = true ∧ w.getLsbD i = true) := by
    simp [BitVec.eq_of_getLsbD_eq_iff]
  rw [ne_eq, hzero]
  push Not
  rfl

/-! ### The causes and IRQ# (R191, R196) -/

theorem State.txDoneCondition_iff (s : State) : s.txDoneCondition = true ↔ s.tx.completions ≠ [] := by
  rw [State.txDoneCondition, Bool.not_eq_true', List.isEmpty_eq_false_iff]

theorem CaptureState.fullWithLine_iff (c : CaptureState) : c.fullWithLine = true ↔ ∃ l, c = .full (.line l) := by
  cases c with
  | full owner =>
    cases owner with
    | line l => exact iff_of_true rfl ⟨l, rfl⟩
    | host => exact iff_of_false Bool.false_ne_true (by rintro ⟨l, ⟨⟩⟩)
  | idle | armed | filling m => exact iff_of_false Bool.false_ne_true (by rintro ⟨l, ⟨⟩⟩)

/-- The eight bits of IRQ CAUSE, in the order of Table 10-1. -/
theorem State.irqCause_getLsbD (s : State) :
    s.irqCause.getLsbD 0 = s.rqCondition ∧ s.irqCause.getLsbD 1 = s.irq.loss ∧ s.irqCause.getLsbD 2 = s.txDoneCondition ∧
    s.irqCause.getLsbD 3 = s.cap.st.fullWithLine ∧ s.irqCause.getLsbD 4 = s.irq.lineFault ∧
    s.irqCause.getLsbD 5 = s.irq.retired ∧ s.irqCause.getLsbD 6 = s.irq.wake ∧ s.irqCause.getLsbD 7 = s.irq.access :=
  getLsbD_byteOfBits _ _ _ _ _ _ _ _

theorem State.readRegister_irqCause (s : State) : s.readRegister 0x08 = s.irqCause := rfl

theorem State.readRegister_irqEnable (s : State) : s.readRegister 0x09 = s.irq.enable := rfl

theorem State.irqAsserted_iff (s : State) :
    s.irqAsserted = true ↔ ∃ i, i < 8 ∧ s.irqCause.getLsbD i = true ∧ s.irq.enable.getLsbD i = true := by
  rw [State.irqAsserted, decide_eq_true_iff, and_ne_zero_iff_getLsbD]

/-- No cause asserts IRQ# while all are masked. -/
theorem State.irqAsserted_of_masked {s : State} (h : s.irq.enable = 0) : s.irqAsserted = false := by
  rw [State.irqAsserted, h]
  exact decide_eq_false (not_not.mpr BitVec.and_zero)

end Sys2Proof.Machine

open Sys2Proof Sys2Proof.Machine Sys2Proof.Safety

/-- Settles O49: each write by the guard of a register access, the mask after a reset by the state it leaves, the causes bit by
bit with the conditions behind the level causes, and IRQ# by a bit common to cause and mask. -/
theorem interruptCausesAndMask : Obligations.InterruptCausesAndMask := by
  refine ⟨fun v s hd hr => ?cause, fun v s hd hr => ?enable, fun v s hd hr => ?dormant, fun k s hk => ?reset, fun s => ?bits,
    State.irqAsserted_iff⟩
  case cause => exact congrArg Host.Outcome.next (s.registerAccess_awake (State.writeIrqCause v) hr hd)
  case enable =>
    exact ⟨_, congrArg Host.Outcome.next (s.registerAccess_awake (State.writeIrqEnable v) hr hd), rfl,
      State.readRegister_irqEnable _⟩
  case dormant => exact congrArg Host.Outcome.next (s.registerAccess_dormant (State.writeIrqEnable v) hr hd)
  case reset => exact ⟨_, exec_resetRow hk, rfl, State.irqAsserted_of_masked rfl⟩
  case bits =>
    obtain ⟨hrq, hloss, htxDone, hcapture, hfault, hretired, hwake, haccess⟩ := s.irqCause_getLsbD
    refine ⟨s.readRegister_irqCause, ?_, hloss, ?_, ?_, hfault, hretired, hwake, haccess⟩
    · rw [hrq, State.rqCondition_iff]
    · rw [htxDone, State.txDoneCondition_iff]
    · rw [hcapture, CaptureState.fullWithLine_iff]

end

