-- ==== Sys2Proof/Proofs/Rows.lean ====
section
/-! SUPPORT. What a step can do, said once: the states that a register write, a command and a whole row can lead to. The laws
that every step keeps are read off this list, case by case. -/

namespace Sys2Proof.Machine

open Sys2Proof (Byte Time Payload Line)

/-! ### Host accesses -/

/-- The states a write of a register other than COMMAND and TABLE DATA can leave in ACTIVE and LISTEN. -/
inductive Stored (c : Instr) (s : State) : State → Prop
  | ignored : Stored c s s
  | arg (v : Byte) : Stored c s (s.setArg v)
  | irqCause (v : Byte) (hc : c.WellFormed = true → c = .irqCauseWrite v) : Stored c s (State.writeIrqCause v s)
  | irqEnable (v : Byte) (hc : c.WellFormed = true → c = .irqEnableWrite v) : Stored c s (State.writeIrqEnable v s)
  | control (l : Line) (v : Byte) : Stored c s (State.writeControl l v s)
  | glitch (l : Line) (v : Byte) : Stored c s (State.writeGlitch l v s)
  | idle (l : Line) (v : Byte) : Stored c s (State.writeIdle l v s)
  | lineStatus (l : Line) (v : Byte) : Stored c s (State.writeLineStatus l v s)
  | pointerLo (v : Byte) : Stored c s (State.writePointerLo v s)
  | pointerHi (v : Byte) : Stored c s (State.writePointerHi v s)
  | watermark (v : Byte) : Stored c s (State.writeWatermark v s)
  | captureControl (v : Byte) : Stored c s (State.writeCaptureControl v s)
  | loadLength (hi : Bool) (v : Byte) : Stored c s (State.writeLoadLength hi v s)
  | guardTime (v : Byte) : Stored c s (State.writeGuard v s)
  | staging (r : Fin 14) (v : Byte) : Stored c s (State.writeStaging r v s)

/-- Each register is written by its owner's rule (Table 9-1). -/
theorem State.storeRegister_stored (s : State) {c : Instr} {off : Nat} (v : Byte)
    (hc : c.WellFormed = true → off ≠ 0x08 ∧ off ≠ 0x09) : Stored c s (s.storeRegister off v) := by
  unfold State.storeRegister
  split
  case h_1 => exact .arg v
  case h_2 => exact .irqCause v fun hw => absurd rfl (hc hw).1
  case h_3 => exact .irqEnable v fun hw => absurd rfl (hc hw).2
  case h_4 => exact .control .A v
  case h_5 => exact .glitch .A v
  case h_6 => exact .idle .A v
  case h_7 => exact .lineStatus .A v
  case h_8 => exact .control .B v
  case h_9 => exact .glitch .B v
  case h_10 => exact .idle .B v
  case h_11 => exact .lineStatus .B v
  case h_12 => exact .pointerLo v
  case h_13 => exact .pointerHi v
  case h_14 => exact .watermark v
  case h_15 => exact .captureControl v
  case h_16 => exact .loadLength false v
  case h_17 => exact .loadLength true v
  case h_18 => exact .guardTime v
  case h_19 n _ _ _ _ _ _ _ _ _ _ _ _ _ _ _ _ _ _ =>
    split
    · exact .staging _ v
    · exact .ignored

/-- The states a command of Table 9-8 can leave in ACTIVE and LISTEN, but for its result and apart from WAKE UP and SOFT RESET. -/
inductive Carried (c : Instr) (s : State) : State → Prop
  | enableFormat : Carried c s s.enableFormat.1
  | disableFormat : Carried c s s.disableFormat.1
  | popRecord (hc : c.WellFormed = true → c = .pop) : Carried c s s.popRecord.1
  | flushRecords (hc : c.WellFormed = true → c = .flushQueue) : Carried c s s.flushRecords.1
  | submitJob : Carried c s s.submitJob.1
  | stopTx (hc : c.WellFormed = true → c = .stopTx) : Carried c s s.stopTx.1
  | abortTx (hc : c.WellFormed = true → c = .abortTx) : Carried c s s.abortTx.1
  | popCompletion : Carried c s s.popCompletion.1
  | armCapture : Carried c s s.armCapture.1
  | disarmCapture : Carried c s s.disarmCapture.1
  | releaseCapture : Carried c s s.releaseCapture.1
  | loadCapture : Carried c s s.loadCapture.1
  | enterListen : Carried c s s.enterListen.1
  | enterDormant (hc : c.WellFormed = true → c = .enterDormant) : Carried c s s.enterDormant.1
  | clearWake : Carried c s s.clearWake.1

/-! ### The capture unit's part in a delivery -/

/-- What a delivery keeps of the capture unit: PIN COUNT, a recording that is held, and in DORMANT the capture state unless a
burst is under recording (R126, R128, R160). -/
def CaptureKept (s : State) (c : Capture) : Prop :=
  c.pins = s.cap.pins ∧ (s.cap.st.isFull = true → c.st = s.cap.st) ∧
  (s.pow.st = .dormant → (∀ l, s.cap.st ≠ .filling l) → c.st = s.cap.st)

theorem CaptureKept.of_eq {s : State} {c : Capture} (h : c = s.cap) : CaptureKept s c :=
  ⟨by rw [h], fun _ => by rw [h], fun _ _ => by rw [h]⟩

/-- A change of the capture state outside FULL and, in DORMANT, of a recording alone. -/
theorem CaptureKept.of_pins {s : State} {c : Capture} (hp : c.pins = s.cap.pins) (hst : s.cap.st.isFull = false)
    (hd : s.pow.st = .dormant → ∃ l, s.cap.st = .filling l) : CaptureKept s c :=
  ⟨hp, fun h => by simp [hst] at h, fun h hl => (hd h).elim fun l hf => absurd hf (hl l)⟩

/-- A capture unit that keeps PIN COUNT and its state. -/
theorem CaptureKept.of_st {s : State} {c : Capture} (hp : c.pins = s.cap.pins) (hst : c.st = s.cap.st) : CaptureKept s c :=
  ⟨hp, fun _ => hst, fun _ _ => hst⟩

theorem Capture.decideRecording_pins (c : Capture) (l : Line) (r : Report) : (c.decideRecording l r).pins = c.pins := by
  unfold Capture.decideRecording
  split <;> rfl

theorem Capture.burstStart_kept {s : State} (l : Line) (start : Time) (h : ¬ (s.pow.st = .dormant ∧ s.cap.st = .armed)) :
    CaptureKept s (s.cap.burstStart l start) := by
  unfold Capture.burstStart
  split
  · split
    · next hst => exact .of_pins rfl (by simp [hst, CaptureState.isFull]) fun hd => absurd ⟨hd, hst⟩ h
    all_goals exact .of_st rfl rfl
  · exact .of_st rfl rfl

theorem Capture.close_kept {s : State} {l : Line} (h : s.cap.records l = true) : CaptureKept s (s.cap.close l) := by
  have hst : s.cap.st = .filling l := by
    simp only [Capture.records, Bool.and_eq_true, decide_eq_true_eq] at h
    exact h.1
  unfold Capture.close
  split
  · exact .of_pins (Capture.decideRecording_pins _ _ _) (by simp [hst, CaptureState.isFull]) fun _ => ⟨l, hst⟩
  · exact .of_st rfl rfl

theorem Capture.actOnReport_kept {s : State} (l : Line) (r : Report) (t : Tag) :
    CaptureKept s ((s.cap.dropEntry l).actOnReport l r t) := by
  cases t with
  | recorded =>
    show CaptureKept s ((s.cap.dropEntry l).holdReport l r)
    unfold Capture.holdReport
    split
    · next hst =>
      have hst' : s.cap.st = .filling l := hst
      split
      · exact .of_pins (Capture.decideRecording_pins _ _ _) (by simp [hst', CaptureState.isFull]) fun _ => ⟨l, hst'⟩
      · exact .of_st rfl rfl
    · exact .of_st rfl rfl
  | passed | ignored => exact .of_st rfl rfl

/-- A delivery to a block other than the capture unit leaves the capture unit alone. -/
theorem exec_delivery_cap_of_not_capture {s t : State} {c : Instr} (hc : isDelivery c = true) (h : exec c s = .next t)
    (hcap : ∀ l, c ≠ .captureBurstStart l ∧ c ≠ .captureElement l ∧ c ≠ .captureClose l ∧ c ≠ .captureReport l) :
    t.cap = s.cap := by
  revert h
  suffices hall : AllNext (fun t => t.cap = s.cap) (exec c s) from hall t
  cases c with
  | decoderBurstStart l | decoderElement l | decoderBurstEnd l | decoderBurstAbort l =>
    simp only [exec, execDecoderBurstStart, execDecoderElement, execDecoderBurstEnd, execDecoderBurstAbort]
    split <;> exact .next (by simp)
  | outcomeTaken l => exact .next (by simp)
  | lfmDue l =>
    show AllNext _ (execLfmDue l s)
    unfold execLfmDue
    split
    · split <;> exact .next (by simp)
    · exact .next rfl
  | expireRequest l =>
    show AllNext _ (execExpireRequest l s)
    unfold execExpireRequest
    split <;> exact .next (by simp)
  | post l =>
    show AllNext _ (execPost l s)
    unfold execPost
    split <;> exact .next (by simp)
  | repeatCountIncrement l =>
    show AllNext _ (execRepeatCountIncrement l s)
    unfold execRepeatCountIncrement
    split <;> exact .next (by simp)
  | wakeOffer l =>
    show AllNext _ (execWakeOffer l s)
    unfold execWakeOffer
    split <;> exact .next (by simp)
  | captureBurstStart l => exact absurd rfl (hcap l).1
  | captureElement l => exact absurd rfl (hcap l).2.1
  | captureClose l => exact absurd rfl (hcap l).2.2.1
  | captureReport l => exact absurd rfl (hcap l).2.2.2
  | _ => cases hc

/-- What a delivery keeps of the capture unit. -/
theorem exec_delivery_captureKept {c : Instr} (hc : isDelivery c = true) (s : State) :
    AllNext (fun t => CaptureKept s t.cap) (exec c s) := by
  have other : (∀ l, c ≠ .captureBurstStart l ∧ c ≠ .captureElement l ∧ c ≠ .captureClose l ∧ c ≠ .captureReport l) →
      AllNext (fun t => CaptureKept s t.cap) (exec c s) := fun h t ht => .of_eq (exec_delivery_cap_of_not_capture hc ht h)
  cases c with
  | captureBurstStart l =>
    show AllNext _ (execCaptureBurstStart l s)
    unfold execCaptureBurstStart
    split
    · refine .next ?_
      dsimp only
      split
      · exact .of_st rfl rfl
      · next h => exact Capture.burstStart_kept l _ h
    · exact .next (.of_eq rfl)
  | captureElement l =>
    show AllNext _ (execCaptureElement l s)
    unfold execCaptureElement
    split
    · split
      · refine .next ?_
        unfold State.appendElement
        split <;> exact .of_st rfl rfl
      · exact .next (.of_eq rfl)
    · exact .next (.of_eq rfl)
  | captureClose l =>
    show AllNext _ (execCaptureClose l s)
    have decided : CaptureKept s (if s.cap.records l then s.cap.close l else s.cap) := by
      split
      · next h => exact Capture.close_kept h
      · exact .of_eq rfl
    unfold execCaptureClose
    split
    · exact .next decided
    · exact .next decided
    · exact .next (.of_eq rfl)
  | captureReport l =>
    show AllNext _ (execCaptureReport l s)
    unfold execCaptureReport
    split
    · refine .next ?_
      dsimp only
      split
      · exact .of_st rfl rfl
      · exact Capture.actOnReport_kept l _ _
    · exact .next (.of_eq rfl)
  | _ => exact other (by simp)

/-! ### Every row -/

/-- The states a row can lead to. A host access has `hr`, that no reset is held, and where DORMANT refuses it `hd`, that the power
state is another. -/
inductive Reached (c : Instr) (s : State) : State → Prop
  | nothing : Reached c s s
  | reset (k : ResetKind) (mem : List Host.Cell) (hm : mem = s.mem ∨ (mem = [] ∧ c = .powerOnReset))
      (hc : Safety.isReset c = true) : Reached c s (s.resetTo k mem)
  | refused (hr : s.pow.resetHeld = false) (hc : Safety.writesRegister c = true) : Reached c s s.refuseAccess
  | answered (r : CommandResult) (hr : s.pow.resetHeld = false) : Reached c s (s.setResult r)
  | stored (t : State) (hr : s.pow.resetHeld = false) (hd : s.pow.st ≠ .dormant) (h : Stored c s t)
      (hc : Safety.writesRegister c = true) : Reached c s t
  | carried (t : State) (r : CommandResult) (hr : s.pow.resetHeld = false) (hd : s.pow.st ≠ .dormant) (h : Carried c s t) :
      Reached c s (t.setResult r)
  | wakeUp (hr : s.pow.resetHeld = false) : Reached c s (s.wakeUp.setResult .ok)
  | tableWrite (v : Byte) (hr : s.pow.resetHeld = false) (hc : Safety.writesRegister c = true)
      (hw : c.WellFormed = true → c = .tableDataWrite v) :
      Reached c s (s.offerTableByte s.win.pointer.toNat v).advancePointer
  | heldRead (hr : s.pow.resetHeld = true) : Reached c s (s.driveBus 0)
  | timeLoRead (v : Byte) (hr : s.pow.resetHeld = false) :
      Reached c s (State.driveBus { s with clock := { s.clock with snapshot := s.clock.time.extractLsb' 8 8 } } v)
  | headRead (v : Byte) (hr : s.pow.resetHeld = false) : Reached c s (State.driveBus { s with rq := s.rq.hold } v)
  | tableRead (v : Byte) (hr : s.pow.resetHeld = false) : Reached c s (s.advancePointer.driveBus v)
  | delivered (t : State) (h : Delivered s t) (hc : CaptureKept s t.cap) (hi : isDelivery c = true)
      (he : exec c s = .next t) : Reached c s t
  | tick (h : s.timeRuns = true) (hc : c = .timeTick) : Reached c s (s.reachInstant s.clock.tickAt).tick
  | edge (l : Line) (dt : Nat) (hc : c = .rxEdge l dt) : Reached c s (((s.elapse dt).catchUp l).rawEdge l)
  | accepted (l : Line) (g : GlitchTest) (h : (s.fe.get l).test = some g) :
      Reached c s ((s.reachInstant ((s.fe.get l).acceptInstant g)).acceptEdge l g)
  | threshold (l : Line) (st : LineState) (hc : st = .mark → c = .stuck l) : Reached c s (s.thresholdEvent l st)
  | jobUnavailable (j : Job) (hm : s.mayStart = true) (hj : s.tx.jobs.head? = some j) : Reached c s (s.jobUnavailable j)
  | jobActive (j : Job) (n : Fin 8) (hm : s.mayStart = true) (hj : s.tx.jobs.head? = some j) (hn : j.entry = some n)
      (hst : s.entries[n].st = .enabled) : Reached c s (s.jobActive j n)
  | burstEnded (j : Job) (hst : s.tx.st = .burst) (hj : s.tx.jobs.head? = some j) (hc : c = .txBurstEnd) :
      Reached c s (((s.reachInstant s.tx.burstEnd).countBurst).afterBurst j)
  | nextBurst (j : Job) (hst : s.tx.st = .gap) (hj : s.tx.jobs.head? = some j) :
      Reached c s ((s.reachInstant s.tx.nextStart).beginBurst (s.jobFormat j) j (s.tx.index + 1) s.tx.nextStart)
  | tailEnded (hst : s.tx.st = .tail) : Reached c s { s.reachInstant s.tx.tailEnd with tx := { s.tx with st := .idle } }
  | guardEnded (l : Line) (t : Nat) (h : (s.fe.get l).guardHold = some t) : Reached c s ((s.reachInstant t).endGuardHold l)
  | wakeEdge (l : Line) (k : Nat) (hd : s.pow.st = .dormant) (hk : (s.link.get l).wakeEdges = k + 1)
      (hc : c = .wakeEdge l) : Reached c s ((s.setLink l { s.link.get l with wakeEdges := k }).wakeByEdge l)
  | wakeEdgeDropped (l : Line) (k : Nat) (hk : (s.link.get l).wakeEdges = k + 1) :
      Reached c s (s.setLink l { s.link.get l with wakeEdges := k })

/-- The row of each command (Table 9-8). -/
def CommandCode.row : CommandCode → Instr
  | .enableFormat => .enableFormat
  | .disableFormat => .disableFormat
  | .pop => .pop
  | .flushQueue => .flushQueue
  | .submit => .submit
  | .stopTx => .stopTx
  | .abortTx => .abortTx
  | .popCompletion => .popCompletion
  | .armCapture => .armCapture
  | .disarmCapture => .disarmCapture
  | .releaseCapture => .releaseCapture
  | .loadCapture => .loadCapture
  | .enterListen => .enterListen
  | .enterDormant => .enterDormant
  | .wakeUp => .wakeUp
  | .clearWake => .clearWake
  | .softReset => .softReset

/-- A row that carries out `k`: when it is well formed it is the row of `k`, and SOFT RESET is a reset however it is spelled. -/
def CommandCode.spelledBy (k : CommandCode) (c : Instr) : Prop :=
  (c.WellFormed = true → c = k.row) ∧ (k = .softReset → Safety.isReset c = true)

theorem CommandCode.spelledBy_row (k : CommandCode) : k.spelledBy k.row := ⟨fun _ => rfl, fun h => by rw [h]; rfl⟩

section
variable {c : Instr} {s : State}

theorem Reached.registerAccess {f : State → State} (hf : Stored c s (f s)) (hc : Safety.writesRegister c = true) : Reached c s (s.registerAccess f) := by
  cases hr : s.pow.resetHeld with
  | true =>
    rw [s.registerAccess_held f hr]
    exact .nothing
  | false =>
    by_cases hd : s.pow.st = .dormant
    · rw [s.registerAccess_dormant f hr hd]
      exact .refused hr hc
    · rw [s.registerAccess_awake f hr hd]
      exact .stored _ hr hd hf hc

theorem Reached.command {f : State → State × CommandResult} (hf : Carried c s (f s).1) : Reached c s (s.command f) := by
  cases hr : s.pow.resetHeld with
  | true =>
    rw [s.command_held f hr]
    exact .nothing
  | false =>
    by_cases hd : s.pow.st = .dormant
    · rw [s.command_dormant f hr hd]
      exact .answered _ hr
    · rw [s.command_awake f hr hd]
      exact .carried _ _ hr hd hf

/-- What is done to the window while no reset is held. -/
theorem Reached.windowWrite {f : State → State} (hf : s.pow.resetHeld = false → Reached c s (f s)) :
    Reached c s (s.windowWrite f) := by
  cases hr : s.pow.resetHeld with
  | true =>
    rw [s.windowWrite_held f hr]
    exact .nothing
  | false =>
    rw [s.windowWrite_running f hr]
    exact hf hr

theorem Reached.windowRead {v : Byte} {f : State → State} (hf : s.pow.resetHeld = false → Reached c s ((f s).driveBus v)) :
    Reached c s (s.windowRead v f) := by
  cases hr : s.pow.resetHeld with
  | true =>
    rw [s.windowRead_held v f hr]
    exact .heldRead hr
  | false =>
    rw [s.windowRead_running v f hr]
    exact hf hr

theorem Reached.carryOut {k : CommandCode} (hk : k.spelledBy c) : Reached c s (s.carryOut k) := by
  cases k with
  | wakeUp => exact .windowWrite (f := fun s => s.wakeUp.setResult .ok) fun hr => .wakeUp hr
  | softReset => exact .windowWrite (f := fun s => s.resetTo .soft s.mem) fun _ => .reset .soft s.mem (.inl rfl) (hk.2 rfl)
  | enableFormat => exact .command .enableFormat
  | disableFormat => exact .command .disableFormat
  | pop => exact .command (.popRecord hk.1)
  | flushQueue => exact .command (.flushRecords hk.1)
  | submit => exact .command .submitJob
  | stopTx => exact .command (.stopTx hk.1)
  | abortTx => exact .command (.abortTx hk.1)
  | popCompletion => exact .command .popCompletion
  | armCapture => exact .command .armCapture
  | disarmCapture => exact .command .disarmCapture
  | releaseCapture => exact .command .releaseCapture
  | loadCapture => exact .command .loadCapture
  | enterListen => exact .command .enterListen
  | enterDormant => exact .command (.enterDormant hk.1)
  | clearWake => exact .command .clearWake

/-- A write of COMMAND by a row that is no command of Table 9-8 when it is well formed. -/
theorem Reached.writeCommand {code : Byte} (hw : c.WellFormed = true → commandOf code = none)
    (hr : code = 0x5A → Safety.isReset c = true) : Reached c s (s.writeCommand code) := by
  unfold State.writeCommand
  split
  · exact .windowWrite fun hr => .answered _ hr
  · next k hk =>
    refine .carryOut ⟨fun h => ?_, fun h => hr (commandOf_eq_softReset.mp (h ▸ hk))⟩
    rw [hw h] at hk
    cases hk

theorem Reached.writeTableData {v : Byte} (hc : Safety.writesRegister c = true)
    (hw : c.WellFormed = true → c = .tableDataWrite v) : Reached c s (s.writeTableData v) :=
  .windowWrite fun hr => .tableWrite v hr hc hw

end

/-- A row of its own spells a write of COMMAND, TABLE DATA, IRQ CAUSE and IRQ ENABLE. -/
theorem registerWrite_offset {off : BitVec 6} {v : Byte} (h : (Instr.registerWrite off v).WellFormed = true) :
    off.toNat ≠ 0x05 ∧ off.toNat ≠ 0x16 ∧ off.toNat ≠ 0x08 ∧ off.toNat ≠ 0x09 := by
  have hrow : (!offsetsWithRows.contains off) = true := (Bool.and_eq_true_iff.mp h).1
  clear h
  revert off
  decide

theorem execRegisterWrite_reached (off : BitVec 6) (v : Byte) (s : State) :
    AllNext (Reached (.registerWrite off v) s) (execRegisterWrite off v s) := by
  unfold execRegisterWrite
  split
  · next hoff =>
    refine .next (.writeCommand (fun hw => absurd hoff (registerWrite_offset hw).1) fun hv => ?_)
    have : off = 0x05 := BitVec.eq_of_toNat_eq hoff
    simp [Safety.isReset, this, hv]
  · split
    · next hoff => exact .next (.writeTableData rfl fun hw => absurd hoff (registerWrite_offset hw).2.1)
    · refine .next (.registerAccess (s.storeRegister_stored v fun hw => ?_) rfl)
      obtain ⟨-, -, hcause, henable⟩ := registerWrite_offset hw
      exact ⟨hcause, henable⟩

theorem execJobStart_reached (s : State) : AllNext (Reached .jobStart s) (execJobStart s) := by
  unfold execJobStart
  split
  · exact .next .nothing
  · next j js hj =>
    have hhead : s.tx.jobs.head? = some j := by rw [hj, List.head?_cons]
    split
    · next hm =>
      split
      · exact .next (.jobUnavailable j hm hhead)
      · next n hn =>
        split
        · next hst => exact .next (.jobActive j n hm hhead hn hst)
        · exact .next (.jobUnavailable j hm hhead)
    · exact .next .nothing

theorem execWakeEdge_reached (l : Line) (s : State) : AllNext (Reached (.wakeEdge l) s) (execWakeEdge l s) := by
  unfold execWakeEdge
  split
  · exact .next .nothing
  · next k hk =>
    refine .next ?_
    dsimp only
    split
    · next hd => exact .wakeEdge l k hd hk rfl
    · exact .wakeEdgeDropped l k hk

/-- What a row can do. -/
theorem exec_reached (c : Instr) (s : State) : AllNext (Reached c s) (exec c s) := by
  have delivery : isDelivery c = true → AllNext (Reached c s) (exec c s) :=
    fun hd t ht => .delivered t (exec_delivered hd s t ht) (exec_delivery_captureKept hd s t ht) hd ht
  cases c with
  | powerOnReset => exact .next (.reset .powerOn [] (.inr ⟨rfl, rfl⟩) rfl)
  | pinReset => exact .next (.reset .pin s.mem (.inl rfl) rfl)
  | softReset => exact .next (.carryOut (CommandCode.spelledBy_row .softReset))
  | timeTick =>
    refine .next ?_
    split
    · next h => exact .tick h rfl
    · exact .nothing
  | rxEdge l dt => exact .next (.edge l dt rfl)
  | glitchTestAccept l => exact execGlitchTestAccept_allNext .nothing fun g hg => .accepted l g hg
  | settleWaitEnd l => exact .next (.threshold l .settle fun h => nomatch h)
  | burstEnd l => exact .next (.threshold l .space fun h => nomatch h)
  | stuck l => exact .next (.threshold l .mark fun _ => rfl)
  | lineEnable l v | lineDisable l v => exact .next (.registerAccess (.control l v) rfl)
  | idleWrite l v => exact .next (.registerAccess (.idle l v) rfl)
  | faultClear l v => exact .next (.registerAccess (.lineStatus l v) rfl)
  | rqWatermarkWrite v => exact .next (.registerAccess (.watermark v) rfl)
  | captureControlWrite v => exact .next (.registerAccess (.captureControl v) rfl)
  | loadLengthWrite hi v => exact .next (.registerAccess (.loadLength hi v) rfl)
  | stagingRegisterWrite r v => exact .next (.registerAccess (.staging r v) rfl)
  | irqCauseWrite v => exact .next (.registerAccess (.irqCause v fun _ => rfl) rfl)
  | irqEnableWrite v => exact .next (.registerAccess (.irqEnable v fun _ => rfl) rfl)
  | registerWrite off v => exact execRegisterWrite_reached off v s
  | tableDataWrite v => exact .next (.writeTableData rfl fun _ => rfl)
  | timeLoRead => exact .next (.windowRead fun hr => .timeLoRead _ hr)
  | headKindLineRead => exact .next (.windowRead fun hr => .headRead _ hr)
  | tableDataRead => exact .next (.windowRead fun hr => .tableRead _ hr)
  | enableFormat => exact .next (.carryOut (CommandCode.spelledBy_row .enableFormat))
  | disableFormat => exact .next (.carryOut (CommandCode.spelledBy_row .disableFormat))
  | pop => exact .next (.carryOut (CommandCode.spelledBy_row .pop))
  | flushQueue => exact .next (.carryOut (CommandCode.spelledBy_row .flushQueue))
  | submit => exact .next (.carryOut (CommandCode.spelledBy_row .submit))
  | stopTx => exact .next (.carryOut (CommandCode.spelledBy_row .stopTx))
  | abortTx => exact .next (.carryOut (CommandCode.spelledBy_row .abortTx))
  | popCompletion => exact .next (.carryOut (CommandCode.spelledBy_row .popCompletion))
  | armCapture => exact .next (.carryOut (CommandCode.spelledBy_row .armCapture))
  | disarmCapture => exact .next (.carryOut (CommandCode.spelledBy_row .disarmCapture))
  | releaseCapture => exact .next (.carryOut (CommandCode.spelledBy_row .releaseCapture))
  | loadCapture => exact .next (.carryOut (CommandCode.spelledBy_row .loadCapture))
  | enterListen => exact .next (.carryOut (CommandCode.spelledBy_row .enterListen))
  | enterDormant => exact .next (.carryOut (CommandCode.spelledBy_row .enterDormant))
  | wakeUp => exact .next (.carryOut (CommandCode.spelledBy_row .wakeUp))
  | clearWake => exact .next (.carryOut (CommandCode.spelledBy_row .clearWake))
  | unknownCommand code => exact .next (.writeCommand commandOf_eq_none fun h => by simp [Safety.isReset, h])
  | jobStart => exact execJobStart_reached s
  | txBurstEnd => exact execTxBurstEnd_allNext .nothing fun j hst hj => .burstEnded j hst hj rfl
  | nextBurstStart => exact execNextBurstStart_allNext .nothing fun j hst hj => .nextBurst j hst hj
  | tailEnd => exact execTailEnd_allNext .nothing fun hst => .tailEnded hst
  | guardHoldEnd l => exact execGuardHoldEnd_allNext .nothing fun t ht => .guardEnded l t ht
  | wakeEdge l => exact execWakeEdge_reached l s
  | _ => exact delivery rfl

/-! ### A reset that is held -/

/-- Whether a reset is held, and the kind of the last one. -/
def PowerUnit.resetState (p : PowerUnit) : Bool × ResetKind := (p.resetHeld, p.resetSource)

theorem PowerUnit.eqs_of_resetState_eq {p q : PowerUnit} (h : p.resetState = q.resetState) :
    p.resetHeld = q.resetHeld ∧ p.resetSource = q.resetSource := by
  simpa [PowerUnit.resetState] using h

theorem State.noteWake_resetState (s : State) (w : WakeSource) : (s.noteWake w).pow.resetState = s.pow.resetState := by
  unfold State.noteWake
  split <;> rfl

theorem State.takeOffer_resetState (s : State) (l : Line) (o : Offer) : (s.takeOffer l o).pow.resetState = s.pow.resetState := by
  unfold State.takeOffer
  split
  · split
    · rfl
    · exact State.noteWake_resetState _ _
  · rfl

theorem State.enterDormant_resetState (s : State) : s.enterDormant.1.pow.resetState = s.pow.resetState := by
  unfold State.enterDormant
  split
  · rfl
  · split
    · simp [State.goDormant, State.goDormantIn, PowerUnit.resetState]
    · rfl

theorem State.enterListen_resetState (s : State) : s.enterListen.1.pow.resetState = s.pow.resetState := by
  unfold State.enterListen
  split
  · rfl
  · split <;> rfl

theorem State.wakeUp_resetState (s : State) : s.wakeUp.pow.resetState = s.pow.resetState := by
  unfold State.wakeUp
  split
  · rfl
  · exact State.noteWake_resetState _ _
  · rw [State.noteWake_resetState]
    simp [State.leaveDormant, PowerUnit.resetState]

theorem State.wakeByEdge_resetState (s : State) (l : Line) : (s.wakeByEdge l).pow.resetState = s.pow.resetState := by
  rw [State.wakeByEdge, State.noteWake_resetState]
  simp [State.leaveDormant, PowerUnit.resetState]

/-- No row but a reset changes what the power unit knows of resets, and no row leaves a reset held (log entry 16). -/
theorem Reached.resetState {c : Instr} {s t : State} (h : Reached c s t) :
    t.pow.resetState = s.pow.resetState ∨ (Safety.isReset c = true ∧ t.pow.resetHeld = false) := by
  cases h with
  | reset k mem _ hc => exact .inr ⟨hc, by simp [State.resetTo, State.afterReset, PowerUnit.reset]⟩
  | stored _ _ _ h =>
    left
    cases h <;> simp
  | carried t _ _ _ h =>
    left
    show t.pow.resetState = s.pow.resetState
    cases h with
    | enterListen => exact s.enterListen_resetState
    | enterDormant => exact s.enterDormant_resetState
    | clearWake => rfl
    | _ => simp
  | wakeUp => exact .inl s.wakeUp_resetState
  | wakeEdge l k => exact .inl (State.wakeByEdge_resetState _ l)
  | delivered _ h =>
    left
    cases h with
    | offer l o os => exact State.takeOffer_resetState _ l o
    | _ => simp
  | _ => exact .inl (by simp)

theorem Reached.resetHeld {c : Instr} {s t : State} (h : Reached c s t) (ht : t.pow.resetHeld = true) : s.pow.resetHeld = true := by
  rcases h.resetState with he | ⟨-, hf⟩
  · rw [← (PowerUnit.eqs_of_resetState_eq he).1, ht]
  · exact absurd ht (by simp [hf])

/-- A property that no view of the queue of commands or of the model's clock shows is kept by every step when every row keeps
it. -/
theorem keptByEveryStep_of_reached {P : State → Prop} (hpending : ∀ s cs, P s → P { s with pending := cs })
    (hidle : ∀ s, P s → P (s.elapse 1)) (h : ∀ c s t, P s → Reached c s t → P t) : Safety.KeptByEveryStep P := by
  intro s t hs ht
  unfold step at ht
  split at ht
  · cases ht
    exact hidle s hs
  · next c rest _ => exact h c _ t (hpending s rest hs) (exec_reached c _ t ht)

end Sys2Proof.Machine
end

