-- ==== Sys2Proof/Proofs/Jobs.lean ====
section
/-! PROOF. O58: the bounds of jobs and completions, and PIN COUNT. -/

namespace Sys2Proof.Machine

open Sys2Proof (Byte Time Payload Line)
open Sys2Proof.Safety (jobActiveNow)

/-! ### What ends or removes jobs -/

theorem not_jobActiveNow {s : State} (h : s.tx.st = .idle ∨ s.tx.st = .tail) : ¬ jobActiveNow s := by
  rcases h with h | h <;> simp [jobActiveNow, h]

/-- The jobs that are removed give up one pin each that is a REPLAY, and nothing else changes. -/
theorem State.unpinAll_eq (s : State) (js : List Job) :
    js.foldl (fun s j => s.unpinJob j) s =
      { s with cap := { s.cap with pins := s.cap.pins - js.countP fun j => decide (j.kind = .replay) } } := by
  induction js generalizing s with
  | nil => rfl
  | cons j js ih =>
    rw [List.foldl_cons, ih, List.countP_cons]
    by_cases h : j.kind = .replay
    · simp [State.unpinJob, State.unpin, h, Nat.sub_sub, Nat.add_comm]
    · simp [State.unpinJob, h]

theorem State.removeWaiting_eq (s : State) :
    s.removeWaiting = { s with
      tx := { s.tx with jobs := [] }
      cap := { s.cap with pins := s.cap.pins - s.tx.jobs.countP fun j => decide (j.kind = .replay) }
      win := { s.win with arg := BitVec.ofNat 8 s.tx.jobs.length } } := by
  simp only [State.removeWaiting, State.unpinAll_eq, State.setArg]

/-- An active job is aborted, its burst counted when one is being sent; without one nothing changes. -/
inductive Aborted (s : State) : State × CommandResult → Prop
  | notActive (h : jobActiveNow s → s.tx.jobs = []) : Aborted s (s, .notActive)
  | burst (j : Job) (hst : s.tx.st = .burst) (hj : s.tx.jobs.head? = some j) :
      Aborted s ((s.countBurst).endJob j .aborted s.clock.now, .ok)
  | gap (j : Job) (hst : s.tx.st = .gap) (hj : s.tx.jobs.head? = some j) :
      Aborted s (s.endJob j .aborted s.clock.now, .ok)

theorem State.abortActive_aborted (s : State) : Aborted s s.abortActive := by
  unfold State.abortActive
  split
  · next j js hst hj => exact .burst j hst (by rw [hj, List.head?_cons])
  · next j js hst hj => exact .gap j hst (by rw [hj, List.head?_cons])
  · next hb hg =>
    refine .notActive fun ha => ?_
    cases hj : s.tx.jobs with
    | nil => rfl
    | cons j js => exact ha.elim (fun h => absurd hj (hb j js h)) fun h => absurd hj (hg j js h)

/-- STOP TX marks the job in BURST, ends it in GAP, and does nothing without an active job (R147). -/
inductive StoppedTx (s : State) : State × CommandResult → Prop
  | notActive : StoppedTx s (s, .notActive)
  | burst (hst : s.tx.st = .burst) : StoppedTx s ({ s with tx := { s.tx with stopping := true } }, .ok)
  | gap (j : Job) (hst : s.tx.st = .gap) (hj : s.tx.jobs.head? = some j) :
      StoppedTx s (s.endJob j .stopped s.clock.now, .ok)

theorem State.stopTx_stopped (s : State) : StoppedTx s s.stopTx := by
  unfold State.stopTx
  split
  · next hst hj => exact .burst hst
  · next j js hst hj => exact .gap j hst (by rw [hj, List.head?_cons])
  · exact .notActive

/-- What a delivery leaves alone. -/
theorem Delivered.frame {s t : State} (h : Delivered s t) :
    t.pending = s.pending ∧ t.fe = s.fe ∧ t.tx = s.tx ∧ t.win = s.win ∧ t.clock = s.clock := by
  cases h <;> simp

/-- SUBMIT appends the staged job, with its pin, to a queue that has room, a REPLAY job only while a recording is held (R126, R131). -/
inductive Submitted (s : State) : State × CommandResult → Prop
  | refused (r : CommandResult) : Submitted s (s, r)
  | job (hl : s.tx.jobs.length < 4) (hk : s.tx.staging.kind ≠ .replay) :
      Submitted s ({ s with tx := { s.tx with jobs := s.tx.jobs ++ [s.tx.staging] } }, .ok)
  | replay (hl : s.tx.jobs.length < 4) (hk : s.tx.staging.kind = .replay) (hf : s.cap.st.isFull = true) :
      Submitted s ({ s with
        tx := { s.tx with jobs := s.tx.jobs ++ [s.tx.staging] }
        cap := { s.cap with pins := s.cap.pins + 1 } }, .ok)

/-- A staged job that passes the tests finds room, and a held recording if it is a REPLAY. -/
theorem State.submitTest_ok {s : State} (h : s.submitTest = .ok) :
    s.tx.jobs.length < 4 ∧ (s.tx.staging.kind = .replay → s.cap.st.isFull = true) := by
  unfold State.submitTest at h
  split at h
  · cases h
  · split at h
    · cases h
    · next hl =>
      refine ⟨Nat.not_le.mp hl, fun hk => ?_⟩
      split at h
      · cases h
      · split at h
        · cases h
        · unfold State.submitEntryTest at h
          split at h
          · cases h
          · split at h
            · cases h
            · split at h
              · cases h
              · next hf => exact not_not.mp fun hn => hf ⟨hk, hn⟩

theorem State.submitJob_submitted (s : State) : Submitted s s.submitJob := by
  by_cases h : s.submitTest = .ok
  · obtain ⟨hl, hf⟩ := s.submitTest_ok h
    rw [State.submitJob_of_ok h]
    by_cases hk : s.tx.staging.kind = .replay
    · rw [State.appendJob_of_replay hk]
      exact .replay hl hk (hf hk)
    · rw [State.appendJob_of_not_replay hk]
      exact .job hl hk
  · rw [State.submitJob_of_ne_ok h]
    exact .refused _

/-! ### Job starts -/

/-- The conditions of a job start (R134). -/
theorem State.mayStart_iff (s : State) :
    s.mayStart = true ↔ s.tx.st = .idle ∧ s.pow.st = .active ∧ s.tx.completions.length < 4 := by
  simp only [State.mayStart, Bool.and_eq_true, decide_eq_true_eq, and_assoc]
  rfl

@[simp] theorem State.jobUnavailable_tx (s : State) (j : Job) :
    (s.jobUnavailable j).tx = { s.tx with
      jobs := s.tx.jobs.tail
      completions := s.tx.completions ++ [⟨j.tag, .unavailable, 0⟩] } := by
  simp [State.jobUnavailable]

@[simp] theorem State.jobUnavailable_cap (s : State) (j : Job) :
    (s.jobUnavailable j).cap = { s.cap with pins := if j.kind = .replay then s.cap.pins - 1 else s.cap.pins } := by
  by_cases h : j.kind = .replay <;> simp [State.jobUnavailable, State.unpinJob, h]

/-- The transmitter at the first burst of a job. -/
@[simp] theorem State.jobActive_tx (s : State) (j : Job) (n : Fin 8) :
    (s.jobActive j n).tx = { s.tx with
      st := .burst
      bursts := 0
      index := 1
      stopping := false
      burstStart := s.clock.now
      elements := s.burstElements (s.format n) j 1
      period := (s.format n).period
      onTime := (s.format n).onTime } := by
  simp [State.jobActive, State.beginBurst, State.burstElements]

end Sys2Proof.Machine

namespace Sys2Proof.Safety

open Sys2Proof (Byte Time Payload Line)
open Sys2Proof.Machine

/-! ### The bounds of jobs and completions (R132, R134, R150) -/

theorem JobLaw.of_tx_eq {s t : State} (h : JobLaw s) (ht : t.tx = s.tx) : JobLaw t := by
  simpa only [JobLaw, jobActiveNow, ht] using h

/-- A change of the transmitter that touches none of the bounded fields. -/
theorem JobLaw.of_fields {s t : State} (h : JobLaw s) (hst : t.tx.st = s.tx.st) (hj : t.tx.jobs = s.tx.jobs)
    (hc : t.tx.completions = s.tx.completions) (hb : t.tx.bursts = s.tx.bursts) : JobLaw t := by
  simpa only [JobLaw, jobActiveNow, hst, hj, hc, hb] using h

/-- The end of an active job leaves room for its completion. -/
theorem JobLaw.endJob {s : State} (h : JobLaw s) (ha : jobActiveNow s) (j : Job) (st : CompletionStatus) (t : Nat) :
    JobLaw (s.endJob j st t) := by
  obtain ⟨hjobs, -, hbursts, hactive, hcounts⟩ := h
  obtain ⟨hroom, -⟩ := hactive ha
  simp only [JobLaw, jobActiveNow, State.endJob_tx]
  refine ⟨by simp; omega, by simpa using hroom, hbursts, by simp, fun c hc => ?_⟩
  rcases List.mem_append.mp hc with hc | hc
  · exact hcounts c hc
  · rw [List.mem_singleton.mp hc]
    exact hbursts

theorem JobLaw.countBurst {s : State} (h : JobLaw s) : JobLaw s.countBurst := by
  obtain ⟨hjobs, hcompletions, -, hactive, hcounts⟩ := h
  exact ⟨hjobs, hcompletions, Nat.min_le_left _ _, hactive, hcounts⟩

theorem JobLaw.abortActive {s : State} (h : JobLaw s) : JobLaw s.abortActive.1 ∧ ¬ jobActiveNow s.abortActive.1 := by
  have hidle : ∀ u j st t, ¬ jobActiveNow (State.endJob u j st t) := fun u j st t => not_jobActiveNow (.inr (by simp))
  generalize hr : s.abortActive = r
  cases hr ▸ s.abortActive_aborted with
  | notActive ha => exact ⟨h, fun hn => (h.2.2.2.1 hn).2 (ha hn)⟩
  | burst j hst _ => exact ⟨h.countBurst.endJob (.inl hst) _ _ _, hidle _ _ _ _⟩
  | gap j hst _ => exact ⟨h.endJob (.inr hst) _ _ _, hidle _ _ _ _⟩

theorem JobLaw.abortTx {s : State} (h : JobLaw s) : JobLaw s.abortTx.1 := by
  obtain ⟨habort, hidle⟩ := h.abortActive
  unfold State.abortTx
  split
  · exact habort
  · split
    · obtain ⟨-, hcompletions, hbursts, -, hcounts⟩ := habort
      rw [State.removeWaiting_eq]
      exact ⟨by simp, hcompletions, hbursts, fun ha => absurd ha hidle, hcounts⟩
    · exact h

theorem JobLaw.carried {c : Instr} {s t : State} (h : JobLaw s) (ht : Carried c s t) : JobLaw t := by
  cases ht with
  | submitJob =>
    generalize hr : s.submitJob = r
    obtain ⟨hjobs, hcompletions, hbursts, hactive, hcounts⟩ := h
    cases hr ▸ s.submitJob_submitted with
    | refused => exact ⟨hjobs, hcompletions, hbursts, hactive, hcounts⟩
    | job hl | replay hl =>
      exact ⟨by simp; omega, hcompletions, hbursts, fun ha => ⟨(hactive ha).1, by simp⟩, hcounts⟩
  | stopTx =>
    generalize hr : s.stopTx = r
    cases hr ▸ s.stopTx_stopped with
    | notActive => exact h
    | burst => exact h.of_fields rfl rfl rfl rfl
    | gap j hst => exact h.endJob (.inr hst) _ _ _
  | abortTx => exact h.abortTx
  | popCompletion =>
    unfold State.popCompletion
    split
    · exact h
    · next c cs hc =>
      obtain ⟨hjobs, hcompletions, hbursts, hactive, hcounts⟩ := h
      rw [hc, List.length_cons] at hcompletions hactive
      exact ⟨hjobs, Nat.le_of_succ_le hcompletions, hbursts, fun ha => ⟨Nat.le_of_succ_le (hactive ha).1, (hactive ha).2⟩,
        fun d hd => hcounts d (hc ▸ List.mem_cons_of_mem _ hd)⟩
  | _ => exact h.of_tx_eq (by simp)

/-- The end of a burst leads to GAP or to the end of the job. -/
theorem JobLaw.afterBurst {s : State} (h : JobLaw s) (ha : s.tx.st = .burst) (j : Job) : JobLaw (s.afterBurst j) := by
  unfold State.afterBurst
  split
  · obtain ⟨hjobs, hcompletions, hbursts, hactive, hcounts⟩ := h
    exact ⟨hjobs, hcompletions, hbursts, fun _ => hactive (.inl ha), hcounts⟩
  · exact h.endJob (.inl ha) _ _ _

theorem JobLaw.reached {c : Instr} {s t : State} (h : JobLaw s) (ht : Reached c s t) : JobLaw t := by
  have unchanged : ∀ {u : State}, u.tx = s.tx → JobLaw u := fun hu => h.of_tx_eq hu
  cases ht with
  | reset k mem =>
    exact ⟨Nat.zero_le _, Nat.zero_le _, Nat.zero_le _, fun ha => absurd ha (not_jobActiveNow (.inl rfl)),
      fun c hc => by cases hc⟩
  | stored _ _ _ ht =>
    cases ht with
    | guardTime v | staging r v => exact h.of_fields rfl rfl rfl rfl
    | _ => exact unchanged (by simp)
  | carried _ _ _ _ ht => exact (h.carried ht).of_tx_eq rfl
  | delivered _ ht => exact unchanged ht.frame.2.2.1
  | jobUnavailable j hm _ =>
    obtain ⟨hst, -, hroom⟩ := s.mayStart_iff.mp hm
    obtain ⟨hjobs, hcompletions, hbursts, -, hcounts⟩ := h
    simp only [JobLaw, jobActiveNow, State.jobUnavailable_tx]
    refine ⟨by simp; omega, by simpa using hroom, hbursts, fun ha => by simp [hst] at ha, fun c hc => ?_⟩
    rcases List.mem_append.mp hc with hc | hc
    · exact hcounts c hc
    · rw [List.mem_singleton.mp hc]
      exact Nat.zero_le _
  | jobActive j n hm hj =>
    obtain ⟨-, -, hroom⟩ := s.mayStart_iff.mp hm
    obtain ⟨hjobs, hcompletions, -, -, hcounts⟩ := h
    simp only [JobLaw, jobActiveNow, State.jobActive_tx]
    exact ⟨hjobs, hcompletions, Nat.zero_le _, fun _ => ⟨hroom, fun hn => by simp [hn] at hj⟩, hcounts⟩
  | burstEnded j hst => exact (JobLaw.countBurst (h.of_tx_eq (t := s.reachInstant _) rfl)).afterBurst hst j
  | nextBurst j hst =>
    obtain ⟨hjobs, hcompletions, hbursts, hactive, hcounts⟩ := h
    exact ⟨hjobs, hcompletions, hbursts, fun _ => hactive (.inr hst), hcounts⟩
  | tailEnded =>
    obtain ⟨hjobs, hcompletions, hbursts, -, hcounts⟩ := h
    exact ⟨hjobs, hcompletions, hbursts, fun ha => absurd ha (not_jobActiveNow (.inl rfl)), hcounts⟩
  | _ => exact unchanged (by simp)

/-! ### PIN COUNT (R126) -/

theorem PinLaw.of_eq {s t : State} (h : PinLaw s) (hp : t.cap.pins = s.cap.pins)
    (hst : s.cap.st.isFull = true → t.cap.st = s.cap.st) (hj : t.tx.jobs = s.tx.jobs) : PinLaw t := by
  obtain ⟨hpins, hfull⟩ := h
  refine ⟨by rw [hp, hj, hpins], fun ht => ?_⟩
  have hf := hfull (hp ▸ ht)
  rw [hst hf, hf]

theorem PinLaw.of_cap_eq {s t : State} (h : PinLaw s) (hc : t.cap = s.cap) (hj : t.tx.jobs = s.tx.jobs) : PinLaw t :=
  h.of_eq (by rw [hc]) (fun _ => by rw [hc]) hj

/-- The head job leaves the queue with its pin. -/
theorem PinLaw.dropHead {s t : State} (h : PinLaw s) {j : Job} (hj : s.tx.jobs.head? = some j)
    (hc : t.cap = { s.cap with pins := if j.kind = .replay then s.cap.pins - 1 else s.cap.pins })
    (ht : t.tx.jobs = s.tx.jobs.tail) : PinLaw t := by
  obtain ⟨hpins, hfull⟩ := h
  obtain ⟨js, hjobs⟩ := List.head?_eq_some_iff.mp hj
  rw [hjobs, List.countP_cons] at hpins
  refine ⟨?_, fun hp => ?_⟩
  · rw [hc, ht, hjobs, List.tail_cons]
    by_cases hk : j.kind = .replay
    · simp only [hk, decide_true, if_true] at hpins ⊢
      omega
    · simpa [hk] using hpins
  · rw [hc] at hp ⊢
    refine hfull ?_
    by_cases hk : j.kind = .replay
    · simp only [hk, if_true] at hp
      omega
    · simpa [hk] using hp

theorem PinLaw.endJob {s : State} (h : PinLaw s) {j : Job} (hj : s.tx.jobs.head? = some j) (st : CompletionStatus) (t : Nat) :
    PinLaw (s.endJob j st t) := h.dropHead hj (s.endJob_cap j st t) (by rw [State.endJob_tx])

theorem PinLaw.countBurst {s : State} (h : PinLaw s) : PinLaw s.countBurst := h.of_cap_eq rfl rfl

theorem PinLaw.abortActive {s : State} (h : PinLaw s) : PinLaw s.abortActive.1 := by
  generalize hr : s.abortActive = r
  cases hr ▸ s.abortActive_aborted with
  | notActive => exact h
  | burst j _ hj => exact h.countBurst.endJob hj _ _
  | gap j _ hj => exact h.endJob hj _ _

theorem PinLaw.abortTx {s : State} (h : PinLaw s) : PinLaw s.abortTx.1 := by
  unfold State.abortTx
  split
  · exact h.abortActive
  · split
    · have hpins := h.abortActive.1
      rw [State.removeWaiting_eq]
      exact ⟨by simp [hpins], fun hp => by simp [hpins] at hp⟩
    · exact h

/-- Without a held recording there is no pin. -/
theorem PinLaw.pins_eq_zero {s : State} (h : PinLaw s) (hf : s.cap.st.isFull = false) : s.cap.pins = 0 :=
  Nat.eq_zero_of_not_pos fun hp => by simpa [hf] using h.2 hp

/-- A change of the capture unit that keeps PIN COUNT, where no recording is held or the pins are 0. -/
theorem PinLaw.of_unpinned {s t : State} (h : PinLaw s) (h₀ : s.cap.pins = 0) (hp : t.cap.pins = s.cap.pins)
    (hj : t.tx.jobs = s.tx.jobs) : PinLaw t :=
  ⟨by rw [hp, hj, h.1], fun ht => absurd ht (by rw [hp, h₀]; exact Nat.lt_irrefl 0)⟩

theorem PinLaw.carried {c : Instr} {s t : State} (h : PinLaw s) (ht : Carried c s t) : PinLaw t := by
  cases ht with
  | submitJob =>
    generalize hr : s.submitJob = r
    obtain ⟨hpins, hfull⟩ := h
    cases hr ▸ s.submitJob_submitted with
    | refused => exact ⟨hpins, hfull⟩
    | job _ hk => exact ⟨by simp [hpins, hk], hfull⟩
    | replay _ hk hf => exact ⟨by simp [hpins, hk], fun _ => hf⟩
  | stopTx =>
    generalize hr : s.stopTx = r
    cases hr ▸ s.stopTx_stopped with
    | notActive => exact h
    | burst => exact h.of_cap_eq rfl rfl
    | gap j _ hj => exact h.endJob hj _ _
  | abortTx => exact h.abortTx
  | popCompletion =>
    unfold State.popCompletion
    split
    · exact h
    · exact h.of_cap_eq rfl rfl
  | armCapture =>
    unfold State.armCapture
    split
    · next hst => exact h.of_unpinned (h.pins_eq_zero (by rw [hst]; rfl)) rfl rfl
    all_goals exact h
  | disarmCapture =>
    unfold State.disarmCapture
    split
    · exact h
    · next hst => exact h.of_unpinned (h.pins_eq_zero (by rw [hst]; rfl)) rfl rfl
    · next hst => exact h.of_unpinned (h.pins_eq_zero (by rw [hst]; rfl)) rfl rfl
    · exact h
  | releaseCapture =>
    unfold State.releaseCapture
    split
    · split
      · next hp =>
        refine h.of_unpinned hp ?_ rfl
        dsimp only
        unfold Capture.giveUp
        split <;> rfl
      · exact h
    all_goals exact h
  | loadCapture =>
    unfold State.loadCapture
    split
    · next hst =>
      split
      · exact h.of_unpinned (h.pins_eq_zero (by rw [hst]; rfl)) rfl rfl
      · exact h
    all_goals exact h
  | enterDormant =>
    unfold State.enterDormant
    split
    · exact h
    · split
      · have hcap : (s.goDormant s.win.arg).cap = s.cap.enterDormant := by
          simp [State.goDormant, State.goDormantIn, State.eachLine]
        refine h.of_eq ?_ ?_ (by simp)
        · rw [hcap]
          unfold Capture.enterDormant
          split <;> rfl
        · intro hf
          rw [hcap]
          unfold Capture.enterDormant
          split
          · next hst => simp [hst, CaptureState.isFull] at hf
          all_goals rfl
      · exact h
  | _ => exact h.of_cap_eq (by simp) (by simp)

theorem PinLaw.reached {c : Instr} {s t : State} (h : PinLaw s) (ht : Reached c s t) : PinLaw t := by
  have unchanged : ∀ {u : State}, u.cap = s.cap → u.tx = s.tx → PinLaw u := fun hc hu => h.of_cap_eq hc (by rw [hu])
  cases ht with
  | reset k mem => exact ⟨rfl, fun hp => absurd hp (Nat.lt_irrefl 0)⟩
  | stored _ _ _ ht =>
    cases ht with
    | guardTime v | staging r v => exact h.of_cap_eq rfl rfl
    | captureControl v | loadLength hi v => exact h.of_eq rfl (fun _ => rfl) rfl
    | _ => exact unchanged (by simp) (by simp)
  | carried _ _ _ _ ht => exact (h.carried ht).of_cap_eq rfl rfl
  | delivered _ ht hc => exact h.of_eq hc.1 hc.2.1 (by rw [ht.frame.2.2.1])
  | jobUnavailable j _ hj => exact h.dropHead hj (s.jobUnavailable_cap j) (by rw [State.jobUnavailable_tx])
  | jobActive j n => exact h.of_cap_eq (by simp) (by rw [State.jobActive_tx])
  | burstEnded j _ hj =>
    have hu : PinLaw ((s.reachInstant s.tx.burstEnd).countBurst) := h.of_cap_eq rfl rfl
    unfold State.afterBurst
    split
    · exact hu.of_cap_eq rfl rfl
    · exact hu.endJob hj _ _
  | nextBurst j | tailEnded => exact h.of_cap_eq rfl rfl
  | _ => exact unchanged (by simp) (by simp)

end Sys2Proof.Safety

open Sys2Proof Sys2Proof.Machine Sys2Proof.Safety

/-- Settles O58: both laws over the states that a row can lead to; what ends or removes a job takes its completion and its pin
with it. -/
theorem jobAndPinLawsAreKept : Obligations.JobAndPinLawsAreKept :=
  ⟨keptByEveryStep_of_reached (fun _ _ h => h) (fun _ h => h) fun _ _ _ h ht => h.reached ht,
    keptByEveryStep_of_reached (fun _ _ h => h) (fun _ h => h) fun _ _ _ h ht => h.reached ht⟩

end

