-- ==== Sys2Proof/Proofs/Retirement.lean ====
section
/-! PROOF. O24: a holder that leaves an entry, and the memories that a completed retirement clears. The layer under every
statement about expiry and retirement: the clearing of a memory as one equation, and what several holders' leaving comes to. -/

namespace Sys2Proof.Machine

open Sys2Proof (Byte Time Payload Line)
open Sys2Proof.Safety (identity)

/-! ### The clearing of a memory -/

/-- A repeat unit after its memory has been cleared: OPEN is kept (R87). -/
def RepeatUnit.cleared (r : RepeatUnit) : RepeatUnit := { r with memory := none, due := false, dueReached := false }

@[simp] theorem RepeatUnit.cleared_memory (r : RepeatUnit) : r.cleared.memory = none := rfl
@[simp] theorem RepeatUnit.cleared_opened (r : RepeatUnit) : r.cleared.opened = r.opened := rfl
@[simp] theorem RepeatUnit.cleared_due (r : RepeatUnit) : r.cleared.due = false := rfl
@[simp] theorem RepeatUnit.cleared_dueReached (r : RepeatUnit) : r.cleared.dueReached = false := rfl

/-- What is left on its way when a reference is given up that the memory holds (`has`) or does not: the increments have been
counted, and what remains is to be posted and to become no reference (log entry 9). -/
def Links.forget (k : Links) (has : Bool) : Links :=
  { k with
    posts := (if has then k.posts.filter (fun p => !p.counts) else k.posts).map
      fun p => { p with counts := false, refers := false } }

/-- The record of a reference that is given up after `k` increments. -/
def Record.release (r : Record) (l : Line) (k : Nat) : Record :=
  if r.refersFor l then { r with referred := false, repeats := min Config.countCap (r.repeats + k) } else r

theorem Record.release_of_not_refers {r : Record} {l : Line} (h : r.refersFor l = false) (k : Nat) : r.release l k = r := by
  simp [Record.release, h]

@[simp] theorem Record.release_refersFor (r : Record) (l m : Line) (k : Nat) :
    (r.release l k).refersFor m = (r.refersFor m && decide (m ≠ l)) := by
  unfold Record.release
  split
  · next h =>
    by_cases hm : m = l
    · simp [Record.refersFor, hm]
    · have hm' : r.refersFor m = false := Bool.eq_false_iff.mpr fun h' => hm (Record.refersFor_unique h' h)
      rw [hm', Bool.false_and]
      simp [Record.refersFor]
  · next h =>
    by_cases hm : m = l
    · simpa [hm] using h
    · simp [hm]

@[simp] theorem identity_release (r : Record) (l : Line) (k : Nat) : identity (r.release l k) = identity r := by
  unfold Record.release
  split <;> rfl

/-- The clearing of a memory in one equation. -/
theorem State.clearMemory_eq (s : State) (l : Line) :
    s.clearMemory l = { s with
      rep := s.rep.set l (s.rep.get l).cleared
      link := s.link.set l ((s.link.get l).forget (s.rq.hasReference l))
      rq := { s.rq with records := s.rq.records.map (·.release l ((s.link.get l).posts.countP (·.counts))) } } := by
  cases h : s.rq.hasReference l with
  | true =>
    simp only [State.clearMemory, State.dropReference, State.settleIncrements, State.forgetReference, h, if_true,
      State.setLink, State.setRep, ReceiveQueue.countRepeats, ReceiveQueue.dropReference, List.map_map, PerLine.get_set_same,
      PerLine.set_set]
    have hrecords : ∀ k, s.rq.records.map ((fun r => if r.refersFor l then { r with referred := false } else r) ∘
        fun r => if r.refersFor l then { r with repeats := min Config.countCap (r.repeats + k) } else r) =
        s.rq.records.map (·.release l k) := fun k => by
      refine List.map_congr_left fun r _ => ?_
      by_cases hr : r.referred = true ∧ r.line = l <;> simp [Record.release, Record.refersFor, hr]
    rw [hrecords]
    rfl
  | false =>
    have hnone := (ReceiveQueue.hasReference_eq_false _ _).mp h
    simp only [State.clearMemory, State.dropReference, State.settleIncrements, State.forgetReference, h, Bool.false_eq_true,
      if_false, State.setLink, State.setRep, ReceiveQueue.dropReference]
    have hrecords : ∀ k, s.rq.records.map (fun r => if r.refersFor l then { r with referred := false } else r) =
        s.rq.records.map (·.release l k) := fun k => by
      refine List.map_congr_left fun r hr => ?_
      simp [Record.release_of_not_refers (hnone r hr), hnone r hr]
    rw [hrecords]
    rfl

/-! ### The clearing of chosen lines' memories -/

/-- Clear the memories of the lines that `p` picks. -/
def State.clearOf (s : State) (p : Line → Bool) : State :=
  (if p .B then (if p .A then s.clearMemory .A else s).clearMemory .B else if p .A then s.clearMemory .A else s)

/-- The clearing of one line's memory leaves the other line's reference. -/
theorem State.clearMemory_hasReference (s : State) (l m : Line) :
    (s.clearMemory l).rq.hasReference m = (s.rq.hasReference m && decide (m ≠ l)) := by
  rw [State.clearMemory_rq]
  by_cases h : m = l
  · simp [h]
  · simp [State.dropReference_hasReference_ne _ h, h]

theorem State.clearMemory_comm (s : State) : (s.clearMemory .A).clearMemory .B = (s.clearMemory .B).clearMemory .A := by
  have release : ∀ (r : Record) (j k : Nat), (r.release .A j).release .B k = (r.release .B k).release .A j := by
    intro r j k
    by_cases hA : r.refersFor .A = true
    · have hB : r.refersFor .B = false := Bool.eq_false_iff.mpr fun hB => nomatch Record.refersFor_unique hA hB
      rw [Record.release_of_not_refers (r := r) hB, Record.release_of_not_refers (by simp [hB])]
    · have hA' := Bool.eq_false_iff.mpr hA
      rw [Record.release_of_not_refers (r := r) hA', Record.release_of_not_refers (l := .A) (by simp [hA'])]
  have hA : (s.clearMemory .A).rq.hasReference .B = s.rq.hasReference .B := by simp [State.clearMemory_hasReference, -State.clearMemory_rq]
  have hB : (s.clearMemory .B).rq.hasReference .A = s.rq.hasReference .A := by simp [State.clearMemory_hasReference, -State.clearMemory_rq]
  rw [State.clearMemory_eq (s.clearMemory .A), State.clearMemory_eq (s.clearMemory .B), hA, hB]
  rw [State.clearMemory_eq s .A, State.clearMemory_eq s .B]
  simp [Function.comp_def, release]

theorem State.clearOf_none (s : State) : s.clearOf (fun _ => false) = s := by simp [State.clearOf]

/-- Clearings of disjoint sets of lines join. -/
theorem State.clearOf_clearOf (s : State) {p q : Line → Bool} (h : ∀ l, p l = true → q l = false) :
    (s.clearOf p).clearOf q = s.clearOf fun l => p l || q l := by
  have hA := h .A
  have hB := h .B
  unfold State.clearOf
  cases hpA : p .A <;> cases hpB : p .B <;> cases hqA : q .A <;> cases hqB : q .B <;>
    simp_all [State.clearMemory_comm]

@[simp] theorem State.clearOf_frame (s : State) (p : Line → Bool) :
    (s.clearOf p).pending = s.pending ∧ (s.clearOf p).fe = s.fe ∧ (s.clearOf p).dec = s.dec ∧
    (s.clearOf p).entries = s.entries ∧ (s.clearOf p).mem = s.mem ∧ (s.clearOf p).cap = s.cap ∧ (s.clearOf p).tx = s.tx ∧
    (s.clearOf p).pow = s.pow ∧ (s.clearOf p).win = s.win ∧ (s.clearOf p).irq = s.irq ∧ (s.clearOf p).clock = s.clock := by
  unfold State.clearOf
  split <;> split <;> simp

theorem State.clearOf_rep_get (s : State) (p : Line → Bool) (l : Line) :
    (s.clearOf p).rep.get l = if p l then (s.rep.get l).cleared else s.rep.get l := by
  unfold State.clearOf
  cases l <;> split <;> split <;> simp_all [RepeatUnit.cleared]

theorem State.clearOf_link_get (s : State) (p : Line → Bool) (l : Line) :
    (s.clearOf p).link.get l = if p l then (s.link.get l).forget (s.rq.hasReference l) else s.link.get l := by
  unfold State.clearOf
  cases l <;> cases hA : p .A <;> cases hB : p .B <;> simp [State.clearMemory_eq, -State.clearMemory_link]
  simp [ReceiveQueue.hasReference, Function.comp_def]

theorem State.clearOf_rq (s : State) (p : Line → Bool) :
    (s.clearOf p).rq = { s.rq with
      records := s.rq.records.map fun r =>
        if p r.line then r.release r.line ((s.link.get r.line).posts.countP (·.counts)) else r } := by
  have elsewhere : ∀ (r : Record) (l : Line) (k : Nat), r.line ≠ l → r.release l k = r := fun r l k h =>
    Record.release_of_not_refers (by simp [Record.refersFor, h]) k
  have line : ∀ (r : Record) (l : Line) (k : Nat), (r.release l k).line = r.line := by
    intro r l k
    unfold Record.release
    split <;> rfl
  unfold State.clearOf
  cases hA : p .A <;> cases hB : p .B
  · have hp : ∀ l, p l = false := fun l => by cases l <;> assumption
    simp [hp]
  all_goals
    simp only [Bool.false_eq_true, if_false, if_true, State.clearMemory_eq, ReceiveQueue.mk.injEq, and_true, List.map_map]
    refine List.map_congr_left fun r _ => ?_
    cases hr : r.line <;> simp [hA, hB, hr, elsewhere, line]

/-- The clearing of memories does not look at the format entries and the causes. -/
theorem State.clearOf_update (s : State) (es : Vector EntryControl 8) (q : InterruptUnit) (p : Line → Bool) :
    ({ s with entries := es, irq := q } : State).clearOf p = { s.clearOf p with entries := es, irq := q } := by
  unfold State.clearOf
  cases p .A <;> cases p .B <;> simp [State.clearMemory_eq]

/-- A clearing by entry clears the memories that name it. -/
theorem State.clearMemoriesNaming_eq (s : State) (n : Fin 8) : s.clearMemoriesNaming n = s.clearOf (s.memoryNames n) := by
  have hB : (s.clearMemoryNaming n .A).memoryNames n .B = s.memoryNames n .B := by
    rw [State.memoryNames, s.clearMemoryNaming_rep_ne n (by decide), State.memoryNames]
  rw [State.clearMemoriesNaming, State.clearMemoryNaming_eq _ n .B, hB, State.clearMemoryNaming_eq, State.clearOf]

/-! ### A holder that leaves -/

/-- Whether a holder that leaves an entry completes its retirement (R40). -/
def EntryControl.retires (e : EntryControl) (h : Holder) : Bool :=
  decide (e.st = .retiring) && (e.setHolder h false).unheld

/-- An entry after a holder has left it. -/
def EntryControl.left (e : EntryControl) (h : Holder) : EntryControl :=
  if e.retires h then { e.setHolder h false with st := .disabled } else e.setHolder h false

theorem EntryControl.retires_iff (e : EntryControl) (h : Holder) :
    e.retires h = true ↔ e.st = .retiring ∧ (e.setHolder h false).unheld = true := by
  simp [EntryControl.retires]

theorem EntryControl.left_of_retires {e : EntryControl} {h : Holder} (hr : e.retires h = true) :
    e.left h = { e.setHolder h false with st := .disabled } := if_pos hr

theorem EntryControl.left_of_not_retires {e : EntryControl} {h : Holder} (hr : e.retires h = false) :
    e.left h = e.setHolder h false := if_neg (Bool.eq_false_iff.mp hr)

/-- A holder that leaves an entry, in one equation. -/
theorem State.leaveHolder_eq (s : State) (h : Holder) (n : Fin 8) :
    s.leaveHolder h n = { s.clearOf (fun l => s.entries[n].retires h && s.memoryNames n l) with
      entries := s.entries.set n (s.entries[n].left h)
      irq := { s.irq with retired := s.irq.retired || s.entries[n].retires h } } := by
  unfold State.leaveHolder
  split
  · next hr =>
    have hr' := (s.entries[n].retires_iff h).mpr hr
    have hnames : ((s.setEntry n { s.entries[n].setHolder h false with st := .disabled }).setRetired).memoryNames n =
        s.memoryNames n := rfl
    rw [State.clearMemoriesNaming_eq, hnames, EntryControl.left_of_retires hr', hr']
    simp only [Bool.or_true, Bool.true_and]
    exact s.clearOf_update _ _ _
  · next hr =>
    have hr' : s.entries[n].retires h = false := Bool.eq_false_iff.mpr fun hr' => hr ((s.entries[n].retires_iff h).mp hr')
    rw [EntryControl.left_of_not_retires hr', hr']
    simp only [Bool.or_false, Bool.false_and, State.clearOf_none, State.setEntry]

/-- Whether a holder's leaving several entries clears the memory of `l`. -/
def State.clearedBy (s : State) (h : Holder) (ns : List (Fin 8)) (l : Line) : Bool :=
  (s.rep.get l).memory.any fun m => decide (m.entry ∈ ns) && s.entries[m.entry].retires h

/-- The entries after a holder has left several. -/
def leftEntries (h : Holder) (ns : List (Fin 8)) (es : Vector EntryControl 8) : Vector EntryControl 8 :=
  ns.foldl (fun (es : Vector EntryControl 8) (n : Fin 8) => es.set n (es[n].left h)) es

theorem getElem_set_entry (es : Vector EntryControl 8) (n m : Fin 8) (e : EntryControl) :
    (es.set n e)[m] = if m = n then e else es[m] := by
  simp only [Fin.getElem_fin, Vector.getElem_set, Fin.ext_iff, eq_comm]

theorem leftEntries_getElem (h : Holder) {ns : List (Fin 8)} (hns : ns.Nodup) (es : Vector EntryControl 8) (m : Fin 8) :
    (leftEntries h ns es)[m] = if m ∈ ns then es[m].left h else es[m] := by
  unfold leftEntries
  induction ns generalizing es with
  | nil => simp
  | cons n ns ih =>
    obtain ⟨hn, hns⟩ := List.nodup_cons.mp hns
    rw [List.foldl_cons, ih hns, getElem_set_entry]
    by_cases hm : m = n
    · subst hm
      simp [hn]
    · simp [hm]

/-- A holder that leaves several entries, in one equation. -/
theorem State.leaveHolders_eq (s : State) (h : Holder) {ns : List (Fin 8)} (hns : ns.Nodup) :
    s.leaveHolders h ns = { s.clearOf (s.clearedBy h ns) with
      entries := leftEntries h ns s.entries
      irq := { s.irq with retired := s.irq.retired || ns.any fun n => s.entries[n].retires h } } := by
  induction ns generalizing s with
  | nil =>
    have hnone : s.clearedBy h [] = fun _ => false := funext fun l => by simp [State.clearedBy]
    simp [State.leaveHolders, leftEntries, hnone, State.clearOf_none]
  | cons n ns ih =>
    obtain ⟨hn, hns⟩ := List.nodup_cons.mp hns
    let first : Line → Bool := fun l => s.entries[n].retires h && s.memoryNames n l
    let rest : Line → Bool := fun l => !first l && s.clearedBy h ns l
    have hentries : ∀ m ∈ ns, (s.leaveHolder h n).entries[m] = s.entries[m] := fun m hm => by
      have hne : m ≠ n := fun e => hn (e ▸ hm)
      rw [State.leaveHolder_eq]
      exact (getElem_set_entry _ _ _ _).trans (if_neg hne)
    have hrest : (s.leaveHolder h n).clearedBy h ns = rest := by
      funext l
      have hrep : (s.leaveHolder h n).rep.get l = if first l then (s.rep.get l).cleared else s.rep.get l := by
        rw [State.leaveHolder_eq]
        exact s.clearOf_rep_get first l
      simp only [State.clearedBy, hrep, rest]
      cases first l with
      | true => simp
      | false =>
        cases hmem : (s.rep.get l).memory with
        | none => simp [hmem]
        | some m =>
          by_cases hm : m.entry ∈ ns
          · simp only [hmem, if_false, Bool.false_eq_true, Bool.not_false, Bool.true_and, Option.any_some, hentries _ hm]
          · simp [hm, hmem]
    have hjoin : (fun l => first l || rest l) = s.clearedBy h (n :: ns) := by
      funext l
      simp only [first, rest, State.clearedBy, State.memoryNames]
      cases (s.rep.get l).memory with
      | none => simp
      | some m =>
        by_cases hm : m.entry = n
        · simp [hm, hn]
        · simp [hm]
    have hany : (ns.any fun m => (s.leaveHolder h n).entries[m].retires h) = ns.any fun m => s.entries[m].retires h := by
      rw [Bool.eq_iff_iff, List.any_eq_true, List.any_eq_true]
      exact exists_congr fun m => and_congr_right fun hm => by rw [hentries m hm]
    show (s.leaveHolder h n).leaveHolders h ns = _
    rw [ih _ hns, hrest, hany, State.leaveHolder_eq, State.clearOf_update, State.clearOf_clearOf s (q := rest), hjoin]
    · simp [leftEntries, Bool.or_assoc]
    · intro l hl
      show (!first l && _) = false
      rw [show first l = true from hl, Bool.not_true, Bool.false_and]

end Sys2Proof.Machine

open Sys2Proof Sys2Proof.Machine Sys2Proof.Safety

/-- Settles O24: `State.leaveHolder` by whether the leave completes the retirement; if it does, each memory by whether it names
the entry. -/
theorem lastHolderCompletesRetirement : Obligations.LastHolderCompletesRetirement := by
  intro h n s
  refine ⟨fun hr => if_neg hr, fun hst hu => ?_⟩
  have heq : s.leaveHolder h n =
      ((s.setEntry n { s.entries[n].setHolder h false with st := .disabled }).setRetired).clearMemoriesNaming n :=
    if_pos ⟨hst, hu⟩
  rw [heq]
  refine ⟨by simp, by simp, fun l m hm => ⟨fun hn => ?names, fun hn => ?spares⟩, by simp⟩
  case names =>
    exact State.clearMemoriesNaming_of_names ((State.memoryNames_of_some (l := l) hm n).trans (decide_eq_true hn))
  case spares =>
    exact State.clearMemoriesNaming_of_not_names ((State.memoryNames_of_some (l := l) hm n).trans (decide_eq_false hn))

end

