-- ==== Sys2Proof/Proofs/Requests.lean ====
section
/-! SUPPORT. What the repeat units leave of the links: all but the requests to the receive queue. What the taking of an outcome
comes to at its line's link, and what is on its way after the entry to DORMANT. -/

namespace Sys2Proof.Machine

open Sys2Proof (Byte Time Payload Line)

/-! ### A link but for its requests -/

/-- Everything on its way on a line but the requests to the receive queue. -/
def Links.rest (k : Links) : Links := { k with posts := [] }

/-- Two links that differ in their requests alone. -/
theorem Links.eq_of_rest_eq {k k' : Links} (h : k.rest = k'.rest) : k = { k' with posts := k.posts } := by
  cases k
  cases k'
  simp only [Links.rest, Links.mk.injEq] at h
  simp [h]

theorem Links.outcome_of_rest_eq {k k' : Links} (h : k.rest = k'.rest) : k.outcome = k'.outcome := by
  rw [Links.eq_of_rest_eq h]

theorem Links.eqs_of_rest_eq {k k' : Links} (h : k.rest = k'.rest) :
    k.toDecoder = k'.toDecoder ∧ k.outcome = k'.outcome ∧ k.expireRequests = k'.expireRequests ∧
    k.oldBursts = k'.oldBursts := by
  rw [Links.eq_of_rest_eq h]
  exact ⟨rfl, rfl, rfl, rfl⟩

/-- Replacing the requests of one line. -/
@[simp] theorem PerLine.get_set_posts_rest (p : PerLine Links) (l m : Line) (ps : List Post) :
    ((p.set l { p.get l with posts := ps }).get m).rest = (p.get m).rest := by
  by_cases hm : m = l
  · rw [hm, PerLine.get_set_same]
    rfl
  · rw [PerLine.get_set_ne p _ hm]

theorem PerLine.get_set_outcome (p : PerLine Links) {l : Line} {k : Links} (h : k.outcome = (p.get l).outcome) (m : Line) :
    ((p.set l k).get m).outcome = (p.get m).outcome := by
  by_cases hm : m = l
  · rw [hm, PerLine.get_set_same, h]
  · rw [PerLine.get_set_ne p k hm]

theorem PerLine.get_set_memory (p : PerLine RepeatUnit) {l : Line} {r : RepeatUnit} (h : r.memory = (p.get l).memory)
    (m : Line) : ((p.set l r).get m).memory = (p.get m).memory := by
  by_cases hm : m = l
  · rw [hm, PerLine.get_set_same, h]
  · rw [PerLine.get_set_ne p r hm]

@[simp] theorem Links.forget_rest (k : Links) (b : Bool) : (k.forget b).rest = k.rest := rfl

section
variable (s : State) (l m : Line)

@[simp] theorem State.dropRequest_rest (which : Post → Bool) :
    ((s.dropRequest l which).link.get m).rest = (s.link.get m).rest :=
  s.link.get_set_posts_rest l m _

@[simp] theorem State.takeRequests_rest : ((s.takeRequests l).link.get m).rest = (s.link.get m).rest := by
  rw [State.takeRequests_link]
  exact s.link.get_set_posts_rest l m _

@[simp] theorem State.settleIncrements_rest : ((s.settleIncrements l).link.get m).rest = (s.link.get m).rest := by
  unfold State.settleIncrements
  split
  · exact s.link.get_set_posts_rest l m _
  · rfl

@[simp] theorem State.forgetReference_rest : ((s.forgetReference l).link.get m).rest = (s.link.get m).rest :=
  s.link.get_set_posts_rest l m _

@[simp] theorem State.dropReference_rest : ((s.dropReference l).link.get m).rest = (s.link.get m).rest := by
  simp [State.dropReference]

@[simp] theorem State.postRelease_rest (f : LastFrame) : ((s.postRelease l f).link.get m).rest = (s.link.get m).rest := by
  unfold State.postRelease
  split <;> simp

@[simp] theorem State.expireMemory_rest : ((s.expireMemory l).link.get m).rest = (s.link.get m).rest := by
  unfold State.expireMemory
  split <;> simp

@[simp] theorem State.clearOf_rest (p : Line → Bool) : ((s.clearOf p).link.get m).rest = (s.link.get m).rest := by
  rw [State.clearOf_link_get]
  split <;> simp

@[simp] theorem State.leaveHolder_rest (h : Holder) (n : Fin 8) :
    ((s.leaveHolder h n).link.get m).rest = (s.link.get m).rest := by
  rw [State.leaveHolder_eq]
  exact s.clearOf_rest m _

@[simp] theorem State.leaveHolders_rest (h : Holder) (ns : List (Fin 8)) :
    ((s.leaveHolders h ns).link.get m).rest = (s.link.get m).rest := by
  unfold State.leaveHolders
  induction ns generalizing s with
  | nil => rfl
  | cons n ns ih => rw [List.foldl_cons, ih, State.leaveHolder_rest]

@[simp] theorem State.finishBurst_rest : ((s.finishBurst l).link.get m).rest = (s.link.get m).rest := by
  simp [State.finishBurst]

@[simp] theorem State.countRepeat_rest (f : LastFrame) (o : BurstOutcome) :
    ((s.countRepeat l f o).link.get m).rest = (s.link.get m).rest := by
  simp [State.countRepeat]

@[simp] theorem State.newFrame_rest (n : Fin 8) (bits : Nat) (p : Payload) (start stop : Time) :
    ((s.newFrame l n bits p start stop).link.get m).rest = (s.link.get m).rest := by
  unfold State.newFrame State.releaseOld
  split <;> simp

@[simp] theorem State.takeOther_rest (o : BurstOutcome) : ((s.takeOther l o).link.get m).rest = (s.link.get m).rest := by
  cases o with
  | frame n bits p failed start stop => cases failed <;> simp [State.takeOther]
  | _ => simp [State.takeOther]

@[simp] theorem State.takeOutcome_rest (o : BurstOutcome) : ((s.takeOutcome l o).link.get m).rest = (s.link.get m).rest := by
  unfold State.takeOutcome
  split
  · simp
  · rw [State.takeOther_rest]
    split <;> simp

/-! ### The memories -/

theorem State.expireMemory_memory_get : ((s.expireMemory l).rep.get m).memory = if m = l then none else (s.rep.get m).memory := by
  split
  · next h => rw [h, State.expireMemory_memory]
  · next h => rw [State.expireMemory_rep_ne s h]

@[simp] theorem State.noteDue_memory : ((s.noteDue l).rep.get m).memory = (s.rep.get m).memory := by
  unfold State.noteDue
  split
  · rfl
  · split
    · exact s.rep.get_set_memory (by rfl) m
    · rfl

@[simp] theorem State.tick_memory : (s.tick.rep.get m).memory = (s.rep.get m).memory := by simp [State.tick]

@[simp] theorem State.newFrame_rep (n : Fin 8) (bits : Nat) (p : Payload) (start stop : Time) :
    (s.newFrame l n bits p start stop).rep = (s.setMemory l ⟨n, bits, p, stop, 0, (s.format n).release⟩).rep := by
  unfold State.newFrame State.releaseOld State.setMemory
  split <;> simp [State.format]

theorem State.takeOther_rep_ne {l m : Line} (h : m ≠ l) (o : BurstOutcome) :
    (s.takeOther l o).rep.get m = s.rep.get m := by
  cases o with
  | frame n bits p failed start stop =>
    cases failed with
    | false => simp [State.takeOther, State.setMemory, PerLine.get_set_ne _ _ h]
    | true => rfl
  | _ => rfl

/-- An outcome taken on a line leaves the other line's repeat unit alone. -/
theorem State.takeOutcome_rep_ne {l m : Line} (h : m ≠ l) (o : BurstOutcome) :
    (s.takeOutcome l o).rep.get m = s.rep.get m := by
  unfold State.takeOutcome
  split
  · exact PerLine.get_set_ne _ _ h
  · rw [State.takeOther_rep_ne _ h]
    split
    · exact s.expireMemory_rep_ne h
    · rfl

/-- The memory after an outcome has been taken is the one before, or names the outcome's entry. -/
theorem State.takeOutcome_memory_entry {o : BurstOutcome} {f : LastFrame}
    (h : ((s.takeOutcome l o).rep.get l).memory = some f) :
    (∃ f', (s.rep.get l).memory = some f' ∧ f'.entry = f.entry) ∨ Safety.outcomeEntry o = some f.entry := by
  unfold State.takeOutcome at h
  split at h
  · next f' hf' =>
    obtain ⟨hmem, -⟩ := Option.filter_eq_some_iff.mp hf'
    have hf : f'.counted o.stop = f := by simpa [State.countRepeat, State.setMemory] using h
    exact .inl ⟨f', hmem, by rw [← hf]; rfl⟩
  · have other : ∀ u : State, (∀ f, (u.rep.get l).memory = some f → (s.rep.get l).memory = some f) →
        ((u.takeOther l o).rep.get l).memory = some f →
        (∃ f', (s.rep.get l).memory = some f' ∧ f'.entry = f.entry) ∨ Safety.outcomeEntry o = some f.entry := fun u hu h => by
      cases o with
      | frame n bits p failed start stop =>
        cases failed with
        | false =>
          right
          have hf := Option.some.inj ((by simpa [State.takeOther, State.setMemory] using h) :
            some (⟨n, bits, p, stop, 0, (u.format n).release⟩ : LastFrame) = some f)
          rw [← hf]
          rfl
        | true => exact .inl ⟨f, hu f h, rfl⟩
      | _ => exact .inl ⟨f, hu f h, rfl⟩
    split at h
    · exact other _ (fun f hf => by simp at hf) h
    · exact other s (fun f hf => hf) h

/-! ### The taking of an outcome -/

/-- The link of a line after its repeat unit has taken what its decoder has handed over, but for the requests. -/
def Links.afterOutcome (k : Links) : Links := if k.outcome.isSome then k.dropOutcome else k

@[simp] theorem Links.afterOutcome_outcome (k : Links) : k.afterOutcome.outcome = none := by
  unfold Links.afterOutcome
  split
  · rfl
  · next h => simpa using h

@[simp] theorem Links.afterOutcome_toDecoder (k : Links) : k.afterOutcome.toDecoder = k.toDecoder := by
  unfold Links.afterOutcome
  split <;> rfl

theorem State.takeHandedOutcome_of_none {s : State} {l : Line} (h : (s.link.get l).outcome = none) :
    s.takeHandedOutcome l = s := by
  rw [State.takeHandedOutcome, h]

theorem State.takeHandedOutcome_rest :
    ((s.takeHandedOutcome l).link.get l).rest = (s.link.get l).afterOutcome.rest := by
  unfold State.takeHandedOutcome
  split
  · next h => simp [Links.afterOutcome, h]
  · next o h =>
    dsimp only
    split <;> simp [Links.afterOutcome, h, State.closeBurst]

theorem State.takeHandedOutcome_rest_ne {l m : Line} (h : m ≠ l) :
    ((s.takeHandedOutcome l).link.get m).rest = (s.link.get m).rest := by
  unfold State.takeHandedOutcome
  split
  · rfl
  · dsimp only
    split <;> simp [State.closeBurst, PerLine.get_set_ne _ _ h]

@[simp] theorem State.takeHandedOutcome_outcome : ((s.takeHandedOutcome l).link.get l).outcome = none := by
  obtain ⟨-, houtcome, -⟩ := Links.eqs_of_rest_eq (s.takeHandedOutcome_rest l)
  rw [houtcome, Links.afterOutcome_outcome]

@[simp] theorem State.takeHandedOutcome_toDecoder :
    ((s.takeHandedOutcome l).link.get m).toDecoder = (s.link.get m).toDecoder := by
  by_cases h : m = l
  · subst h
    obtain ⟨hnotices, -⟩ := Links.eqs_of_rest_eq (s.takeHandedOutcome_rest m)
    rw [hnotices, Links.afterOutcome_toDecoder]
  · exact (Links.eqs_of_rest_eq (s.takeHandedOutcome_rest_ne h)).1

end

/-! ### The entry to DORMANT -/

/-- The state in which the receive path has become quiet at the entry to DORMANT, before the capture unit and the power unit. -/
def State.quieted (s : State) (mask : Byte) : State :=
  ((s.settleInFlight s.entryOrder.inFlight).quietReceivers mask s.entryOrder).eachLine s.entryOrder.posts State.takeRequests

theorem State.goDormant_eq (s : State) (mask : Byte) :
    s.goDormant mask = { s.quieted mask with
      cap := (s.quieted mask).cap.enterDormant
      clock := { (s.quieted mask).clock with remain := (s.quieted mask).clock.tickAt - (s.quieted mask).clock.now }
      pow := { (s.quieted mask).pow with st := .dormant }
      choices := s.choices + 5 } := by
  simp only [State.goDormant, State.goDormantIn, State.quieted]

/-- A property that each part of the entry to DORMANT keeps. -/
structure KeptByEntry (P : State → Prop) : Prop where
  outcome : ∀ s l, P s → P (s.takeHandedOutcome l)
  notice : ∀ s l n, (s.link.get l).outcome = none → (s.dec.get l).accepts n = true → P s → P (s.actOnNotice l n)
  noNotices : ∀ s l, P s → P (s.setLink l { s.link.get l with toDecoder := [] })
  requests : ∀ s l, P s → P (s.takeRequests l)
  park : ∀ s b l, P s → P (s.parkLine b l)
  quiet : ∀ s l, P s → P (s.quietRepeatUnit l)

section
variable {P : State → Prop} (hP : KeptByEntry P)
include hP

theorem KeptByEntry.settleNotice {s : State} {l : Line} (n : Notice) (h : (s.link.get l).outcome = none) (hs : P s) :
    P (s.settleNotice l n) := by
  unfold State.settleNotice
  refine hP.outcome _ l ?_
  split
  · next ha => exact hP.notice s l n h ha hs
  · exact hs

theorem KeptByEntry.settleNotices {s : State} {l : Line} (ns : List Notice) (h : (s.link.get l).outcome = none) (hs : P s) :
    P (ns.foldl (fun s n => s.settleNotice l n) s) := by
  induction ns generalizing s with
  | nil => exact hs
  | cons n ns ih => exact ih (State.takeHandedOutcome_outcome _ l) (hP.settleNotice n h hs)

theorem KeptByEntry.settleDecoder {s : State} (l : Line) (hs : P s) : P (s.settleDecoder l) :=
  hP.settleNotices _ (by simp) (hP.noNotices _ l (hP.outcome s l hs))

omit hP in
theorem State.eachLine_keeps {f : State → Line → State} (hf : ∀ s l, P s → P (f s l)) {s : State} (first : Line) (hs : P s) :
    P (s.eachLine first f) := hf _ _ (hf _ _ hs)

theorem KeptByEntry.settleInFlight {s : State} (first : Line) (hs : P s) : P (s.settleInFlight first) :=
  State.eachLine_keeps hP.requests first (State.eachLine_keeps (fun _ l h => hP.settleDecoder l h) first hs)

theorem KeptByEntry.quietReceivers {s : State} (mask : Byte) (o : EntryOrder) (hs : P s) : P (s.quietReceivers mask o) := by
  have early : ∀ s l, P s → P (if o.expiryLast.get l then s else s.quietRepeatUnit l) := fun s l h => by
    split
    · exact h
    · exact hP.quiet s l h
  exact State.eachLine_keeps hP.quiet .A (State.eachLine_keeps (fun _ l h => hP.settleDecoder l h) o.aborts
    (State.eachLine_keeps early .A (hP.park _ _ .B (hP.park _ _ .A hs))))

/-- What each part of the entry keeps holds when the receive path has become quiet. -/
theorem KeptByEntry.quieted {s : State} (mask : Byte) (hs : P s) : P (s.quieted mask) :=
  State.eachLine_keeps hP.requests _ (hP.quietReceivers mask _ (hP.settleInFlight _ hs))

/-- What each part of the entry keeps, and the change of the capture unit, the clock and the power state, holds in DORMANT. -/
theorem KeptByEntry.goDormant {s : State} (mask : Byte)
    (hrest : ∀ (s : State) c k p n, P s → P { s with cap := c, clock := k, pow := p, choices := n }) (hs : P s) :
    P (s.goDormant mask) := by
  rw [State.goDormant_eq]
  exact hrest _ _ _ _ _ (hP.quieted mask hs)

end

/-! ### The end of a job -/

/-- The clearing of memories does not look at the transmitter. -/
theorem State.clearOf_tx (s : State) (x : Transmitter) (p : Line → Bool) :
    ({ s with tx := x } : State).clearOf p = { s.clearOf p with tx := x } := by
  unfold State.clearOf
  cases p .A <;> cases p .B <;> simp [State.clearMemory_eq]

/-- A holder's leave does not look at the transmitter. -/
theorem State.leaveHolder_tx (s : State) (x : Transmitter) (h : Holder) (n : Fin 8) :
    ({ s with tx := x } : State).leaveHolder h n = { s.leaveHolder h n with tx := x } := by
  simp only [State.leaveHolder_eq, State.clearOf_tx, State.memoryNames]

/-- The end of a job bears on the receive path as the transmitter's leave of the job's entry alone (R145). -/
@[simp] theorem State.endJob_receive (s : State) (j : Job) (st : CompletionStatus) (t : Nat) :
    (s.endJob j st t).entries = (s.releaseEntry j).entries ∧ (s.endJob j st t).rep = (s.releaseEntry j).rep ∧
    (s.endJob j st t).link = (s.releaseEntry j).link ∧ (s.endJob j st t).rq = (s.releaseEntry j).rq ∧
    (s.endJob j st t).irq = (s.releaseEntry j).irq := by
  cases hj : j.entry with
  | none => simp [-Fin.getElem_fin, State.endJob, State.releaseEntry, State.complete, State.dropJob, hj]
  | some n =>
    simp only [State.endJob, State.releaseEntry, State.complete, State.dropJob, hj]
    rw [State.leaveHolder_tx]
    simp [-State.leaveHolder_entries]

end Sys2Proof.Machine
end

