-- ==== Sys2Proof/Proofs/Notices.lean ====
section
/-! SUPPORT. What the front ends leave of the links: notices and requests to expire are added, and nothing that a decoder or a
repeat unit has handed over moves. -/

namespace Sys2Proof.Machine

open Sys2Proof (Byte Time Payload Line)

/-- What a decoder and a repeat unit have handed over and what is still to come of a disable. -/
def Links.handed (k : Links) : Option BurstOutcome × Nat × List Post := (k.outcome, k.oldBursts, k.posts)

theorem Links.eqs_of_handed_eq {k k' : Links} (h : k.handed = k'.handed) :
    k.outcome = k'.outcome ∧ k.oldBursts = k'.oldBursts ∧ k.posts = k'.posts := by
  simpa [Links.handed] using h

theorem Links.outcome_of_handed_eq {k k' : Links} (h : k.handed = k'.handed) : k.outcome = k'.outcome :=
  (Links.eqs_of_handed_eq h).1

theorem PerLine.get_set_handed (p : PerLine Links) {l : Line} {k : Links} (h : k.handed = (p.get l).handed) (m : Line) :
    ((p.set l k).get m).handed = (p.get m).handed := by
  by_cases hm : m = l
  · rw [hm, PerLine.get_set_same, h]
  · rw [PerLine.get_set_ne p k hm]

section
variable (s : State) (l m : Line)

@[simp] theorem State.sendNotice_handed (n : Notice) : ((s.sendNotice l n).link.get m).handed = (s.link.get m).handed :=
  s.link.get_set_handed (by rfl) m

/-- A change of the line and a notice. -/
@[simp] theorem State.setFe_sendNotice_handed (f : FrontEnd) (n : Notice) :
    (((s.setFe l f).sendNotice l n).link.get m).handed = (s.link.get m).handed := State.sendNotice_handed _ l m n

@[simp] theorem State.actOnThreshold_handed : ((s.actOnThreshold l).link.get m).handed = (s.link.get m).handed := by
  unfold State.actOnThreshold
  split
  · exact State.setFe_sendNotice_handed s l m _ _
  · rfl
  · exact State.setFe_sendNotice_handed s l m _ _
  · rfl

@[simp] theorem State.settleThreshold_handed : ((s.settleThreshold l).link.get m).handed = (s.link.get m).handed := by
  unfold State.settleThreshold
  split
  · exact s.actOnThreshold_handed l m
  · rfl

@[simp] theorem State.acceptEdge_handed (g : GlitchTest) : ((s.acceptEdge l g).link.get m).handed = (s.link.get m).handed := by
  unfold State.acceptEdge
  split
  case h_1 | h_2 | h_3 => exact State.setFe_sendNotice_handed s l m _ _
  case h_4 | h_5 | h_7 => rfl
  case h_6 => exact s.link.get_set_handed (by rfl) m

@[simp] theorem State.settleTest_handed : ((s.settleTest l).link.get m).handed = (s.link.get m).handed := by
  unfold State.settleTest
  split
  · rfl
  · split
    · exact s.acceptEdge_handed l m _
    · rfl

@[simp] theorem State.catchUp_handed : ((s.catchUp l).link.get m).handed = (s.link.get m).handed := by
  rw [State.catchUp, State.settleThreshold_handed, State.settleTest_handed, State.settleThreshold_handed]

@[simp] theorem State.rejectEdge_handed : ((s.rejectEdge l).link.get m).handed = (s.link.get m).handed := by
  rw [State.rejectEdge, State.settleThreshold_handed, State.setFe_link]

@[simp] theorem State.startTest_handed : ((s.startTest l).link.get m).handed = (s.link.get m).handed := by
  rw [State.startTest, State.settleTest_handed, State.setFe_link]

@[simp] theorem State.rawEdge_handed : ((s.rawEdge l).link.get m).handed = (s.link.get m).handed := by
  unfold State.rawEdge
  split
  case h_1 | h_2 | h_3 => rfl
  case h_4 =>
    split
    · rfl
    · rw [State.startTest_handed, State.setFe_link]
  all_goals
    split
    · rw [State.rejectEdge_handed, State.setFe_link]
    · rw [State.startTest_handed, State.setFe_link]

@[simp] theorem State.thresholdEvent_handed (st : LineState) :
    ((s.thresholdEvent l st).link.get m).handed = (s.link.get m).handed := by
  unfold State.thresholdEvent
  split
  · rfl
  · split
    · exact State.actOnThreshold_handed _ l m
    · rfl

@[simp] theorem State.abortBurst_handed (why : AbortReason) :
    ((s.abortBurst l why).link.get m).handed = (s.link.get m).handed := by
  unfold State.abortBurst
  split
  · exact s.sendNotice_handed l m _
  · rfl

@[simp] theorem State.requestExpiry_handed : ((s.requestExpiry l).link.get m).handed = (s.link.get m).handed :=
  s.link.get_set_handed (by rfl) m

@[simp] theorem State.disableLine_handed : ((s.disableLine l).link.get m).handed = (s.link.get m).handed := by
  rw [State.disableLine, State.requestExpiry_handed, State.setFe_link, State.abortBurst_handed]

@[simp] theorem State.writeControl_handed (v : Byte) : ((State.writeControl l v s).link.get m).handed = (s.link.get m).handed := by
  have hoff : ((if v.getLsbD 0 then s else s.disableLine l).link.get m).handed = (s.link.get m).handed := by
    split
    · rfl
    · simp
  unfold State.writeControl
  dsimp only
  split
  · split
    · exact hoff
    · exact hoff
  · split <;> simp

@[simp] theorem State.takeBlanking_handed : ((s.takeBlanking l).link.get m).handed = (s.link.get m).handed :=
  s.abortBurst_handed l m _

@[simp] theorem State.blankFor_handed (j : Job) : ((s.blankFor j l).link.get m).handed = (s.link.get m).handed := by
  unfold State.blankFor
  split <;> simp

@[simp] theorem State.jobActive_handed (j : Job) (n : Fin 8) :
    ((s.jobActive j n).link.get m).handed = (s.link.get m).handed := by
  simp [State.jobActive, State.beginBurst]

@[simp] theorem State.parkLine_handed (b : Bool) : ((s.parkLine b l).link.get m).handed = (s.link.get m).handed :=
  s.abortBurst_handed l m _

end

end Sys2Proof.Machine
end

