-- ==== Sys2Proof/Proofs/Holders.lean ====
section
/-! PROOF. O56: the laws of the holders of format entries, and of the memories and outcomes that name them. -/

namespace Sys2Proof.Machine

open Sys2Proof (Byte Time Payload Line)
open Sys2Proof.Safety

/-! ### The holder set of an entry -/

theorem heldByDecoder_setHolder_decoder (e : EntryControl) (l m : Line) (b : Bool) :
    heldByDecoder (e.setHolder (.decoder l) b) m = if m = l then b else heldByDecoder e m := by
  cases l <;> cases m <;> rfl

@[simp] theorem heldByDecoder_setHolder_transmitter (e : EntryControl) (l : Line) (b : Bool) :
    heldByDecoder (e.setHolder .transmitter b) l = heldByDecoder e l := by
  cases l <;> rfl

@[simp] theorem EntryControl.setHolder_st (e : EntryControl) (h : Holder) (b : Bool) : (e.setHolder h b).st = e.st := by
  cases h with
  | decoder l => cases l <;> rfl
  | transmitter => rfl

@[simp] theorem EntryControl.setHolder_decoder_transmitter (e : EntryControl) (l : Line) (b : Bool) :
    (e.setHolder (.decoder l) b).transmitter = e.transmitter := by
  cases l <;> rfl

@[simp] theorem EntryControl.setHolder_transmitter (e : EntryControl) (b : Bool) :
    (e.setHolder .transmitter b).transmitter = b := rfl

theorem EntryControl.setHolder_setHolder (e : EntryControl) (h : Holder) (b c : Bool) :
    (e.setHolder h b).setHolder h c = e.setHolder h c := by
  cases h with
  | decoder l => cases l <;> rfl
  | transmitter => rfl

theorem EntryControl.unheld_iff (e : EntryControl) :
    e.unheld = true ↔ (∀ l, heldByDecoder e l = false) ∧ e.transmitter = false := by
  have hlines : (∀ l, heldByDecoder e l = false) ↔ e.decoderA = false ∧ e.decoderB = false :=
    ⟨fun h => ⟨h .A, h .B⟩, fun h l => by cases l; exacts [h.1, h.2]⟩
  simp [EntryControl.unheld, hlines]

/-- A holder that leaves an entry without holders finds none. -/
theorem EntryControl.unheld_setHolder_false {e : EntryControl} (h : e.unheld = true) (x : Holder) :
    (e.setHolder x false).unheld = true := by
  obtain ⟨hdec, htx⟩ := e.unheld_iff.mp h
  refine (EntryControl.unheld_iff _).mpr ?_
  cases x with
  | decoder l => exact ⟨fun m => by rw [heldByDecoder_setHolder_decoder]; split; exacts [rfl, hdec m], by simpa using htx⟩
  | transmitter => exact ⟨fun m => by simpa using hdec m, rfl⟩

@[simp] theorem heldByDecoder_left (e : EntryControl) (h : Holder) (l : Line) :
    heldByDecoder (e.left h) l = heldByDecoder (e.setHolder h false) l := by
  unfold EntryControl.left
  split <;> cases l <;> rfl

@[simp] theorem EntryControl.left_transmitter (e : EntryControl) (h : Holder) :
    (e.left h).transmitter = (e.setHolder h false).transmitter := by
  unfold EntryControl.left
  split <;> rfl

/-- An entry that a holder has left is DISABLED only without holders, and RETIRING only with one. -/
theorem EntryControl.left_lawful {e : EntryControl} (hdis : e.st = .disabled → e.unheld = true) (h : Holder) :
    ((e.left h).st = .disabled → (e.left h).unheld = true) ∧ ((e.left h).st = .retiring → (e.left h).unheld = false) := by
  cases hr : e.retires h with
  | true =>
    rw [EntryControl.left_of_retires hr]
    exact ⟨fun _ => ((e.retires_iff h).mp hr).2, by simp⟩
  | false =>
    rw [EntryControl.left_of_not_retires hr, EntryControl.setHolder_st]
    refine ⟨fun hd => EntryControl.unheld_setHolder_false (hdis hd) h, fun hret => ?_⟩
    exact Bool.eq_false_iff.mpr fun hu => by simp [(e.retires_iff h).mpr ⟨hret, hu⟩] at hr

theorem EntryControl.left_ne_disabled {e : EntryControl} {h : Holder} (hr : e.retires h = false) (hst : e.st ≠ .disabled) :
    (e.left h).st ≠ .disabled := by
  rwa [EntryControl.left_of_not_retires hr, EntryControl.setHolder_st]

theorem EntryControl.left_eq_of_st {e : EntryControl} {h : Holder} (hst : e.st ≠ .retiring) : e.left h = e.setHolder h false :=
  EntryControl.left_of_not_retires (by simp [EntryControl.retires, hst])

/-- The entries after a holder has joined several. -/
theorem State.joinAll_getElem (s : State) (h : Holder) (ns : List (Fin 8)) (m : Fin 8) :
    (ns.foldl (fun s n => s.joinHolder h n) s).entries[m] = if m ∈ ns then s.entries[m].setHolder h true else s.entries[m] := by
  induction ns generalizing s with
  | nil => simp
  | cons n ns ih =>
    rw [List.foldl_cons, ih]
    have hjoin : (s.joinHolder h n).entries[m] = if m = n then s.entries[n].setHolder h true else s.entries[m] :=
      getElem_set_entry _ _ _ _
    by_cases hm : m = n
    · subst hm
      simp only [hjoin, if_true, List.mem_cons, true_or, EntryControl.setHolder_setHolder, ite_self]
    · rw [hjoin, if_neg hm]
      simp only [List.mem_cons, hm, false_or]

/-! ### The entries of candidates and outcomes -/

theorem Candidate.placeHalf_entry {f : Format} {c c' : Candidate} {v : Level} (h : c.placeHalf f v = some c') :
    c'.entry = c.entry := by
  unfold Candidate.placeHalf Candidate.addBit at h
  split at h
  · rw [← Option.some.inj h]
  · split at h
    · cases h
    · split at h
      · split at h
        · cases h
        · rw [← Option.some.inj h]
      · rw [← Option.some.inj h]

theorem Candidate.takePair_entry {f : Format} {c c' : Candidate} {m d : Nat} (h : c.takePair f m d = some c') :
    c'.entry = c.entry := by
  unfold Candidate.takePair Candidate.addBit at h
  split at h
  case h_2 =>
    split at h
    · cases h
    · split at h
      · cases h
      · rw [← Option.some.inj h]
  case h_4 | h_5 => cases h
  all_goals
    split at h
    · rw [← Option.some.inj h]
    · cases h

/-- A candidate stays a candidate of its entry. -/
theorem Candidate.take_entry {f : Format} {c c' : Candidate} {v : Level} {d : Nat} (h : c.take f v d = some c') :
    c'.entry = c.entry := by
  unfold Candidate.take at h
  split at h
  · unfold Candidate.takeCells at h
    split at h
    · exact Candidate.placeHalf_entry h
    · split at h
      · obtain ⟨c₁, h₁, h₂⟩ := Option.bind_eq_some_iff.mp h
        exact (Candidate.placeHalf_entry h₂).trans (Candidate.placeHalf_entry h₁)
      · cases h
  · split at h
    · rw [← Option.some.inj h]
      rfl
    · obtain ⟨m, -, h'⟩ := Option.bind_eq_some_iff.mp h
      exact Candidate.takePair_entry h'

/-- What is left of the candidates names entries of theirs. -/
theorem mem_entries_of_take {s : State} {cs : List Candidate} {v : Level} {d : Nat} {n : Fin 8}
    (h : n ∈ (cs.filterMap fun c => c.take (s.format c.entry) v d).map (·.entry)) : n ∈ cs.map (·.entry) := by
  obtain ⟨c', hc', rfl⟩ := List.mem_map.mp h
  obtain ⟨c, hc, htake⟩ := List.mem_filterMap.mp hc'
  exact List.mem_map.mpr ⟨c, hc, (Candidate.take_entry htake).symm⟩

theorem State.completeFrame_mem {s : State} {cs : List Candidate} {n : Fin 8} {bits : List Bool}
    (h : s.completeFrame cs n = some bits) : n ∈ cs.map (·.entry) := by
  obtain ⟨c, hc, hb⟩ := List.exists_of_findSome?_eq_some h
  split at hb
  · next hn => exact List.mem_map.mpr ⟨c, hc, hn.1⟩
  · cases hb

theorem State.completeRepeat_mem {s : State} {cs : List Candidate} {n : Fin 8} (h : s.completeRepeat cs n = true) :
    n ∈ cs.map (·.entry) := by
  obtain ⟨c, hc, hb⟩ := List.any_eq_true.mp h
  simp only [Bool.and_eq_true, decide_eq_true_eq] at hb
  exact List.mem_map.mpr ⟨c, hc, hb.1.1⟩

/-- The winner of a burst is a candidate's entry (R62). -/
theorem State.burstOutcome_entry {s : State} {l : Line} {d : Decoder} {stop : Time} {n : Fin 8}
    (h : outcomeEntry (s.burstOutcome l d stop) = some n) : n ∈ d.candidates.map (·.entry) := by
  unfold State.burstOutcome at h
  split at h
  · cases h
  · split at h
    · next o ho =>
      obtain ⟨k, -, hk⟩ := List.exists_of_findSome?_eq_some ho
      unfold State.contender at hk
      split at hk
      · next bits hbits =>
        rw [← Option.some.inj hk] at h
        cases h
        exact State.completeFrame_mem hbits
      · split at hk
        · next hr =>
          rw [← Option.some.inj hk] at h
          cases h
          exact State.completeRepeat_mem (Bool.and_eq_true_iff.mp hr).1
        · cases hk
    · split at h <;> cases h

/-- The entries that put forward candidates for a burst are ENABLED (R43). -/
theorem State.enabled_of_candidate {s : State} {l : Line} {n : Fin 8}
    (h : n ∈ (allEntries.flatMap (s.candidatesOf l)).map (·.entry)) : s.entries[n].st = .enabled := by
  obtain ⟨c, hc, rfl⟩ := List.mem_map.mp h
  obtain ⟨k, -, hk⟩ := List.mem_flatMap.mp hc
  unfold State.candidatesOf at hk
  split at hk
  · next hk' =>
    have hce : c.entry = k := by
      rcases List.mem_cons.mp hk with rfl | hr
      · rfl
      · split at hr
        · rw [List.mem_singleton.mp hr]
          rfl
        · cases hr
    rw [hce]
    exact hk'.1
  · cases hk

end Sys2Proof.Machine

namespace Sys2Proof.Safety

open Sys2Proof (Byte Time Payload Line)
open Sys2Proof.Machine

theorem HolderLaw.ne_disabled_of_memory {s : State} (h : HolderLaw s) (l : Line) (m : LastFrame)
    (hm : (s.rep.get l).memory = some m) : s.entries[m.entry].st ≠ .disabled := by
  obtain ⟨-, -, -, -, -, -, hmem, -⟩ := h
  exact hmem l m hm

theorem HolderLaw.candidate_of_outcome {s : State} (h : HolderLaw s) {l : Line} {o : BurstOutcome} {n : Fin 8}
    (ho : (s.link.get l).outcome = some o) (hn : outcomeEntry o = some n) : n ∈ candidateEntries s l := by
  obtain ⟨-, -, -, -, -, -, -, houts⟩ := h
  exact houts l o n ho hn

/-- A state with the same entries, decoders and jobs, whose memories name no other entries and whose outcomes are no new
ones. -/
theorem HolderLaw.of_eq {s t : State} (h : HolderLaw s) (hdec : t.dec = s.dec) (hentries : t.entries = s.entries)
    (hst : t.tx.st = s.tx.st) (hjobs : t.tx.jobs = s.tx.jobs)
    (hmem : ∀ l m, (t.rep.get l).memory = some m → s.entries[m.entry].st ≠ .disabled)
    (hout : ∀ l, (t.link.get l).outcome = none ∨ (t.link.get l).outcome = (s.link.get l).outcome) : HolderLaw t := by
  obtain ⟨hheld, hwait, hactive, htx, hdis, hret, -, houts⟩ := h
  have hnow : jobActiveNow t ↔ jobActiveNow s := by rw [jobActiveNow, jobActiveNow, hst]
  unfold HolderLaw candidateEntries
  rw [hdec, hentries, hjobs, hnow]
  refine ⟨hheld, hwait, hactive, htx, hdis, hret, hmem, fun l o n ho hn => ?_⟩
  rcases hout l with hl | hl
  · simp [hl] at ho
  · exact houts l o n (hl ▸ ho) hn

/-- A state whose entries, decoders, jobs, memories and outcomes are the same. -/
theorem HolderLaw.of_same {s t : State} (h : HolderLaw s) (hdec : t.dec = s.dec) (hentries : t.entries = s.entries)
    (hst : t.tx.st = s.tx.st) (hjobs : t.tx.jobs = s.tx.jobs) (hrep : ∀ l, (t.rep.get l).memory = (s.rep.get l).memory)
    (hout : ∀ l, (t.link.get l).outcome = (s.link.get l).outcome) : HolderLaw t :=
  h.of_eq hdec hentries hst hjobs (fun l m hm => h.ne_disabled_of_memory l m (hrep l ▸ hm)) fun l => .inr (hout l)

/-- The candidates of a decoder become fewer, and it leaves the entries that have lost their last. -/
theorem HolderLaw.shrink {s : State} (h : HolderLaw s) (l : Line) (d : Decoder) (hwait : d.st = .wait → d.candidates = [])
    (hsub : ∀ n ∈ d.candidates.map (·.entry), n ∈ candidateEntries s l)
    (hout : ∀ o n, (s.link.get l).outcome = some o → outcomeEntry o = some n → n ∈ d.candidates.map (·.entry))
    {gone : List (Fin 8)} (hnodup : gone.Nodup)
    (hgone : ∀ n, n ∈ gone ↔ n ∈ candidateEntries s l ∧ n ∉ d.candidates.map (·.entry)) :
    HolderLaw ((s.setDec l d).leaveHolders (.decoder l) gone) := by
  obtain ⟨hheld, hwaits, hactive, htx, hdis, hret, hmem, houts⟩ := h
  generalize ht : (s.setDec l d).leaveHolders (.decoder l) gone = t
  have hentries : ∀ n : Fin 8, t.entries[n] = if n ∈ gone then s.entries[n].left (.decoder l) else s.entries[n] := fun n => by
    rw [← ht, State.leaveHolders_eq _ _ hnodup]
    exact leftEntries_getElem _ hnodup _ n
  have hdec : t.dec = s.dec.set l d := by rw [← ht]; simp
  have htxs : t.tx = s.tx := by rw [← ht]; simp
  have hcands : ∀ x, candidateEntries t x = if x = l then d.candidates.map (·.entry) else candidateEntries s x := fun x => by
    rw [candidateEntries, hdec, PerLine.get_set]
    split <;> rfl
  have hrest : ∀ x, (t.link.get x).outcome = (s.link.get x).outcome := fun x => by
    rw [← ht]
    exact Links.outcome_of_rest_eq (State.leaveHolders_rest _ x _ _)
  have hnow : jobActiveNow t ↔ jobActiveNow s := by rw [jobActiveNow, jobActiveNow, htxs]
  have hlawful : ∀ n : Fin 8, (t.entries[n].st = .disabled → t.entries[n].unheld = true) ∧
      (t.entries[n].st = .retiring → t.entries[n].unheld = false) := fun n => by
    rw [hentries n]
    split
    · exact EntryControl.left_lawful (hdis n) _
    · exact ⟨hdis n, hret n⟩
  refine ⟨fun n x => ?held, fun x hx => ?waits, ?active, fun n => ?tx, fun n => (hlawful n).1, fun n => (hlawful n).2,
    fun x m hm => ?mem, fun x o n ho hn => ?outs⟩
  case held =>
    rw [hcands, hentries]
    by_cases hx : x = l
    · subst hx
      by_cases hn : n ∈ gone
      · simp [-Fin.getElem_fin, hn, heldByDecoder_setHolder_decoder, ((hgone n).mp hn).2]
      · simp only [hn, if_false, if_true, hheld]
        exact ⟨fun hc => by_contra fun hd => hn ((hgone n).mpr ⟨hc, hd⟩), hsub n⟩
    · rw [if_neg hx, ← hheld n x]
      split
      · simp [-Fin.getElem_fin, heldByDecoder_setHolder_decoder, hx]
      · exact Iff.rfl
  case waits =>
    rw [hdec, PerLine.get_set] at hx ⊢
    split at hx
    · next hl => rw [if_pos hl]; exact hwait hx
    · next hl => rw [if_neg hl]; exact hwaits x hx
  case active =>
    rw [hnow, htxs]
    exact hactive
  case tx =>
    rw [hnow, htxs, ← htx n, hentries n]
    split
    · simp [-Fin.getElem_fin]
    · exact Iff.rfl
  case mem =>
    have hkept : (s.rep.get x).memory = some m ∧ (m.entry ∈ gone → s.entries[m.entry].retires (.decoder l) = false) := by
      rw [← ht, State.leaveHolders_eq _ _ hnodup] at hm
      change (((s.setDec l d).clearOf _).rep.get x).memory = some m at hm
      rw [State.clearOf_rep_get] at hm
      split at hm
      · simp at hm
      · next hc =>
        replace hm : (s.rep.get x).memory = some m := hm
        refine ⟨hm, fun hg => ?_⟩
        simpa [-Fin.getElem_fin, State.clearedBy, hm, hg] using hc
    rw [hentries]
    split
    · next hg => exact EntryControl.left_ne_disabled (hkept.2 hg) (hmem x m hkept.1)
    · exact hmem x m hkept.1
  case outs =>
    rw [hrest] at ho
    rw [hcands]
    split
    · next hx => exact hout o n (hx ▸ ho) hn
    · exact houts x o n ho hn

/-! ### The receive path -/

theorem HolderLaw.finishBurst {s : State} (h : HolderLaw s) {l : Line} (hout : (s.link.get l).outcome = none) :
    HolderLaw (s.finishBurst l) :=
  h.shrink l _ (fun _ => rfl) (fun n hn => by simp at hn) (fun o n ho => by simp [hout] at ho) (List.nodup_dedup _)
    fun n => by simp [candidateEntries]

theorem HolderLaw.offerElement {s : State} (h : HolderLaw s) {l : Line} (hout : (s.link.get l).outcome = none) (v : Level)
    (d : Nat) : HolderLaw (s.offerElement l v d) := by
  refine h.shrink l _ (fun hw => ?_) (fun n hn => mem_entries_of_take hn) (fun o n ho => by simp [hout] at ho)
    ((List.nodup_dedup _).filter _) fun n => ?_
  · dsimp only at hw
    split at hw <;> cases hw
  · simp only [List.mem_filter, List.mem_dedup, candidateEntries]
    refine and_congr_right fun _ => ?_
    simp only [Bool.not_eq_true', List.any_eq_false, decide_eq_true_eq, List.mem_map, not_exists, not_and]

theorem HolderLaw.expireMemory {s : State} (h : HolderLaw s) (l : Line) : HolderLaw (s.expireMemory l) := by
  refine h.of_eq (by simp) (by simp) (by simp) (by simp) (fun x m hm => ?_) fun x => .inr ?_
  · rw [State.expireMemory_memory_get] at hm
    split at hm
    · cases hm
    · exact h.ne_disabled_of_memory x m hm
  · exact Links.outcome_of_rest_eq (s.expireMemory_rest l x)

theorem HolderLaw.closeBurst {s : State} (h : HolderLaw s) (l : Line) : HolderLaw (s.closeBurst l) :=
  h.of_same rfl rfl rfl rfl (s.rep.get_set_memory rfl) fun _ => rfl

/-- The entry of a candidate is not DISABLED. -/
theorem HolderLaw.ne_disabled_of_candidate {s : State} (h : HolderLaw s) {l : Line} {n : Fin 8} (hn : n ∈ candidateEntries s l) :
    s.entries[n].st ≠ .disabled := fun hd => by
  obtain ⟨hheld, -, -, -, hdis, -⟩ := h
  simpa [-Fin.getElem_fin, (hheld n l).mpr hn] using ((EntryControl.unheld_iff _).mp (hdis n hd)).1 l

/-- The repeat unit takes an outcome whose entry is not DISABLED. -/
theorem HolderLaw.takeOutcome {s : State} (h : HolderLaw s) (l : Line) (o : BurstOutcome)
    (ho : ∀ n, outcomeEntry o = some n → s.entries[n].st ≠ .disabled) : HolderLaw (s.takeOutcome l o) := by
  have hmem := h.ne_disabled_of_memory
  refine h.of_eq (by simp) (by simp) (by simp) (by simp) (fun x m hm => ?_) fun x => .inr ?_
  · by_cases hx : x = l
    · subst hx
      rcases s.takeOutcome_memory_entry x hm with ⟨m', hm', he⟩ | he
      · simpa only [he] using hmem x m' hm'
      · exact ho _ he
    · rw [State.takeOutcome_rep_ne s hx] at hm
      exact hmem x m hm
  · exact Links.outcome_of_rest_eq (s.takeOutcome_rest l x o)

theorem HolderLaw.takeHandedOutcome {s : State} (h : HolderLaw s) (l : Line) : HolderLaw (s.takeHandedOutcome l) := by
  unfold State.takeHandedOutcome
  split
  · exact h
  · next o ho =>
    have hdropped : HolderLaw (s.setLink l (s.link.get l).dropOutcome) := by
      refine h.of_eq rfl rfl rfl rfl h.ne_disabled_of_memory fun x => ?_
      rw [State.setLink_link, PerLine.get_set]
      split
      · exact .inl rfl
      · exact .inr rfl
    have htaken := hdropped.takeOutcome l o fun n hn => by
      simpa using h.ne_disabled_of_candidate (h.candidate_of_outcome ho hn)
    have hnone : ((((s.setLink l (s.link.get l).dropOutcome).takeOutcome l o).closeBurst l).link.get l).outcome = none := by
      have hrest := State.takeOutcome_rest (s.setLink l (s.link.get l).dropOutcome) l l o
      rw [show (((s.setLink l (s.link.get l).dropOutcome).takeOutcome l o).closeBurst l).link =
        ((s.setLink l (s.link.get l).dropOutcome).takeOutcome l o).link from rfl, Links.outcome_of_rest_eq hrest]
      simp [Links.dropOutcome]
    have hfinished := (htaken.closeBurst l).finishBurst hnone
    dsimp only
    split
    · exact hfinished.expireMemory l
    · exact hfinished

theorem HolderLaw.formCandidates {s : State} (h : HolderLaw s) {l : Line} (hw : (s.dec.get l).st = .wait) (t : Time) :
    HolderLaw (s.formCandidates l t) := by
  obtain ⟨hheld, hwaits, hactive, htx, hdis, hret, hmem, houts⟩ := h
  have hempty : candidateEntries s l = [] := by simp [candidateEntries, hwaits l hw]
  generalize hu : s.formCandidates l t = u
  let cs := allEntries.flatMap (s.candidatesOf l)
  have hentries : ∀ n : Fin 8, u.entries[n] =
      if n ∈ cs.map (·.entry) then s.entries[n].setHolder (.decoder l) true else s.entries[n] := fun n => by
    rw [← hu, State.formCandidates, State.joinAll_getElem]
    simp only [List.mem_dedup, State.setDec_entries]
    rfl
  have hst : ∀ n : Fin 8, u.entries[n].st = s.entries[n].st := fun n => by
    rw [hentries]
    split
    · exact EntryControl.setHolder_st _ _ _
    · rfl
  have hunheld : ∀ n : Fin 8, s.entries[n].st ≠ .enabled → u.entries[n].unheld = s.entries[n].unheld := fun n hn => by
    rw [hentries, if_neg fun hc => hn (State.enabled_of_candidate hc)]
  have hdec : u.dec = s.dec.set l ⟨if cs.isEmpty then .stopped else .active, t, cs⟩ := by
    rw [← hu]
    simp [State.formCandidates, cs]
  have hcands : ∀ x, candidateEntries u x = if x = l then cs.map (·.entry) else candidateEntries s x := fun x => by
    rw [candidateEntries, hdec, PerLine.get_set]
    split <;> rfl
  obtain ⟨hrep, hlink, htxs⟩ : u.rep = s.rep ∧ u.link = s.link ∧ u.tx = s.tx := by
    rw [← hu]
    simp
  have hnow : jobActiveNow u ↔ jobActiveNow s := by rw [jobActiveNow, jobActiveNow, htxs]
  refine ⟨fun n x => ?_, fun x hx => ?_, by rw [hnow, htxs]; exact hactive, fun n => ?_, fun n hd => ?_, fun n hd => ?_,
    fun x m hm => ?_, fun x o n ho hn => ?_⟩
  · rw [hcands, hentries]
    by_cases hx : x = l
    · subst hx
      by_cases hn : n ∈ cs.map (·.entry)
      · simp only [hn, if_true, heldByDecoder_setHolder_decoder]
      · simp only [hn, if_false, if_true, hheld, hempty, List.not_mem_nil]
    · rw [if_neg hx, ← hheld n x]
      split
      · simp [-Fin.getElem_fin, heldByDecoder_setHolder_decoder, hx]
      · exact Iff.rfl
  · rw [hdec, PerLine.get_set] at hx ⊢
    split at hx
    · dsimp only at hx
      split at hx <;> cases hx
    · next hl => rw [if_neg hl]; exact hwaits x hx
  · rw [hnow, htxs, ← htx n, hentries n]
    split
    · simp [-Fin.getElem_fin]
    · exact Iff.rfl
  · rw [hst] at hd
    rw [hunheld n (by simp [-Fin.getElem_fin, hd])]
    exact hdis n hd
  · rw [hst] at hd
    rw [hunheld n (by simp [-Fin.getElem_fin, hd])]
    exact hret n hd
  · rw [hst]
    exact hmem x m (hrep ▸ hm)
  · rw [hlink] at ho
    rw [hcands]
    split
    · next hx =>
      subst hx
      have := houts x o n ho hn
      rw [hempty] at this
      cases this
    · exact houts x o n ho hn

theorem HolderLaw.handOver {s : State} (h : HolderLaw s) (l : Line) (o : BurstOutcome)
    (ho : ∀ n, outcomeEntry o = some n → n ∈ candidateEntries s l) : HolderLaw (s.handOver l o) := by
  obtain ⟨hheld, hwaits, hactive, htx, hdis, hret, hmem, houts⟩ := h
  refine ⟨hheld, hwaits, hactive, htx, hdis, hret, hmem, fun x o' n ho' hn => ?_⟩
  change ((s.link.set l _).get x).outcome = some o' at ho'
  rw [PerLine.get_set] at ho'
  split at ho'
  · next hx =>
    subst hx
    cases ho'
    exact ho n hn
  · exact houts x o' n ho' hn

theorem HolderLaw.actOnNotice {s : State} (h : HolderLaw s) {l : Line} {n : Notice} (hout : (s.link.get l).outcome = none)
    (ha : (s.dec.get l).accepts n = true) : HolderLaw (s.actOnNotice l n) := by
  cases n with
  | burstStart t =>
    have hopen : HolderLaw (s.openBurst l) :=
      h.of_same rfl rfl rfl rfl (s.rep.get_set_memory rfl) fun _ => rfl
    exact hopen.formCandidates (by simpa [Decoder.accepts, State.openBurst] using ha) t
  | element v d =>
    show HolderLaw (if _ then _ else _)
    split
    · exact h.offerElement hout v d
    · exact h
  | burstEnd t => exact h.handOver l _ fun k hk => State.burstOutcome_entry hk
  | burstAbort why => exact h.handOver l _ fun k hk => by cases hk

theorem HolderLaw.entry : KeptByEntry HolderLaw where
  outcome _ l h := h.takeHandedOutcome l
  notice _ _ _ hout ha h := h.actOnNotice hout ha
  noNotices s l h := h.of_same rfl rfl rfl rfl (fun _ => rfl) (s.link.get_set_outcome rfl)
  requests s l h := h.of_same (by simp) (by simp) (by simp) (by simp) (fun x => by simp) fun x =>
    Links.outcome_of_rest_eq (s.takeRequests_rest l x)
  park s b l h := h.of_same (by simp) (by simp) (by simp) (by simp) (fun x => by simp) fun x =>
    Links.outcome_of_handed_eq (s.parkLine_handed l x b)
  quiet s l h := ((h.expireMemory l).closeBurst l).of_same rfl rfl rfl rfl (fun _ => rfl)
    (PerLine.get_set_outcome _ rfl)

/-! ### The transmitter -/

theorem HolderLaw.countBurst {s : State} (h : HolderLaw s) : HolderLaw s.countBurst :=
  h.of_same rfl rfl rfl rfl (fun _ => rfl) fun _ => rfl

/-- The active job ends: the transmitter leaves the entry the job names. -/
theorem HolderLaw.endJob {s : State} (h : HolderLaw s) {j : Job} (hj : s.tx.jobs.head? = some j)
    (st : CompletionStatus) (t : Nat) : HolderLaw (s.endJob j st t) := by
  obtain ⟨hheld, hwaits, hactive, htx, hdis, hret, hmem, houts⟩ := h
  generalize hu : s.endJob j st t = u
  have hdec : u.dec = s.dec := by rw [← hu]; simp
  have hidle : ¬ jobActiveNow u := by
    rw [← hu]
    simp [jobActiveNow]
  have hcands : ∀ x, candidateEntries u x = candidateEntries s x := fun x => by rw [candidateEntries, hdec]; rfl
  suffices hpath : (∀ n : Fin 8, u.entries[n] = if j.entry = some n then s.entries[n].left .transmitter else s.entries[n]) ∧
      (∀ x m, (u.rep.get x).memory = some m → (s.rep.get x).memory = some m ∧
        (j.entry = some m.entry → s.entries[m.entry].retires .transmitter = false)) ∧
      ∀ x, (u.link.get x).outcome = (s.link.get x).outcome by
    obtain ⟨hentries, hmems, hout⟩ := hpath
    have htxs : ∀ n : Fin 8, u.entries[n].transmitter = false := fun n => by
      rw [hentries]
      split
      · simp [-Fin.getElem_fin]
      · next hn =>
        refine Bool.eq_false_iff.mpr fun htrue => hn ?_
        obtain ⟨-, j', hj', hjn⟩ := (htx n).mp htrue
        rw [hj] at hj'
        rw [Option.some.inj hj', hjn]
    have hlawful : ∀ n : Fin 8, (u.entries[n].st = .disabled → u.entries[n].unheld = true) ∧
        (u.entries[n].st = .retiring → u.entries[n].unheld = false) := fun n => by
      rw [hentries n]
      split
      · exact EntryControl.left_lawful (hdis n) _
      · exact ⟨hdis n, hret n⟩
    refine ⟨fun n x => ?_, by rw [hdec]; exact hwaits, fun ha => absurd ha hidle, fun n => ?_, fun n => (hlawful n).1,
      fun n => (hlawful n).2, fun x m hm => ?_, fun x o n ho hn => ?_⟩
    · rw [hcands, ← hheld n x, hentries]
      split
      · simp [-Fin.getElem_fin]
      · exact Iff.rfl
    · rw [htxs]
      exact ⟨fun hf => (Bool.false_ne_true hf).elim, fun ha => absurd ha.1 hidle⟩
    · obtain ⟨hm', hr⟩ := hmems x m hm
      rw [hentries]
      split
      · next hn => exact EntryControl.left_ne_disabled (hr hn) (hmem x m hm')
      · exact hmem x m hm'
    · rw [hcands]
      exact houts x o n (hout x ▸ ho) hn
  obtain ⟨hentries, hrep, hlink, -, -⟩ := s.endJob_receive j st t
  rw [hu] at hentries hrep hlink
  rw [hentries, hrep, hlink]
  cases hn : j.entry with
  | none => simp [State.releaseEntry, hn]
  | some n =>
    have hleave : s.releaseEntry j = s.leaveHolder .transmitter n := by simp [State.releaseEntry, hn]
    rw [hleave]
    refine ⟨fun k => ?_, fun x m hm => ?_, fun x => Links.outcome_of_rest_eq (s.leaveHolder_rest x _ n)⟩
    · rw [State.leaveHolder_eq]
      refine (getElem_set_entry _ _ _ _).trans ?_
      by_cases hk : k = n
      · subst hk
        simp
      · simp [-Fin.getElem_fin, hk, Ne.symm hk]
    · rw [State.leaveHolder_eq] at hm
      change ((s.clearOf _).rep.get x).memory = some m at hm
      rw [State.clearOf_rep_get] at hm
      split at hm
      · simp at hm
      · next hc =>
        refine ⟨hm, fun hnm => ?_⟩
        cases hnm
        simpa [-Fin.getElem_fin, State.memoryNames, hm] using hc

/-- A state in which the transmitter has no active job, with the entries, decoders, memories and outcomes of one in which it had
none either. -/
theorem HolderLaw.of_inactive {s t : State} (h : HolderLaw s) (hs : ¬ jobActiveNow s) (ht : ¬ jobActiveNow t)
    (hdec : t.dec = s.dec) (hentries : t.entries = s.entries) (hrep : t.rep = s.rep) (hlink : t.link = s.link) :
    HolderLaw t := by
  obtain ⟨hheld, hwaits, -, htx, hdis, hret, hmem, houts⟩ := h
  unfold HolderLaw candidateEntries
  rw [hdec, hentries, hrep, hlink]
  refine ⟨hheld, hwaits, fun ha => absurd ha ht, fun n => ?_, hdis, hret, hmem, houts⟩
  rw [htx n]
  exact ⟨fun ha => absurd ha.1 hs, fun ha => absurd ha.1 ht⟩

theorem HolderLaw.jobActive {s : State} (h : HolderLaw s) {j : Job} {n : Fin 8} (hidle : s.tx.st = .idle)
    (hj : s.tx.jobs.head? = some j) (hn : j.entry = some n) (hst : s.entries[n].st = .enabled) :
    HolderLaw (s.jobActive j n) := by
  obtain ⟨hheld, hwaits, -, htx, hdis, hret, hmem, houts⟩ := h
  have hs : ¬ jobActiveNow s := not_jobActiveNow (.inl hidle)
  generalize hu : s.jobActive j n = u
  have hentries : ∀ k : Fin 8, u.entries[k] = if k = n then s.entries[n].setHolder .transmitter true else s.entries[k] :=
    fun k => by
      rw [← hu, ← getElem_set_entry]
      simp [-Fin.getElem_fin, State.jobActive, State.beginBurst]
  have hkst : ∀ k : Fin 8, u.entries[k].st = s.entries[k].st := fun k => by
    rw [hentries]
    split
    · next hk => rw [hk, EntryControl.setHolder_st]
    · rfl
  obtain ⟨hdec, hrep⟩ : u.dec = s.dec ∧ u.rep = s.rep := by
    rw [← hu]
    simp
  have hjobs : u.tx.jobs = s.tx.jobs := by
    rw [← hu]
    simp
  have hout : ∀ x, (u.link.get x).outcome = (s.link.get x).outcome := fun x => by
    rw [← hu]
    exact Links.outcome_of_handed_eq (s.jobActive_handed x j n)
  have hnow : jobActiveNow u := by
    rw [← hu]
    simp [jobActiveNow]
  have hcands : ∀ x, candidateEntries u x = candidateEntries s x := fun x => by rw [candidateEntries, hdec]; rfl
  have hkept : ∀ k : Fin 8, s.entries[k].st ≠ .enabled → u.entries[k] = s.entries[k] := fun k hk => by
    rw [hentries, if_neg fun e => hk (by rw [e]; exact hst)]
  refine ⟨fun k x => ?_, by rw [hdec]; exact hwaits, fun _ => ?_, fun k => ?_, fun k hd => ?_, fun k hd => ?_,
    fun x m hm => ?_, fun x o k ho hk => ?_⟩
  · rw [hcands, ← hheld k x, hentries]
    split
    · next hk => rw [heldByDecoder_setHolder_transmitter, hk]
    · exact Iff.rfl
  · rw [hjobs]
    rintro he
    simp [he] at hj
  · rw [hjobs, hj, hentries]
    have hfree : s.entries[k].transmitter = false := Bool.eq_false_iff.mpr fun ht => hs ((htx k).mp ht).1
    by_cases hk : k = n
    · simp [hk, hnow, hn]
    · simp [-Fin.getElem_fin, hk, hfree, hn, Ne.symm hk]
  · rw [hkst] at hd
    rw [hkept k (by simp [-Fin.getElem_fin, hd])]
    exact hdis k hd
  · rw [hkst] at hd
    rw [hkept k (by simp [-Fin.getElem_fin, hd])]
    exact hret k hd
  · rw [hkst]
    exact hmem x m (hrep ▸ hm)
  · rw [hcands]
    exact houts x o k (hout x ▸ ho) hk

theorem HolderLaw.abortActive {s : State} (h : HolderLaw s) :
    HolderLaw s.abortActive.1 ∧ ¬ jobActiveNow s.abortActive.1 := by
  obtain ⟨-, -, hactive, -⟩ := id h
  generalize hr : s.abortActive = r
  cases hr ▸ s.abortActive_aborted with
  | notActive ha => exact ⟨h, fun hn => hactive hn (ha hn)⟩
  | burst j hst hj => exact ⟨h.countBurst.endJob hj _ _, not_jobActiveNow (.inr (by simp))⟩
  | gap j hst hj => exact ⟨h.endJob hj _ _, not_jobActiveNow (.inr (by simp))⟩

theorem HolderLaw.removeWaiting {s : State} (h : HolderLaw s) (hs : ¬ jobActiveNow s) : HolderLaw s.removeWaiting := by
  rw [State.removeWaiting_eq]
  exact h.of_inactive hs hs rfl rfl rfl rfl

theorem HolderLaw.abortTx {s : State} (h : HolderLaw s) : HolderLaw s.abortTx.1 := by
  obtain ⟨habort, hidle⟩ := h.abortActive
  unfold State.abortTx
  split
  · exact habort
  · split
    · exact habort.removeWaiting hidle
    · exact h

theorem HolderLaw.afterBurst {s : State} (h : HolderLaw s) (hst : s.tx.st = .burst) {j : Job} (hj : s.tx.jobs.head? = some j) :
    HolderLaw (s.afterBurst j) := by
  unfold State.afterBurst
  split
  · obtain ⟨hheld, hwaits, hactive, htx, hdis, hret, hmem, houts⟩ := h
    have hnow : jobActiveNow s := .inl hst
    exact ⟨hheld, hwaits, fun _ => hactive hnow, fun n => (htx n).trans (and_congr_left fun _ =>
      ⟨fun _ => .inr rfl, fun _ => hnow⟩), hdis, hret, hmem, houts⟩
  · exact h.endJob hj _ _

/-- Jobs are added behind the active one. -/
theorem HolderLaw.addJob {s t : State} (h : HolderLaw s) {j : Job} (hdec : t.dec = s.dec) (hentries : t.entries = s.entries)
    (hst : t.tx.st = s.tx.st) (hjobs : t.tx.jobs = s.tx.jobs ++ [j]) (hrep : t.rep = s.rep) (hlink : t.link = s.link) :
    HolderLaw t := by
  obtain ⟨hheld, hwaits, hactive, htx, hdis, hret, hmem, houts⟩ := h
  have hnow : jobActiveNow t ↔ jobActiveNow s := by rw [jobActiveNow, jobActiveNow, hst]
  unfold HolderLaw candidateEntries
  rw [hdec, hentries, hrep, hlink, hjobs, hnow]
  refine ⟨hheld, hwaits, fun _ => by simp, fun n => ?_, hdis, hret, hmem, houts⟩
  rw [htx n]
  refine and_congr_right fun ha => ?_
  rw [List.head?_append_of_ne_nil _ (hactive ha)]

/-! ### ENABLE FORMAT and DISABLE FORMAT -/

/-- The state of an entry changes, its holders stay; a memory that names it is gone when the entry is DISABLED. -/
theorem HolderLaw.setState {s t : State} (h : HolderLaw s) (n : Fin 8) (st : EntryState) (hdec : t.dec = s.dec)
    (hentries : t.entries = s.entries.set n { s.entries[n] with st := st }) (htxs : t.tx = s.tx)
    (hout : ∀ x, (t.link.get x).outcome = (s.link.get x).outcome)
    (hrep : ∀ x m, (t.rep.get x).memory = some m → (s.rep.get x).memory = some m ∧ (st = .disabled → m.entry ≠ n))
    (hd : st = .disabled → s.entries[n].unheld = true) (hr : st = .retiring → s.entries[n].unheld = false) :
    HolderLaw t := by
  obtain ⟨hheld, hwaits, hactive, htx, hdis, hret, hmem, houts⟩ := h
  have hcands : ∀ x, candidateEntries t x = candidateEntries s x := fun x => by rw [candidateEntries, hdec]; rfl
  have hnow : jobActiveNow t ↔ jobActiveNow s := by rw [jobActiveNow, jobActiveNow, htxs]
  have hget : ∀ k : Fin 8, t.entries[k] = if k = n then { s.entries[n] with st := st } else s.entries[k] := fun k => by
    rw [hentries]
    exact getElem_set_entry _ _ _ _
  have hdec' : ∀ (k : Fin 8) x, heldByDecoder t.entries[k] x = heldByDecoder s.entries[k] x := fun k x => by
    rw [hget]
    split
    · next hk => subst hk; cases x <;> rfl
    · rfl
  have htx' : ∀ k : Fin 8, t.entries[k].transmitter = s.entries[k].transmitter := fun k => by
    rw [hget]
    split
    · next hk => subst hk; rfl
    · rfl
  have hunheld : ∀ k : Fin 8, t.entries[k].unheld = s.entries[k].unheld := fun k => by
    rw [Bool.eq_iff_iff, EntryControl.unheld_iff, EntryControl.unheld_iff, htx']
    simp only [hdec']
  have hst : ∀ k : Fin 8, t.entries[k].st = if k = n then st else s.entries[k].st := fun k => by
    rw [hget]
    split <;> rfl
  refine ⟨fun k x => by rw [hcands, hdec', hheld], by rw [hdec]; exact hwaits, by rw [hnow, htxs]; exact hactive,
    fun k => by rw [hnow, htxs, htx', htx], fun k hk => ?_, fun k hk => ?_, fun x m hm => ?_, fun x o k ho hk => ?_⟩
  · rw [hunheld]
    rw [hst] at hk
    split at hk
    · next hkn => subst hkn; exact hd hk
    · exact hdis k hk
  · rw [hunheld]
    rw [hst] at hk
    split at hk
    · next hkn => subst hkn; exact hr hk
    · exact hret k hk
  · obtain ⟨hm', hne⟩ := hrep x m hm
    rw [hst]
    split
    · next hkn => exact fun hdis => hne hdis hkn
    · exact hmem x m hm'
  · rw [hcands]
    exact houts x o k (hout x ▸ ho) hk

theorem HolderLaw.enableFormat {s : State} (h : HolderLaw s) : HolderLaw s.enableFormat.1 := by
  unfold State.enableFormat
  split
  · exact h
  · next n _ =>
    split
    · exact h
    · exact h
    · split
      · exact h.setState n .enabled rfl rfl rfl (fun _ => rfl) (fun _ _ hm => ⟨hm, by simp⟩) (by simp) (by simp)
      · exact h

theorem HolderLaw.disableFormat {s : State} (h : HolderLaw s) : HolderLaw s.disableFormat.1 := by
  unfold State.disableFormat
  split
  · exact h
  · next n _ =>
    split
    · exact h.of_same rfl rfl rfl rfl (fun _ => rfl) fun _ => rfl
    · exact h.of_same rfl rfl rfl rfl (fun _ => rfl) fun _ => rfl
    · split
      · next hu =>
        refine h.setState n .disabled (by simp) (by simp) (by simp) (fun x => ?_) (fun x m hm => ?_) (fun _ => hu) (by simp)
        · show (((s.setEntry n _).clearMemoriesNaming n).link.get x).outcome = _
          rw [State.clearMemoriesNaming_eq]
          exact Links.outcome_of_rest_eq (State.clearOf_rest _ x _)
        · change (((s.setEntry n _).clearMemoriesNaming n).rep.get x).memory = some m at hm
          rw [State.clearMemoriesNaming_eq, State.clearOf_rep_get] at hm
          split at hm
          · cases hm
          · next hc =>
            exact ⟨hm, fun _ he => hc ((State.memoryNames_of_some (s := s) hm n).trans (decide_eq_true he))⟩
      · next hu =>
        exact h.setState n .retiring rfl rfl rfl (fun _ => rfl) (fun _ _ hm => ⟨hm, by simp⟩) (by simp)
          fun _ => Bool.eq_false_iff.mpr hu

/-! ### Every row -/

theorem HolderLaw.carried {c : Instr} {s t : State} (h : HolderLaw s) (ht : Carried c s t) : HolderLaw t := by
  cases ht with
  | enableFormat => exact h.enableFormat
  | disableFormat => exact h.disableFormat
  | submitJob =>
    generalize hr : s.submitJob = r
    cases hr ▸ s.submitJob_submitted with
    | refused => exact h
    | job | replay => exact h.addJob rfl rfl rfl rfl rfl rfl
  | stopTx =>
    generalize hr : s.stopTx = r
    cases hr ▸ s.stopTx_stopped with
    | notActive => exact h
    | burst => exact h.of_same rfl rfl rfl rfl (fun _ => rfl) fun _ => rfl
    | gap j _ hj => exact h.endJob hj _ _
  | abortTx => exact h.abortTx
  | popCompletion =>
    unfold State.popCompletion
    split
    · exact h
    · exact h.of_same rfl rfl rfl rfl (fun _ => rfl) fun _ => rfl
  | enterDormant =>
    unfold State.enterDormant
    split
    · exact h
    · split
      · exact HolderLaw.entry.goDormant _ (fun u c k p n hu => hu.of_same rfl rfl rfl rfl (fun _ => rfl) fun _ => rfl) h
      · exact h
  | _ => exact h.of_same (by simp) (by simp) (by simp) (by simp) (by simp) (by simp)

theorem HolderLaw.delivered {s t : State} (h : HolderLaw s) (ht : Delivered s t) : HolderLaw t := by
  cases ht with
  | absent => exact h
  | notice l n hn =>
    have hout : (s.link.get l).outcome = none := by
      unfold State.decoderNotice State.decoderBusy at hn
      split at hn
      · cases hn
      · next hb => simpa using hb
    unfold State.takeNotice
    split
    · next ha =>
      have hdrop : HolderLaw (s.dropDecoderNotice l) :=
        h.of_same rfl rfl rfl rfl (fun _ => rfl) (s.link.get_set_outcome rfl)
      exact hdrop.actOnNotice ((s.link.get_set_outcome (by rfl) l).trans hout) ha
    · exact h
  | outcome l => exact h.takeHandedOutcome l
  | dueInBurst l _ => exact h.of_same rfl rfl rfl rfl (s.rep.get_set_memory rfl) fun _ => rfl
  | dueOutsideBurst l _ => exact h.expireMemory l
  | expireRequest l n ns _ =>
    have hdrop : HolderLaw (s.setLink l { s.link.get l with
        expireRequests := ns
        oldBursts := max (s.link.get l).oldBursts n }) :=
      h.of_same rfl rfl rfl rfl (fun _ => rfl) (s.link.get_set_outcome rfl)
    exact (hdrop.expireMemory l).closeBurst l
  | post l p =>
    refine h.of_same (by simp) (by simp) (by simp) (by simp) (by simp) fun x => ?_
    obtain ⟨-, -, -, -, hlink, -⟩ := State.takePost_frame _ p
    rw [hlink]
    exact s.link.get_set_outcome (by rfl) x
  | increment l => exact h.of_same rfl rfl rfl rfl (fun _ => rfl) (s.link.get_set_outcome rfl)
  | captureNotice l c => exact h.of_same rfl rfl rfl rfl (fun _ => rfl) (s.link.get_set_outcome rfl)
  | captureElement l v d =>
    refine h.of_same (by simp) (by simp) (by simp) (by simp) (by simp) fun x => ?_
    obtain ⟨-, -, -, -, hlink, -⟩ := State.appendElement_frame _ v d
    rw [hlink]
    exact s.link.get_set_outcome (by rfl) x
  | report l c => exact h.of_same rfl rfl rfl rfl (fun _ => rfl) (s.link.get_set_outcome rfl)
  | offer l o os =>
    refine h.of_same (by simp) (by simp) (by simp) (by simp) (by simp) fun x => ?_
    obtain ⟨-, -, -, -, hlink, -⟩ := State.takeOffer_frame _ l o
    rw [hlink]
    exact s.link.get_set_outcome (by rfl) x

theorem HolderLaw.reset (s : State) (k : ResetKind) (mem : List Host.Cell) : HolderLaw (s.resetTo k mem) := by
  have hempty : ∀ l, candidateEntries (s.resetTo k mem) l = [] := fun l => by cases l <;> rfl
  have hentries : ∀ n : Fin 8, (s.resetTo k mem).entries[n] = EntryControl.reset := fun n => Vector.getElem_replicate _
  have hidle : ¬ jobActiveNow (s.resetTo k mem) := not_jobActiveNow (.inl rfl)
  refine ⟨fun n l => ?_, fun l _ => ?_, fun ha => absurd ha hidle, fun n => ?_, fun n _ => ?_, fun n hn => ?_,
    fun l m hm => ?_, fun l o n ho _ => ?_⟩
  · rw [hempty, hentries]
    cases l <;> simp [heldByDecoder, EntryControl.reset]
  · cases l <;> rfl
  · rw [hentries]
    exact ⟨fun hf => (Bool.false_ne_true hf).elim, fun ha => absurd ha.1 hidle⟩
  · rw [hentries]
    rfl
  · rw [hentries] at hn
    cases hn
  · cases l <;> cases hm
  · cases l <;> cases ho

theorem HolderLaw.reached {c : Instr} {s t : State} (h : HolderLaw s) (ht : Reached c s t) : HolderLaw t := by
  cases ht with
  | reset k mem => exact .reset s k mem
  | stored _ _ _ ht =>
    cases ht with
    | control l v =>
      exact h.of_same (by simp) (by simp) (by simp) (by simp) (by simp) fun x =>
        Links.outcome_of_handed_eq (s.writeControl_handed l x v)
    | guardTime | staging => exact h.of_same rfl rfl rfl rfl (fun _ => rfl) fun _ => rfl
    | _ => exact h.of_same (by simp) (by simp) (by simp) (by simp) (by simp) (by simp)
  | carried _ _ _ _ ht => exact (h.carried ht).of_same rfl rfl rfl rfl (fun _ => rfl) fun _ => rfl
  | delivered _ ht => exact h.delivered ht
  | accepted l g _ =>
    exact h.of_same (by simp) (by simp) (by simp) (by simp) (by simp) fun x =>
      Links.outcome_of_handed_eq (State.acceptEdge_handed _ l x g)
  | threshold l st =>
    exact h.of_same (by simp) (by simp) (by simp) (by simp) (by simp) fun x =>
      Links.outcome_of_handed_eq (s.thresholdEvent_handed l x st)
  | edge l dt =>
    exact h.of_same (by simp) (by simp) (by simp) (by simp) (by simp) fun x =>
      Links.outcome_of_handed_eq (by simp)
  | tick => exact h.of_same (by simp) (by simp) (by simp) (by simp) (by simp) (by simp)
  | jobUnavailable j hm hj =>
    have hidle := (s.mayStart_iff.mp hm).1
    refine h.of_inactive (not_jobActiveNow (.inl hidle)) (not_jobActiveNow (.inl ?_)) (by simp) (by simp) (by simp) (by simp)
    simpa using hidle
  | jobActive j n hm hj hn hst => exact h.jobActive (s.mayStart_iff.mp hm).1 hj hn hst
  | burstEnded j hst hj =>
    exact HolderLaw.afterBurst (s := (s.reachInstant _).countBurst) (h.of_same rfl rfl rfl rfl (fun _ => rfl) fun _ => rfl) hst hj
  | nextBurst j hst =>
    obtain ⟨hheld, hwaits, hactive, htx, hdis, hret, hmem, houts⟩ := h
    have hnow : jobActiveNow s := .inr hst
    exact ⟨hheld, hwaits, fun _ => hactive hnow, fun n => (htx n).trans (and_congr_left fun _ =>
      ⟨fun _ => .inl rfl, fun _ => hnow⟩), hdis, hret, hmem, houts⟩
  | tailEnded hst =>
    exact h.of_inactive (not_jobActiveNow (.inr hst)) (not_jobActiveNow (.inl rfl)) rfl rfl rfl rfl
  | wakeEdge l k =>
    refine h.of_same (by simp) (by simp) (by simp) (by simp) (by simp) fun x => ?_
    obtain ⟨-, -, -, hlink, -⟩ := State.wakeByEdge_frame _ l
    rw [hlink]
    exact s.link.get_set_outcome (by rfl) x
  | wakeEdgeDropped l k => exact h.of_same rfl rfl rfl rfl (fun _ => rfl) (s.link.get_set_outcome rfl)
  | _ => exact h.of_same (by simp) (by simp) (by simp) (by simp) (by simp) (by simp)

end Sys2Proof.Safety

open Sys2Proof Sys2Proof.Machine Sys2Proof.Safety

/-- Settles O56: row by row. -/
theorem holderLawIsKept : Obligations.HolderLawIsKept :=
  keptByEveryStep_of_reached (fun _ _ h => h) (fun _ h => h) fun _ _ _ h ht => h.reached ht
end

