-- ==== Sys2Proof/Proofs/QueuePath.lean ====
section
/-! SUPPORT. The path to the receive queue. What every part of it keeps, a whole row keeps: a property of the queue, the
memories and the requests is checked for the parts once, and read off for deliveries, retirements and the entry to DORMANT. -/

namespace Sys2Proof.Machine

open Sys2Proof (Byte Time Payload Line)

/-- A property of the receive queue, the memories and the requests that each part of the repeat units' work keeps. -/
structure KeptByRepeat (P : State → Prop) : Prop where
  same : ∀ {s t : State}, P s → t.rq = s.rq → (∀ l, (t.rep.get l).memory = (s.rep.get l).memory) →
    (∀ l, (t.link.get l).posts = (s.link.get l).posts) → t.clock.time = s.clock.time → P t
  clear : ∀ s l, P s → P (s.clearMemory l)
  release : ∀ s l m, (s.rep.get l).memory = some m → P s → P (s.postRelease l m)
  count : ∀ s l m o, (s.rep.get l).memory = some m → P s → P (s.countRepeat l m o)
  check : ∀ s l n bits p start, P s → P (s.sendPost l ⟨frameRecord l n bits p true start, false, false⟩)
  newFrame : ∀ s l n bits p start stop, P s → P (s.newFrame l n bits p start stop)
  requests : ∀ s l, P s → P (s.takeRequests l)
  post : ∀ s l p, s.oldestPost l = some p → P s → P ((s.dropRequest l fun p => !s.isIncrement l p).takePost p)
  increment : ∀ s l p, s.oldestIncrement l = some p → P s → P ((s.dropRequest l fun p => s.isIncrement l p).takeIncrement l)

theorem PerLine.get_set_posts (p : PerLine Links) {l : Line} {k : Links} (h : k.posts = (p.get l).posts) (m : Line) :
    ((p.set l k).get m).posts = (p.get m).posts := by
  by_cases hm : m = l
  · rw [hm, PerLine.get_set_same, h]
  · rw [PerLine.get_set_ne p k hm]

theorem Links.posts_of_handed_eq {k k' : Links} (h : k.handed = k'.handed) : k.posts = k'.posts :=
  (Links.eqs_of_handed_eq h).2.2

section
variable {P : State → Prop} (hP : KeptByRepeat P)
include hP

theorem KeptByRepeat.expireMemory {s : State} (l : Line) (hs : P s) : P (s.expireMemory l) := by
  unfold State.expireMemory
  split
  · exact hs
  · next m hm => exact hP.clear _ l (hP.release s l m hm hs)

theorem KeptByRepeat.clearOf {s : State} (p : Line → Bool) (hs : P s) : P (s.clearOf p) := by
  have hA : P (if p .A then s.clearMemory .A else s) := by
    split
    · exact hP.clear s .A hs
    · exact hs
  unfold State.clearOf
  split
  · exact hP.clear _ .B hA
  · exact hA

theorem KeptByRepeat.leaveHolder {s : State} (h : Holder) (n : Fin 8) (hs : P s) : P (s.leaveHolder h n) := by
  rw [State.leaveHolder_eq]
  exact hP.same (hP.clearOf _ hs) rfl (fun _ => rfl) (fun _ => rfl) rfl

theorem KeptByRepeat.leaveHolders {s : State} (h : Holder) (ns : List (Fin 8)) (hs : P s) : P (s.leaveHolders h ns) := by
  unfold State.leaveHolders
  induction ns generalizing s with
  | nil => exact hs
  | cons n ns ih => exact ih (hP.leaveHolder h n hs)

theorem KeptByRepeat.finishBurst {s : State} (l : Line) (hs : P s) : P (s.finishBurst l) :=
  hP.leaveHolders _ _ (hP.same hs rfl (fun _ => rfl) (fun _ => rfl) rfl)

theorem KeptByRepeat.takeOther {s : State} (l : Line) (o : BurstOutcome) (hs : P s) : P (s.takeOther l o) := by
  cases o with
  | frame n bits p failed start stop =>
    cases failed with
    | false => exact hP.newFrame s l n bits p start stop hs
    | true => exact hP.check s l n bits p start hs
  | repeated | orphan | unmatched | aborted => exact hs

theorem KeptByRepeat.takeOutcome {s : State} (l : Line) (o : BurstOutcome) (hs : P s) : P (s.takeOutcome l o) := by
  unfold State.takeOutcome
  split
  · next m hm => exact hP.count s l m o (Option.filter_eq_some_iff.mp hm).1 hs
  · refine hP.takeOther l o ?_
    split
    · exact hP.expireMemory l hs
    · exact hs

theorem KeptByRepeat.closeBurst {s : State} (l : Line) (hs : P s) : P (s.closeBurst l) :=
  hP.same hs rfl (s.rep.get_set_memory rfl) (fun _ => rfl) rfl

theorem KeptByRepeat.takeHandedOutcome {s : State} (l : Line) (hs : P s) : P (s.takeHandedOutcome l) := by
  unfold State.takeHandedOutcome
  split
  · exact hs
  · next o _ =>
    have hdropped : P (s.setLink l (s.link.get l).dropOutcome) :=
      hP.same hs rfl (fun _ => rfl) (s.link.get_set_posts rfl) rfl
    have hfinished := hP.finishBurst l (hP.closeBurst l (hP.takeOutcome l o hdropped))
    dsimp only
    split
    · exact hP.expireMemory l hfinished
    · exact hfinished

theorem KeptByRepeat.actOnNotice {s : State} (l : Line) (n : Notice) (hs : P s) : P (s.actOnNotice l n) := by
  cases n with
  | burstStart t =>
    have hopened : P (s.openBurst l) := hP.same hs rfl (s.rep.get_set_memory rfl) (fun _ => rfl) rfl
    show P ((s.openBurst l).formCandidates l t)
    exact hP.same hopened (by simp) (by simp) (by simp) (by simp)
  | element v d =>
    show P (if _ then _ else _)
    split
    · exact hP.leaveHolders _ _ (hP.same hs rfl (fun _ => rfl) (fun _ => rfl) rfl)
    · exact hs
  | burstEnd t => exact hP.same hs rfl (fun _ => rfl) (s.link.get_set_posts rfl) rfl
  | burstAbort why => exact hP.same hs rfl (fun _ => rfl) (s.link.get_set_posts rfl) rfl

theorem KeptByRepeat.entry : KeptByEntry P where
  outcome _ l hs := hP.takeHandedOutcome l hs
  notice _ l n _ _ hs := hP.actOnNotice l n hs
  noNotices s _ hs := hP.same hs rfl (fun _ => rfl) (s.link.get_set_posts rfl) rfl
  requests s l hs := hP.requests s l hs
  park s b l hs := hP.same hs (by simp) (by simp) (fun x => Links.posts_of_handed_eq (s.parkLine_handed l x b)) (by simp)
  quiet _ l hs := hP.same (hP.closeBurst l (hP.expireMemory l hs)) rfl (fun _ => rfl) (PerLine.get_set_posts _ rfl) rfl

theorem KeptByRepeat.goDormant {s : State} (mask : Byte) (hs : P s) : P (s.goDormant mask) := by
  rw [State.goDormant_eq]
  exact hP.same (hP.entry.quieted mask hs) rfl (fun _ => rfl) (fun _ => rfl) rfl

theorem KeptByRepeat.enterDormant {s : State} (hs : P s) : P s.enterDormant.1 := by
  unfold State.enterDormant
  split
  · exact hs
  · split
    · exact hP.goDormant _ hs
    · exact hs

theorem KeptByRepeat.delivered {s t : State} (h : Delivered s t) (hs : P s) : P t := by
  cases h with
  | absent => exact hs
  | notice l n _ =>
    unfold State.takeNotice
    split
    · exact hP.actOnNotice l n (hP.same hs rfl (fun _ => rfl) (s.link.get_set_posts rfl) rfl)
    · exact hs
  | outcome l => exact hP.takeHandedOutcome l hs
  | dueInBurst l _ => exact hP.same hs rfl (s.rep.get_set_memory rfl) (fun _ => rfl) rfl
  | dueOutsideBurst l _ => exact hP.expireMemory l hs
  | expireRequest l n ns _ =>
    exact hP.closeBurst l (hP.expireMemory l (hP.same hs rfl (fun _ => rfl) (s.link.get_set_posts rfl) rfl))
  | post l p h => exact hP.post s l p h hs
  | increment l p h => exact hP.increment s l p h hs
  | captureNotice l c => exact hP.same hs rfl (fun _ => rfl) (s.link.get_set_posts rfl) rfl
  | captureElement l v d =>
    have hdropped : P (s.dropCaptureNotice l) := hP.same hs rfl (fun _ => rfl) (s.link.get_set_posts rfl) rfl
    exact hP.same hdropped (by simp) (by simp) (by simp) (by simp)
  | report l c => exact hP.same hs rfl (fun _ => rfl) (s.link.get_set_posts rfl) rfl
  | offer l o os =>
    have hdropped : P (s.setLink l { s.link.get l with offers := os }) :=
      hP.same hs rfl (fun _ => rfl) (s.link.get_set_posts rfl) rfl
    exact hP.same hdropped (by simp) (by simp) (by simp) (by simp)

theorem KeptByRepeat.endJob {s : State} (j : Job) (st : CompletionStatus) (t : Nat) (hs : P s) : P (s.endJob j st t) := by
  have hrelease : P (s.releaseEntry j) := by
    unfold State.releaseEntry
    split
    · exact hs
    · exact hP.leaveHolder _ _ hs
  obtain ⟨-, hrep, hlink, hrq, -⟩ := s.endJob_receive j st t
  exact hP.same hrelease hrq (fun l => by rw [hrep]) (fun l => by rw [hlink]) (by simp)

theorem KeptByRepeat.countBurst {s : State} (hs : P s) : P s.countBurst := hP.same hs rfl (fun _ => rfl) (fun _ => rfl) rfl

theorem KeptByRepeat.afterBurst {s : State} (j : Job) (hs : P s) : P (s.afterBurst j) := by
  unfold State.afterBurst
  split
  · exact hP.same hs rfl (fun _ => rfl) (fun _ => rfl) rfl
  · exact hP.endJob j _ _ hs

theorem KeptByRepeat.stopTx {s : State} (hs : P s) : P s.stopTx.1 := by
  generalize hr : s.stopTx = r
  cases hr ▸ s.stopTx_stopped with
  | notActive => exact hs
  | burst => exact hP.same hs rfl (fun _ => rfl) (fun _ => rfl) rfl
  | gap j _ _ => exact hP.endJob j _ _ hs

theorem KeptByRepeat.abortTx {s : State} (hs : P s) : P s.abortTx.1 := by
  have habort : P s.abortActive.1 := by
    generalize hr : s.abortActive = r
    cases hr ▸ s.abortActive_aborted with
    | notActive => exact hs
    | burst j _ _ => exact hP.endJob j _ _ (hP.countBurst hs)
    | gap j _ _ => exact hP.endJob j _ _ hs
  unfold State.abortTx
  split
  · exact habort
  · split
    · rw [State.removeWaiting_eq]
      exact hP.same habort rfl (fun _ => rfl) (fun _ => rfl) rfl
    · exact hs

theorem KeptByRepeat.disableFormat {s : State} (hs : P s) : P s.disableFormat.1 := by
  unfold State.disableFormat
  split
  · exact hs
  · next n _ =>
    split
    · exact hP.same hs rfl (fun _ => rfl) (fun _ => rfl) rfl
    · exact hP.same hs rfl (fun _ => rfl) (fun _ => rfl) rfl
    · split
      · rw [State.clearMemoriesNaming_eq]
        have hset : P (s.setEntry n { s.entries[n] with st := .disabled }) :=
          hP.same hs rfl (fun _ => rfl) (fun _ => rfl) rfl
        exact hP.same (hP.clearOf _ hset) rfl (fun _ => rfl) (fun _ => rfl) rfl
      · exact hP.same hs rfl (fun _ => rfl) (fun _ => rfl) rfl

end

/-- A property that the host's work on the receive queue, and the clock, keep as well. -/
structure KeptByQueue (P : State → Prop) : Prop extends KeptByRepeat P where
  time : ∀ s k, P s → P { s with clock := k }
  hold : ∀ s, P s → P { s with rq := s.rq.hold }
  pop : ∀ s, P s → P s.popRecord.1
  flush : ∀ s, P s → P s.flushRecords.1
  watermark : ∀ v s, P s → P (State.writeWatermark v s)
  reset : ∀ s k mem, P (State.resetTo s k mem)

section
variable {P : State → Prop} (hP : KeptByQueue P)
include hP

theorem KeptByQueue.sameBut {s t : State} (hs : P s) (hrq : t.rq = s.rq) (hrep : ∀ l, (t.rep.get l).memory = (s.rep.get l).memory)
    (hlink : ∀ l, (t.link.get l).posts = (s.link.get l).posts) : P t :=
  hP.same (hP.time s t.clock hs) hrq hrep hlink rfl

theorem KeptByQueue.carried {c : Instr} {s t : State} (h : Carried c s t) (hs : P s) : P t := by
  cases h with
  | disableFormat => exact hP.disableFormat hs
  | popRecord => exact hP.pop s hs
  | flushRecords => exact hP.flush s hs
  | submitJob =>
    generalize hr : s.submitJob = r
    cases hr ▸ s.submitJob_submitted with
    | refused => exact hs
    | job | replay => exact hP.sameBut hs rfl (fun _ => rfl) (fun _ => rfl)
  | stopTx => exact hP.stopTx hs
  | abortTx => exact hP.abortTx hs
  | enterDormant => exact hP.enterDormant hs
  | _ => exact hP.sameBut hs (by simp) (by simp) (by simp)

theorem KeptByQueue.stored {c : Instr} {s t : State} (h : Stored c s t) (hs : P s) : P t := by
  cases h with
  | control l v =>
    exact hP.sameBut hs (by simp) (by simp) (fun x => Links.posts_of_handed_eq (s.writeControl_handed l x v))
  | watermark v => exact hP.watermark v s hs
  | _ => exact hP.sameBut hs (by simp) (by simp) (by simp)

/-- What the parts keep, every row keeps. -/
theorem KeptByQueue.reached {c : Instr} {s t : State} (h : Reached c s t) (hs : P s) : P t := by
  cases h with
  | reset k mem => exact hP.reset s k mem
  | stored _ _ _ h => exact hP.stored h hs
  | carried _ _ _ _ h => exact hP.sameBut (hP.carried h hs) rfl (fun _ => rfl) (fun _ => rfl)
  | headRead v => exact hP.sameBut (hP.hold s hs) rfl (fun _ => rfl) (fun _ => rfl)
  | delivered _ h => exact hP.delivered h hs
  | accepted l g _ =>
    exact hP.sameBut hs (by simp) (by simp) (fun x => Links.posts_of_handed_eq (State.acceptEdge_handed _ l x g))
  | threshold l st =>
    exact hP.sameBut hs (by simp) (by simp) (fun x => Links.posts_of_handed_eq (s.thresholdEvent_handed l x st))
  | edge l dt => exact hP.sameBut hs (by simp) (by simp) (fun x => Links.posts_of_handed_eq (by simp))
  | jobActive j n =>
    exact hP.sameBut hs (by simp) (by simp) (fun x => Links.posts_of_handed_eq (s.jobActive_handed x j n))
  | burstEnded j => exact hP.afterBurst j (hP.countBurst (hP.sameBut hs rfl (fun _ => rfl) (fun _ => rfl)))
  | wakeEdge l k =>
    have hdropped : P (s.setLink l { s.link.get l with wakeEdges := k }) :=
      hP.sameBut hs rfl (fun _ => rfl) (s.link.get_set_posts rfl)
    exact hP.sameBut hdropped (by simp) (by simp) (by simp)
  | wakeEdgeDropped l k => exact hP.sameBut hs rfl (fun _ => rfl) (s.link.get_set_posts rfl)
  | _ => exact hP.sameBut hs (by simp) (by simp) (by simp)

theorem KeptByQueue.everyStep : Safety.KeptByEveryStep P :=
  keptByEveryStep_of_reached (fun _ _ h => hP.sameBut h rfl (fun _ => rfl) (fun _ => rfl))
    (fun _ h => hP.sameBut h rfl (fun _ => rfl) (fun _ => rfl)) fun _ _ _ h ht => hP.reached ht h

end

end Sys2Proof.Machine
end

