-- ==== Sys2Proof/Proofs/QueueBounds.lean ====
section
/-! PROOF. O54: the bounds of the receive queue. -/

namespace Sys2Proof.Machine

open Sys2Proof (Byte Time Payload Line)
open Sys2Proof.Safety

/-- The bounds of a record (R90). -/
def Record.bounded (r : Record) : Prop := r.repeats ≤ 255 ∧ r.lost ≤ 15

theorem Record.bounded_markLoss {r : Record} (h : r.bounded) : r.markLoss.bounded := ⟨h.1, Nat.min_le_left _ _⟩

theorem Record.bounded_release {r : Record} (h : r.bounded) (l : Line) (k : Nat) : (r.release l k).bounded := by
  unfold Record.release
  split
  · exact ⟨Nat.min_le_left _ _, h.2⟩
  · exact h

theorem bounded_of_mem_markNewest {rs : List Record} (h : ∀ r ∈ rs, r.bounded) : ∀ r ∈ markNewest rs, r.bounded := by
  rcases List.eq_nil_or_concat rs with rfl | ⟨older, newest, rfl⟩
  · exact h
  · intro r hr
    rw [List.concat_eq_append] at h hr
    rw [markNewest_append] at hr
    rcases List.mem_append.mp hr with hr | hr
    · exact h r (List.mem_append_left _ hr)
    · rw [List.mem_singleton.mp hr]
      exact Record.bounded_markLoss (h newest (by simp))

/-- The records of a queue within their bounds (R90, R99, R106). -/
def ReceiveQueue.bounded (q : ReceiveQueue) : Prop :=
  q.records.length ≤ 16 ∧ 1 ≤ q.watermark ∧ q.watermark ≤ 16 ∧ (∀ r ∈ q.records, r.bounded) ∧
    (q.held = true → q.records ≠ [])

/-- A queue whose records have been changed in place, within their bounds. -/
theorem ReceiveQueue.bounded.map {q : ReceiveQueue} (h : q.bounded) {f : Record → Record}
    (hf : ∀ r, r.bounded → (f r).bounded) : ReceiveQueue.bounded { q with records := q.records.map f } := by
  obtain ⟨hlen, hlo, hhi, hrec, hheld⟩ := h
  refine ⟨by simpa using hlen, hlo, hhi, fun r hr => ?_, fun hd => by simpa using hheld hd⟩
  obtain ⟨r', hr', rfl⟩ := List.mem_map.mp hr
  exact hf r' (hrec r' hr')

theorem ReceiveQueue.bounded.countRepeats {q : ReceiveQueue} (h : q.bounded) (l : Line) (k : Nat) :
    (q.countRepeats l k).bounded := by
  refine h.map fun r hr => ?_
  split
  · exact ⟨Nat.min_le_left _ _, hr.2⟩
  · exact hr

/-- A post that the queue takes keeps its bounds. -/
theorem State.takePost_bounded {s : State} (h : s.rq.bounded) {p : Post} (hp : p.record.bounded) : (s.takePost p).rq.bounded := by
  obtain ⟨hlen, hlo, hhi, hrec, hheld⟩ := h
  unfold State.takePost
  split
  · next hroom =>
    refine ⟨by rw [List.length_append]; exact hroom, hlo, hhi, fun r hr => ?_, fun _ => by simp⟩
    rcases List.mem_append.mp hr with hr | hr
    · exact hrec r hr
    · rw [List.mem_singleton.mp hr]
      exact hp
  · refine ⟨by simpa using hlen, hlo, hhi, bounded_of_mem_markNewest hrec, fun hd hn => hheld hd ?_⟩
    have hlength : (markNewest s.rq.records).length = 0 := List.length_eq_zero_iff.mpr hn
    rwa [markNewest_length, List.length_eq_zero_iff] at hlength

theorem State.takeRequest_bounded {s : State} (h : s.rq.bounded) (l : Line) {p : Post} (hp : p.record.bounded) :
    (s.takeRequest l p).rq.bounded := by
  unfold State.takeRequest
  split
  · exact h.countRepeats l 1
  · exact State.takePost_bounded h hp

theorem State.takeRequestAll_bounded {s : State} (h : s.rq.bounded) (l : Line) {ps : List Post}
    (hps : ∀ p ∈ ps, p.record.bounded) : (ps.foldl (fun s p => s.takeRequest l p) s).rq.bounded := by
  induction ps generalizing s with
  | nil => exact h
  | cons p ps ih =>
    exact ih (State.takeRequest_bounded h l (hps p List.mem_cons_self)) fun q hq => hps q (List.mem_cons_of_mem _ hq)

/-! ### The law, part by part -/

theorem queueLaw_iff (s : State) :
    QueueLaw s ↔ s.rq.bounded ∧ ∀ l : Line, (∀ p ∈ (s.link.get l).posts, p.record.bounded) ∧
      ∀ m, (s.rep.get l).memory = some m → m.repeats ≤ 255 := by
  simp only [QueueLaw, ReceiveQueue.bounded, Record.bounded, and_assoc]

/-- The requests and the memory of line `l` alone have changed, within their bounds. -/
theorem queueLaw_of_line {s t : State} (h : QueueLaw s) (l : Line) (hrq : t.rq.bounded)
    (hother : ∀ x, x ≠ l → t.link.get x = s.link.get x ∧ t.rep.get x = s.rep.get x)
    (hposts : ∀ p ∈ (t.link.get l).posts, p.record.bounded)
    (hmem : ∀ m, (t.rep.get l).memory = some m → m.repeats ≤ 255) : QueueLaw t := by
  refine (queueLaw_iff t).mpr ⟨hrq, fun x => ?_⟩
  by_cases hx : x = l
  · subst hx
    exact ⟨hposts, hmem⟩
  · obtain ⟨hlink, hrep⟩ := hother x hx
    rw [hlink, hrep]
    exact ((queueLaw_iff s).mp h).2 x

end Sys2Proof.Machine

namespace Sys2Proof.Safety

open Sys2Proof (Byte Time Payload Line)
open Sys2Proof.Machine

section
variable {s : State} (h : QueueLaw s)
include h

theorem QueueLaw.bounded : s.rq.bounded := ((queueLaw_iff s).mp h).1

theorem QueueLaw.posts (l : Line) : ∀ p ∈ (s.link.get l).posts, p.record.bounded := (((queueLaw_iff s).mp h).2 l).1

theorem QueueLaw.memory (l : Line) : ∀ m, (s.rep.get l).memory = some m → m.repeats ≤ 255 := (((queueLaw_iff s).mp h).2 l).2

theorem QueueLaw.sendPost (l : Line) {p : Post} (hp : p.record.bounded) : QueueLaw (s.sendPost l p) := by
  refine queueLaw_of_line h l h.bounded (fun x hx => ⟨PerLine.get_set_ne _ _ hx, rfl⟩) (fun q hq => ?_) (h.memory l)
  simp only [State.sendPost_link, PerLine.get_set_same, List.mem_append, List.mem_singleton] at hq
  rcases hq with hq | rfl
  · exact h.posts l q hq
  · exact hp

theorem QueueLaw.setMemory (l : Line) {m : LastFrame} (hm : m.repeats ≤ 255) : QueueLaw (s.setMemory l m) := by
  refine queueLaw_of_line h l h.bounded (fun x hx => ⟨rfl, PerLine.get_set_ne _ _ hx⟩) (h.posts l) fun m' hm' => ?_
  simp only [State.setMemory, State.setRep_rep, PerLine.get_set_same, Option.some.injEq] at hm'
  exact hm' ▸ hm

theorem QueueLaw.clearMemory (l : Line) : QueueLaw (s.clearMemory l) := by
  rw [State.clearMemory_eq]
  refine queueLaw_of_line h l (h.bounded.map fun r hr => Record.bounded_release hr l _)
    (fun x hx => ⟨PerLine.get_set_ne _ _ hx, PerLine.get_set_ne _ _ hx⟩) (fun p hp => ?_) fun m hm => ?_
  · simp only [PerLine.get_set_same, Links.forget, List.mem_map] at hp
    obtain ⟨q, hq, rfl⟩ := hp
    refine h.posts l q ?_
    split at hq
    · exact List.mem_of_mem_filter hq
    · exact hq
  · simp at hm

/-- The dropping of a reference, which is the clearing of the memory but for the memory. -/
theorem QueueLaw.dropReference (l : Line) : QueueLaw (s.dropReference l) := by
  have hclear := h.clearMemory l
  refine queueLaw_of_line hclear l ?_ (fun x hx => ⟨?_, ?_⟩) ?_ ?_
  · rw [← State.clearMemory_rq]
    exact hclear.bounded
  · rw [State.clearMemory_link]
  · rw [State.clearMemory_rep, PerLine.get_set_ne _ _ hx]
    simp
  · rw [← State.clearMemory_link]
    exact hclear.posts l
  · simpa using h.memory l

theorem QueueLaw.releaseOld (l : Line) : QueueLaw (s.releaseOld l) := by
  unfold State.releaseOld State.postRelease
  split
  · exact h
  · next m hm =>
    split
    · exact h.sendPost l ⟨h.memory l m hm, Nat.zero_le _⟩
    · exact h

theorem QueueLaw.takeRequests (l : Line) : QueueLaw (s.takeRequests l) := by
  refine queueLaw_of_line h l ?_ (fun x hx => ⟨by rw [State.takeRequests_link, PerLine.get_set_ne _ _ hx], by simp⟩)
    (by simp) (by simpa using h.memory l)
  exact State.takeRequestAll_bounded (s := s.setLink l _) h.bounded l (h.posts l)

theorem QueueLaw.dropRequest (l : Line) (which : Post → Bool) : QueueLaw (s.dropRequest l which) := by
  refine queueLaw_of_line h l h.bounded (fun x hx => ⟨PerLine.get_set_ne _ _ hx, rfl⟩) (fun q hq => ?_) (h.memory l)
  simp only [State.dropRequest, State.setLink_link, PerLine.get_set_same] at hq
  exact h.posts l q (List.mem_of_mem_eraseP hq)

/-- Another queue within its bounds. -/
theorem QueueLaw.withQueue {t : State} (hrq : t.rq.bounded) (hlink : t.link = s.link) (hrep : t.rep = s.rep) : QueueLaw t :=
  queueLaw_of_line h .A hrq (fun x _ => by rw [hlink, hrep]; exact ⟨rfl, rfl⟩) (by rw [hlink]; exact h.posts .A)
    (by rw [hrep]; exact h.memory .A)

end

theorem QueueLaw.kept : KeptByQueue QueueLaw where
  same h hrq hmem hposts _ := by
    rw [queueLaw_iff] at h ⊢
    simpa only [hrq, hmem, hposts] using h
  clear _ l h := h.clearMemory l
  release s l m hm h := by
    unfold State.postRelease
    split
    · exact h.sendPost l ⟨h.memory l m hm, Nat.zero_le _⟩
    · exact h
  count s l m o _ h := (h.setMemory l (Nat.min_le_left _ _)).sendPost l ⟨by simp [repeatRecord], Nat.zero_le _⟩
  check s l n bits p start h := h.sendPost l ⟨Nat.zero_le _, Nat.zero_le _⟩
  newFrame s l n bits p start stop h :=
    (((h.releaseOld l).dropReference l).sendPost l ⟨Nat.zero_le _, Nat.zero_le _⟩).setMemory l (Nat.zero_le _)
  requests _ l h := h.takeRequests l
  post s l p hp h := by
    have hbounded := h.posts l p (List.mem_of_find?_eq_some hp)
    have hdropped := h.dropRequest l fun p => !s.isIncrement l p
    exact hdropped.withQueue (State.takePost_bounded hdropped.bounded hbounded) (by simp) (by simp)
  increment s l p _ h := (h.dropRequest l _).withQueue (h.bounded.countRepeats l 1) rfl rfl
  time _ _ h := h
  hold s h := by
    refine h.withQueue ?_ rfl rfl
    obtain ⟨hlen, hlo, hhi, hrec, hheld⟩ := h.bounded
    unfold ReceiveQueue.hold
    split
    · exact h.bounded
    · next r rs hrs =>
      rw [hrs] at hlen hrec
      split
      · exact h.bounded
      · refine ⟨hlen, hlo, hhi, fun q hq => ?_, fun _ => List.cons_ne_nil _ _⟩
        rcases List.mem_cons.mp hq with rfl | hq
        · exact hrec r List.mem_cons_self
        · exact hrec q (List.mem_cons_of_mem _ hq)
  pop s h := by
    obtain ⟨hlen, hlo, hhi, hrec, -⟩ := h.bounded
    unfold State.popRecord
    split
    · exact h
    · exact h.withQueue ⟨by simp [ReceiveQueue.pop]; omega, hlo, hhi, fun q hq => hrec q (List.mem_of_mem_tail hq),
        fun hd => (Bool.false_ne_true hd).elim⟩ rfl rfl
  flush s h := by
    obtain ⟨-, hlo, hhi, -, -⟩ := h.bounded
    exact h.withQueue ⟨Nat.zero_le _, hlo, hhi, fun q hq => (nomatch hq), fun hd => (Bool.false_ne_true hd).elim⟩ rfl rfl
  watermark v s h := by
    obtain ⟨hlen, -, -, hrec, hheld⟩ := h.bounded
    exact h.withQueue ⟨hlen, Nat.le_max_left _ _, Nat.max_le.mpr ⟨by omega, Nat.min_le_left _ _⟩, hrec, hheld⟩ rfl rfl
  reset s k mem := by
    refine ⟨Nat.zero_le _, Nat.le_refl _, Nat.le_of_ble_eq_true rfl, fun q hq => (nomatch hq), fun hd => (Bool.false_ne_true hd).elim,
      fun l => ?_⟩
    cases l <;> exact ⟨fun p hp => (nomatch hp), fun m hm => nomatch hm⟩

end Sys2Proof.Safety

open Sys2Proof Sys2Proof.Machine Sys2Proof.Safety

/-- Settles O54: part by part of the path to the queue. -/
theorem queueLawIsKept : Obligations.QueueLawIsKept := QueueLaw.kept.everyStep
end

