-- ==== Sys2Proof/Proofs/References.lean ====
section
/-! PROOF. O55: the law of the record references. The law of one line speaks of the identities of the records that its memory
refers to, its memory and its requests; each part of the path to the queue is checked on these. -/

namespace Sys2Proof.Machine

open Sys2Proof (Byte Time Payload Line)
open Sys2Proof.Safety

/-! ### The references of a line -/

/-- The identities of the records that the memory of `l` refers to. -/
def references (rs : List Record) (l : Line) :
    List (RecordKind × Line × Fin 8 × Nat × Payload × Bool × Time) := (rs.filter (·.refersFor l)).map identity

/-- Records changed in place, of which `keep` says which keep a reference to them. -/
theorem references_map (rs : List Record) (l : Line) {f : Record → Record} {keep : Bool}
    (hrefers : ∀ r, (f r).refersFor l = (r.refersFor l && keep)) (hident : ∀ r, identity (f r) = identity r) :
    references (rs.map f) l = if keep then references rs l else [] := by
  have hfun : ((fun r => r.refersFor l) ∘ f) = fun r => r.refersFor l && keep := funext hrefers
  have hid : identity ∘ f = identity := funext hident
  simp only [references, List.filter_map, List.map_map, hfun, hid]
  cases keep <;> simp

theorem references_release (rs : List Record) (l m : Line) (k : Nat) :
    references (rs.map (·.release m k)) l = if decide (l ≠ m) then references rs l else [] :=
  references_map rs l (fun r => r.release_refersFor m l k) fun r => identity_release r m k

theorem references_countRepeats (q : ReceiveQueue) (l m : Line) (k : Nat) :
    references (q.countRepeats m k).records l = references q.records l := by
  refine (references_map q.records l (keep := true) (fun r => ?_) fun r => ?_).trans (if_pos rfl)
  · rw [Bool.and_true]
    split <;> rfl
  · split <;> rfl

theorem references_markNewest (rs : List Record) (l : Line) : references (markNewest rs) l = references rs l := by
  rcases List.eq_nil_or_concat rs with rfl | ⟨older, newest, rfl⟩
  · rfl
  · rw [List.concat_eq_append, markNewest_append]
    simp only [references, List.filter_append, List.map_append]
    congr 1
    have hloss : newest.markLoss.refersFor l = newest.refersFor l := rfl
    simp only [List.filter_cons, List.filter_nil, hloss]
    split <;> rfl

theorem references_append (rs : List Record) (r : Record) (l : Line) :
    references (rs ++ [r]) l = references rs l ++ if r.refersFor l then [identity r] else [] := by
  cases h : r.refersFor l <;> simp [references, List.filter_append, h]

theorem references_eq_nil {rs : List Record} {l : Line} : references rs l = [] ↔ rs.any (·.refersFor l) = false := by
  simp [references]

/-- The part of the law of R81 that speaks of one line. -/
def LineReferences (rs : List Record) (l : Line) (mem : Option LastFrame) (ps : List Post) : Prop :=
  (rs.filter (·.refersFor l)).length ≤ 1 ∧
  (∀ r ∈ rs, r.refersFor l = true → ∃ m, mem = some m ∧ carries l m r) ∧
  (∀ p ∈ ps, p.record.line = l) ∧
  (∀ p ∈ ps, p.refers = true → ∃ m, mem = some m ∧ carries l m p.record) ∧
  ps.Pairwise (fun p q => q.refers = true → q.counts = false → p.refers = false) ∧
  (∀ p ∈ ps, p.refers = true → p.counts = false → rs.any (·.refersFor l) = false)

theorem referenceLaw_iff (s : State) :
    ReferenceLaw s ↔ (s.rq.held = true → ∀ r, s.rq.records.head? = some r → r.referred = false) ∧
      ∀ l : Line, LineReferences s.rq.records l (s.rep.get l).memory (s.link.get l).posts := Iff.rfl

/-- Whether a record carries a memory shows in its identity. -/
theorem carries_congr {l : Line} {m : LastFrame} {r r' : Record} (h : identity r = identity r') :
    carries l m r ↔ carries l m r' := by
  simp only [identity, Prod.mk.injEq] at h
  obtain ⟨hk, hl, hf, hb, hp, -⟩ := h
  rw [carries, carries, hk, hl, hf, hb, hp]

/-- What the law of one line says of the records shows in their references. -/
theorem lineReferences_records {rs rs' : List Record} {l : Line} {mem : Option LastFrame} {ps : List Post}
    (h : LineReferences rs l mem ps) (hrefs : (references rs' l).Sublist (references rs l)) :
    LineReferences rs' l mem ps := by
  obtain ⟨hone, hmem, hline, hposts, hpair, hnone⟩ := h
  refine ⟨?_, fun r hr href => ?_, hline, hposts, hpair, fun p hp h₁ h₂ => ?_⟩
  · have hlength := hrefs.length_le
    rw [references, references, List.length_map, List.length_map] at hlength
    exact hlength.trans hone
  · have hin : identity r ∈ references rs l :=
      hrefs.subset (List.mem_map.mpr ⟨r, List.mem_filter.mpr ⟨hr, href⟩, rfl⟩)
    obtain ⟨r', hr', hident⟩ := List.mem_map.mp hin
    obtain ⟨hr', href'⟩ := List.mem_filter.mp hr'
    obtain ⟨m, hm, hc⟩ := hmem r' hr' href'
    exact ⟨m, hm, (carries_congr hident).mp hc⟩
  · have hnil := references_eq_nil.mpr (hnone p hp h₁ h₂)
    rw [hnil, List.sublist_nil] at hrefs
    exact references_eq_nil.mp hrefs

/-- Fewer requests meet the law. -/
theorem lineReferences_posts {rs : List Record} {l : Line} {mem : Option LastFrame} {ps ps' : List Post}
    (h : LineReferences rs l mem ps) (hps : ps'.Sublist ps) : LineReferences rs l mem ps' := by
  obtain ⟨hone, hmem, hline, hposts, hpair, hnone⟩ := h
  exact ⟨hone, hmem, fun p hp => hline p (hps.subset hp), fun p hp => hposts p (hps.subset hp), hpair.sublist hps,
    fun p hp => hnone p (hps.subset hp)⟩

/-- Another memory of the same frame meets the law. -/
theorem lineReferences_memory {rs : List Record} {l : Line} {m m' : LastFrame} {ps : List Post}
    (h : LineReferences rs l (some m) ps) (hentry : m'.entry = m.entry) (hbits : m'.bits = m.bits)
    (hpayload : m'.payload = m.payload) : LineReferences rs l (some m') ps := by
  obtain ⟨hone, hmem, hline, hposts, hpair, hnone⟩ := h
  have hcarries : ∀ r, (∃ x, some m = some x ∧ carries l x r) → ∃ x, some m' = some x ∧ carries l x r := fun r hr => by
    obtain ⟨x, hx, hc⟩ := hr
    cases hx
    exact ⟨m', rfl, by rwa [carries, hentry, hbits, hpayload]⟩
  exact ⟨hone, fun r hr href => hcarries r (hmem r hr href), hline, fun p hp href => hcarries _ (hposts p hp href), hpair, hnone⟩

/-- Without a reference, and without a request that is to become one, any memory meets the law. -/
theorem lineReferences_forgotten {rs : List Record} {l : Line} {ps : List Post} (hrefs : references rs l = [])
    (hline : ∀ p ∈ ps, p.record.line = l) (hrefers : ∀ p ∈ ps, p.refers = false) (mem : Option LastFrame) :
    LineReferences rs l mem ps := by
  have hnone := references_eq_nil.mp hrefs
  have habsurd : ∀ p ∈ ps, p.refers = true → False := fun p hp h => by simp [hrefers p hp] at h
  refine ⟨?_, fun r hr href => ?_, hline, fun p hp h => (habsurd p hp h).elim, ?_, fun p hp h => (habsurd p hp h).elim⟩
  · have : (rs.filter (·.refersFor l)).map identity = [] := hrefs
    rw [List.map_eq_nil_iff.mp this]
    exact Nat.zero_le _
  · simp only [List.any_eq_false] at hnone
    exact absurd href (hnone r hr)
  · exact List.pairwise_of_forall_mem_list fun p hp q hq h => (habsurd q hq h).elim

/-- A request is added; one that is to become the reference whatever comes comes after no other such and to no reference. -/
theorem lineReferences_send {rs : List Record} {l : Line} {mem : Option LastFrame} {ps : List Post} {p : Post}
    (h : LineReferences rs l mem ps) (hline : p.record.line = l)
    (hcarries : p.refers = true → ∃ m, mem = some m ∧ carries l m p.record)
    (hnew : p.refers = true → p.counts = false → (∀ q ∈ ps, q.refers = false) ∧ rs.any (·.refersFor l) = false) :
    LineReferences rs l mem (ps ++ [p]) := by
  obtain ⟨hone, hmem, hlines, hposts, hpair, hnone⟩ := h
  refine ⟨hone, hmem, fun q hq => ?_, fun q hq => ?_, ?_, fun q hq => ?_⟩
  · rcases List.mem_append.mp hq with hq | hq
    · exact hlines q hq
    · rw [List.mem_singleton.mp hq]
      exact hline
  · rcases List.mem_append.mp hq with hq | hq
    · exact hposts q hq
    · rw [List.mem_singleton.mp hq]
      exact hcarries
  · refine List.pairwise_append.mpr ⟨hpair, List.pairwise_singleton _ _, fun q hq p' hp' h₁ h₂ => ?_⟩
    rw [List.mem_singleton.mp hp'] at h₁ h₂
    exact (hnew h₁ h₂).1 q hq
  · rcases List.mem_append.mp hq with hq | hq
    · exact hnone q hq
    · rw [List.mem_singleton.mp hq]
      exact fun h₁ h₂ => (hnew h₁ h₂).2

/-- The queue takes a post off the requests of its line, ahead of it none but increments: the record is appended, and becomes
the reference if it is to be one. -/
theorem lineReferences_take {rs : List Record} {l : Line} {mem : Option LastFrame} {before after : List Post} {p : Post}
    (h : LineReferences rs l mem (before ++ p :: after))
    (hbefore : ∀ q ∈ before, (q.counts && rs.any (·.refersFor l)) = true)
    (hp : (p.counts && rs.any (·.refersFor l)) = false) :
    LineReferences (rs ++ [{ p.record with referred := p.refers }]) l mem (before ++ after) := by
  have hkept := lineReferences_posts h ((List.sublist_cons_self p after).append_left before)
  obtain ⟨hone, hmem, hline, hposts, hpair, hnone⟩ := h
  have hpmem : p ∈ before ++ p :: after := by simp
  let r : Record := { p.record with referred := p.refers }
  cases href : p.refers with
  | false =>
    refine lineReferences_records hkept ?_
    rw [references_append]
    simp [Record.refersFor]
  | true =>
    have hfree : rs.any (·.refersFor l) = false := by
      cases hc : p.counts with
      | false => exact hnone p hpmem href hc
      | true => simpa [hc] using hp
    have hnobefore : before = [] := List.eq_nil_iff_forall_not_mem.mpr fun q hq => by simpa [hfree] using hbefore q hq
    subst hnobefore
    obtain ⟨hkone, hkmem, hkline, hkposts, hkpair, hknone⟩ := hkept
    have hnil : rs.filter (·.refersFor l) = [] := by
      rw [List.filter_eq_nil_iff]
      simpa using hfree
    refine ⟨?_, fun q hq hqref => ?_, hkline, hkposts, hkpair, fun q hq h₁ h₂ => ?_⟩
    · rw [List.filter_append, hnil, List.nil_append]
      exact (List.length_filter_le _ _).trans (Nat.le_refl 1)
    · rcases List.mem_append.mp hq with hq | hq
      · exact hkmem q hq hqref
      · rw [List.mem_singleton.mp hq]
        obtain ⟨m, hm, hc⟩ := hposts p hpmem href
        exact ⟨m, hm, hc⟩
    · have := (List.pairwise_cons.mp hpair).1 q hq h₁ h₂
      simp [href] at this

/-! ### The law, part by part -/

/-- A line is as it was, and the records keep its references. -/
theorem lineReferences_same {s t : State} {l : Line} (h : LineReferences s.rq.records l (s.rep.get l).memory (s.link.get l).posts)
    (hrefs : (references t.rq.records l).Sublist (references s.rq.records l)) (hrep : t.rep.get l = s.rep.get l)
    (hlink : t.link.get l = s.link.get l) : LineReferences t.rq.records l (t.rep.get l).memory (t.link.get l).posts := by
  rw [hrep, hlink]
  exact lineReferences_records h hrefs

/-- Changes that keep the reference of the head at most. -/
theorem head_map_referred {rs : List Record} {f : Record → Record} (hf : ∀ r, r.referred = false → (f r).referred = false)
    (h : ∀ r, rs.head? = some r → r.referred = false) : ∀ r, (rs.map f).head? = some r → r.referred = false := fun r hr => by
  rw [List.head?_map, Option.map_eq_some_iff] at hr
  obtain ⟨r', hr', rfl⟩ := hr
  exact hf r' (h r' hr')

theorem Record.release_referred {r : Record} (h : r.referred = false) (l : Line) (k : Nat) :
    (r.release l k).referred = false := by
  unfold Record.release
  split
  · rfl
  · exact h

/-! ### The queue takes requests -/

section
variable {s : State} {l : Line} {mem : Option LastFrame} {p : Post}

/-- The queue takes a post of line `l`, ahead of it none but increments. -/
theorem State.takePost_line {before after : List Post} (h : LineReferences s.rq.records l mem (before ++ p :: after))
    (hbefore : ∀ q ∈ before, s.isIncrement l q = true) (hp : s.isIncrement l p = false) :
    LineReferences (s.takePost p).rq.records l mem (before ++ after) := by
  unfold State.takePost
  split
  · exact lineReferences_take h hbefore hp
  · refine lineReferences_records (lineReferences_posts h ((List.sublist_cons_self p after).append_left before)) ?_
    show (references (markNewest s.rq.records) l).Sublist _
    rw [references_markNewest]

theorem State.takePost_other (hp : p.record.line ≠ l) : references (s.takePost p).rq.records l = references s.rq.records l := by
  unfold State.takePost
  split
  · show references (s.rq.records ++ [_]) l = _
    rw [references_append]
    simp [Record.refersFor, hp]
  · exact references_markNewest s.rq.records l

/-- The head stays the head, and without its reference if it is held. -/
theorem State.takePost_head (hq : s.rq.bounded) (h : s.rq.held = true → ∀ r, s.rq.records.head? = some r → r.referred = false) :
    (s.takePost p).rq.held = true → ∀ r, (s.takePost p).rq.records.head? = some r → r.referred = false := by
  obtain ⟨-, -, -, -, hne⟩ := hq
  unfold State.takePost
  split
  · intro hd r hr
    change (s.rq.records ++ [_]).head? = some r at hr
    rw [List.head?_append_of_ne_nil _ (hne hd)] at hr
    exact h hd r hr
  · intro hd r hr
    change (markNewest s.rq.records).head? = some r at hr
    have hd' : s.rq.held = true := hd
    cases hrs : s.rq.records with
    | nil => exact absurd hrs (hne hd')
    | cons r₀ rs =>
      have hr₀ := h hd' r₀ (by rw [hrs, List.head?_cons])
      rw [hrs] at hr
      cases rs with
      | nil =>
        cases hr
        exact hr₀
      | cons r₁ rs =>
        cases hr
        exact hr₀

end

/-- The law of R81 with the requests `ps` in the place of those of line `l`. -/
def ReferencesWith (s : State) (l : Line) (ps : List Post) : Prop :=
  (s.rq.held = true → ∀ r, s.rq.records.head? = some r → r.referred = false) ∧
  (∀ x, x ≠ l → LineReferences s.rq.records x (s.rep.get x).memory (s.link.get x).posts) ∧
  LineReferences s.rq.records l (s.rep.get l).memory ps

theorem referenceLaw_iff_with (s : State) (l : Line) : ReferenceLaw s ↔ ReferencesWith s l (s.link.get l).posts := by
  refine ⟨fun h => ⟨h.1, fun x _ => h.2 x, h.2 l⟩, fun ⟨hhead, hother, hline⟩ => ⟨hhead, fun x => ?_⟩⟩
  by_cases hx : x = l
  · exact hx ▸ hline
  · exact hother x hx

/-- The queue takes a post of line `l`. -/
theorem ReferencesWith.takePost {s : State} {l : Line} {before after : List Post} {p : Post}
    (h : ReferencesWith s l (before ++ p :: after)) (hq : s.rq.bounded) (hbefore : ∀ q ∈ before, s.isIncrement l q = true)
    (hp : s.isIncrement l p = false) : ReferencesWith (s.takePost p) l (before ++ after) := by
  obtain ⟨hhead, hother, hline⟩ := h
  have hlines : p.record.line = l := by
    obtain ⟨-, -, hlines, -⟩ := hline
    exact hlines p (by simp)
  obtain ⟨-, -, -, hrep, hlink, -⟩ := s.takePost_frame p
  refine ⟨State.takePost_head hq hhead, fun x hx => ?_, ?_⟩
  · rw [hrep, hlink]
    refine lineReferences_records (hother x hx) ?_
    rw [State.takePost_other (by rw [hlines]; exact Ne.symm hx)]
  · rw [hrep]
    exact State.takePost_line hline hbefore hp

/-- The queue counts an increment of line `l`. -/
theorem ReferencesWith.takeIncrement {s : State} {l : Line} {ps ps' : List Post} (h : ReferencesWith s l ps)
    (hps : ps'.Sublist ps) : ReferencesWith (s.takeIncrement l) l ps' := by
  obtain ⟨hhead, hother, hline⟩ := h
  have hrefs : ∀ x, (references (s.takeIncrement l).rq.records x).Sublist (references s.rq.records x) := fun x => by
    show (references (s.rq.countRepeats l 1).records x).Sublist _
    rw [references_countRepeats]
  refine ⟨fun hd => head_map_referred (fun r hr => ?_) (hhead hd), fun x hx => lineReferences_records (hother x hx) (hrefs x),
    lineReferences_posts (lineReferences_records hline (hrefs l)) hps⟩
  split
  · exact hr
  · exact hr

theorem ReferencesWith.takeAll {s : State} {l : Line} {ps : List Post} (h : ReferencesWith s l ps) (hq : s.rq.bounded)
    (hps : ∀ p ∈ ps, p.record.bounded) : ReferencesWith (ps.foldl (fun s p => s.takeRequest l p) s) l [] := by
  induction ps generalizing s with
  | nil => exact h
  | cons p ps ih =>
    refine ih ?_ (State.takeRequest_bounded hq l (hps p List.mem_cons_self)) fun q hq => hps q (List.mem_cons_of_mem _ hq)
    show ReferencesWith (if s.isIncrement l p then s.takeIncrement l else s.takePost p) l ps
    split
    · exact h.takeIncrement (List.sublist_cons_self p ps)
    · next hp => exact ReferencesWith.takePost (before := []) h hq (fun q hq => nomatch hq) (Bool.eq_false_iff.mpr hp)

/-- The first request that `which` picks, and the requests without it. -/
theorem eraseP_of_find? {ps : List Post} {which : Post → Bool} {p : Post} (h : ps.find? which = some p) :
    ∃ before after, ps = before ++ p :: after ∧ ps.eraseP which = before ++ after ∧ which p = true ∧
      ∀ q ∈ before, which q = false := by
  obtain ⟨hp, before, after, hps, hbefore⟩ := List.find?_eq_some_iff_append.mp h
  have hnone : ∀ q ∈ before, ¬ which q = true := fun q hq => by simpa using hbefore q hq
  refine ⟨before, after, hps, ?_, hp, fun q hq => Bool.eq_false_iff.mpr (hnone q hq)⟩
  rw [hps, List.eraseP_append_right _ hnone, List.eraseP_cons_of_pos hp]

/-- A new frame bears on the queue as the clearing of the old memory, and on the requests as that and one more. -/
theorem State.newFrame_rq (s : State) (l : Line) (n : Fin 8) (bits : Nat) (p : Payload) (start stop : Time) :
    (s.newFrame l n bits p start stop).rq = ((s.releaseOld l).clearMemory l).rq := by
  simp [State.newFrame, State.setMemory]

theorem State.newFrame_link (s : State) (l : Line) (n : Fin 8) (bits : Nat) (p : Payload) (start stop : Time) :
    (s.newFrame l n bits p start stop).link =
      (((s.releaseOld l).clearMemory l).sendPost l
        ⟨frameRecord l n bits p false start, false, (s.format n).coalesce⟩).link := by
  simp [State.newFrame, State.setMemory]

/-- The requests of line `l` without one that the queue takes. -/
theorem referenceLaw_of_taken {s t u : State} {l : Line} {which : Post → Bool}
    (ht : ReferencesWith t l ((s.link.get l).posts.eraseP which)) (hu : u.rq = t.rq) (hrep : u.rep = t.rep)
    (hlink : t.link = s.link) (hdrop : u.link = (s.dropRequest l which).link) : ReferenceLaw u := by
  rw [referenceLaw_iff_with u l]
  obtain ⟨hhead, hother, hline⟩ := ht
  unfold ReferencesWith
  rw [hu, hrep, hdrop]
  refine ⟨hhead, fun x hx => ?_, ?_⟩
  · have := hother x hx
    rw [hlink] at this
    simpa [State.dropRequest, PerLine.get_set_ne _ _ hx] using this
  · simpa [State.dropRequest] using hline

end Sys2Proof.Machine

namespace Sys2Proof.Safety

open Sys2Proof (Byte Time Payload Line)
open Sys2Proof.Machine

section
variable {s : State} (h : ReferenceLaw s)
include h

theorem ReferenceLaw.line (l : Line) : LineReferences s.rq.records l (s.rep.get l).memory (s.link.get l).posts := h.2 l

/-- Line `l` alone has changed; the records keep at most the other references, and the head's none. -/
theorem ReferenceLaw.of_line {t : State} (l : Line)
    (hhead : t.rq.held = true → ∀ r, t.rq.records.head? = some r → r.referred = false)
    (hother : ∀ x, x ≠ l → t.link.get x = s.link.get x ∧ t.rep.get x = s.rep.get x ∧
      (references t.rq.records x).Sublist (references s.rq.records x))
    (hline : LineReferences t.rq.records l (t.rep.get l).memory (t.link.get l).posts) : ReferenceLaw t := by
  refine (referenceLaw_iff t).mpr ⟨hhead, fun x => ?_⟩
  by_cases hx : x = l
  · exact hx ▸ hline
  · obtain ⟨hlink, hrep, hrefs⟩ := hother x hx
    exact lineReferences_same (h.line x) hrefs hrep hlink

theorem ReferenceLaw.clearMemory (l : Line) : ReferenceLaw (s.clearMemory l) := by
  rw [State.clearMemory_eq]
  refine h.of_line l (fun hd => head_map_referred (fun r hr => Record.release_referred hr l _) (h.1 hd))
    (fun x hx => ⟨PerLine.get_set_ne _ _ hx, PerLine.get_set_ne _ _ hx, ?_⟩) ?_
  · rw [references_release, if_pos (decide_eq_true hx)]
  · simp only [PerLine.get_set_same]
    refine lineReferences_forgotten ?_ (fun p hp => ?_) (fun p hp => ?_) _
    · rw [references_release]
      simp
    · obtain ⟨q, hq, rfl⟩ := List.mem_map.mp hp
      obtain ⟨-, -, hlines, -⟩ := h.line l
      refine hlines q ?_
      split at hq
      · exact List.mem_of_mem_filter hq
      · exact hq
    · obtain ⟨q, -, rfl⟩ := List.mem_map.mp hp
      rfl

/-- A request that is to become no reference. -/
theorem ReferenceLaw.sendPost (l : Line) {p : Post} (hline : p.record.line = l) (hrefers : p.refers = false) :
    ReferenceLaw (s.sendPost l p) := by
  refine h.of_line l h.1 (fun x hx => ⟨PerLine.get_set_ne _ _ hx, rfl, List.Sublist.refl _⟩) ?_
  simp only [State.sendPost_link, PerLine.get_set_same]
  exact lineReferences_send (h.line l) hline (fun hr => by simp [hrefers] at hr) fun hr => by simp [hrefers] at hr

theorem ReferenceLaw.countRepeat (l : Line) {m : LastFrame} (o : BurstOutcome) (hm : (s.rep.get l).memory = some m) :
    ReferenceLaw (s.countRepeat l m o) := by
  have hlaw := h.line l
  rw [hm] at hlaw
  refine h.of_line l h.1 (fun x hx => ⟨PerLine.get_set_ne _ _ hx, PerLine.get_set_ne _ _ hx, List.Sublist.refl _⟩) ?_
  simp only [State.countRepeat, State.setMemory, State.sendPost_link, State.sendPost_frame, State.setRep_rep,
    State.setRep_link, State.setRep_rq, PerLine.get_set_same]
  refine lineReferences_send (lineReferences_memory hlaw rfl rfl rfl) rfl (fun _ => ⟨_, rfl, ?_⟩) fun hr hc => ?_
  · exact ⟨by simp [repeatRecord], rfl, rfl, rfl, rfl⟩
  · exact (Bool.false_ne_true (hc.symm.trans hr)).elim

theorem ReferenceLaw.releaseOld (l : Line) : ReferenceLaw (s.releaseOld l) := by
  unfold State.releaseOld State.postRelease
  split
  · exact h
  · split
    · exact h.sendPost l rfl rfl
    · exact h

/-- The memory's reference goes with the memory; the memory of the new frame takes its place. -/
theorem ReferenceLaw.newFrame (l : Line) (n : Fin 8) (bits : Nat) (p : Payload) (start stop : Time) :
    ReferenceLaw (s.newFrame l n bits p start stop) := by
  let u := (s.releaseOld l).clearMemory l
  have hu : ReferenceLaw u := (h.releaseOld l).clearMemory l
  have hgone : LineReferences u.rq.records l none (u.link.get l).posts := by
    have := hu.line l
    rwa [show (u.rep.get l).memory = none by simp [u]] at this
  refine hu.of_line l ?_ (fun x hx => ?_) ?_
  · rw [State.newFrame_rq]
    exact hu.1
  · rw [State.newFrame_rq, State.newFrame_link, State.newFrame_rep]
    refine ⟨PerLine.get_set_ne _ _ hx, ?_, List.Sublist.refl _⟩
    simp [u, State.setMemory, PerLine.get_set_ne _ _ hx]
  · rw [State.newFrame_rq, State.newFrame_link, State.newFrame_rep]
    simp only [State.sendPost_link, State.setMemory, State.setRep_rep, PerLine.get_set_same]
    have hrefers : ∀ q ∈ (u.link.get l).posts, q.refers = false := fun q hq => Bool.eq_false_iff.mpr fun href => by
      obtain ⟨-, -, -, hposts, -⟩ := hgone
      obtain ⟨m, hm, -⟩ := hposts q hq href
      cases hm
    have hrefs : references u.rq.records l = [] := by
      rw [references_eq_nil, List.any_eq_false]
      intro r hr href
      obtain ⟨-, hmem, -⟩ := hgone
      obtain ⟨m, hm, -⟩ := hmem r hr href
      cases hm
    obtain ⟨-, -, hlines, -⟩ := hgone
    exact lineReferences_send (lineReferences_forgotten hrefs hlines hrefers _) rfl
      (fun _ => ⟨_, rfl, by simp [frameRecord], rfl, rfl, rfl, rfl⟩) fun _ _ => ⟨hrefers, references_eq_nil.mp hrefs⟩

theorem ReferenceLaw.takeRequests (hq : QueueLaw s) (l : Line) : ReferenceLaw (s.takeRequests l) := by
  rw [referenceLaw_iff_with _ l]
  have hstart : ReferencesWith (s.setLink l { s.link.get l with posts := [] }) l (s.link.get l).posts := by
    obtain ⟨hhead, hother, hline⟩ := (referenceLaw_iff_with s l).mp h
    refine ⟨hhead, fun x hx => ?_, hline⟩
    rw [State.setLink_link, PerLine.get_set_ne _ _ hx]
    exact hother x hx
  have hnone : ((s.takeRequests l).link.get l).posts = [] := by simp
  rw [hnone]
  exact hstart.takeAll hq.bounded (hq.posts l)

theorem ReferenceLaw.post (hq : QueueLaw s) (l : Line) {p : Post} (hp : s.oldestPost l = some p) :
    ReferenceLaw ((s.dropRequest l fun p => !s.isIncrement l p).takePost p) := by
  obtain ⟨before, after, hps, hdrop, hpost, hbefore⟩ := eraseP_of_find? hp
  have hlaw := (referenceLaw_iff_with s l).mp h
  rw [hps] at hlaw
  have htaken := hlaw.takePost hq.bounded (by simpa using hbefore) (by simpa using hpost)
  rw [← hdrop] at htaken
  refine referenceLaw_of_taken htaken ?_ (by simp) (by simp) (by simp)
  rw [State.takePost_rq, State.takePost_rq]
  rfl

theorem ReferenceLaw.increment (l : Line) :
    ReferenceLaw ((s.dropRequest l fun p => s.isIncrement l p).takeIncrement l) :=
  referenceLaw_of_taken (((referenceLaw_iff_with s l).mp h).takeIncrement (List.eraseP_sublist ..)) rfl rfl rfl rfl

end

/-- The law of R81 with the bounds of the queue, which it leans on: a held record is the head of a queue that is not empty. -/
theorem ReferenceLaw.kept : KeptByQueue fun s => QueueLaw s ∧ ReferenceLaw s where
  same {s t} h hrq hmem hposts htime := by
    refine ⟨QueueLaw.kept.same h.1 hrq hmem hposts htime, (referenceLaw_iff t).mpr ?_⟩
    simpa only [hrq, hmem, hposts] using (referenceLaw_iff s).mp h.2
  clear s l h := ⟨QueueLaw.kept.clear s l h.1, h.2.clearMemory l⟩
  release s l m hm h := by
    refine ⟨QueueLaw.kept.release s l m hm h.1, ?_⟩
    unfold State.postRelease
    split
    · exact h.2.sendPost l rfl rfl
    · exact h.2
  count s l m o hm h := ⟨QueueLaw.kept.count s l m o hm h.1, h.2.countRepeat l o hm⟩
  check s l n bits p start h := ⟨QueueLaw.kept.check s l n bits p start h.1, h.2.sendPost l rfl rfl⟩
  newFrame s l n bits p start stop h :=
    ⟨QueueLaw.kept.newFrame s l n bits p start stop h.1, h.2.newFrame l n bits p start stop⟩
  requests s l h := ⟨QueueLaw.kept.requests s l h.1, h.2.takeRequests h.1 l⟩
  post s l p hp h := ⟨QueueLaw.kept.post s l p hp h.1, h.2.post h.1 l hp⟩
  increment s l p hp h := ⟨QueueLaw.kept.increment s l p hp h.1, h.2.increment l⟩
  time _ _ h := h
  hold s h := by
    refine ⟨QueueLaw.kept.hold s h.1, (referenceLaw_iff _).mpr ?_⟩
    obtain ⟨hhead, hlines⟩ := (referenceLaw_iff s).mp h.2
    show (s.rq.hold.held = true → _) ∧ ∀ l, LineReferences s.rq.hold.records l _ _
    unfold ReceiveQueue.hold
    split
    · exact ⟨hhead, hlines⟩
    · next r rs hrs =>
      split
      · exact ⟨hhead, hlines⟩
      · refine ⟨fun _ r' hr' => ?_, fun l => lineReferences_records (hlines l) ?_⟩
        · cases hr'
          rfl
        · rw [hrs]
          refine List.Sublist.map _ ?_
          rw [List.filter_cons_of_neg (by simp [Record.refersFor])]
          exact (List.sublist_cons_self r rs).filter _
  pop s h := by
    refine ⟨QueueLaw.kept.pop s h.1, ?_⟩
    unfold State.popRecord
    split
    · exact h.2
    · exact ⟨fun hd => (Bool.false_ne_true hd).elim,
        fun l => lineReferences_records (h.2.line l) (((List.tail_sublist s.rq.records).filter _).map _)⟩
  flush s h :=
    ⟨QueueLaw.kept.flush s h.1,
      ⟨fun hd => (Bool.false_ne_true hd).elim, fun l => lineReferences_records (h.2.line l) (List.nil_sublist _)⟩⟩
  watermark v s h := ⟨QueueLaw.kept.watermark v s h.1, h.2⟩
  reset s k mem := by
    refine ⟨QueueLaw.kept.reset s k mem, fun hd => (Bool.false_ne_true hd).elim, fun l => ?_⟩
    have hnone : LineReferences [] l none [] :=
      lineReferences_forgotten rfl (by simp) (by simp) none
    cases l <;> exact hnone

end Sys2Proof.Safety

open Sys2Proof Sys2Proof.Machine Sys2Proof.Safety

/-- Settles O55: part by part of the path to the queue. -/
theorem referenceLawIsKept : Obligations.ReferenceLawIsKept := ReferenceLaw.kept.everyStep
end

