-- ==== Sys2Proof/Proofs/Entry.lean ====
section
/-! SUPPORT. What is on its way, and what the memories hold, at the entry to DORMANT. -/

namespace Sys2Proof.Machine

open Sys2Proof (Byte Time Payload Line)

section
variable (s : State) (l m : Line)

/-! ### Notices acted on -/

theorem State.actOnNotice_rest_ne {l m : Line} (h : m ≠ l) (n : Notice) :
    ((s.actOnNotice l n).link.get m).rest = (s.link.get m).rest := by
  cases n with
  | burstStart t => simp [State.actOnNotice, State.openBurst]
  | element v d =>
    show ((if _ then _ else _ : State).link.get m).rest = _
    split
    · exact State.leaveHolders_rest _ m _ _
    · rfl
  | burstEnd t | burstAbort why => simp [State.actOnNotice, State.handOver, PerLine.get_set_ne _ _ h]

@[simp] theorem State.actOnNotice_toDecoder (n : Notice) :
    ((s.actOnNotice l n).link.get l).toDecoder = (s.link.get l).toDecoder := by
  cases n with
  | burstStart t => simp [State.actOnNotice, State.openBurst]
  | element v d =>
    show ((if _ then _ else _ : State).link.get l).toDecoder = _
    split
    · exact (Links.eqs_of_rest_eq (State.leaveHolders_rest _ l _ _)).1
    · rfl
  | burstEnd t | burstAbort why => simp [State.actOnNotice, State.handOver]

theorem State.settleNotice_rest_ne {l m : Line} (h : m ≠ l) (n : Notice) :
    ((s.settleNotice l n).link.get m).rest = (s.link.get m).rest := by
  unfold State.settleNotice
  rw [State.takeHandedOutcome_rest_ne _ h]
  split
  · exact s.actOnNotice_rest_ne h n
  · rfl

theorem State.settleNotice_link (n : Notice) :
    ((s.settleNotice l n).link.get l).toDecoder = (s.link.get l).toDecoder ∧ ((s.settleNotice l n).link.get l).outcome = none := by
  refine ⟨?_, State.takeHandedOutcome_outcome _ l⟩
  unfold State.settleNotice
  rw [State.takeHandedOutcome_toDecoder]
  split
  · exact s.actOnNotice_toDecoder l n
  · rfl

theorem State.settleNotices_link (ns : List Notice) (h : (s.link.get l).outcome = none) :
    ((ns.foldl (fun s n => s.settleNotice l n) s).link.get l).toDecoder = (s.link.get l).toDecoder ∧
    ((ns.foldl (fun s n => s.settleNotice l n) s).link.get l).outcome = none := by
  induction ns generalizing s with
  | nil => exact ⟨rfl, h⟩
  | cons n ns ih =>
    obtain ⟨hnotices, houtcome⟩ := s.settleNotice_link l n
    rw [List.foldl_cons, ← hnotices]
    exact ih _ houtcome

theorem State.settleNotices_rest_ne {l m : Line} (h : m ≠ l) (ns : List Notice) :
    ((ns.foldl (fun s n => s.settleNotice l n) s).link.get m).rest = (s.link.get m).rest := by
  induction ns generalizing s with
  | nil => rfl
  | cons n ns ih => rw [List.foldl_cons, ih, State.settleNotice_rest_ne s h]

/-! ### A decoder that has taken everything -/

/-- Nothing is left on its way to the decoder, nor from it to the repeat unit. -/
theorem State.settleDecoder_link :
    ((s.settleDecoder l).link.get l).toDecoder = [] ∧ ((s.settleDecoder l).link.get l).outcome = none := by
  obtain ⟨hnotices, houtcome⟩ := State.settleNotices_link
    ((s.takeHandedOutcome l).setLink l { (s.takeHandedOutcome l).link.get l with toDecoder := [] }) l
    ((s.takeHandedOutcome l).link.get l).toDecoder (by simp)
  rw [State.setLink_link, PerLine.get_set_same] at hnotices
  exact ⟨hnotices, houtcome⟩

theorem State.settleDecoder_rest_ne {l m : Line} (h : m ≠ l) :
    ((s.settleDecoder l).link.get m).rest = (s.link.get m).rest := by
  unfold State.settleDecoder
  rw [State.settleNotices_rest_ne _ h, State.setLink_link, PerLine.get_set_ne _ _ h, State.takeHandedOutcome_rest_ne s h]

end

/-- Nothing is on its way to the decoder of a line, nor from it to the repeat unit. -/
def Links.decoderQuiet (k : Links) : Prop := k.toDecoder = [] ∧ k.outcome = none

theorem Links.decoderQuiet_of_rest {k k' : Links} (h : k.rest = k'.rest) (hq : k'.decoderQuiet) : k.decoderQuiet := by
  obtain ⟨hnotices, houtcome, -⟩ := Links.eqs_of_rest_eq h
  exact ⟨hnotices.trans hq.1, houtcome.trans hq.2⟩

theorem State.settleBoth_quiet (s : State) (first l : Line) : ((s.eachLine first State.settleDecoder).link.get l).decoderQuiet := by
  by_cases h : l = first
  · have hne : l ≠ otherLine first := by rw [h]; cases first <;> decide
    refine Links.decoderQuiet_of_rest ((s.settleDecoder first).settleDecoder_rest_ne hne) ?_
    rw [h]
    exact s.settleDecoder_link first
  · have heq : l = otherLine first := by revert h; cases l <;> cases first <;> simp [otherLine]
    rw [heq]
    exact (s.settleDecoder first).settleDecoder_link (otherLine first)

/-! ### The repeat units at the entry -/

section
variable (s : State) (l m : Line)

theorem State.quietRepeatUnit_rep : ((s.quietRepeatUnit l).rep.get l).memory = none ∧ ((s.quietRepeatUnit l).rep.get l).opened = false := by
  have hmem := s.expireMemory_memory l
  constructor
  · show (((s.expireMemory l).closeBurst l).rep.get l).memory = none
    rw [State.closeBurst, State.setRep_rep, PerLine.get_set_same]
    exact hmem
  · show (((s.expireMemory l).closeBurst l).rep.get l).opened = false
    rw [State.closeBurst, State.setRep_rep, PerLine.get_set_same]

theorem State.quietRepeatUnit_rep_ne {l m : Line} (h : m ≠ l) : (s.quietRepeatUnit l).rep.get m = s.rep.get m := by
  show ((s.expireMemory l).closeBurst l).rep.get m = _
  rw [State.closeBurst, State.setRep_rep, PerLine.get_set_ne _ _ h, State.expireMemory_rep_ne s h]

theorem State.quietRepeatUnit_rest :
    ((s.quietRepeatUnit l).link.get l).rest = { (s.link.get l).rest with expireRequests := [], oldBursts := 0 } := by
  have hrest := s.expireMemory_rest l l
  show (((s.expireMemory l).link.set l _).get l).rest = _
  rw [PerLine.get_set_same]
  show { ((s.expireMemory l).link.get l).rest with expireRequests := [], oldBursts := 0 } = _
  rw [hrest]

theorem State.quietRepeatUnit_rest_ne {l m : Line} (h : m ≠ l) :
    ((s.quietRepeatUnit l).link.get m).rest = (s.link.get m).rest := by
  show (((s.expireMemory l).link.set l _).get m).rest = _
  rw [PerLine.get_set_ne _ _ h, State.expireMemory_rest]

end

/-- Nothing is on its way on a line and its memory is empty, but for what the queue has yet to take. -/
def State.lineQuiet (s : State) (l : Line) : Prop :=
  (s.link.get l).decoderQuiet ∧ (s.link.get l).expireRequests = [] ∧ (s.link.get l).oldBursts = 0 ∧
    (s.rep.get l).memory = none ∧ (s.rep.get l).opened = false

theorem State.lineQuiet_of_rest {s t : State} {l : Line} (hrest : (t.link.get l).rest = (s.link.get l).rest)
    (hrep : t.rep.get l = s.rep.get l) (h : s.lineQuiet l) : t.lineQuiet l := by
  obtain ⟨hdec, hreq, hold, hmem, hopen⟩ := h
  obtain ⟨-, -, hreq', hold'⟩ := Links.eqs_of_rest_eq hrest
  exact ⟨Links.decoderQuiet_of_rest hrest hdec, hreq'.trans hreq, hold'.trans hold, by rw [hrep, hmem], by rw [hrep, hopen]⟩

theorem State.quietRepeatUnit_quiet {s : State} {l : Line} (h : (s.link.get l).decoderQuiet) : (s.quietRepeatUnit l).lineQuiet l := by
  obtain ⟨hmem, hopen⟩ := s.quietRepeatUnit_rep l
  obtain ⟨hnotices, houtcome, hreq, hold⟩ := Links.eqs_of_rest_eq
    (k' := { s.link.get l with expireRequests := [], oldBursts := 0 }) (s.quietRepeatUnit_rest l)
  exact ⟨⟨hnotices.trans h.1, houtcome.trans h.2⟩, hreq, hold, hmem, hopen⟩

/-- When both repeat units have become quiet behind quiet decoders, both lines are quiet. -/
theorem State.quietBoth_quiet {s : State} (h : ∀ l, (s.link.get l).decoderQuiet) (l : Line) :
    (s.eachLine .A State.quietRepeatUnit).lineQuiet l := by
  show ((s.quietRepeatUnit .A).quietRepeatUnit .B).lineQuiet l
  cases l with
  | A =>
    have hne : Line.A ≠ .B := by decide
    exact State.lineQuiet_of_rest (State.quietRepeatUnit_rest_ne _ hne) (State.quietRepeatUnit_rep_ne _ hne)
      (State.quietRepeatUnit_quiet (h .A))
  | B => exact State.quietRepeatUnit_quiet (Links.decoderQuiet_of_rest (s.quietRepeatUnit_rest_ne (by decide)) (h .B))

theorem State.quietReceivers_quiet (s : State) (mask : Byte) (o : EntryOrder) (l : Line) : (s.quietReceivers mask o).lineQuiet l :=
  State.quietBoth_quiet (fun m => State.settleBoth_quiet _ o.aborts m) l

theorem State.eachRequests_link (s : State) (first l : Line) :
    (s.eachLine first State.takeRequests).link.get l = { s.link.get l with posts := [] } := by
  unfold State.eachLine
  cases first <;> cases l <;> simp [otherLine]

/-- After the entry nothing is on its way on a line, and its memory is empty. -/
theorem State.quieted_quiet (s : State) (mask : Byte) (l : Line) :
    (s.quieted mask).lineQuiet l ∧ ((s.quieted mask).link.get l).posts = [] := by
  have hlink := State.eachRequests_link ((s.settleInFlight s.entryOrder.inFlight).quietReceivers mask s.entryOrder)
    s.entryOrder.posts l
  have hquiet := State.quietReceivers_quiet (s.settleInFlight s.entryOrder.inFlight) mask s.entryOrder l
  refine ⟨State.lineQuiet_of_rest ?_ (by simp [State.quieted]) hquiet, ?_⟩
  · rw [State.quieted, hlink]
    rfl
  · rw [State.quieted, hlink]

/-! ### The rest of the machine at the entry -/

theorem State.quietReceivers_fe (s : State) (mask : Byte) (o : EntryOrder) :
    (s.quietReceivers mask o).fe = (s.parkLines mask).fe := by
  simp only [State.quietReceivers, State.eachLine]
  split <;> split <;> simp

theorem State.parkLines_fe_get (s : State) (mask : Byte) (l : Line) :
    ∃ named : Bool, (s.parkLines mask).fe.get l =
      if (s.fe.get l).enabled then
        { s.fe.get l with guardHold := none, test := none, st := if named then .watch else .parked }
      else { s.fe.get l with guardHold := none } := by
  cases l with
  | A =>
    have hne : Line.A ≠ .B := by decide
    exact ⟨mask.getLsbD 0, by
      rw [State.parkLines, State.parkLine_fe, PerLine.get_set_ne _ _ hne, State.parkLine_fe, PerLine.get_set_same]⟩
  | B => exact ⟨mask.getLsbD 1, by simp [State.parkLines]⟩

theorem State.quieted_frame (s : State) (mask : Byte) :
    (s.quieted mask).fe = ((s.settleInFlight s.entryOrder.inFlight).parkLines mask).fe ∧ (s.quieted mask).tx = s.tx ∧
    (s.quieted mask).cap = s.cap ∧ (s.quieted mask).pow = s.pow ∧ (s.quieted mask).win = s.win ∧
    (s.quieted mask).mem = s.mem ∧ (s.quieted mask).clock = s.clock ∧ (s.quieted mask).pending = s.pending := by
  simp [State.quieted, State.quietReceivers_fe]

end Sys2Proof.Machine
end

