-- ==== Sys2Proof/Proofs/Lines.lean ====
section
/-! PROOF. O59: the laws of the line states, of the memory of an OFF line, of DORMANT and of a held reset. -/

namespace Sys2Proof.Machine

open Sys2Proof (Byte Time Payload Line)
open Sys2Proof.Safety

/-! ### One line -/

/-- A line is BLANKED exactly while it is enabled and has a blanking holder; the transmitter is one only while a job is active
(R5, R12). -/
def FrontEnd.lawful (f : FrontEnd) (active : Prop) : Prop :=
  (f.st = .blanked ↔ f.st ≠ .off ∧ f.blankingHeld = true) ∧ (f.txHold = true → active)

/-- A line state that belongs to ACTIVE and LISTEN (R14, R15). -/
def LineState.awake (st : LineState) : Prop := st ≠ .parked ∧ st ≠ .watch

theorem FrontEnd.lawful_congr {f f' : FrontEnd} {active active' : Prop} (h : f.lawful active)
    (hst : f'.st = f.st) (htx : f'.txHold = f.txHold) (hguard : f'.guardHold = f.guardHold) (ha : active → active') :
    f'.lawful active' := by
  obtain ⟨hblanked, hactive⟩ := h
  refine ⟨?_, fun h' => ha (hactive (htx ▸ h'))⟩
  simpa only [FrontEnd.blankingHeld, hst, htx, hguard] using hblanked

/-- A line in SETTLE without a holder. -/
theorem FrontEnd.enterSettle_lawful {f : FrontEnd} (h : f.blankingHeld = false) (now : Nat) (active : Prop) :
    (f.enterSettle now).lawful active := by
  have htx : f.txHold = false := by
    simp only [FrontEnd.blankingHeld, Bool.or_eq_false_iff] at h
    exact h.1
  refine ⟨⟨fun hs => (nomatch hs), fun hs => ?_⟩, fun hs => ?_⟩
  · exact (Bool.false_ne_true (h.symm.trans hs.2)).elim
  · exact (Bool.false_ne_true (htx.symm.trans hs)).elim

/-- A line after a hold on it has been given up (R13). -/
theorem State.unblank_lawful {s : State} {l : Line} {active : Prop}
    (hst : (s.fe.get l).st = .blanked ↔ (s.fe.get l).st ≠ .off) (htx : (s.fe.get l).txHold = true → active) :
    ((s.unblank l).fe.get l).lawful active := by
  rw [State.unblank_fe]
  split
  · next h =>
    rw [PerLine.get_set_same]
    exact FrontEnd.enterSettle_lawful (Bool.eq_false_iff.mpr h.2) _ _
  · next h =>
    refine ⟨⟨fun hb => ⟨hst.mp hb, by_contra fun hn => h ⟨hb, hn⟩⟩, fun hb => hst.mpr hb.1⟩, htx⟩

theorem State.unblank_awake {s : State} {l : Line} (h : (s.fe.get l).st.awake) : ((s.unblank l).fe.get l).st.awake := by
  rw [State.unblank_fe]
  split
  · rw [PerLine.get_set_same]
    exact ⟨by simp [FrontEnd.enterSettle], by simp [FrontEnd.enterSettle]⟩
  · exact h

/-- An unblanked line is OFF exactly when it was. -/
theorem State.unblank_off {s : State} {l : Line} (h : ((s.unblank l).fe.get l).st = .off) : (s.fe.get l).st = .off := by
  rw [State.unblank_fe] at h
  split at h
  · rw [PerLine.get_set_same] at h
    cases h
  · exact h

/-- A line whose hold the transmitter has passed on (R13, R145). -/
theorem State.passToGuard_line {s : State} {l : Line} {active : Prop} (h : (s.fe.get l).lawful active)
    (ha : (s.fe.get l).st.awake) (t : Nat) :
    ((s.passToGuard t l).fe.get l).lawful False ∧ ((s.passToGuard t l).fe.get l).st.awake ∧
    (((s.passToGuard t l).fe.get l).st = .off → (s.fe.get l).st = .off) := by
  cases htx : (s.fe.get l).txHold with
  | false =>
    rw [State.passToGuard_of_not_held s t l htx]
    exact ⟨⟨h.1, fun ht => Bool.false_ne_true (htx.symm.trans ht)⟩, ha, id⟩
  | true =>
    have hheld : (s.fe.get l).blankingHeld = true := by simp [FrontEnd.blankingHeld, htx]
    have hst : (s.fe.get l).st = .blanked ↔ (s.fe.get l).st ≠ .off := h.1.trans (and_iff_left hheld)
    rw [State.passToGuard, if_pos htx]
    refine ⟨State.unblank_lawful ?_ ?_, State.unblank_awake ?_, fun hoff => ?_⟩
    · rw [State.setFe_fe, PerLine.get_set_same]
      exact hst
    · rw [State.setFe_fe, PerLine.get_set_same]
      exact fun ht => Bool.false_ne_true ht
    · rw [State.setFe_fe, PerLine.get_set_same]
      exact ha
    · have := State.unblank_off hoff
      rwa [State.setFe_fe, PerLine.get_set_same] at this

/-- The lines at a job's end. -/
theorem State.endJob_line {s : State} {l : Line} {active : Prop} (h : (s.fe.get l).lawful active) (ha : (s.fe.get l).st.awake)
    (j : Job) (st : CompletionStatus) (t : Nat) :
    ((s.endJob j st t).fe.get l).lawful False ∧ ((s.endJob j st t).fe.get l).st.awake ∧
    (((s.endJob j st t).fe.get l).st = .off → (s.fe.get l).st = .off) := by
  have pass : ∀ u : State, u.fe = s.fe →
      (((u.passToGuard t .A).passToGuard t .B).fe.get l).lawful False ∧
      (((u.passToGuard t .A).passToGuard t .B).fe.get l).st.awake ∧
      ((((u.passToGuard t .A).passToGuard t .B).fe.get l).st = .off → (s.fe.get l).st = .off) := fun u hu => by
    rw [← hu] at h ha ⊢
    have hAB : Line.A ≠ .B := by decide
    cases l with
    | A =>
      rw [State.passToGuard_fe_ne _ _ hAB]
      exact State.passToGuard_line h ha t
    | B =>
      have hB := State.passToGuard_fe_ne u t (Ne.symm hAB)
      rw [← hB] at h ha ⊢
      exact State.passToGuard_line h ha t
  exact pass _ (by simp)

theorem LineState.underHold_blanked {st : LineState} (h : st.awake) : st.underHold = .blanked ↔ st.underHold ≠ .off := by
  cases st with
  | parked => exact absurd rfl h.1
  | watch => exact absurd rfl h.2
  | _ => simp [LineState.underHold]

theorem LineState.underHold_awake {st : LineState} (h : st.awake) : st.underHold.awake := by
  cases st with
  | parked => exact absurd rfl h.1
  | watch => exact absurd rfl h.2
  | _ => simp [LineState.underHold, LineState.awake]

theorem LineState.underHold_off {st : LineState} (h : st.underHold = .off) : st = .off := by
  cases st <;> simp_all [LineState.underHold]

/-- A blanking hold does not look at the transmitter. -/
theorem State.blankFor_tx (s : State) (x : Transmitter) (j : Job) (l : Line) :
    ({ s with tx := x } : State).blankFor j l = { s.blankFor j l with tx := x } := by
  unfold State.blankFor State.takeBlanking State.abortBurst
  dsimp only
  split
  · split <;> rfl
  · rfl

/-- The blanking of a job's lines seen from the transmitter as it stands then. -/
theorem State.jobActive_eq (s : State) (j : Job) (n : Fin 8) :
    s.jobActive j n =
      (({ s.joinHolder .transmitter n with tx := (s.jobActive j n).tx } : State).blankFor j .A).blankFor j .B := by
  rw [State.blankFor_tx (s.joinHolder .transmitter n), State.blankFor_tx ((s.joinHolder .transmitter n).blankFor j .A)]
  rfl

theorem State.unparkLine_fe_get (s : State) (l m : Line) :
    (s.unparkLine l).fe.get m =
      if m = l then if (s.fe.get m).enabled then (s.fe.get m).enterSettle s.clock.now else s.fe.get m else s.fe.get m := by
  rw [State.unparkLine_fe]
  by_cases hm : m = l
  · subst hm
    rw [if_pos rfl]
    split
    · exact PerLine.get_set_same _ _ _
    · rfl
  · rw [if_neg hm]
    split
    · exact PerLine.get_set_ne _ _ hm
    · rfl

/-- The lines on leaving DORMANT (R15). -/
theorem State.leaveDormant_fe_get (s : State) (p : PowerState) (l : Line) :
    (s.leaveDormant p).fe.get l =
      if (s.fe.get l).enabled then (s.fe.get l).enterSettle s.clock.now else s.fe.get l := by
  show ((s.unparkLine .A).unparkLine .B).fe.get l = _
  rw [State.unparkLine_fe_get, State.unparkLine_fe_get]
  cases l with
  | A => rfl
  | B =>
    have hne : Line.B ≠ .A := by decide
    simp only [if_true, if_neg hne, State.unparkLine_frame]

/-! ### The law in ACTIVE and LISTEN -/

/-- What the law says of a line in ACTIVE and LISTEN. -/
def LineAwake (s : State) (l : Line) : Prop :=
  (s.fe.get l).lawful (jobActiveNow s) ∧ (s.fe.get l).st.awake ∧ (staysEmptyAfterDisable s l → (s.rep.get l).memory = none)

theorem lineLaw_iff_awake {s : State} (hd : s.pow.st ≠ .dormant) : LineLaw s ↔ ∀ l, LineAwake s l := by
  constructor
  · intro h l
    obtain ⟨hblanked, htx, hparked, hempty⟩ := h.1 l
    exact ⟨⟨hblanked, htx⟩, ⟨fun hp => hd (hparked (.inl hp)), fun hw => hd (hparked (.inr hw))⟩, hempty⟩
  · intro h
    refine ⟨fun l => ?_, fun hdormant => absurd hdormant hd⟩
    obtain ⟨⟨hblanked, htx⟩, ⟨hparked, hwatch⟩, hempty⟩ := h l
    exact ⟨hblanked, htx, fun hp => hp.elim (fun hp => absurd hp hparked) fun hw => absurd hw hwatch, hempty⟩

/-- A line whose states are the same, whose memory is emptied at most, and which stays empty in no more cases. -/
theorem LineAwake.of_fe {s t : State} {l : Line} (h : LineAwake s l) (hfe : t.fe.get l = s.fe.get l)
    (hactive : jobActiveNow s → jobActiveNow t) (hempty : staysEmptyAfterDisable t l → staysEmptyAfterDisable s l)
    (hmem : (t.rep.get l).memory = none ∨ (t.rep.get l).memory = (s.rep.get l).memory) : LineAwake t l := by
  obtain ⟨hlawful, hawake, hnone⟩ := h
  refine ⟨FrontEnd.lawful_congr hlawful (by rw [hfe]) (by rw [hfe]) (by rw [hfe]) hactive, by rwa [hfe], fun he => ?_⟩
  rcases hmem with hm | hm
  · exact hm
  · rw [hm]
    exact hnone (hempty he)

/-- A line whose states are the same and whose memory is empty. -/
theorem LineAwake.of_empty {s t : State} {l : Line} (h : LineAwake s l) (hfe : t.fe.get l = s.fe.get l)
    (hactive : jobActiveNow s → jobActiveNow t) (hmem : (t.rep.get l).memory = none) : LineAwake t l := by
  obtain ⟨hlawful, hawake, -⟩ := h
  exact ⟨FrontEnd.lawful_congr hlawful (by rw [hfe]) (by rw [hfe]) (by rw [hfe]) hactive, by rwa [hfe], fun _ => hmem⟩

/-- What keeps a line empty after a disable, where the requests to expire and the bursts that had begun are the same. -/
theorem staysEmpty_congr {s t : State} {l : Line} (hoff : (t.fe.get l).st = .off → (s.fe.get l).st = .off)
    (hold : (t.link.get l).oldBursts = (s.link.get l).oldBursts)
    (hreq : (t.link.get l).expireRequests = (s.link.get l).expireRequests) :
    staysEmptyAfterDisable t l → staysEmptyAfterDisable s l := by
  unfold staysEmptyAfterDisable
  rw [hold, hreq]
  exact Or.imp_right (And.imp_left hoff)

/-- What is on its way on a line to its decoder, its repeat unit and the queue. -/
def Links.path (k : Links) : List Notice × Option BurstOutcome × List Nat × Nat × List Post :=
  (k.toDecoder, k.outcome, k.expireRequests, k.oldBursts, k.posts)

theorem Links.eqs_of_path_eq {k k' : Links} (h : k.path = k'.path) :
    k.toDecoder = k'.toDecoder ∧ k.outcome = k'.outcome ∧ k.expireRequests = k'.expireRequests ∧
    k.oldBursts = k'.oldBursts ∧ k.posts = k'.posts := by
  simpa [Links.path] using h

theorem PerLine.get_set_path (p : PerLine Links) {l : Line} {k : Links} (h : k.path = (p.get l).path) (m : Line) :
    ((p.set l k).get m).path = (p.get m).path := by
  by_cases hm : m = l
  · rw [hm, PerLine.get_set_same, h]
  · rw [PerLine.get_set_ne p k hm]

/-- The requests to expire and the bursts that had begun at a disable. -/
def Links.aftermath (k : Links) : Nat × List Nat := (k.oldBursts, k.expireRequests)

theorem Links.eqs_of_aftermath_eq {k k' : Links} (h : k.aftermath = k'.aftermath) :
    k.oldBursts = k'.oldBursts ∧ k.expireRequests = k'.expireRequests := by
  simpa [Links.aftermath] using h

theorem Links.aftermath_of_rest_eq {k k' : Links} (h : k.rest = k'.rest) : k.aftermath = k'.aftermath := by
  obtain ⟨-, -, hreq, hold⟩ := Links.eqs_of_rest_eq h
  rw [Links.aftermath, Links.aftermath, hreq, hold]

theorem PerLine.get_set_aftermath (p : PerLine Links) {l : Line} {k : Links} (h : k.aftermath = (p.get l).aftermath)
    (m : Line) : ((p.set l k).get m).aftermath = (p.get m).aftermath := by
  by_cases hm : m = l
  · rw [hm, PerLine.get_set_same, h]
  · rw [PerLine.get_set_ne p k hm]

section
variable (s : State) (l m : Line)

theorem State.leaveHolders_memory (h : Holder) (ns : List (Fin 8)) :
    ((s.leaveHolders h ns).rep.get m).memory = none ∨ ((s.leaveHolders h ns).rep.get m).memory = (s.rep.get m).memory := by
  unfold State.leaveHolders
  induction ns generalizing s with
  | nil => exact .inr rfl
  | cons n ns ih =>
    rw [List.foldl_cons]
    refine (ih _).elim .inl fun h' => ?_
    rw [h', State.leaveHolder_rep_get]
    split
    · exact .inl rfl
    · exact .inr rfl

/-- An outcome taken on one line empties the other line's memory at most. -/
theorem State.takeHandedOutcome_memory_ne {l m : Line} (h : m ≠ l) :
    ((s.takeHandedOutcome l).rep.get m).memory = none ∨ ((s.takeHandedOutcome l).rep.get m).memory = (s.rep.get m).memory := by
  unfold State.takeHandedOutcome
  split
  · exact .inr rfl
  · next o _ =>
    let u := ((s.setLink l (s.link.get l).dropOutcome).takeOutcome l o).closeBurst l
    have hu : u.rep.get m = s.rep.get m := by
      rw [show u.rep.get m = ((s.setLink l (s.link.get l).dropOutcome).takeOutcome l o).rep.get m from
        PerLine.get_set_ne _ _ h]
      exact State.takeOutcome_rep_ne _ h o
    have hfinish : ((u.finishBurst l).rep.get m).memory = none ∨ ((u.finishBurst l).rep.get m).memory = (s.rep.get m).memory := by
      rw [← hu]
      exact State.leaveHolders_memory _ m _ _
    dsimp only
    split
    · rw [State.expireMemory_rep_ne _ h]
      exact hfinish
    · exact hfinish

/-- A memory that is to stay empty is empty after the outcome (R85, R86). -/
theorem State.takeHandedOutcome_memory_of_staysEmpty {o : BurstOutcome} (ho : (s.link.get l).outcome = some o)
    (h : s.staysEmpty l = true) : ((s.takeHandedOutcome l).rep.get l).memory = none := by
  simp only [State.takeHandedOutcome, ho, h, if_true]
  exact State.expireMemory_memory _ l

theorem State.actOnNotice_aftermath (n : Notice) : ((s.actOnNotice l n).link.get m).aftermath = (s.link.get m).aftermath := by
  cases n with
  | burstStart t => simp [State.actOnNotice, State.openBurst]
  | element v d =>
    show ((if _ then _ else _ : State).link.get m).aftermath = _
    split
    · exact Links.aftermath_of_rest_eq (State.leaveHolders_rest _ m _ _)
    · rfl
  | burstEnd t | burstAbort why => exact s.link.get_set_aftermath (by rfl) m

/-- A notice acted on empties memories at most. -/
theorem State.actOnNotice_memory (n : Notice) :
    ((s.actOnNotice l n).rep.get m).memory = none ∨ ((s.actOnNotice l n).rep.get m).memory = (s.rep.get m).memory := by
  cases n with
  | burstStart t =>
    right
    show (((s.openBurst l).formCandidates l t).rep.get m).memory = _
    obtain ⟨-, -, hrep, -⟩ := (s.openBurst l).formCandidates_frame l t
    rw [hrep]
    exact s.rep.get_set_memory (by rfl) m
  | element v d =>
    show ((if _ then _ else _ : State).rep.get m).memory = none ∨ ((if _ then _ else _ : State).rep.get m).memory = _
    split
    · exact State.leaveHolders_memory _ m _ _
    · exact .inr rfl
  | burstEnd t | burstAbort why => exact .inr rfl

end

/-! ### Edges and thresholds -/

/-- How an edge or a threshold moves a line: between the states that test edges, the holds and IDLE kept. -/
def FrontEnd.movesTo (f f' : FrontEnd) : Prop :=
  f'.txHold = f.txHold ∧ f'.guardHold = f.guardHold ∧ f'.idle = f.idle ∧ (f'.st = f.st ∨ (testsEdges f.st ∧ testsEdges f'.st))

/-- What an edge or a threshold does: notices go out only of a state that tests edges. -/
structure EdgeStep (s t : State) : Prop where
  pow : t.pow = s.pow
  tx : t.tx = s.tx
  cap : t.cap = s.cap
  rep : t.rep = s.rep
  lines : ∀ l, (s.fe.get l).movesTo (t.fe.get l)
  handed : ∀ l, (t.link.get l).handed = (s.link.get l).handed
  requests : ∀ l, (t.link.get l).expireRequests = (s.link.get l).expireRequests
  notices : ∀ l, (t.link.get l).toDecoder = (s.link.get l).toDecoder ∨ testsEdges (s.fe.get l).st

theorem FrontEnd.movesTo_refl (f : FrontEnd) : f.movesTo f := ⟨rfl, rfl, rfl, .inl rfl⟩

theorem FrontEnd.movesTo.trans {f g h : FrontEnd} (hfg : f.movesTo g) (hgh : g.movesTo h) : f.movesTo h := by
  obtain ⟨htx, hguard, hidle, hst⟩ := hfg
  obtain ⟨htx', hguard', hidle', hst'⟩ := hgh
  refine ⟨htx'.trans htx, hguard'.trans hguard, hidle'.trans hidle, ?_⟩
  rcases hst with hst | hst <;> rcases hst' with hst' | hst'
  · exact .inl (hst'.trans hst)
  · exact .inr (hst ▸ hst')
  · exact .inr (hst' ▸ hst)
  · exact .inr ⟨hst.1, hst'.2⟩

theorem FrontEnd.movesTo.testsEdges {f g : FrontEnd} (h : f.movesTo g) (hg : testsEdges g.st) : testsEdges f.st := by
  obtain ⟨-, -, -, hst | hst⟩ := h
  · exact hst ▸ hg
  · exact hst.1

theorem EdgeStep.refl (s : State) : EdgeStep s s :=
  ⟨rfl, rfl, rfl, rfl, fun _ => FrontEnd.movesTo_refl _, fun _ => rfl, fun _ => rfl, fun _ => .inl rfl⟩

theorem EdgeStep.trans {s t u : State} (h : EdgeStep s t) (h' : EdgeStep t u) : EdgeStep s u where
  pow := h'.pow.trans h.pow
  tx := h'.tx.trans h.tx
  cap := h'.cap.trans h.cap
  rep := h'.rep.trans h.rep
  lines l := (h.lines l).trans (h'.lines l)
  handed l := (h'.handed l).trans (h.handed l)
  requests l := (h'.requests l).trans (h.requests l)
  notices l := by
    rcases h'.notices l with hn | hn
    · rw [hn]
      exact h.notices l
    · exact .inr ((h.lines l).testsEdges hn)

/-- One line moves. -/
theorem EdgeStep.setFe (s : State) (l : Line) {f : FrontEnd} (h : (s.fe.get l).movesTo f) : EdgeStep s (s.setFe l f) where
  pow := rfl
  tx := rfl
  cap := rfl
  rep := rfl
  lines m := by
    rw [State.setFe_fe, PerLine.get_set]
    split
    · next hm => rw [hm]; exact h
    · exact FrontEnd.movesTo_refl _
  handed _ := rfl
  requests _ := rfl
  notices _ := .inl rfl

/-- One line moves and sends a notice. -/
theorem EdgeStep.notice (s : State) (l : Line) {f : FrontEnd} (h : (s.fe.get l).movesTo f) (ht : testsEdges (s.fe.get l).st)
    (n : Notice) : EdgeStep s ((s.setFe l f).sendNotice l n) where
  pow := rfl
  tx := rfl
  cap := rfl
  rep := rfl
  lines := (EdgeStep.setFe s l h).lines
  handed := (State.setFe_sendNotice_handed s l · f n)
  requests m := by
    rw [State.sendNotice_link, PerLine.get_set]
    split
    · next hm => rw [hm]; rfl
    · rfl
  notices m := by
    by_cases hm : m = l
    · exact .inr (hm ▸ ht)
    · rw [State.sendNotice_link, PerLine.get_set_ne _ _ hm]
      exact .inl rfl

section
variable (s : State) (l : Line)

theorem State.actOnThreshold_edge : EdgeStep s (s.actOnThreshold l) := by
  unfold State.actOnThreshold
  split
  · next h =>
    exact .notice s l ⟨by rfl, by rfl, by rfl, .inr ⟨by simp [testsEdges, h], by simp [testsEdges]⟩⟩ (by simp [testsEdges, h]) _
  · next h => exact .setFe s l ⟨by rfl, by rfl, by rfl, .inr ⟨by simp [testsEdges, h], by simp [testsEdges]⟩⟩
  · next h =>
    have hstep := EdgeStep.notice s l (f := { s.fe.get l with st := .stuck, fault := true })
      ⟨by rfl, by rfl, by rfl, .inr ⟨by simp [testsEdges, h], by simp [testsEdges]⟩⟩ (by simp [testsEdges, h]) (.burstAbort .stuck)
    exact ⟨rfl, rfl, rfl, rfl, hstep.lines, hstep.handed, hstep.requests, hstep.notices⟩
  · exact .refl s

theorem State.settleThreshold_edge : EdgeStep s (s.settleThreshold l) := by
  unfold State.settleThreshold
  split
  · exact s.actOnThreshold_edge l
  · exact .refl s

theorem State.acceptEdge_edge (g : GlitchTest) : EdgeStep s (s.acceptEdge l g) := by
  unfold State.acceptEdge
  split
  case h_1 h | h_2 h | h_3 h =>
    exact .notice s l ⟨by rfl, by rfl, by rfl, .inr ⟨by simp [testsEdges, h], by simp [testsEdges]⟩⟩ (by simp [testsEdges, h]) _
  case h_4 h => exact .setFe s l ⟨by rfl, by rfl, by rfl, .inl rfl⟩
  case h_5 h => exact .setFe s l ⟨by rfl, by rfl, by rfl, .inr ⟨by simp [testsEdges, h], by simp [testsEdges]⟩⟩
  case h_6 h =>
    have hmove : EdgeStep s (s.setFe l { s.fe.get l with test := none }) := .setFe s l ⟨by rfl, by rfl, by rfl, .inl rfl⟩
    refine ⟨rfl, rfl, rfl, rfl, hmove.lines, fun m => s.link.get_set_handed (by rfl) m, fun m => ?_, fun m => .inl ?_⟩
    all_goals
      rw [State.setLink_link, PerLine.get_set]
      split
      · next hm => rw [hm]
      · rfl
  case h_7 => exact .refl s

theorem State.settleTest_edge : EdgeStep s (s.settleTest l) := by
  unfold State.settleTest
  split
  · exact .refl s
  · split
    · exact s.acceptEdge_edge l _
    · exact .refl s

theorem State.catchUp_edge : EdgeStep s (s.catchUp l) :=
  (s.settleThreshold_edge l).trans ((State.settleTest_edge _ l).trans (State.settleThreshold_edge _ l))

theorem State.startTest_edge : EdgeStep s (s.startTest l) :=
  (EdgeStep.setFe s l (f := { s.fe.get l with test := some ⟨s.clock.now, (s.fe.get l).idleThreshold⟩ })
    ⟨rfl, rfl, rfl, .inl rfl⟩).trans (State.settleTest_edge _ l)

theorem State.rejectEdge_edge : EdgeStep s (s.rejectEdge l) :=
  (EdgeStep.setFe s l (f := { s.fe.get l with test := none }) ⟨rfl, rfl, rfl, .inl rfl⟩).trans (State.settleThreshold_edge _ l)

theorem State.rawEdge_edge : EdgeStep s (s.rawEdge l) := by
  have hlevel : EdgeStep s (s.setFe l { s.fe.get l with level := !(s.fe.get l).level }) := .setFe s l ⟨by rfl, by rfl, by rfl, .inl rfl⟩
  unfold State.rawEdge
  split
  case h_1 | h_2 | h_3 => exact hlevel
  case h_4 =>
    split
    · exact .setFe s l ⟨by rfl, by rfl, by rfl, .inl rfl⟩
    · exact hlevel.trans (State.startTest_edge _ l)
  all_goals
    split
    · exact hlevel.trans (State.rejectEdge_edge _ l)
    · exact hlevel.trans (State.startTest_edge _ l)

theorem State.thresholdEvent_edge (st : LineState) : EdgeStep s (s.thresholdEvent l st) := by
  unfold State.thresholdEvent
  split
  · exact .refl s
  · next t _ =>
    split
    · have hstep := State.actOnThreshold_edge (s.reachInstant t) l
      exact ⟨hstep.pow, hstep.tx, hstep.cap, hstep.rep, hstep.lines, hstep.handed, hstep.requests, hstep.notices⟩
    · exact .refl s

end

theorem not_testsEdges {st : LineState} (h : st = .off ∨ st = .parked ∨ st = .watch) : ¬ testsEdges st := by
  rcases h with h | h | h <;> simp [h, testsEdges]

end Sys2Proof.Machine

namespace Sys2Proof.Safety

open Sys2Proof (Byte Time Payload Line)
open Sys2Proof.Machine

/-- An edge or a threshold keeps the law. -/
theorem LineLaw.edge {s t : State} (h : LineLaw s) (he : EdgeStep s t) : LineLaw t := by
  obtain ⟨hlines, hdormant⟩ := h
  have hactive : jobActiveNow t ↔ jobActiveNow s := by rw [jobActiveNow, jobActiveNow, he.tx]
  have hoff : ∀ l, (t.fe.get l).st = .off → (s.fe.get l).st = .off := fun l ho => by
    obtain ⟨-, -, -, hst | ⟨-, ht⟩⟩ := he.lines l
    · rw [← hst, ho]
    · simp [ho, testsEdges] at ht
  refine ⟨fun l => ?_, fun hd => ?_⟩
  · obtain ⟨hblanked, htx, hparked, hempty⟩ := hlines l
    obtain ⟨htx', hguard, -, hst⟩ := he.lines l
    have hheld : (t.fe.get l).blankingHeld = (s.fe.get l).blankingHeld := by rw [FrontEnd.blankingHeld, htx', hguard]; rfl
    obtain ⟨-, hold, -⟩ := Links.eqs_of_handed_eq (he.handed l)
    refine ⟨?_, fun h' => hactive.mpr (htx (htx' ▸ h')), fun hp => ?_, fun hs => ?_⟩
    · rcases hst with hst | ⟨hs, ht⟩
      · rw [hst, hheld]
        exact hblanked
      · have hs' : (s.fe.get l).st ≠ .blanked ∧ (s.fe.get l).st ≠ .off := by
          rcases hs with hs | hs | hs | hs | hs <;> simp [hs]
        have ht' : (t.fe.get l).st ≠ .blanked := by
          rcases ht with ht | ht | ht | ht | ht <;> simp [ht]
        rw [hheld]
        exact ⟨fun hb => absurd hb ht', fun hb => absurd (hblanked.mpr ⟨hs'.2, hb.2⟩) hs'.1⟩
    · rw [he.pow]
      rcases hst with hst | ⟨-, ht⟩
      · exact hparked (hst ▸ hp)
      · exact absurd ht (not_testsEdges (.inr hp))
    · rw [he.rep]
      exact hempty (staysEmpty_congr (hoff l) hold (he.requests l) hs)
  · rw [he.pow] at hd
    obtain ⟨htx, hjobs, hcap, hquiet⟩ := hdormant hd
    rw [he.tx, he.cap]
    refine ⟨htx, hjobs, hcap, fun l => ?_⟩
    obtain ⟨hst, hheld, hmem, hopen, hnotices, houtcome, hreq, hold, hposts⟩ := hquiet l
    have hnot := not_testsEdges hst
    obtain ⟨htx', hguard, -, hst'⟩ := he.lines l
    have hst' : (t.fe.get l).st = (s.fe.get l).st := hst'.resolve_right fun h => hnot h.1
    obtain ⟨houtcome', hold', hposts'⟩ := Links.eqs_of_handed_eq (he.handed l)
    refine ⟨hst' ▸ hst, ?_, by rw [he.rep, hmem], by rw [he.rep, hopen], ?_, houtcome'.trans houtcome,
      (he.requests l).trans hreq, hold'.trans hold, hposts'.trans hposts⟩
    · rw [FrontEnd.blankingHeld, htx', hguard]
      exact hheld
    · exact ((he.notices l).resolve_right hnot).trans hnotices

/-- A state with the same lines, memories and links, power state, jobs and capture state. -/
theorem LineLaw.of_same {s t : State} (h : LineLaw s) (hfe : t.fe = s.fe) (hrep : ∀ l, (t.rep.get l).memory = (s.rep.get l).memory ∧
    (t.rep.get l).opened = (s.rep.get l).opened)
    (hlink : ∀ l, (t.link.get l).path = (s.link.get l).path)
    (hpow : t.pow.st = s.pow.st) (hst : t.tx.st = s.tx.st) (hjobs : t.tx.jobs = s.tx.jobs)
    (hcap : s.pow.st = .dormant → ∀ l, t.cap.st ≠ .filling l) : LineLaw t := by
  obtain ⟨hlines, hdormant⟩ := h
  have hactive : jobActiveNow t ↔ jobActiveNow s := by rw [jobActiveNow, jobActiveNow, hst]
  refine ⟨fun l => ?_, fun hd => ?_⟩
  · obtain ⟨hblanked, htx, hparked, hempty⟩ := hlines l
    obtain ⟨-, -, hreq, hold, -⟩ := Links.eqs_of_path_eq (hlink l)
    rw [hfe, hpow, (hrep l).1]
    exact ⟨hblanked, fun ht => hactive.mpr (htx ht), hparked, fun he =>
      hempty (staysEmpty_congr (fun ho => hfe ▸ ho) hold hreq he)⟩
  · rw [hpow] at hd
    obtain ⟨htx, hjobs', -, hquiet⟩ := hdormant hd
    refine ⟨hst.trans htx, hjobs.trans hjobs', hcap hd, fun l => ?_⟩
    obtain ⟨hstates, hheld, hmem, hopen, hnotices, houtcome, hreq, hold, hposts⟩ := hquiet l
    obtain ⟨hnotices', houtcome', hreq', hold', hposts'⟩ := Links.eqs_of_path_eq (hlink l)
    rw [hfe]
    exact ⟨hstates, hheld, (hrep l).1.trans hmem, (hrep l).2.trans hopen, hnotices'.trans hnotices, houtcome'.trans houtcome,
      hreq'.trans hreq, hold'.trans hold, hposts'.trans hposts⟩

/-- A step in ACTIVE or LISTEN that leaves the lines alone, empties memories at most, and adds no case in which a line stays
empty. -/
theorem LineLaw.of_awake {s t : State} (h : LineLaw s) (hd : s.pow.st ≠ .dormant) (hpow : t.pow.st ≠ .dormant)
    (hfe : t.fe = s.fe) (hactive : jobActiveNow s → jobActiveNow t)
    (hrep : ∀ l, (t.rep.get l).memory = none ∨ (t.rep.get l).memory = (s.rep.get l).memory)
    (hlink : ∀ l, (t.link.get l).oldBursts = (s.link.get l).oldBursts ∧
      (t.link.get l).expireRequests = (s.link.get l).expireRequests) : LineLaw t :=
  (lineLaw_iff_awake hpow).mpr fun l =>
    ((lineLaw_iff_awake hd).mp h l).of_fe (by rw [hfe]) hactive
      (staysEmpty_congr (fun ho => hfe ▸ ho) (hlink l).1 (hlink l).2) (hrep l)

/-! ### The line registers -/

/-- A register of line `l` is written in ACTIVE or LISTEN: that line changes within the law. -/
theorem LineLaw.of_line {s t : State} (h : LineLaw s) (hd : s.pow.st ≠ .dormant) (l : Line) (hpow : t.pow = s.pow)
    (htx : t.tx = s.tx) (hrep : t.rep = s.rep) (hother : ∀ m, m ≠ l → t.fe.get m = s.fe.get m ∧ t.link.get m = s.link.get m)
    (hline : LineAwake t l) : LineLaw t := by
  refine (lineLaw_iff_awake (by rwa [hpow])).mpr fun m => ?_
  by_cases hm : m = l
  · exact hm ▸ hline
  · obtain ⟨hfe, hlink⟩ := hother m hm
    exact ((lineLaw_iff_awake hd).mp h m).of_fe hfe (by rw [jobActiveNow, jobActiveNow, htx]; exact id)
      (staysEmpty_congr (fun ho => hfe ▸ ho) (by rw [hlink]) (by rw [hlink])) (.inr (by rw [hrep]))

/-- A line whose state and holds stay. -/
theorem LineLaw.setFe {s : State} (h : LineLaw s) (hd : s.pow.st ≠ .dormant) (l : Line) {f : FrontEnd}
    (hst : f.st = (s.fe.get l).st) (htx : f.txHold = (s.fe.get l).txHold) (hguard : f.guardHold = (s.fe.get l).guardHold) :
    LineLaw (s.setFe l f) := by
  refine h.of_line hd l rfl rfl rfl (fun m hm => ⟨PerLine.get_set_ne _ _ hm, rfl⟩) ?_
  obtain ⟨hlawful, hawake, hempty⟩ := (lineLaw_iff_awake hd).mp h l
  have hget : (s.setFe l f).fe.get l = f := PerLine.get_set_same _ _ _
  have hoff : ((s.setFe l f).fe.get l).st = .off → (s.fe.get l).st = .off := fun ho => by
    rw [hget] at ho
    rw [← hst, ho]
  refine ⟨?_, ?_, fun he => hempty (staysEmpty_congr hoff rfl rfl he)⟩
  · rw [hget]
    exact FrontEnd.lawful_congr hlawful hst htx hguard id
  · rw [hget, hst]
    exact hawake

theorem LineLaw.disableLine {s : State} (h : LineLaw s) (hd : s.pow.st ≠ .dormant) (l : Line) : LineLaw (s.disableLine l) := by
  have hfe : (s.disableLine l).fe = s.fe.set l { s.fe.get l with st := .off, test := none } := by
    simp [State.disableLine, State.requestExpiry]
  have hasked : ((s.disableLine l).link.get l).expireRequests ≠ [] := by
    simp [State.disableLine, State.requestExpiry]
  refine h.of_line hd l (by simp) (by simp) (by simp) (fun m hm => ⟨?_, ?_⟩) ?_
  · rw [hfe, PerLine.get_set_ne _ _ hm]
  · simp [State.disableLine, State.requestExpiry, PerLine.get_set_ne _ _ hm]
  · obtain ⟨⟨-, htx⟩, -, hempty⟩ := (lineLaw_iff_awake hd).mp h l
    obtain ⟨-, hold, -⟩ := Links.eqs_of_handed_eq (s.disableLine_handed l l)
    refine ⟨?_, ?_, fun he => ?_⟩
    · rw [hfe, PerLine.get_set_same]
      exact ⟨by simp, fun ht => by simpa [jobActiveNow] using htx ht⟩
    · rw [hfe, PerLine.get_set_same]
      exact ⟨by simp, by simp⟩
    · rcases he with he | he
      · simpa using hempty (.inl (hold ▸ he))
      · exact absurd he.2 hasked

/-- A line is enabled (R5). -/
theorem LineLaw.enableLine {s : State} (h : LineLaw s) (hd : s.pow.st ≠ .dormant) (l : Line) : LineLaw (s.enableLine l) := by
  obtain ⟨⟨-, htx⟩, -, hempty⟩ := (lineLaw_iff_awake hd).mp h l
  unfold State.enableLine
  split
  · next hheld =>
    refine h.of_line hd l rfl rfl rfl (fun m hm => ⟨PerLine.get_set_ne _ _ hm, rfl⟩) ?_
    unfold LineAwake staysEmptyAfterDisable
    rw [State.setFe_fe, PerLine.get_set_same]
    exact ⟨⟨⟨fun _ => ⟨by simp, hheld⟩, fun _ => rfl⟩, htx⟩, ⟨by simp, by simp⟩, fun he => hempty (.inl (he.resolve_right (by simp)))⟩
  · next hheld =>
    refine h.of_line hd l rfl rfl rfl (fun m hm => ⟨PerLine.get_set_ne _ _ hm, rfl⟩) ?_
    unfold LineAwake staysEmptyAfterDisable
    rw [State.setFe_fe, PerLine.get_set_same]
    exact ⟨FrontEnd.enterSettle_lawful (Bool.eq_false_iff.mpr hheld) _ _, ⟨by simp [FrontEnd.enterSettle], by simp [FrontEnd.enterSettle]⟩,
      fun he => hempty (.inl (he.resolve_right (by simp [FrontEnd.enterSettle])))⟩

theorem LineLaw.writeControl {s : State} (h : LineLaw s) (hd : s.pow.st ≠ .dormant) (l : Line) (v : Byte) :
    LineLaw (State.writeControl l v s) := by
  have hset : LineLaw (if v.getLsbD 0 then s else s.disableLine l) := by
    split
    · exact h
    · exact h.disableLine hd l
  have hrefuse : ∀ u : State, LineLaw u → LineLaw u.refuseAccess := fun u hu => hu
  unfold State.writeControl
  dsimp only
  split
  · split
    · exact hset
    · exact hrefuse _ hset
  · have hpolarity : LineLaw (s.setFe l { s.fe.get l with polarity := v.getLsbD 1 }) := h.setFe hd l rfl rfl rfl
    split
    · exact hpolarity.enableLine hd l
    · exact hpolarity

theorem LineLaw.stored {c : Instr} {s t : State} (h : LineLaw s) (hd : s.pow.st ≠ .dormant) (ht : Stored c s t) : LineLaw t := by
  cases ht with
  | control l v => exact h.writeControl hd l v
  | glitch l v =>
    unfold State.writeGlitch
    split
    · exact h
    · exact h.setFe hd l rfl rfl rfl
  | idle l v =>
    unfold State.writeIdle
    split
    · exact h
    · exact h.setFe hd l rfl rfl rfl
  | lineStatus l v =>
    unfold State.writeLineStatus
    split
    · exact h.setFe hd l rfl rfl rfl
    · exact h
  | guardTime | staging => exact h.of_awake hd hd rfl id (fun _ => .inr rfl) fun _ => ⟨rfl, rfl⟩
  | _ => exact h.of_awake hd (by simpa using hd) (by simp) (by simp [jobActiveNow]) (by simp) (by simp)

/-! ### The transmitter -/

theorem LineLaw.endJob {s : State} (h : LineLaw s) (hd : s.pow.st ≠ .dormant) (j : Job) (st : CompletionStatus) (t : Nat) :
    LineLaw (s.endJob j st t) := by
  have hpow : (s.endJob j st t).pow.st ≠ .dormant := by simpa using hd
  refine (lineLaw_iff_awake hpow).mpr fun l => ?_
  obtain ⟨hlawful, hawake, hempty⟩ := (lineLaw_iff_awake hd).mp h l
  obtain ⟨hlawful', hawake', hoff⟩ := State.endJob_line hlawful hawake j st t
  obtain ⟨-, hrep, hlink, -⟩ := s.endJob_receive j st t
  have hleft : ((s.releaseEntry j).link.get l).rest = (s.link.get l).rest ∧
      (((s.releaseEntry j).rep.get l).memory = none ∨ ((s.releaseEntry j).rep.get l).memory = (s.rep.get l).memory) := by
    unfold State.releaseEntry
    split
    · exact ⟨rfl, .inr rfl⟩
    · refine ⟨State.leaveHolder_rest s l _ _, ?_⟩
      rw [State.leaveHolder_rep_get]
      split
      · exact .inl rfl
      · exact .inr rfl
  obtain ⟨hrest, hmem⟩ := hleft
  obtain ⟨-, -, hreq, hold⟩ := Links.eqs_of_rest_eq hrest
  refine ⟨⟨hlawful'.1, fun ht => (hlawful'.2 ht).elim⟩, hawake', fun he => ?_⟩
  rw [hrep]
  rcases hmem with hm | hm
  · exact hm
  · rw [hm]
    exact hempty (staysEmpty_congr hoff (by rw [hlink, hold]) (by rw [hlink, hreq]) he)

theorem LineLaw.countBurst {s : State} (h : LineLaw s) : LineLaw s.countBurst := h

/-- The transmitter takes a blanking hold while a job is active (R12, R136). -/
theorem LineLaw.takeBlanking {s : State} (h : LineLaw s) (hd : s.pow.st ≠ .dormant) (hactive : jobActiveNow s) (l : Line) :
    LineLaw (s.takeBlanking l) := by
  refine h.of_line hd l (by simp) (by simp) (by simp) (fun m hm => ⟨?_, ?_⟩) ?_
  · rw [State.takeBlanking_fe, PerLine.get_set_ne _ _ hm]
  · show (s.abortBurst l .blanked).link.get m = _
    rw [State.abortBurst_link, PerLine.get_set_ne _ _ hm]
  · obtain ⟨-, hawake, hempty⟩ := (lineLaw_iff_awake hd).mp h l
    obtain ⟨-, hold, -⟩ := Links.eqs_of_handed_eq (s.takeBlanking_handed l l)
    have hreq : ((s.takeBlanking l).link.get l).expireRequests = (s.link.get l).expireRequests := by
      show ((s.abortBurst l .blanked).link.get l).expireRequests = _
      rw [State.abortBurst_link, PerLine.get_set_same]
    have hfe := congrArg (PerLine.get · l) (s.takeBlanking_fe l)
    dsimp only at hfe
    rw [PerLine.get_set_same] at hfe
    refine ⟨?_, ?_, fun he => ?_⟩
    · rw [hfe]
      refine ⟨?_, fun _ => by simpa [jobActiveNow] using hactive⟩
      show (s.fe.get l).st.underHold = .blanked ↔ (s.fe.get l).st.underHold ≠ .off ∧ (true || _) = true
      rw [Bool.true_or]
      exact (LineState.underHold_blanked hawake).trans (and_iff_left rfl).symm
    · rw [hfe]
      exact LineState.underHold_awake hawake
    · simpa using hempty (staysEmpty_congr (fun ho => LineState.underHold_off (by rwa [hfe] at ho)) hold hreq he)

theorem LineLaw.blankFor {s : State} (h : LineLaw s) (hd : s.pow.st ≠ .dormant) (hactive : jobActiveNow s) (j : Job) (l : Line) :
    LineLaw (s.blankFor j l) := by
  unfold State.blankFor
  split
  · exact h.takeBlanking hd hactive l
  · exact h

theorem LineLaw.abortActive {s : State} (h : LineLaw s) (hd : s.pow.st ≠ .dormant) :
    LineLaw s.abortActive.1 ∧ s.abortActive.1.pow = s.pow := by
  refine ⟨?_, by simp⟩
  generalize hr : s.abortActive = r
  cases hr ▸ s.abortActive_aborted with
  | notActive => exact h
  | burst j _ _ => exact h.countBurst.endJob hd _ _ _
  | gap j _ _ => exact h.endJob hd _ _ _

theorem LineLaw.abortTx {s : State} (h : LineLaw s) (hd : s.pow.st ≠ .dormant) : LineLaw s.abortTx.1 := by
  obtain ⟨habort, hpow⟩ := h.abortActive hd
  have hd' : s.abortActive.1.pow.st ≠ .dormant := by rwa [hpow]
  unfold State.abortTx
  split
  · exact habort
  · split
    · rw [State.removeWaiting_eq]
      exact habort.of_awake hd' hd' rfl id (fun _ => .inr rfl) fun _ => ⟨rfl, rfl⟩
    · exact h

theorem LineLaw.afterBurst {s : State} (h : LineLaw s) (hd : s.pow.st ≠ .dormant) (j : Job) : LineLaw (s.afterBurst j) := by
  unfold State.afterBurst
  split
  · exact h.of_awake hd hd rfl (fun _ => .inr rfl) (fun _ => .inr rfl) fun _ => ⟨rfl, rfl⟩
  · exact h.endJob hd _ _ _

theorem LineLaw.jobActive {s : State} (h : LineLaw s) (hd : s.pow.st ≠ .dormant) (j : Job) (n : Fin 8) :
    LineLaw (s.jobActive j n) := by
  have hburst : (s.jobActive j n).tx.st = .burst := by simp
  let u : State := { s.joinHolder .transmitter n with tx := (s.jobActive j n).tx }
  have hactive : jobActiveNow u := .inl hburst
  have hu : LineLaw u := h.of_awake hd hd rfl (fun _ => hactive) (fun _ => .inr rfl) fun _ => ⟨rfl, rfl⟩
  have hpow : (u.blankFor j .A).pow = s.pow := by simp [u]
  have hA := hu.blankFor hd hactive j .A
  rw [State.jobActive_eq]
  exact hA.blankFor (by rwa [hpow]) (by simpa [jobActiveNow] using hactive) j .B

/-! ### DORMANT -/

/-- Leaving DORMANT, every enabled line enters SETTLE (R15). -/
theorem LineLaw.leaveDormant {s : State} (h : LineLaw s) (hd : s.pow.st = .dormant) {p : PowerState} (hp : p ≠ .dormant) :
    LineLaw (s.leaveDormant p) := by
  obtain ⟨hlines, hdormant⟩ := h
  obtain ⟨-, -, -, hquiet⟩ := hdormant hd
  have hfe : ∀ l, (s.leaveDormant p).fe.get l =
      if (s.fe.get l).enabled then (s.fe.get l).enterSettle s.clock.now else s.fe.get l := s.leaveDormant_fe_get p
  refine (lineLaw_iff_awake hp).mpr fun l => ?_
  obtain ⟨hst, hheld, hmem, -⟩ := hquiet l
  have htx : (s.fe.get l).txHold = false := by
    simp only [FrontEnd.blankingHeld, Bool.or_eq_false_iff] at hheld
    exact hheld.1
  refine ⟨?_, ?_, fun _ => by simpa using hmem⟩
  · rw [hfe]
    split
    · exact FrontEnd.enterSettle_lawful hheld _ _
    · next hoff =>
      have hoff : (s.fe.get l).st = .off := by simpa [FrontEnd.enabled] using hoff
      exact ⟨by simp [hoff], fun ht => (Bool.false_ne_true (htx.symm.trans ht)).elim⟩
  · rw [hfe]
    split
    · exact ⟨by simp [FrontEnd.enterSettle], by simp [FrontEnd.enterSettle]⟩
    · next hoff =>
      have hoff : (s.fe.get l).st = .off := by simpa [FrontEnd.enabled] using hoff
      exact ⟨by simp [hoff], by simp [hoff]⟩

theorem LineLaw.noteWake {s : State} (h : LineLaw s) (w : WakeSource) : LineLaw (s.noteWake w) := by
  unfold State.noteWake
  split
  · exact h
  · exact h

theorem LineLaw.wakeByEdge {s : State} (h : LineLaw s) (hd : s.pow.st = .dormant) (l : Line) : LineLaw (s.wakeByEdge l) := by
  have hasserted : ∀ u : State, LineLaw u → LineLaw ((u.assertWake).setWakeCause) := fun _ hu => hu
  have hleft : LineLaw (s.leaveDormant .listen) := h.leaveDormant hd (by simp)
  unfold State.wakeByEdge
  exact (hasserted _ hleft).noteWake _

theorem LineLaw.wakeUp {s : State} (h : LineLaw s) : LineLaw s.wakeUp := by
  unfold State.wakeUp
  split
  · exact h
  · next hl =>
    have hset : LineLaw (s.setPower .active) :=
      h.of_awake (by simp [hl]) (by simp [State.setPower]) rfl id (fun _ => .inr rfl) fun _ => ⟨rfl, rfl⟩
    exact hset.noteWake _
  · next hd =>
    have hleft : LineLaw (s.leaveDormant .active) := h.leaveDormant hd (by simp)
    exact hleft.noteWake _

/-- The entry to DORMANT finds the transmitter without an active job, and so no line held but by the guard timer. -/
theorem LineLaw.goDormant {s : State} (h : LineLaw s) (hd : s.pow.st ≠ .dormant) (hst : s.tx.st = .idle) (hjobs : s.tx.jobs = [])
    (mask : Byte) : LineLaw (s.goDormant mask) := by
  have hidle : ¬ jobActiveNow s := not_jobActiveNow (.inl hst)
  rw [State.goDormant_eq]
  obtain ⟨hfe, htx, hcap, -⟩ := s.quieted_frame mask
  have hline : ∀ l, (((s.quieted mask).fe.get l).st = .off ∨ ((s.quieted mask).fe.get l).st = .parked ∨
      ((s.quieted mask).fe.get l).st = .watch) ∧ ((s.quieted mask).fe.get l).blankingHeld = false := fun l => by
    obtain ⟨⟨-, hhold⟩, -, -⟩ := (lineLaw_iff_awake hd).mp h l
    have hfree : (s.fe.get l).txHold = false := Bool.eq_false_iff.mpr fun ht => hidle (hhold ht)
    obtain ⟨named, hpark⟩ := (s.settleInFlight s.entryOrder.inFlight).parkLines_fe_get mask l
    rw [hfe, hpark]
    obtain ⟨-, hfe', -⟩ := s.settleInFlight_frame s.entryOrder.inFlight
    rw [hfe']
    split
    · refine ⟨?_, by simp [FrontEnd.blankingHeld, hfree]⟩
      cases named
      · exact .inr (.inl rfl)
      · exact .inr (.inr rfl)
    · next hoff => exact ⟨.inl (by simpa [FrontEnd.enabled] using hoff), by simp [FrontEnd.blankingHeld, hfree]⟩
  refine ⟨fun l => ?_, fun _ => ⟨htx ▸ hst, htx ▸ hjobs, fun l => ?_, fun l => ?_⟩⟩
  · obtain ⟨hstate, hheld⟩ := hline l
    obtain ⟨⟨-, -, -, hmem, -⟩, -⟩ := s.quieted_quiet mask l
    refine ⟨?_, fun ht => ?_, fun _ => rfl, fun _ => hmem⟩
    · rw [hheld]
      rcases hstate with hs | hs | hs <;> simp [hs]
    · simp only [FrontEnd.blankingHeld, Bool.or_eq_false_iff] at hheld
      exact (Bool.false_ne_true (hheld.1.symm.trans ht)).elim
  · show (s.quieted mask).cap.enterDormant.st ≠ .filling l
    unfold Capture.enterDormant
    split <;> simp_all [Capture.abandon]
  · obtain ⟨hstate, hheld⟩ := hline l
    obtain ⟨⟨hdec, hreq, hold, hmem, hopen⟩, hposts⟩ := s.quieted_quiet mask l
    exact ⟨hstate, hheld, hmem, hopen, hdec.1, hdec.2, hreq, hold, hposts⟩

theorem LineLaw.enterDormant {s : State} (h : LineLaw s) (hd : s.pow.st ≠ .dormant) : LineLaw s.enterDormant.1 := by
  unfold State.enterDormant
  split
  · exact h
  · split
    · next hq =>
      simp only [State.txQuiet, Bool.and_eq_true, decide_eq_true_eq, List.isEmpty_iff] at hq
      exact h.goDormant hd hq.1 hq.2 _
    · exact h

/-! ### Deliveries -/

/-- In DORMANT a delivery finds nothing on its way but a notice or a report to the capture unit and an offer, which change
nothing that the law speaks of. -/
theorem LineLaw.delivered_dormant {s t : State} (h : LineLaw s) (hd : s.pow.st = .dormant) (ht : Delivered s t)
    (hc : CaptureKept s t.cap) : LineLaw t := by
  obtain ⟨-, -, hfilling, hquiet⟩ := h.2 hd
  have hcap : t.cap.st = s.cap.st := hc.2.2 hd hfilling
  have same : t.fe = s.fe → t.rep = s.rep → (∀ l, (t.link.get l).path = (s.link.get l).path) → t.pow.st = s.pow.st →
      t.tx = s.tx → LineLaw t := fun hfe hrep hlink hpow htx =>
    h.of_same hfe (fun l => by rw [hrep]; exact ⟨rfl, rfl⟩) hlink hpow (by rw [htx]) (by rw [htx])
      fun _ l => by rw [hcap]; exact hfilling l
  cases ht with
  | absent => exact h
  | notice l n hn =>
    obtain ⟨-, -, -, -, hnotices, -⟩ := hquiet l
    simp [State.decoderNotice, hnotices] at hn
  | outcome l =>
    obtain ⟨-, -, -, -, -, houtcome, -⟩ := hquiet l
    rw [State.takeHandedOutcome_of_none houtcome]
    exact h
  | dueInBurst l hopened =>
    obtain ⟨-, -, -, hopen, -⟩ := hquiet l
    exact (Bool.false_ne_true (hopen.symm.trans hopened)).elim
  | dueOutsideBurst l =>
    obtain ⟨-, -, hmem, -⟩ := hquiet l
    rw [State.expireMemory, hmem]
    exact h
  | expireRequest l n ns hreq =>
    obtain ⟨-, -, -, -, -, -, hreq', -⟩ := hquiet l
    exact absurd (hreq'.symm.trans hreq) (by simp)
  | post l p hp =>
    obtain ⟨-, -, -, -, -, -, -, -, hposts⟩ := hquiet l
    simp [State.oldestPost, hposts] at hp
  | increment l p hp =>
    obtain ⟨-, -, -, -, -, -, -, -, hposts⟩ := hquiet l
    simp [State.oldestIncrement, hposts] at hp
  | captureNotice l c => exact same rfl rfl (s.link.get_set_path rfl) rfl rfl
  | captureElement l v d hrec =>
    simp only [Capture.records, Bool.and_eq_true, decide_eq_true_eq] at hrec
    exact absurd hrec.1 (hfilling l)
  | report l c => exact same rfl rfl (s.link.get_set_path rfl) rfl rfl
  | offer l o os =>
    have hdrop : (s.setLink l { s.link.get l with offers := os }).takeOffer l o = s.setLink l { s.link.get l with offers := os } :=
      if_neg (by simp [hd])
    rw [hdrop] at same ⊢
    exact same rfl rfl (s.link.get_set_path rfl) rfl rfl

/-- An outcome taken in ACTIVE or LISTEN: where the memory was to stay empty it is emptied, and elsewhere no case is added in
which it stays empty (R85; log entry 22). -/
theorem LineLaw.takeHandedOutcome {s : State} (h : LineLaw s) (hd : s.pow.st ≠ .dormant) (l : Line) :
    LineLaw (s.takeHandedOutcome l) := by
  have hpow : (s.takeHandedOutcome l).pow.st ≠ .dormant := by simpa using hd
  have hfe : ∀ m, (s.takeHandedOutcome l).fe.get m = s.fe.get m := fun m => by simp
  have hactive : jobActiveNow s → jobActiveNow (s.takeHandedOutcome l) := by simp [jobActiveNow]
  cases ho : (s.link.get l).outcome with
  | none =>
    rw [State.takeHandedOutcome_of_none ho]
    exact h
  | some o =>
    refine (lineLaw_iff_awake hpow).mpr fun m => ?_
    have hline := (lineLaw_iff_awake hd).mp h m
    by_cases hm : m = l
    · subst hm
      have hrest := s.takeHandedOutcome_rest m
      obtain ⟨-, -, hreq, hold⟩ := Links.eqs_of_rest_eq hrest
      simp only [Links.afterOutcome, ho, Option.isSome_some, if_true, Links.dropOutcome] at hreq hold
      cases hstays : s.staysEmpty m with
      | true =>
        exact hline.of_fe (hfe m) hactive
          (fun _ => by simpa [State.staysEmpty, hd, staysEmptyAfterDisable] using hstays)
          (.inl (s.takeHandedOutcome_memory_of_staysEmpty m ho hstays))
      | false =>
        obtain ⟨hlawful, hawake, -⟩ := hline
        have hfree : ¬ staysEmptyAfterDisable (s.takeHandedOutcome m) m := fun he => by
          simp only [State.staysEmpty, hd, false_or, decide_eq_false_iff_not, not_or, not_and] at hstays
          rw [staysEmptyAfterDisable, hfe, hreq, hold] at he
          rcases he with he | ⟨hoff, hnone⟩
          · exact hstays.1 (by omega)
          · exact hstays.2 hoff (List.map_eq_nil_iff.mp hnone)
        refine ⟨?_, by rw [hfe]; exact hawake, fun he => absurd he hfree⟩
        rw [hfe]
        exact FrontEnd.lawful_congr hlawful rfl rfl rfl hactive
    · obtain ⟨-, -, hreq, hold⟩ := Links.eqs_of_rest_eq (s.takeHandedOutcome_rest_ne hm)
      exact hline.of_fe (hfe m) hactive (staysEmpty_congr (fun ho => by rwa [hfe] at ho) hold hreq)
        (s.takeHandedOutcome_memory_ne hm)

theorem State.noteWake_pow_st (s : State) (w : WakeSource) : (s.noteWake w).pow.st = s.pow.st := by
  unfold State.noteWake
  split <;> rfl

theorem State.takeOffer_ne_dormant {s : State} (hd : s.pow.st ≠ .dormant) (l : Line) (o : Offer) :
    (s.takeOffer l o).pow.st ≠ .dormant := by
  unfold State.takeOffer
  split
  · split
    · exact hd
    · next hl n _ =>
      show (if (wakeEntryAt s.mem n).resume then PowerState.active
        else ((((s.assertWake).setWakeCause).noteWake (.matched n)).pow.st)) ≠ .dormant
      split
      · simp
      · rw [State.noteWake_pow_st]
        exact hd
  · exact hd

/-- In ACTIVE and LISTEN. -/
theorem LineLaw.delivered_awake {s t : State} (h : LineLaw s) (hd : s.pow.st ≠ .dormant) (ht : Delivered s t) : LineLaw t := by
  cases ht with
  | absent => exact h
  | notice l n hn =>
    unfold State.takeNotice
    split
    · refine h.of_awake hd (by simpa using hd) (by simp) (by simp [jobActiveNow])
        (fun m => State.actOnNotice_memory (s.dropDecoderNotice l) l m n) fun m => Links.eqs_of_aftermath_eq ?_
      rw [State.actOnNotice_aftermath]
      exact s.link.get_set_aftermath (by rfl) m
    · exact h
  | outcome l => exact h.takeHandedOutcome hd l
  | dueInBurst l _ =>
    exact h.of_awake hd hd rfl id (fun m => .inr (s.rep.get_set_memory (by rfl) m)) fun _ => ⟨rfl, rfl⟩
  | dueOutsideBurst l _ =>
    refine h.of_awake hd (by simpa using hd) (by simp) (by simp [jobActiveNow]) (fun m => ?_) fun m =>
      Links.eqs_of_aftermath_eq (Links.aftermath_of_rest_eq (s.expireMemory_rest l m))
    rw [State.expireMemory_memory_get]
    split
    · exact .inl rfl
    · exact .inr rfl
  | expireRequest l n ns _ =>
    let u := s.setLink l { s.link.get l with expireRequests := ns, oldBursts := max (s.link.get l).oldBursts n }
    have hrep : ∀ m, ((((u.expireMemory l).closeBurst l)).rep.get m).memory = if m = l then none else (s.rep.get m).memory :=
      fun m => (PerLine.get_set_memory _ (by rfl) m).trans (u.expireMemory_memory_get l m)
    have hrest : ∀ m, ((((u.expireMemory l).closeBurst l)).link.get m).rest = (u.link.get m).rest := u.expireMemory_rest l
    refine (lineLaw_iff_awake (by simpa [u] using hd)).mpr fun m => ?_
    have hline := (lineLaw_iff_awake hd).mp h m
    by_cases hm : m = l
    · exact hline.of_empty (by simp) (by simp [jobActiveNow]) ((hrep m).trans (if_pos hm))
    · obtain ⟨-, -, hreq, hold⟩ := Links.eqs_of_rest_eq (hrest m)
      have hlink : u.link.get m = s.link.get m := PerLine.get_set_ne _ _ hm
      exact hline.of_fe (by simp) (by simp [jobActiveNow])
        (staysEmpty_congr (by simp) (hold.trans (by rw [hlink])) (hreq.trans (by rw [hlink]))) (.inr ((hrep m).trans (if_neg hm)))
  | post l p _ =>
    refine h.of_awake hd (by simpa using hd) (by simp) (by simp [jobActiveNow]) (fun m => .inr (by simp)) fun m =>
      Links.eqs_of_aftermath_eq ?_
    obtain ⟨-, -, -, -, hlink, -⟩ := State.takePost_frame (s.dropRequest l fun p => !s.isIncrement l p) p
    rw [hlink]
    exact Links.aftermath_of_rest_eq (s.dropRequest_rest l m _)
  | increment l p _ =>
    exact h.of_awake hd hd rfl id (fun _ => .inr rfl) fun m =>
      Links.eqs_of_aftermath_eq (Links.aftermath_of_rest_eq (s.dropRequest_rest l m _))
  | captureNotice l c | report l c =>
    exact h.of_awake hd hd rfl id (fun _ => .inr rfl) fun m => Links.eqs_of_aftermath_eq (s.link.get_set_aftermath (by rfl) m)
  | captureElement l v d _ =>
    refine h.of_awake hd (by simpa using hd) (by simp) (by simp [jobActiveNow]) (fun m => .inr (by simp)) fun m =>
      Links.eqs_of_aftermath_eq ?_
    obtain ⟨-, -, -, -, hlink, -⟩ := (s.dropCaptureNotice l).appendElement_frame v d
    rw [hlink]
    exact s.link.get_set_aftermath (by rfl) m
  | offer l o os _ =>
    let u := s.setLink l { s.link.get l with offers := os }
    refine h.of_awake hd (State.takeOffer_ne_dormant (s := u) hd l o) (by simp) (by simp [jobActiveNow])
      (fun m => .inr (by simp)) fun m => Links.eqs_of_aftermath_eq ?_
    obtain ⟨-, -, -, -, hlink, -⟩ := u.takeOffer_frame l o
    rw [hlink]
    exact s.link.get_set_aftermath (by rfl) m

theorem LineLaw.delivered {s t : State} (h : LineLaw s) (ht : Delivered s t) (hc : CaptureKept s t.cap) : LineLaw t := by
  by_cases hd : s.pow.st = .dormant
  · exact h.delivered_dormant hd ht hc
  · exact h.delivered_awake hd ht

/-! ### Commands -/

theorem LineLaw.disableFormat {s : State} (h : LineLaw s) (hd : s.pow.st ≠ .dormant) : LineLaw s.disableFormat.1 := by
  unfold State.disableFormat
  split
  · exact h
  · next n _ =>
    split
    · exact h
    · exact h
    · split
      · rw [State.clearMemoriesNaming_eq]
        have hset : LineLaw (s.setEntry n { s.entries[n] with st := .disabled }) := h
        refine hset.of_awake hd (by simpa using hd) (by simp) (by simp [jobActiveNow]) (fun l => ?_) fun l =>
          Links.eqs_of_aftermath_eq (Links.aftermath_of_rest_eq (State.clearOf_rest _ l _))
        show (((s.setEntry n { s.entries[n] with st := .disabled }).clearOf _).rep.get l).memory = none ∨
          (((s.setEntry n { s.entries[n] with st := .disabled }).clearOf _).rep.get l).memory = (s.rep.get l).memory
        rw [State.clearOf_rep_get]
        split
        · exact .inl rfl
        · exact .inr rfl
      · exact h

theorem LineLaw.stopTx {s : State} (h : LineLaw s) (hd : s.pow.st ≠ .dormant) : LineLaw s.stopTx.1 := by
  generalize hr : s.stopTx = r
  cases hr ▸ s.stopTx_stopped with
  | notActive => exact h
  | burst => exact h.of_awake hd hd rfl id (fun _ => .inr rfl) fun _ => ⟨rfl, rfl⟩
  | gap j _ _ => exact h.endJob hd _ _ _

theorem LineLaw.enterListen {s : State} (h : LineLaw s) (hd : s.pow.st ≠ .dormant) : LineLaw s.enterListen.1 := by
  unfold State.enterListen
  split
  · exact h
  · split
    · exact h.of_awake hd (by simp [State.setPower]) rfl id (fun _ => .inr rfl) fun _ => ⟨rfl, rfl⟩
    · exact h

theorem LineLaw.carried {c : Instr} {s t : State} (h : LineLaw s) (hd : s.pow.st ≠ .dormant) (ht : Carried c s t) : LineLaw t := by
  cases ht with
  | disableFormat => exact h.disableFormat hd
  | submitJob =>
    generalize hr : s.submitJob = r
    cases hr ▸ s.submitJob_submitted with
    | refused => exact h
    | job | replay => exact h.of_awake hd hd rfl id (fun _ => .inr rfl) fun _ => ⟨rfl, rfl⟩
  | stopTx => exact h.stopTx hd
  | abortTx => exact h.abortTx hd
  | enterListen => exact h.enterListen hd
  | enterDormant => exact h.enterDormant hd
  | popCompletion =>
    unfold State.popCompletion
    split
    · exact h
    · exact h.of_awake hd hd rfl id (fun _ => .inr rfl) fun _ => ⟨rfl, rfl⟩
  | clearWake => exact h.of_awake hd hd rfl id (fun _ => .inr rfl) fun _ => ⟨rfl, rfl⟩
  | _ => exact h.of_awake hd (by simpa using hd) (by simp) (by simp [jobActiveNow]) (by simp) (by simp)

/-! ### Every row -/

theorem LineLaw.reset (s : State) (k : ResetKind) (mem : List Host.Cell) : LineLaw (s.resetTo k mem) := by
  refine (lineLaw_iff_awake (by simp [State.resetTo, State.afterReset, PowerUnit.reset])).mpr fun l => ?_
  cases l <;>
    exact ⟨⟨⟨fun h => (nomatch h), fun h => absurd rfl h.1⟩, fun h => (nomatch h)⟩,
      ⟨fun h => (nomatch h), fun h => (nomatch h)⟩, fun _ => rfl⟩

/-- A guard hold runs only on a line that is not in DORMANT. -/
theorem LineLaw.guardEnded {s : State} (h : LineLaw s) {l : Line} {t : Nat} (hg : (s.fe.get l).guardHold = some t) :
    LineLaw (s.endGuardHold l) := by
  have hheld : (s.fe.get l).blankingHeld = true := by simp [FrontEnd.blankingHeld, hg]
  have hd : s.pow.st ≠ .dormant := fun hd => by
    obtain ⟨-, -, -, hquiet⟩ := h.2 hd
    obtain ⟨-, hfree, -⟩ := hquiet l
    exact Bool.false_ne_true (hfree.symm.trans hheld)
  obtain ⟨⟨hblanked, htx⟩, hawake, hempty⟩ := (lineLaw_iff_awake hd).mp h l
  have hget : (s.setFe l { s.fe.get l with guardHold := none }).fe.get l = { s.fe.get l with guardHold := none } :=
    PerLine.get_set_same _ _ _
  refine h.of_line hd l (by simp) (by simp) (by simp) (fun m hm => ⟨?_, by simp⟩) ⟨?_, ?_, fun he => ?_⟩
  · rw [State.endGuardHold, State.unblank_fe_ne _ hm, State.setFe_fe, PerLine.get_set_ne _ _ hm]
  · refine State.unblank_lawful ?_ ?_
    · rw [hget]
      exact hblanked.trans (and_iff_left hheld)
    · rw [hget]
      simpa [jobActiveNow] using htx
  · refine State.unblank_awake ?_
    rw [hget]
    exact hawake
  · have hoff : ((s.endGuardHold l).fe.get l).st = .off → (s.fe.get l).st = .off := fun ho => by
      have := State.unblank_off ho
      rwa [hget] at this
    simpa using hempty (staysEmpty_congr hoff (by simp) (by simp) he)

theorem LineLaw.reached {c : Instr} {s t : State} (h : LineLaw s) (ht : Reached c s t) : LineLaw t := by
  obtain ⟨-, hdormant⟩ := id h
  have runs : s.tx.st ≠ .idle → s.pow.st ≠ .dormant := fun hst hd => hst (hdormant hd).1
  have same : ∀ {u : State}, u.fe = s.fe → u.rep = s.rep → (∀ l, (u.link.get l).path = (s.link.get l).path) → u.pow.st = s.pow.st →
      u.tx = s.tx → u.cap = s.cap → LineLaw u := fun hfe hrep hlink hpow htx hcap =>
    h.of_same hfe (fun l => by rw [hrep]; exact ⟨rfl, rfl⟩) hlink hpow (by rw [htx]) (by rw [htx])
      fun hd l => by rw [hcap]; exact (hdormant hd).2.2.1 l
  cases ht with
  | nothing => exact h
  | reset k mem => exact LineLaw.reset s k mem
  | stored _ _ hd ht => exact h.stored hd ht
  | carried t _ _ hd ht =>
    have hcarried : LineLaw t := h.carried hd ht
    exact hcarried
  | wakeUp => exact h.wakeUp
  | delivered _ ht hc => exact h.delivered ht hc
  | tick hruns =>
    have hd : s.pow.st ≠ .dormant := fun hd => by simp [State.timeRuns, hd] at hruns
    exact h.of_awake hd (by simpa using hd) (by simp) (by simp [jobActiveNow]) (fun l => .inr (State.tick_memory _ l)) (by simp)
  | edge l dt => 
    exact LineLaw.edge (s := s.elapse dt) h (((s.elapse dt).catchUp_edge l).trans (State.rawEdge_edge _ l))
  | accepted l g _ => exact LineLaw.edge (s := s.reachInstant ((s.fe.get l).acceptInstant g)) h (State.acceptEdge_edge _ l g)
  | threshold l st => exact h.edge (s.thresholdEvent_edge l st)
  | jobUnavailable j hm _ =>
    obtain ⟨hst, hactive, -⟩ := s.mayStart_iff.mp hm
    have hd : s.pow.st ≠ .dormant := by simp [hactive]
    exact h.of_awake hd (by simpa using hd) (by simp) (fun ha => absurd ha (not_jobActiveNow (.inl hst))) (by simp) (by simp)
  | jobActive j n hm _ _ _ => exact h.jobActive (fun hd => by simp [State.mayStart, hd] at hm) j n
  | burstEnded j hst _ =>
    have hcounted : LineLaw ((s.reachInstant s.tx.burstEnd).countBurst) := h
    exact hcounted.afterBurst (runs (by simp [hst])) j
  | nextBurst j hst _ =>
    have hd := runs (by simp [hst])
    exact h.of_awake hd hd rfl (fun _ => .inl rfl) (fun _ => .inr rfl) fun _ => ⟨rfl, rfl⟩
  | tailEnded hst =>
    have hd := runs (by simp [hst])
    exact h.of_awake hd hd rfl (fun ha => absurd ha (not_jobActiveNow (.inr hst))) (fun _ => .inr rfl) fun _ => ⟨rfl, rfl⟩
  | guardEnded l t hg => exact LineLaw.guardEnded (s := s.reachInstant t) h hg
  | wakeEdge l k hd _ =>
    have htaken : LineLaw (s.setLink l { s.link.get l with wakeEdges := k }) :=
      same rfl rfl (s.link.get_set_path rfl) rfl rfl rfl
    exact htaken.wakeByEdge hd l
  | wakeEdgeDropped l k _ => exact same rfl rfl (s.link.get_set_path rfl) rfl rfl rfl
  | _ => exact same (by simp) (by simp) (by simp) (by simp) (by simp) (by simp)

/-! ### A reset that is held -/

/-- Every block at its reset values, as the law of a held reset says. -/
def HeldReset (s : State) : Prop :=
  (∃ a b, s.fe = ⟨FrontEnd.reset a, FrontEnd.reset b⟩) ∧ s.dec = ⟨Decoder.reset, Decoder.reset⟩ ∧
  s.rep = ⟨RepeatUnit.reset, RepeatUnit.reset⟩ ∧ s.link = ⟨Links.reset, Links.reset⟩ ∧
  s.entries = Vector.replicate 8 EntryControl.reset ∧ s.rq = ReceiveQueue.reset ∧ s.cap = Capture.reset ∧
  s.tx = Transmitter.reset ∧ (∃ k, s.pow = { PowerUnit.reset k with resetHeld := true }) ∧ s.win = HostWindow.reset ∧
  s.irq = InterruptUnit.reset ∧ s.clock.time = 0 ∧ s.clock.snapshot = 0

theorem resetLaw_iff (s : State) : ResetLaw s ↔ (s.pow.resetHeld = true → HeldReset s) := Iff.rfl

section
variable {s : State} (h : HeldReset s) (l : Line)
include h

/-- Nothing is on its way while a reset is held. -/
theorem HeldReset.link : s.link.get l = Links.reset := by
  obtain ⟨-, -, -, hlink, -⟩ := h
  rw [hlink]
  cases l <;> rfl

theorem HeldReset.rep : s.rep.get l = RepeatUnit.reset := by
  obtain ⟨-, -, hrep, -⟩ := h
  rw [hrep]
  cases l <;> rfl

theorem HeldReset.fe : ∃ a, s.fe.get l = FrontEnd.reset a := by
  obtain ⟨⟨a, b, hfe⟩, -⟩ := h
  rw [hfe]
  cases l
  · exact ⟨a, rfl⟩
  · exact ⟨b, rfl⟩

theorem HeldReset.tx : s.tx = Transmitter.reset := by
  obtain ⟨-, -, -, -, -, -, -, htx, -⟩ := h
  exact htx

theorem HeldReset.pow : ∃ k, s.pow = { PowerUnit.reset k with resetHeld := true } := by
  obtain ⟨-, -, -, -, -, -, -, -, hpow, -⟩ := h
  exact hpow

/-- Nothing is delivered while a reset is held. -/
theorem HeldReset.delivery {c : Instr} (hc : isDelivery c = true) : exec c s = .next s := by
  cases c with
  | decoderBurstStart l | decoderElement l | decoderBurstEnd l | decoderBurstAbort l =>
    simp [exec, execDecoderBurstStart, execDecoderElement, execDecoderBurstEnd, execDecoderBurstAbort, State.decoderNotice,
      State.decoderBusy, h.link l, Links.reset]
  | outcomeTaken l =>
    show Host.Outcome.next (s.takeHandedOutcome l) = _
    rw [State.takeHandedOutcome_of_none (by rw [h.link l]; rfl)]
  | lfmDue l => simp [exec, execLfmDue, h.rep l, RepeatUnit.reset]
  | expireRequest l => simp [exec, execExpireRequest, h.link l, Links.reset]
  | post l => simp [exec, execPost, State.oldestPost, h.link l, Links.reset]
  | repeatCountIncrement l => simp [exec, execRepeatCountIncrement, State.oldestIncrement, h.link l, Links.reset]
  | wakeOffer l => simp [exec, execWakeOffer, h.link l, Links.reset]
  | captureBurstStart l | captureElement l | captureClose l | captureReport l =>
    simp [exec, execCaptureBurstStart, execCaptureElement, execCaptureClose, execCaptureReport, h.link l, Links.reset]
  | _ => cases hc

/-- The level at an input is left open while a reset is held. -/
theorem HeldReset.setLevel (v : Bool) : HeldReset (s.setFe l { s.fe.get l with level := v }) := by
  obtain ⟨⟨a, b, hfe⟩, hrest⟩ := h
  refine ⟨?_, hrest⟩
  cases l
  · exact ⟨v, b, by simp [State.setFe, PerLine.set, PerLine.get, hfe, FrontEnd.reset]⟩
  · exact ⟨a, v, by simp [State.setFe, PerLine.set, PerLine.get, hfe, FrontEnd.reset]⟩

/-- An edge while a reset is held changes the level and nothing else. -/
theorem HeldReset.rawEdge : HeldReset ((s.catchUp l).rawEdge l) := by
  obtain ⟨a, hfe⟩ := h.fe l
  have hthreshold : s.settleThreshold l = s := by
    simp [State.settleThreshold, State.thresholdPassed, hfe, FrontEnd.reset, FrontEnd.thresholdInstant]
  have htest : s.settleTest l = s := by simp [State.settleTest, hfe, FrontEnd.reset]
  have hedge : (s.catchUp l).rawEdge l = s.setFe l { s.fe.get l with level := !(s.fe.get l).level } := by
    rw [State.catchUp, hthreshold, htest, hthreshold]
    unfold State.rawEdge
    rw [hfe]
    rfl
  rw [hedge]
  exact h.setLevel l _

end

/-- A row leaves the processor running or lets the reset go on. -/
theorem ResetLaw.reached {c : Instr} {s t : State} (h : ResetLaw s) (ht : Reached c s t) : ResetLaw t := by
  rw [resetLaw_iff] at h ⊢
  cases hr : s.pow.resetHeld with
  | true =>
    replace h := h hr
    have htx := h.tx
    obtain ⟨k, hpow⟩ := h.pow
    have contra {p : Prop} (h' : s.pow.resetHeld = false) : p := absurd (hr.symm.trans h') (by simp)
    intro hheld
    cases ht with
    | nothing => exact h
    | reset k mem => exact absurd hheld (by simp [State.resetTo, State.afterReset, PowerUnit.reset])
    | refused hr' | answered _ hr' | stored _ hr' | carried _ _ hr' | wakeUp hr' | tableWrite _ hr' | timeLoRead _ hr'
    | headRead _ hr' | tableRead _ hr' => exact contra hr'
    | heldRead =>
      obtain ⟨hfe, hdec, hrep, hlink, hentries, hrq, hcap, htx, hpow, hwin, hrest⟩ := h
      refine ⟨hfe, hdec, hrep, hlink, hentries, hrq, hcap, htx, hpow, ?_, hrest⟩
      rw [State.driveBus, hwin]
      rfl
    | delivered t _ _ hi he =>
      rw [h.delivery hi] at he
      cases he
      exact h
    | tick hruns => simp [State.timeRuns, hr] at hruns
    | edge l dt => exact HeldReset.rawEdge (s := s.elapse dt) h l
    | accepted l g hg =>
      obtain ⟨a, hfe⟩ := h.fe l
      simp [hfe, FrontEnd.reset] at hg
    | threshold l st =>
      obtain ⟨a, hfe⟩ := h.fe l
      simpa [State.thresholdEvent, hfe, FrontEnd.reset, FrontEnd.thresholdInstant] using h
    | jobUnavailable j _ hj | jobActive j _ _ hj => simp [htx, Transmitter.reset] at hj
    | burstEnded j hst _ | nextBurst j hst _ | tailEnded hst => simp [htx, Transmitter.reset] at hst
    | guardEnded l t hg =>
      obtain ⟨a, hfe⟩ := h.fe l
      simp [hfe, FrontEnd.reset] at hg
    | wakeEdge l k hd hk | wakeEdgeDropped l k hk => simp [h.link l, Links.reset] at hk
  | false => exact fun hheld => absurd (ht.resetHeld hheld) (by simp [hr])

theorem ResetLaw.kept : KeptByEveryStep ResetLaw :=
  keptByEveryStep_of_reached (fun _ _ h => h) (fun _ h => h) fun _ _ _ h ht => h.reached ht

theorem LineLaw.kept : KeptByEveryStep LineLaw :=
  keptByEveryStep_of_reached (fun _ _ h => h) (fun _ h => h) fun _ _ _ h ht => h.reached ht

end Sys2Proof.Safety

open Sys2Proof Sys2Proof.Machine Sys2Proof.Safety

/-- Settles O59: with the lines' states, their memories and what is on its way taken together, each row is a move within the
laws; while a reset is held no row but an edge at an OFF line finds anything to act on. -/
theorem lineLawIsKept : Obligations.LineLawIsKept := ⟨LineLaw.kept, ResetLaw.kept⟩

end

