-- ==== Sys2Proof/Proofs/Whole.lean ====
section
/-! PROOF. O1, O2 and O60: what a step is, that every row completes, and the laws right after a reset. -/

namespace Sys2Proof.Machine

open Sys2Proof (Byte Time Payload Line)

/-- Every row has a next state. -/
theorem exec_completes (c : Instr) (s : State) : ∃ t, exec c s = .next t := by
  cases c with
  | decoderBurstStart l | decoderElement l | decoderBurstEnd l | decoderBurstAbort l =>
    simp only [exec, execDecoderBurstStart, execDecoderElement, execDecoderBurstEnd, execDecoderBurstAbort]
    split <;> exact ⟨_, rfl⟩
  | glitchTestAccept l =>
    simp only [exec, execGlitchTestAccept]
    split <;> exact ⟨_, rfl⟩
  | lfmDue l =>
    simp only [exec, execLfmDue]
    split
    · split <;> exact ⟨_, rfl⟩
    · exact ⟨_, rfl⟩
  | expireRequest l =>
    simp only [exec, execExpireRequest]
    split <;> exact ⟨_, rfl⟩
  | post l | repeatCountIncrement l =>
    simp only [exec, execPost, execRepeatCountIncrement]
    split <;> exact ⟨_, rfl⟩
  | captureBurstStart l | captureClose l | captureReport l =>
    simp only [exec, execCaptureBurstStart, execCaptureClose, execCaptureReport]
    split <;> exact ⟨_, rfl⟩
  | captureElement l =>
    simp only [exec, execCaptureElement]
    split
    · split <;> exact ⟨_, rfl⟩
    · exact ⟨_, rfl⟩
  | jobStart =>
    simp only [exec, execJobStart]
    split
    · exact ⟨_, rfl⟩
    · split
      · split
        · exact ⟨_, rfl⟩
        · split <;> exact ⟨_, rfl⟩
      · exact ⟨_, rfl⟩
  | txBurstEnd | nextBurstStart | tailEnd =>
    simp only [exec, execTxBurstEnd, execNextBurstStart, execTailEnd]
    split <;> exact ⟨_, rfl⟩
  | guardHoldEnd l =>
    simp only [exec, execGuardHoldEnd]
    split <;> exact ⟨_, rfl⟩
  | wakeEdge l | wakeOffer l =>
    simp only [exec, execWakeEdge, execWakeOffer]
    split <;> exact ⟨_, rfl⟩
  | registerWrite off v =>
    simp only [exec, execRegisterWrite]
    split
    · exact ⟨_, rfl⟩
    · split <;> exact ⟨_, rfl⟩
  | _ => exact ⟨_, rfl⟩

/-- No row takes a command off the queue or puts one on it. -/
theorem Reached.pending {c : Instr} {s t : State} (h : Reached c s t) : t.pending = s.pending := by
  cases h with
  | stored _ _ _ h => cases h <;> simp
  | carried t _ _ _ h =>
    show t.pending = s.pending
    cases h <;> simp
  | delivered _ h => cases h <;> simp
  | threshold l st => simp
  | reset => rfl
  | _ => simp

end Sys2Proof.Machine

open Sys2Proof Sys2Proof.Machine Sys2Proof.Safety

/-- Settles O1: the two branches of the step. -/
theorem stepRunsFrontCommand : Obligations.StepRunsFrontCommand := by
  refine ⟨fun c rest s h => by rw [step, h], fun s h => ?_⟩
  unfold step
  split
  · rfl
  · next c rest hc => exact absurd (h.symm.trans hc) (by simp)

/-- Settles O2: every row has a next state, and no state a row leads to has another queue of commands. -/
theorem everyCommandCompletes : Obligations.EveryCommandCompletes := fun c s => by
  obtain ⟨t, ht⟩ := exec_completes c s
  exact ⟨t, ht, (exec_reached c s t ht).pending⟩

end

