-- ==== Sys2Proof/Proofs/Table.lean ====
section
/-! PROOF. O31, O52 and O53: the bytes of the table space, and who changes them. -/

namespace Sys2Proof.Machine

open Sys2Proof (Byte Time Payload Line)
open Sys2Proof.Safety

/-! ### The capture buffer -/

section
variable {m : List Host.Cell} {k : Nat} {v : Level} {d : Nat}

theorem captureAddress_eq (k : Nat) : captureAddress k = 0x200 + 2 * k := rfl

theorem read_writeCaptureEntry_low (hm : Memory.wf m) :
    Memory.read (writeCaptureEntry m k v d) (captureAddress k) = BitVec.ofNat 8 (captureValue v d) := by
  rw [writeCaptureEntry, Memory.read_write_ne _ _ (by omega), Memory.read_write_same hm]

theorem read_writeCaptureEntry_high (hm : Memory.wf m) (hk : k < 256) :
    Memory.read (writeCaptureEntry m k v d) (captureAddress k + 1) = BitVec.ofNat 8 (captureValue v d / 256) := by
  have hlow : captureAddress k < Config.tableSize := Nat.lt_of_succ_lt (captureAddress_lt hk)
  rw [writeCaptureEntry, Memory.read_write_same (Memory.write_wf hm hlow _)]

theorem captureValue_eq (v : Level) (d : Nat) : captureValue v d = (if v = .mark then 32768 else 0) + min d 32767 := rfl

/-- The element read back is the one recorded, its duration held to 15 bits (R115). -/
theorem captureElementAt_writeCaptureEntry (hm : Memory.wf m) (hk : k < 256) :
    captureElementAt (writeCaptureEntry m k v d) k = ⟨v, min d 32767⟩ := by
  have hlow := read_writeCaptureEntry_low (m := m) (k := k) (v := v) (d := d) hm
  have hhigh := read_writeCaptureEntry_high (m := m) (k := k) (v := v) (d := d) hm hk
  have hmin : min d 32767 ≤ 32767 := Nat.min_le_right _ _
  have hlevel : (BitVec.ofNat 8 (captureValue v d / 256)).getLsbD 7 = decide (v = .mark) := by
    rw [captureValue_eq]
    refine getLsbD_eq_of_toNat ?_
    rw [BitVec.toNat_ofNat]
    cases v <;> simp <;> omega
  have hword : Memory.word (writeCaptureEntry m k v d) (captureAddress k) % 32768 = min d 32767 := by
    rw [Memory.word, hlow, hhigh, BitVec.toNat_ofNat, BitVec.toNat_ofNat, captureValue_eq]
    cases v <;> simp <;> omega
  rw [captureElementAt, hhigh, hlevel, hword]
  cases v <;> rfl

end

/-! ### Who changes a byte -/

/-- A write of TABLE DATA to the address the pointer holds. -/
theorem State.offerTableByte_read_ne (s : State) {a b : Nat} (v : Byte) (h : b ≠ a) :
    Memory.read (s.offerTableByte a v).mem b = Memory.read s.mem b := by
  unfold State.offerTableByte
  split
  · split
    · exact Memory.read_write_ne _ _ h
    · rfl
  · rfl

/-- A byte that a write of TABLE DATA changes is stored, and its owner has taken the write. -/
theorem State.offerTableByte_read {s : State} {a b : Nat} {v : Byte}
    (h : Memory.read (s.offerTableByte a v).mem b ≠ Memory.read s.mem b) :
    b = a ∧ s.takesTableWrite a = true ∧ addressStored a = true := by
  have hab : b = a := by_contra fun hne => h (s.offerTableByte_read_ne v hne)
  unfold State.offerTableByte at h
  split at h
  · next ht =>
    split at h
    · next hs => exact ⟨hab, ht.2, hs⟩
    · exact absurd rfl h
  · exact absurd rfl h

/-- The table space after a row: as it was, with the byte at the pointer offered to its owner, or with an element appended. -/
inductive TableAfter (c : Instr) (s : State) : List Host.Cell → Prop
  | same : TableAfter c s s.mem
  | cleared (hc : c = .powerOnReset) : TableAfter c s []
  | offered (v : Byte) (hc : c.WellFormed = true → c = .tableDataWrite v) :
      TableAfter c s (s.offerTableByte s.win.pointer.toNat v).mem
  | appended (l : Line) (v : Level) (d : Nat) (hc : c = .captureElement l) (hr : s.cap.records l = true) (hk : s.cap.count < 256) :
      TableAfter c s (writeCaptureEntry s.mem s.cap.count v d)

theorem TableAfter.of_eq {c : Instr} {s : State} {m : List Host.Cell} (h : m = s.mem) : TableAfter c s m := h ▸ .same

/-- What a delivery does to the table space. -/
theorem exec_delivery_tableAfter {c : Instr} (hc : isDelivery c = true) (s : State) :
    AllNext (fun t => TableAfter c s t.mem) (exec c s) := by
  cases c with
  | captureElement l =>
    show AllNext _ (execCaptureElement l s)
    unfold execCaptureElement
    split
    · split
      · next hr =>
        refine .next ?_
        unfold State.appendElement
        split
        · next hk => exact .appended l _ _ rfl hr hk
        · exact .same
      · exact .next .same
    · exact .next .same
  | decoderBurstStart l | decoderElement l | decoderBurstEnd l | decoderBurstAbort l =>
    simp only [exec, execDecoderBurstStart, execDecoderElement, execDecoderBurstEnd, execDecoderBurstAbort]
    split <;> exact .next (.of_eq (by simp))
  | outcomeTaken l => exact .next (.of_eq (by simp))
  | lfmDue l =>
    show AllNext _ (execLfmDue l s)
    unfold execLfmDue
    split
    · split <;> exact .next (.of_eq (by simp))
    · exact .next .same
  | expireRequest l | post l | repeatCountIncrement l | wakeOffer l =>
    simp only [exec, execExpireRequest, execPost, execRepeatCountIncrement, execWakeOffer]
    split <;> exact .next (.of_eq (by simp))
  | captureBurstStart l | captureClose l | captureReport l =>
    simp only [exec, execCaptureBurstStart, execCaptureClose, execCaptureReport]
    split <;> exact .next (.of_eq (by simp))
  | _ => cases hc

/-- What a row does to the table space. -/
theorem Reached.tableAfter {c : Instr} {s t : State} (h : Reached c s t) : TableAfter c s t.mem := by
  cases h with
  | reset k mem hm =>
    rcases hm with hm | ⟨hm, hc⟩
    · exact .of_eq hm
    · show TableAfter c s mem
      rw [hm]
      exact .cleared hc
  | stored _ _ _ h => cases h <;> exact .of_eq (by simp)
  | carried t _ _ _ h =>
    show TableAfter c s t.mem
    cases h <;> exact .of_eq (by simp)
  | tableWrite v _ _ hw => exact .offered v hw
  | delivered t _ _ hi he => exact exec_delivery_tableAfter hi s t he
  | _ => exact .of_eq (by simp)

/-! ### Where an address lies -/

theorem addressStored_capture {a : Nat} (h₀ : 0x200 ≤ a) (h₁ : a < 1024) : addressStored a = true := by
  rw [addressStored_of_ge (by omega)]
  simp [h₁]
  omega

theorem Capture.records_iff (c : Capture) (l : Line) : c.records l = true ↔ c.st = .filling l ∧ c.closed = false := by
  simp [Capture.records]

end Sys2Proof.Machine

namespace Sys2Proof.Safety

open Sys2Proof (Byte Time Payload Line)
open Sys2Proof.Machine

/-- The law of the table space speaks of the table space alone. -/
theorem TableLaw.after {c : Instr} {s : State} {m : List Host.Cell} (h : TableLaw s) (ht : TableAfter c s m) :
    Memory.wf m ∧ ∀ a, addressStored a = false → Memory.read m a = 0 := by
  obtain ⟨hwf, hzero⟩ := h
  cases ht with
  | same => exact ⟨hwf, hzero⟩
  | cleared => exact ⟨Memory.nil_wf, fun _ _ => rfl⟩
  | offered v =>
    refine ⟨?_, fun a ha => ?_⟩
    · unfold State.offerTableByte
      split
      · split
        · exact Memory.write_wf hwf s.win.pointer.isLt v
        · exact hwf
      · exact hwf
    · by_contra hne
      obtain ⟨hab, -, hs⟩ := State.offerTableByte_read (fun he => hne (he.trans (hzero a ha)))
      rw [hab, hs] at ha
      cases ha
  | appended l v d _ _ hk =>
    refine ⟨writeCaptureEntry_wf hwf hk v d, fun a ha => ?_⟩
    have outside : ∀ b, captureAddress s.cap.count ≤ b → b ≤ captureAddress s.cap.count + 1 → a ≠ b := fun b h₀ h₁ hab => by
      have := captureAddress_lt hk
      have hbase : 0x200 ≤ captureAddress s.cap.count := Nat.le_add_right _ _
      have hsize : Config.tableSize = 1024 := rfl
      rw [addressStored_capture (by omega) (by omega)] at ha
      cases ha
    rw [writeCaptureEntry_read_ne _ _ _ _ (outside _ le_rfl (Nat.le_succ _)) (outside _ (Nat.le_succ _) le_rfl)]
    exact hzero a ha

theorem TableLaw.kept : KeptByEveryStep TableLaw :=
  keptByEveryStep_of_reached (fun _ _ h => h) (fun _ h => h) fun _ _ _ h ht => TableLaw.after h ht.tableAfter

end Sys2Proof.Safety

open Sys2Proof Sys2Proof.Machine Sys2Proof.Safety

/-- Settles O53: the table space after a row is one of four, and each meets the law. -/
theorem tableLawIsKept : Obligations.TableLawIsKept := TableLaw.kept

/-- Settles O52: a byte that changes is the byte at the pointer, whose owner has taken it, or belongs to the element appended. -/
theorem storedBytesChangeOnlyByTheirOwners : Obligations.StoredBytesChangeOnlyByTheirOwners := by
  intro c s t hwf hc ht a ha
  have hafter := (exec_reached c s t ht).tableAfter
  generalize t.mem = m at ha hafter
  cases hafter with
  | same => exact absurd rfl ha
  | cleared hreset => exact absurd hreset hc
  | offered v hv =>
    obtain ⟨hab, htakes, hstored⟩ := State.offerTableByte_read ha
    have hc := hv hwf
    subst hab
    refine ⟨fun n h₀ h₁ => ?_, fun h₀ h₁ => ?_, fun h₀ => .inl ?_, .inl ⟨v, hc, rfl⟩⟩
    · rw [State.takesTableWrite_entry _ h₀ (by omega)] at htakes
      exact ⟨of_decide_eq_true htakes, v, hc⟩
    · rw [State.takesTableWrite_wakeList _ h₀ (by omega)] at htakes
      exact ⟨of_decide_eq_true htakes, v, hc⟩
    · rw [State.takesTableWrite_capture _ h₀] at htakes
      exact ⟨of_decide_eq_true htakes, v, hc⟩
  | appended l v d hc hr hk =>
    have hplace : a = 0x200 + 2 * s.cap.count ∨ a = 0x201 + 2 * s.cap.count := by
      by_contra hne
      exact ha (writeCaptureEntry_read_ne _ _ _ _ (fun h => hne (.inl h)) fun h => hne (.inr (by rw [h, captureAddress_eq]; omega)))
    refine ⟨fun n _ h₁ => ?_, fun _ h₁ => ?_, fun _ => .inr ⟨l, ((s.cap.records_iff l).mp hr).1, hc⟩, .inr ⟨l, hc, hplace⟩⟩
    · omega
    · omega

/-- Settles O31: the element read back from the two bytes written, and the bytes beside them. -/
theorem captureElementIsAppended : Obligations.CaptureElementIsAppended := by
  intro l v d rest s hnotice hwf
  have hdrop : s.dropCaptureNotice l = { s with link := s.link.set l { s.link.get l with toCapture := rest } } := by
    rw [State.dropCaptureNotice, hnotice]
    rfl
  have hexec : exec (.captureElement l) s =
      if s.cap.records l then .next ((s.dropCaptureNotice l).appendElement v d) else .next (s.dropCaptureNotice l) := by
    show execCaptureElement l s = _
    rw [execCaptureElement, hnotice]
  intro recording u value first
  refine ⟨fun hr hk => ?_, fun hr hk => ?_, fun hr => ?_⟩
  · have happend : exec (.captureElement l) s = .next { u with
        mem := writeCaptureEntry s.mem s.cap.count v d, cap := { s.cap with count := s.cap.count + 1 } } := by
      rw [hexec, if_pos ((s.cap.records_iff l).mpr hr), hdrop, State.appendElement]
      exact congrArg _ (if_pos hk)
    exact ⟨_, happend, rfl, writeCaptureEntry_wf hwf hk v d, read_writeCaptureEntry_low hwf, read_writeCaptureEntry_high hwf hk,
      captureElementAt_writeCaptureEntry hwf hk, fun a h₀ h₁ => writeCaptureEntry_read_ne _ _ _ _ h₀ h₁⟩
  · rw [hexec, if_pos ((s.cap.records_iff l).mpr hr), hdrop, State.appendElement]
    exact congrArg _ (if_neg (Nat.not_lt.mpr hk))
  · rw [hexec, if_neg fun h => hr ((s.cap.records_iff l).mp h), hdrop]

end

