-- ==== Sys2Proof/Proofs/Idle.lean ====
section
/-! PROOF. O57: the space windows of the entries in use and the idle thresholds of their lines. -/

namespace Sys2Proof.Machine

open Sys2Proof (Byte Time Payload Line)
open Sys2Proof.Safety

/-! ### IDLE is changed by its own write -/

section
variable (s : State) (l m : Line)

theorem PerLine.get_set_idle (p : PerLine FrontEnd) {l : Line} {f : FrontEnd} (h : f.idle = (p.get l).idle) (m : Line) :
    ((p.set l f).get m).idle = (p.get m).idle := by
  by_cases hm : m = l
  · rw [hm, PerLine.get_set_same, h]
  · rw [PerLine.get_set_ne p f hm]

theorem EdgeStep.idle {s t : State} (h : EdgeStep s t) : (t.fe.get m).idle = (s.fe.get m).idle := by
  obtain ⟨-, -, hidle, -⟩ := h.lines m
  exact hidle

theorem State.unblank_idle : ((s.unblank l).fe.get m).idle = (s.fe.get m).idle := by
  rw [State.unblank_fe]
  split
  · exact s.fe.get_set_idle (by rfl) m
  · rfl

theorem State.endGuardHold_idle : ((s.endGuardHold l).fe.get m).idle = (s.fe.get m).idle := by
  rw [State.endGuardHold, State.unblank_idle]
  exact s.fe.get_set_idle (by rfl) m

theorem State.passToGuard_idle (t : Nat) : ((s.passToGuard t l).fe.get m).idle = (s.fe.get m).idle := by
  unfold State.passToGuard
  split
  · rw [State.unblank_idle]
    exact s.fe.get_set_idle (by rfl) m
  · rfl

theorem State.endJob_idle (j : Job) (st : CompletionStatus) (t : Nat) :
    ((s.endJob j st t).fe.get m).idle = (s.fe.get m).idle := by
  rw [State.endJob, State.passToGuard_idle, State.passToGuard_idle]
  simp

theorem State.blankFor_idle (j : Job) : ((s.blankFor j l).fe.get m).idle = (s.fe.get m).idle := by
  unfold State.blankFor
  split
  · rw [State.takeBlanking_fe]
    exact s.fe.get_set_idle (by rfl) m
  · rfl

theorem State.jobActive_idle (j : Job) (n : Fin 8) : ((s.jobActive j n).fe.get m).idle = (s.fe.get m).idle := by
  show ((((s.joinHolder .transmitter n).blankFor j .A).blankFor j .B).fe.get m).idle = _
  rw [State.blankFor_idle, State.blankFor_idle]
  rfl

theorem State.enableLine_idle : ((s.enableLine l).fe.get m).idle = (s.fe.get m).idle := by
  unfold State.enableLine
  split <;> exact s.fe.get_set_idle (by rfl) m

theorem State.disableLine_idle : ((s.disableLine l).fe.get m).idle = (s.fe.get m).idle := by
  rw [State.disableLine, State.requestExpiry, State.setLink_fe, State.setFe_fe]
  simpa using s.fe.get_set_idle (l := l) (f := { s.fe.get l with st := .off, test := none }) rfl m

theorem State.writeControl_idle (v : Byte) : ((State.writeControl l v s).fe.get m).idle = (s.fe.get m).idle := by
  have hset : ((if v.getLsbD 0 then s else s.disableLine l : State).fe.get m).idle = (s.fe.get m).idle := by
    split
    · rfl
    · exact s.disableLine_idle l m
  unfold State.writeControl
  dsimp only
  split
  · split
    · exact hset
    · exact hset
  · have hpolarity := s.fe.get_set_idle (l := l) (f := { s.fe.get l with polarity := v.getLsbD 1 }) rfl m
    split
    · rw [State.enableLine_idle]
      exact hpolarity
    · exact hpolarity

theorem State.parkLine_idle (b : Bool) : ((s.parkLine b l).fe.get m).idle = (s.fe.get m).idle := by
  rw [State.parkLine_fe]
  refine s.fe.get_set_idle ?_ m
  split <;> rfl

theorem State.leaveDormant_idle (p : PowerState) : ((s.leaveDormant p).fe.get m).idle = (s.fe.get m).idle := by
  rw [State.leaveDormant_fe_get]
  split <;> rfl

end

/-! ### What bears on the law -/

/-- Nothing that bears on the law of the idle thresholds has changed, but that entries have become DISABLED. -/
structure WindowsKept (s t : State) : Prop where
  mem : t.mem = s.mem
  idle : ∀ l, (t.fe.get l).idle = (s.fe.get l).idle
  entries : ∀ n : Fin 8, t.entries[n].st ≠ .disabled → s.entries[n].st ≠ .disabled

theorem WindowsKept.refl (s : State) : WindowsKept s s := ⟨rfl, fun _ => rfl, fun _ h => h⟩

theorem WindowsKept.trans {s t u : State} (h : WindowsKept s t) (h' : WindowsKept t u) : WindowsKept s u :=
  ⟨h'.mem.trans h.mem, fun l => (h'.idle l).trans (h.idle l), fun n hn => h.entries n (h'.entries n hn)⟩

theorem WindowsKept.of_same {s t : State} (hmem : t.mem = s.mem) (hfe : t.fe = s.fe) (hentries : t.entries = s.entries) :
    WindowsKept s t := ⟨hmem, fun l => by rw [hfe], fun n hn => by rwa [hentries] at hn⟩

/-- The lines change, their IDLE kept. -/
theorem WindowsKept.of_idle {s t : State} (hmem : t.mem = s.mem) (hidle : ∀ l, (t.fe.get l).idle = (s.fe.get l).idle)
    (hentries : t.entries = s.entries) : WindowsKept s t := ⟨hmem, hidle, fun n hn => by rwa [hentries] at hn⟩

section
variable (s : State) (l : Line)

theorem State.leaveHolder_windowsKept (h : Holder) (n : Fin 8) : WindowsKept s (s.leaveHolder h n) := by
  refine ⟨by simp, by simp, fun m hm hd => hm ?_⟩
  rw [State.leaveHolder_eq]
  show ((s.entries.set n (s.entries[n].left h))[m]).st = .disabled
  rw [getElem_set_entry]
  split
  · next hmn =>
    subst hmn
    rw [EntryControl.left_eq_of_st (by simp [-Fin.getElem_fin, hd]), EntryControl.setHolder_st]
    exact hd
  · exact hd

theorem State.leaveHolders_windowsKept (h : Holder) (ns : List (Fin 8)) : WindowsKept s (s.leaveHolders h ns) := by
  unfold State.leaveHolders
  induction ns generalizing s with
  | nil => exact .refl s
  | cons n ns ih => exact (s.leaveHolder_windowsKept h n).trans (ih _)

theorem State.joinHolder_windowsKept (h : Holder) (n : Fin 8) : WindowsKept s (s.joinHolder h n) := by
  refine ⟨rfl, fun _ => rfl, fun m hm => ?_⟩
  have hm : ((s.entries.set n (s.entries[n].setHolder h true))[m]).st ≠ .disabled := hm
  rw [getElem_set_entry] at hm
  split at hm
  · next hmn => rwa [EntryControl.setHolder_st, ← hmn] at hm
  · exact hm

theorem State.formCandidates_windowsKept (t : Time) : WindowsKept s (s.formCandidates l t) := by
  refine ⟨by simp, by simp, fun m hm => ?_⟩
  rw [State.formCandidates, State.joinAll_getElem] at hm
  split at hm
  · rwa [EntryControl.setHolder_st] at hm
  · exact hm

theorem State.actOnNotice_windowsKept (n : Notice) : WindowsKept s (s.actOnNotice l n) := by
  cases n with
  | burstStart t => exact (WindowsKept.of_same (s := s) (t := s.openBurst l) rfl rfl rfl).trans (State.formCandidates_windowsKept _ l t)
  | element v d =>
    show WindowsKept s (if _ then _ else _)
    split
    · exact (WindowsKept.of_same (by rfl) (by rfl) (by rfl)).trans (State.leaveHolders_windowsKept _ _ _)
    · exact .refl s
  | burstEnd t | burstAbort why => exact .of_same rfl rfl rfl

theorem State.takeHandedOutcome_windowsKept : WindowsKept s (s.takeHandedOutcome l) := by
  unfold State.takeHandedOutcome
  split
  · exact .refl s
  · next o _ =>
    let u := ((s.setLink l (s.link.get l).dropOutcome).takeOutcome l o).closeBurst l
    have hu : WindowsKept s u := .of_same (by simp [u]) (by simp [u]) (by simp [u])
    have hfinish : WindowsKept s (u.finishBurst l) :=
      hu.trans ((WindowsKept.of_same (by rfl) (by rfl) (by rfl)).trans (State.leaveHolders_windowsKept _ _ _))
    dsimp only
    split
    · have hexpire : ∀ w : State, WindowsKept w (w.expireMemory l) := fun w => .of_same (by simp) (by simp) (by simp)
      exact hfinish.trans (hexpire _)
    · exact hfinish

theorem State.endJob_windowsKept (j : Job) (st : CompletionStatus) (t : Nat) : WindowsKept s (s.endJob j st t) := by
  refine ⟨by simp, fun m => s.endJob_idle m j st t, fun n hn => ?_⟩
  obtain ⟨hentries, -⟩ := s.endJob_receive j st t
  rw [hentries] at hn
  unfold State.releaseEntry at hn
  split at hn
  · exact hn
  · exact (s.leaveHolder_windowsKept _ _).entries n hn

theorem windowsKept_entry : KeptByEntry (WindowsKept s) where
  outcome _ l h := h.trans (State.takeHandedOutcome_windowsKept _ l)
  notice _ l n _ _ h := h.trans (State.actOnNotice_windowsKept _ l n)
  noNotices _ _ h := h.trans (.of_same rfl rfl rfl)
  requests _ _ h := h.trans (.of_same (by simp) (by simp) (by simp))
  park _ b l h := h.trans (.of_idle (by simp) (fun m => State.parkLine_idle _ l m b) (by simp))
  quiet _ _ h := h.trans (.of_same (by simp) (by simp) (by simp))

theorem State.enterDormant_windowsKept : WindowsKept s s.enterDormant.1 := by
  unfold State.enterDormant
  split
  · exact .refl s
  · split
    · rw [State.goDormant_eq]
      exact ((windowsKept_entry s).quieted _ (.refl s)).trans (.of_same rfl rfl rfl)
    · exact .refl s

theorem State.disableFormat_windowsKept : WindowsKept s s.disableFormat.1 := by
  have hset : ∀ n e, (e.st ≠ .disabled → s.entries[n].st ≠ .disabled) → WindowsKept s (s.setEntry n e) := fun n e he => by
    refine ⟨rfl, fun _ => rfl, fun m hm => ?_⟩
    have hm : ((s.entries.set n e)[m]).st ≠ .disabled := hm
    rw [getElem_set_entry] at hm
    split at hm
    · next hmn => exact hmn ▸ he hm
    · exact hm
  unfold State.disableFormat
  split
  · exact .refl s
  · next n _ =>
    split
    · exact .of_same rfl rfl rfl
    · exact .of_same rfl rfl rfl
    · next hst =>
      split
      · have hclear : ∀ w : State, WindowsKept w ((w.clearMemoriesNaming n).setArg 0) := fun w =>
          .of_same (by simp) (by simp) (by simp)
        exact (hset n { s.entries[n] with st := .disabled } fun h => absurd rfl h).trans (hclear _)
      · exact (hset n { s.entries[n] with st := .retiring } fun _ => by simp [-Fin.getElem_fin, hst]).trans (.of_same rfl rfl rfl)

theorem State.afterBurst_windowsKept (j : Job) : WindowsKept s (s.afterBurst j) := by
  unfold State.afterBurst
  split
  · exact .of_same rfl rfl rfl
  · exact State.endJob_windowsKept _ _ _ _

theorem State.stopTx_windowsKept : WindowsKept s s.stopTx.1 := by
  generalize hr : s.stopTx = r
  cases hr ▸ s.stopTx_stopped with
  | notActive => exact .refl s
  | burst => exact .of_same rfl rfl rfl
  | gap j _ _ => exact State.endJob_windowsKept _ _ _ _

theorem State.abortTx_windowsKept : WindowsKept s s.abortTx.1 := by
  have habort : WindowsKept s s.abortActive.1 := by
    generalize hr : s.abortActive = r
    cases hr ▸ s.abortActive_aborted with
    | notActive => exact .refl s
    | burst j _ _ => exact (WindowsKept.of_same (s := s) (t := s.countBurst) rfl rfl rfl).trans (State.endJob_windowsKept _ _ _ _)
    | gap j _ _ => exact State.endJob_windowsKept _ _ _ _
  unfold State.abortTx
  split
  · exact habort
  · split
    · rw [State.removeWaiting_eq]
      exact habort.trans (.of_same rfl rfl rfl)
    · exact .refl s

end

/-! ### The stored fields of an entry -/

/-- The fields of an entry are read out of its own 46 bytes. -/
theorem formatAt_congr {m m' : List Host.Cell} {n : Fin 8}
    (h : ∀ a, 48 * n.val ≤ a → a < 48 * n.val + 46 → Memory.read m' a = Memory.read m a) : formatAt m' n = formatAt m n := by
  have hbase : entryBase n = 48 * n.val := rfl
  have hread : ∀ k, k < 46 → Memory.read m' (entryBase n + k) = Memory.read m (entryBase n + k) := fun k hk =>
    h _ (by omega) (by omega)
  have hword : ∀ k, k < 45 → Memory.word m' (entryBase n + k) = Memory.word m (entryBase n + k) := fun k hk => by
    rw [Memory.word, Memory.word, hread k (by omega), Nat.add_assoc, hread (k + 1) (by omega)]
  have hwindow : ∀ k, k < 43 → windowAt m' (entryBase n + k) = windowAt m (entryBase n + k) := fun k hk => by
    rw [windowAt, windowAt, hword k (by omega), Nat.add_assoc, hword (k + 2) (by omega)]
  have hfirst : Memory.read m' (entryBase n) = Memory.read m (entryBase n) := hread 0 (by decide)
  simp [formatAt, hfirst, hread, hword, hwindow]

theorem Format.spacesBelow_iff (f : Format) (idle : Byte) :
    f.spacesBelow idle = true ↔ ∀ w ∈ f.spaceWindows, w.hi < 100 * idle.toNat := by
  simp [Format.spacesBelow]

/-- Step 6 of validation, line by line (R36). -/
theorem Format.belowIdle_iff (f : Format) (idleA idleB : Byte) :
    f.belowIdle idleA idleB = true ↔ (f.lineA = true → f.spacesBelow idleA = true) ∧ (f.lineB = true → f.spacesBelow idleB = true) := by
  cases hA : f.lineA <;> cases hB : f.lineB <;> simp [Format.belowIdle, hA, hB]

/-- Where IDLE is refused (R2). -/
theorem State.idleReached_iff (s : State) (l : Line) (v : Byte) :
    s.idleReached l v = true ↔
      ∃ n : Fin 8, s.entries[n].st ≠ .disabled ∧ (s.format n).namesLine l = true ∧ ∃ w ∈ (s.format n).spaceWindows, 100 * v.toNat ≤ w.hi := by
  have hall : ∀ n : Fin 8, n ∈ allEntries := by decide
  have hbelow : ∀ n : Fin 8, (s.format n).spacesBelow v = false ↔ ∃ w ∈ (s.format n).spaceWindows, 100 * v.toNat ≤ w.hi := fun n => by
    rw [← Bool.not_eq_true, Format.spacesBelow_iff]
    simp only [not_forall, Nat.not_lt, exists_prop]
  simp only [State.idleReached, List.any_eq_true, Bool.and_eq_true, Bool.not_eq_true', decide_eq_true_eq, hbelow, and_assoc]
  exact ⟨fun ⟨n, _, h⟩ => ⟨n, h⟩, fun ⟨n, h⟩ => ⟨n, hall n, h⟩⟩

end Sys2Proof.Machine

namespace Sys2Proof.Safety

open Sys2Proof (Byte Time Payload Line)
open Sys2Proof.Machine

theorem IdleLaw.of_kept {s t : State} (h : IdleLaw s) (hk : WindowsKept s t) : IdleLaw t := by
  intro n l hn hl w hw
  have hformat : t.format n = s.format n := by rw [State.format, hk.mem, State.format]
  rw [hformat] at hl hw
  rw [hk.idle]
  exact h n l (hk.entries n hn) hl w hw

/-- The bytes of entries that are DISABLED may change. -/
theorem IdleLaw.of_bytes {s t : State} (h : IdleLaw s) (hfe : t.fe = s.fe) (hentries : t.entries = s.entries)
    (hformat : ∀ n : Fin 8, s.entries[n].st ≠ .disabled → t.format n = s.format n) : IdleLaw t := by
  intro n l hn hl w hw
  rw [hentries] at hn
  rw [hformat n hn] at hl hw
  rw [hfe]
  exact h n l hn hl w hw

theorem IdleLaw.reset (s : State) (k : ResetKind) (mem : List Host.Cell) : IdleLaw (s.resetTo k mem) := by
  intro n l hn
  have hentry : (s.resetTo k mem).entries[n] = EntryControl.reset := Vector.getElem_replicate _
  rw [hentry] at hn
  exact absurd rfl hn

/-- Validation puts the entry's space windows below the thresholds of its lines (R36). -/
theorem IdleLaw.enableFormat {s : State} (h : IdleLaw s) : IdleLaw s.enableFormat.1 := by
  unfold State.enableFormat
  split
  · exact h
  · next n _ =>
    split
    · exact h
    · exact h
    · split
      · next hv =>
        obtain ⟨-, -, -, -, -, hbelow, -⟩ := (Format.validate_eq_ok _ _ _).mp hv
        obtain ⟨hA, hB⟩ := (Format.belowIdle_iff _ _ _).mp hbelow
        intro m l hm hl w hw
        by_cases hmn : m = n
        · subst hmn
          cases l with
          | A => exact (Format.spacesBelow_iff _ _).mp (hA hl) w hw
          | B => exact (Format.spacesBelow_iff _ _).mp (hB hl) w hw
        · refine h m l ?_ hl w hw
          have hm : ((s.entries.set n { s.entries[n] with st := .enabled })[m]).st ≠ .disabled := hm
          rwa [getElem_set_entry, if_neg hmn] at hm
      · exact h

/-- A new value of IDLE lies above the space windows of the entries in use (R2). -/
theorem IdleLaw.writeIdle {s : State} (h : IdleLaw s) (l : Line) (v : Byte) : IdleLaw (State.writeIdle l v s) := by
  unfold State.writeIdle
  split
  · exact h
  · next hv =>
    intro n m hn hm w hw
    by_cases hml : m = l
    · subst hml
      rw [State.setFe_fe, PerLine.get_set_same]
      by_contra hle
      exact hv (.inr ((s.idleReached_iff m v).mpr ⟨n, hn, hm, w, hw, Nat.not_lt.mp hle⟩))
    · rw [State.setFe_fe, PerLine.get_set_ne _ _ hml]
      exact h n m hn hm w hw

theorem IdleLaw.stored {c : Instr} {s t : State} (h : IdleLaw s) (ht : Stored c s t) : IdleLaw t := by
  cases ht with
  | control l v => exact h.of_kept (.of_idle (by simp) (fun m => s.writeControl_idle l m v) (by simp))
  | glitch l v =>
    unfold State.writeGlitch
    split
    · exact h
    · exact h.of_kept (.of_idle rfl (s.fe.get_set_idle rfl) rfl)
  | idle l v => exact h.writeIdle l v
  | lineStatus l v =>
    unfold State.writeLineStatus
    split
    · exact h.of_kept (.of_idle rfl (s.fe.get_set_idle rfl) rfl)
    · exact h
  | _ => exact h.of_kept (.of_same (by simp) (by simp) (by simp))

theorem IdleLaw.carried {c : Instr} {s t : State} (h : IdleLaw s) (ht : Carried c s t) : IdleLaw t := by
  cases ht with
  | enableFormat => exact h.enableFormat
  | disableFormat => exact h.of_kept s.disableFormat_windowsKept
  | stopTx => exact h.of_kept s.stopTx_windowsKept
  | abortTx => exact h.of_kept s.abortTx_windowsKept
  | enterDormant => exact h.of_kept s.enterDormant_windowsKept
  | _ => exact h.of_kept (.of_same (by simp) (by simp) (by simp))

theorem IdleLaw.delivered {s t : State} (h : IdleLaw s) (ht : Delivered s t) : IdleLaw t := by
  cases ht with
  | absent => exact h
  | notice l n _ =>
    unfold State.takeNotice
    split
    · exact h.of_kept ((WindowsKept.of_same (s := s) (t := s.dropDecoderNotice l) rfl rfl rfl).trans (State.actOnNotice_windowsKept _ l n))
    · exact h
  | outcome l => exact h.of_kept (s.takeHandedOutcome_windowsKept l)
  | captureElement l v d hr =>
    unfold State.appendElement
    split
    · refine h.of_bytes rfl rfl fun n _ => formatAt_congr fun a _ ha => ?_
      have hn := n.isLt
      exact writeCaptureEntry_read_ne _ _ _ _ (by rw [captureAddress_eq]; omega) (by rw [captureAddress_eq]; omega)
    · exact h
  | _ => exact h.of_kept (.of_same (by simp) (by simp) (by simp))

theorem IdleLaw.tableWrite {s : State} (h : IdleLaw s) (a : Nat) (v : Byte) : IdleLaw (s.offerTableByte a v) := by
  refine h.of_bytes (by simp) (by simp) fun n hn => formatAt_congr fun b h₀ h₁ => ?_
  by_contra hne
  obtain ⟨hba, htakes, -⟩ := State.offerTableByte_read hne
  subst hba
  rw [State.takesTableWrite_entry _ h₀ (by omega)] at htakes
  exact hn (of_decide_eq_true htakes)

theorem IdleLaw.reached {c : Instr} {s t : State} (h : IdleLaw s) (ht : Reached c s t) : IdleLaw t := by
  cases ht with
  | reset k mem => exact .reset s k mem
  | stored _ _ _ ht => exact h.stored ht
  | carried t _ _ _ ht =>
    have hcarried : IdleLaw t := h.carried ht
    exact hcarried
  | wakeUp =>
    unfold State.wakeUp
    split
    · exact h
    · exact h.of_kept (.of_same (by simp) (by simp) (by simp))
    · exact h.of_kept (.of_idle (by simp) (fun m => by simpa using s.leaveDormant_idle m .active) (by simp))
  | tableWrite v =>
    have hwritten : IdleLaw (s.offerTableByte s.win.pointer.toNat v) := h.tableWrite _ v
    exact hwritten
  | delivered _ ht => exact h.delivered ht
  | edge l dt =>
    exact h.of_kept (.of_idle (by simp)
      (fun m => (((s.elapse dt).catchUp_edge l).trans (State.rawEdge_edge _ l)).idle m) (by simp))
  | accepted l g _ => exact h.of_kept (.of_idle (by simp) (fun m => (State.acceptEdge_edge _ l g).idle m) (by simp))
  | threshold l st => exact h.of_kept (.of_idle (by simp) (fun m => (s.thresholdEvent_edge l st).idle m) (by simp))
  | jobActive j n =>
    refine h.of_kept ⟨by simp, fun m => s.jobActive_idle m j n, fun m hm => (s.joinHolder_windowsKept .transmitter n).entries m ?_⟩
    have hentries : (s.jobActive j n).entries = (s.joinHolder .transmitter n).entries := by simp [State.jobActive]
    rwa [hentries] at hm
  | burstEnded j =>
    exact h.of_kept ((WindowsKept.of_same (s := s) (t := (s.reachInstant s.tx.burstEnd).countBurst) rfl rfl rfl).trans
      (State.afterBurst_windowsKept _ j))
  | guardEnded l t _ => exact h.of_kept (.of_idle (by simp) (fun m => State.endGuardHold_idle _ l m) (by simp))
  | wakeEdge l k =>
    refine h.of_kept (.of_idle (by simp) (fun m => ?_) (by simp))
    have hleft := State.leaveDormant_idle (s.setLink l { s.link.get l with wakeEdges := k }) m .listen
    rw [State.wakeByEdge]
    simpa using hleft
  | _ => exact h.of_kept (.of_same (by simp) (by simp) (by simp))

theorem IdleLaw.kept : KeptByEveryStep IdleLaw :=
  keptByEveryStep_of_reached (fun _ _ h => h) (fun _ h => h) fun _ _ _ h ht => h.reached ht

end Sys2Proof.Safety

open Sys2Proof Sys2Proof.Machine Sys2Proof.Safety

/-- Settles O57: an entry is put to use, or IDLE lowered, after a test of the one against the other, and the bytes of an entry
in use do not change. -/
theorem idleLawIsKept : Obligations.IdleLawIsKept := IdleLaw.kept

end

