-- ==== Sys2Proof/Proofs/ResetLaws.lean ====
section
/-! PROOF. O60: the laws right after a power-on reset, and while a reset is held. -/

namespace Sys2Proof.Safety

open Sys2Proof (Byte Time Payload Line)
open Sys2Proof.Machine

theorem JobLaw.reset (s : State) (k : ResetKind) (mem : List Host.Cell) : JobLaw (s.resetTo k mem) :=
  ⟨Nat.zero_le _, Nat.zero_le _, Nat.zero_le _, fun h => absurd h (not_jobActiveNow (.inl rfl)), fun _ h => nomatch h⟩

theorem PinLaw.reset (s : State) (k : ResetKind) (mem : List Host.Cell) : PinLaw (s.resetTo k mem) :=
  ⟨rfl, fun h => absurd h (Nat.lt_irrefl 0)⟩

/-- A held reset stands at the reset values, whatever went before. -/
theorem ResetLaw.holdReset (s : State) (k : ResetKind) (mem : List Host.Cell) : ResetLaw (s.holdReset k mem) :=
  fun _ => ⟨⟨_, _, rfl⟩, rfl, rfl, rfl, rfl, rfl, rfl, rfl, ⟨k, rfl⟩, rfl, rfl, rfl, rfl⟩

/-- The machine right after a power-on reset is any state that has been reset so. -/
theorem reset_eq_resetTo : State.reset = State.reset.resetTo .powerOn [] := rfl

end Sys2Proof.Safety

open Sys2Proof Sys2Proof.Machine Sys2Proof.Safety

/-- Settles O60: each law at the reset values. -/
theorem resetMeetsEveryLaw : Obligations.ResetMeetsEveryLaw := by
  obtain ⟨hqueue, href⟩ := ReferenceLaw.kept.reset State.reset .powerOn []
  refine ⟨⟨Memory.nil_wf, fun _ _ => rfl⟩, ?_, ?_, ?_, ?_, ?_, ?_, ?_, ?_, fun s k mem => ⟨rfl, .holdReset s k mem⟩⟩
  all_goals rw [reset_eq_resetTo]
  · exact hqueue
  · exact href
  · exact .reset _ _ _
  · exact .reset _ _ _
  · exact .reset _ _ _
  · exact .reset _ _ _
  · exact .reset _ _ _
  · exact fun h => nomatch h

end

