-- ==== Sys2Proof/Proofs/Order.lean ====
section
/-! PROOF. O29: the order of the records. -/

namespace Sys2Proof.Machine

open Sys2Proof (Byte Time Payload Line)
open Sys2Proof.Safety

/-- The records of `s` stand in `t` where they were, with new ones after the newest. -/
def RecordsGrow (s t : State) : Prop := s.rq.records.map identity <+: t.rq.records.map identity

theorem RecordsGrow.of_identity {s t u : State} (h : RecordsGrow s t)
    (hu : u.rq.records.map identity = t.rq.records.map identity) : RecordsGrow s u := by
  rw [RecordsGrow, hu]
  exact h

theorem RecordsGrow.of_rq {s t : State} (h : t.rq = s.rq) : RecordsGrow s t := by
  rw [RecordsGrow, h]

theorem State.clearMemory_identity (s : State) (l : Line) :
    (s.clearMemory l).rq.records.map identity = s.rq.records.map identity := by simp

theorem ReceiveQueue.hold_identity (q : ReceiveQueue) : q.hold.records.map identity = q.records.map identity := by
  unfold ReceiveQueue.hold
  split
  · rfl
  · next r rs h =>
    split
    · rfl
    · rw [h]
      rfl

/-- Each part of the repeat units' work leaves the records where they are. -/
theorem recordsGrow_repeat (s : State) : KeptByRepeat (RecordsGrow s) where
  same h hrq _ _ _ := h.of_identity (by rw [hrq])
  clear _ _ h := h.of_identity (by simp)
  release _ _ _ _ h := h.of_identity (by simp)
  count _ _ _ _ _ h := h.of_identity (by simp)
  check _ _ _ _ _ _ h := h
  newFrame t l n bits p start stop h := h.of_identity (by
    rw [State.newFrame_rq, State.clearMemory_identity]
    simp)
  requests t l h := h.trans (t.takeRequests_identity l)
  post t l p _ h := h.trans (by
    rw [State.takePost_rq]
    dsimp only
    split <;> simp [State.dropRequest])
  increment t l p _ h := h.of_identity (by simp [State.dropRequest])

/-- Every row but POP, FLUSH QUEUE and the resets leaves the records where they are (R91). -/
theorem Reached.recordsGrow {c : Instr} {s t : State} (h : Reached c s t) (hw : c.WellFormed = true) (hr : isReset c = false)
    (hpop : c ≠ .pop) (hflush : c ≠ .flushQueue) : RecordsGrow s t := by
  have hs : RecordsGrow s s := .of_rq rfl
  cases h with
  | reset k mem _ hc => exact absurd (hr.symm.trans hc) Bool.false_ne_true
  | stored _ _ _ h =>
    cases h with
    | watermark v => exact hs
    | _ => exact .of_rq (by simp)
  | carried t _ _ _ h =>
    show RecordsGrow s t
    cases h with
    | popRecord hc => exact absurd (hc hw) hpop
    | flushRecords hc => exact absurd (hc hw) hflush
    | disableFormat => exact (recordsGrow_repeat s).disableFormat hs
    | stopTx => exact (recordsGrow_repeat s).stopTx hs
    | abortTx => exact (recordsGrow_repeat s).abortTx hs
    | enterDormant => exact (recordsGrow_repeat s).enterDormant hs
    | _ => exact .of_rq (by simp)
  | headRead v => exact hs.of_identity s.rq.hold_identity
  | delivered _ h => exact (recordsGrow_repeat s).delivered h hs
  | burstEnded j => exact (recordsGrow_repeat s).afterBurst j ((recordsGrow_repeat s).countBurst hs)
  | _ => exact .of_rq (by simp)

end Sys2Proof.Machine

open Sys2Proof Sys2Proof.Machine Sys2Proof.Safety

/-- Settles O29: each part of the path to the queue keeps the records where they are, and so each row but those excluded. -/
theorem recordsKeepTheirOrder : Obligations.RecordsKeepTheirOrder :=
  fun c s t hw hr hpop hflush ht => (exec_reached c s t ht).recordsGrow hw hr hpop hflush

end

