-- ==== Sys2Proof/Proofs/Causes.lean ====
section
/-! PROOF. O51: the sticky causes. -/

namespace Sys2Proof.Machine

open Sys2Proof (Byte Time Payload Line)
open Sys2Proof.Safety

/-- The interrupt unit with sticky causes set. -/
def InterruptUnit.raise (q : InterruptUnit) (loss lineFault retired wake access : Bool) : InterruptUnit :=
  { q with
    loss := q.loss || loss
    lineFault := q.lineFault || lineFault
    retired := q.retired || retired
    wake := q.wake || wake
    access := q.access || access }

theorem InterruptUnit.raise_raise (q : InterruptUnit) (a b c d e a' b' c' d' e' : Bool) :
    (q.raise a b c d e).raise a' b' c' d' e' = q.raise (a || a') (b || b') (c || c') (d || d') (e || e') := by
  simp [InterruptUnit.raise, Bool.or_assoc]

theorem InterruptUnit.raise_none (q : InterruptUnit) : q.raise false false false false false = q := by
  simp [InterruptUnit.raise]

/-! ### LINEFAULT -/

/-- An edge or a threshold sets LINEFAULT at most. -/
def SetsLineFault (s t : State) : Prop := ∃ b, t.irq = s.irq.raise false b false false false

theorem SetsLineFault.of_eq {s t : State} (h : t.irq = s.irq) : SetsLineFault s t := ⟨false, by rw [h, InterruptUnit.raise_none]⟩

theorem SetsLineFault.trans {s t u : State} (h : SetsLineFault s t) (h' : SetsLineFault t u) : SetsLineFault s u := by
  obtain ⟨b, hb⟩ := h
  obtain ⟨b', hb'⟩ := h'
  exact ⟨b || b', by rw [hb', hb, InterruptUnit.raise_raise]; rfl⟩

section
variable (s : State) (l : Line)

theorem State.actOnThreshold_setsLineFault : SetsLineFault s (s.actOnThreshold l) := by
  unfold State.actOnThreshold
  split
  · exact .of_eq rfl
  · exact .of_eq rfl
  · exact ⟨true, by simp [InterruptUnit.raise]⟩
  · exact .of_eq rfl

theorem State.settleThreshold_setsLineFault : SetsLineFault s (s.settleThreshold l) := by
  unfold State.settleThreshold
  split
  · exact s.actOnThreshold_setsLineFault l
  · exact .of_eq rfl

theorem State.catchUp_setsLineFault : SetsLineFault s (s.catchUp l) :=
  (s.settleThreshold_setsLineFault l).trans
    ((SetsLineFault.of_eq (by simp)).trans (State.settleThreshold_setsLineFault ((s.settleThreshold l).settleTest l) l))

theorem State.rawEdge_setsLineFault : SetsLineFault s (s.rawEdge l) := by
  have hreject : ∀ u : State, u.irq = s.irq → SetsLineFault s (u.rejectEdge l) := fun u hu =>
    (SetsLineFault.of_eq (s := s) (t := u.setFe l { u.fe.get l with test := none }) hu).trans (State.settleThreshold_setsLineFault _ l)
  unfold State.rawEdge
  split
  case h_1 | h_2 | h_3 => exact .of_eq rfl
  case h_4 =>
    split
    · exact .of_eq rfl
    · exact .of_eq (by simp)
  all_goals
    split
    · exact hreject _ rfl
    · exact .of_eq (by simp)

/-- A threshold of another state than MARK sets no cause. -/
theorem State.thresholdEvent_irq {st : LineState} (h : st ≠ .mark) : (s.thresholdEvent l st).irq = s.irq := by
  unfold State.thresholdEvent
  split
  · rfl
  · next t _ =>
    split
    · next hst =>
      unfold State.actOnThreshold
      split
      · rfl
      · rfl
      · next hm => exact absurd (hst.1.symm.trans hm) h
      · rfl
    · rfl

theorem State.thresholdEvent_setsLineFault (st : LineState) : SetsLineFault s (s.thresholdEvent l st) := by
  unfold State.thresholdEvent
  split
  · exact .of_eq rfl
  · next t _ =>
    split
    · exact (SetsLineFault.of_eq (s := s) (t := s.reachInstant t) rfl).trans (State.actOnThreshold_setsLineFault _ l)
    · exact .of_eq rfl

end

/-! ### RETIRED and LOSS -/

/-- A holder that leaves sets RETIRED at most, and a post sets LOSS at most. -/
def SetsRetired (s t : State) : Prop := ∃ b, t.irq = s.irq.raise false false b false false

theorem SetsRetired.of_eq {s t : State} (h : t.irq = s.irq) : SetsRetired s t := ⟨false, by rw [h, InterruptUnit.raise_none]⟩

section
variable (s : State) (l : Line)

theorem State.leaveHolder_setsRetired (h : Holder) (n : Fin 8) : SetsRetired s (s.leaveHolder h n) :=
  ⟨s.entries[n].retires h, by rw [State.leaveHolder_eq]; simp [InterruptUnit.raise]⟩

theorem SetsRetired.trans {s t u : State} (h : SetsRetired s t) (h' : SetsRetired t u) : SetsRetired s u := by
  obtain ⟨b, hb⟩ := h
  obtain ⟨b', hb'⟩ := h'
  exact ⟨b || b', by rw [hb', hb, InterruptUnit.raise_raise]; rfl⟩

theorem State.leaveHolders_setsRetired (h : Holder) (ns : List (Fin 8)) : SetsRetired s (s.leaveHolders h ns) := by
  unfold State.leaveHolders
  induction ns generalizing s with
  | nil => exact .of_eq rfl
  | cons n ns ih => exact (s.leaveHolder_setsRetired h n).trans (ih _)

theorem State.finishBurst_setsRetired : SetsRetired s (s.finishBurst l) :=
  (SetsRetired.of_eq (s := s) (t := s.setDec l { s.dec.get l with st := .wait, candidates := [] }) rfl).trans
    (State.leaveHolders_setsRetired _ _ _)

theorem State.takeHandedOutcome_setsRetired : SetsRetired s (s.takeHandedOutcome l) := by
  unfold State.takeHandedOutcome
  split
  · exact .of_eq rfl
  · next o _ =>
    have htaken : ∀ u : State, u.irq = s.irq → SetsRetired s (u.finishBurst l) := fun u hu =>
      (SetsRetired.of_eq hu).trans (u.finishBurst_setsRetired l)
    have hfinish := htaken (((s.setLink l (s.link.get l).dropOutcome).takeOutcome l o).closeBurst l) (by simp)
    dsimp only
    split
    · obtain ⟨b, hb⟩ := hfinish
      exact ⟨b, by rw [← hb]; simp⟩
    · exact hfinish

theorem State.actOnNotice_setsRetired (n : Notice) : SetsRetired s (s.actOnNotice l n) := by
  cases n with
  | burstStart t => exact .of_eq (by simp [State.actOnNotice, State.openBurst])
  | element v d =>
    show SetsRetired s (if _ then _ else _)
    split
    · exact (SetsRetired.of_eq (s := s) (t := s.setDec l _) rfl).trans (State.leaveHolders_setsRetired _ _ _)
    · exact .of_eq rfl
  | burstEnd t | burstAbort why => exact .of_eq rfl

/-- A notice other than an element sets no cause. -/
theorem State.takeNotice_irq {n : Notice} (h : ∀ v d, n ≠ .element v d) : (s.takeNotice l n).irq = s.irq := by
  unfold State.takeNotice
  split
  · cases n with
    | burstStart t => simp [State.actOnNotice, State.openBurst]
    | element v d => exact absurd rfl (h v d)
    | burstEnd t | burstAbort why => rfl
  · rfl

theorem State.takeNotice_setsRetired (n : Notice) : SetsRetired s (s.takeNotice l n) := by
  unfold State.takeNotice
  split
  · exact (SetsRetired.of_eq (s := s) (t := s.dropDecoderNotice l) rfl).trans (State.actOnNotice_setsRetired _ l n)
  · exact .of_eq rfl

theorem State.endJob_setsRetired (j : Job) (st : CompletionStatus) (t : Nat) : SetsRetired s (s.endJob j st t) := by
  obtain ⟨-, -, -, -, hirq⟩ := s.endJob_receive j st t
  unfold SetsRetired
  rw [hirq]
  unfold State.releaseEntry
  split
  · exact SetsRetired.of_eq (s := s) rfl
  · exact s.leaveHolder_setsRetired _ _

theorem State.afterBurst_setsRetired (j : Job) : SetsRetired s (s.afterBurst j) := by
  unfold State.afterBurst
  split
  · exact .of_eq rfl
  · exact State.endJob_setsRetired _ _ _ _

theorem State.stopTx_setsRetired : SetsRetired s s.stopTx.1 := by
  generalize hr : s.stopTx = r
  cases hr ▸ s.stopTx_stopped with
  | notActive => exact .of_eq rfl
  | burst => exact .of_eq rfl
  | gap j _ _ => exact State.endJob_setsRetired _ _ _ _

theorem State.abortTx_setsRetired : SetsRetired s s.abortTx.1 := by
  have habort : SetsRetired s s.abortActive.1 := by
    generalize hr : s.abortActive = r
    cases hr ▸ s.abortActive_aborted with
    | notActive => exact .of_eq rfl
    | burst j _ _ => exact (SetsRetired.of_eq (s := s) (t := s.countBurst) rfl).trans (State.endJob_setsRetired _ _ _ _)
    | gap j _ _ => exact State.endJob_setsRetired _ _ _ _
  unfold State.abortTx
  split
  · exact habort
  · split
    · rw [State.removeWaiting_eq]
      exact habort
    · exact .of_eq rfl

theorem State.takePost_irq (p : Post) :
    (s.takePost p).irq = s.irq.raise (decide (16 ≤ s.rq.records.length)) false false false false := by
  have hcap : Config.queueCapacity = 16 := rfl
  unfold State.takePost
  rw [hcap]
  split
  · next h => simp [InterruptUnit.raise, decide_eq_false (Nat.not_le.mpr h)]
  · next h => simp [InterruptUnit.raise, State.setLoss, Nat.not_lt.mp h]

/-- The requests of a line set LOSS at most. -/
theorem State.takeRequests_irq : ∃ b, (s.takeRequests l).irq = s.irq.raise b false false false false := by
  have aux : ∀ (ps : List Post) (u : State), ∃ b, (ps.foldl (fun s p => s.takeRequest l p) u).irq = u.irq.raise b false false false false := by
    intro ps
    induction ps with
    | nil => exact fun u => ⟨false, u.irq.raise_none.symm⟩
    | cons p ps ih =>
      intro u
      obtain ⟨b, hb⟩ := ih (u.takeRequest l p)
      have hone : ∃ b, (u.takeRequest l p).irq = u.irq.raise b false false false false := by
        unfold State.takeRequest
        split
        · exact ⟨false, u.irq.raise_none.symm⟩
        · exact ⟨_, u.takePost_irq p⟩
      obtain ⟨b', hb'⟩ := hone
      exact ⟨b' || b, by rw [List.foldl_cons, hb, hb', InterruptUnit.raise_raise]; rfl⟩
  exact aux _ _

/-- The entry to DORMANT sets RETIRED and LOSS at most. -/
theorem State.enterDormant_irq : ∃ a b, s.enterDormant.1.irq = s.irq.raise a false b false false := by
  have hnone : ∃ a b, s.irq = s.irq.raise a false b false false := ⟨false, false, s.irq.raise_none.symm⟩
  have add : ∀ u v : State, (∃ a b, u.irq = s.irq.raise a false b false false) →
      (∃ a b, v.irq = u.irq.raise a false b false false) → ∃ a b, v.irq = s.irq.raise a false b false false := by
    rintro u v ⟨a, b, hu⟩ ⟨a', b', hv⟩
    exact ⟨a || a', b || b', by rw [hv, hu, InterruptUnit.raise_raise]; rfl⟩
  have retires : ∀ u v : State, SetsRetired u v → ∃ a b, v.irq = u.irq.raise a false b false false :=
    fun _ _ ⟨b, hb⟩ => ⟨false, b, hb⟩
  have keeps : ∀ u v : State, v.irq = u.irq → ∃ a b, v.irq = u.irq.raise a false b false false := fun u v h =>
    retires u v (.of_eq h)
  have hentry : KeptByEntry fun u => ∃ a b, u.irq = s.irq.raise a false b false false :=
    { outcome := fun u l h => add _ _ h (retires _ _ (u.takeHandedOutcome_setsRetired l))
      notice := fun u l n _ _ h => add _ _ h (retires _ _ (u.actOnNotice_setsRetired l n))
      noNotices := fun _ _ h => h
      requests := fun u l h => add _ _ h ((u.takeRequests_irq l).imp fun _ ha => ⟨false, ha⟩)
      park := fun u b l h => add _ _ h (keeps _ _ (by simp))
      quiet := fun u l h => add _ _ h (keeps _ _ (by simp)) }
  unfold State.enterDormant
  split
  · exact hnone
  · split
    · rw [State.goDormant_eq]
      exact hentry.quieted _ hnone
    · exact hnone

end

/-! ### Every row -/

/-- The interrupt unit after a well-formed row that is no reset: causes set, each by its own events; or the causes of a write of
IRQ CAUSE cleared; or IRQ ENABLE written. -/
inductive CausesAfter (c : Instr) (q : InterruptUnit) : InterruptUnit → Prop
  | raised (loss lineFault retired wake access : Bool) (hloss : loss = true → c = .enterDormant ∨ ∃ l, c = .post l)
      (hline : lineFault = true → ∃ l, c = .stuck l ∨ ∃ dt, c = .rxEdge l dt)
      (hretired : retired = true → c = .txBurstEnd ∨ c = .stopTx ∨ c = .abortTx ∨ c = .enterDormant ∨
        ∃ l, c = .decoderElement l ∨ c = .outcomeTaken l)
      (hwake : wake = true → ∃ l, c = .wakeEdge l ∨ c = .wakeOffer l)
      (haccess : access = true → writesRegister c = true) : CausesAfter c q (q.raise loss lineFault retired wake access)
  | cleared (v : Byte) (hc : c = .irqCauseWrite v) : CausesAfter c q (q.clear v)
  | enabled (v : Byte) (hc : c = .irqEnableWrite v) : CausesAfter c q { q with enable := v }

section
variable {c : Instr} {q q' : InterruptUnit}

theorem CausesAfter.of_eq (h : q' = q) : CausesAfter c q q' := by
  have hraised := CausesAfter.raised (c := c) (q := q) false false false false false nofun nofun nofun nofun nofun
  rw [InterruptUnit.raise_none] at hraised
  rw [h]
  exact hraised

theorem CausesAfter.of_access (hc : writesRegister c = true) : CausesAfter c q { q with access := true } := by
  have hraised := CausesAfter.raised (c := c) (q := q) false false false false true nofun nofun nofun nofun fun _ => hc
  simpa [InterruptUnit.raise] using hraised

theorem CausesAfter.of_line {s t : State} (h : SetsLineFault s t) (hc : ∃ l, c = .stuck l ∨ ∃ dt, c = .rxEdge l dt) :
    CausesAfter c s.irq t.irq := by
  obtain ⟨b, hb⟩ := h
  rw [hb]
  exact .raised false b false false false nofun (fun _ => hc) nofun nofun nofun

theorem CausesAfter.of_retired {s t : State} (h : SetsRetired s t)
    (hc : c = .txBurstEnd ∨ c = .stopTx ∨ c = .abortTx ∨ c = .enterDormant ∨ ∃ l, c = .decoderElement l ∨ c = .outcomeTaken l) :
    CausesAfter c s.irq t.irq := by
  obtain ⟨b, hb⟩ := h
  rw [hb]
  exact .raised false false b false false nofun nofun (fun _ => hc) nofun nofun

theorem CausesAfter.of_wake (hc : ∃ l, c = .wakeEdge l ∨ c = .wakeOffer l) : CausesAfter c q { q with wake := true } := by
  have hraised := CausesAfter.raised (c := c) (q := q) false false false true false nofun nofun nofun (fun _ => hc) nofun
  simpa [InterruptUnit.raise] using hraised

end

theorem State.takeOffer_irq (s : State) (l : Line) (o : Offer) :
    (s.takeOffer l o).irq = s.irq ∨ (s.takeOffer l o).irq = { s.irq with wake := true } := by
  unfold State.takeOffer
  split
  · split
    · exact .inl rfl
    · exact .inr (by simp [State.wakeByMatch, State.setWakeCause])
  · exact .inl rfl

/-- What a delivery does to the causes. -/
theorem exec_delivery_causesAfter {c : Instr} (hc : isDelivery c = true) (s : State) :
    AllNext (fun t => CausesAfter c s.irq t.irq) (exec c s) := by
  cases c with
  | decoderElement l =>
    simp only [exec, execDecoderElement]
    split
    · exact .next (.of_retired (s.takeNotice_setsRetired l _) (by simp))
    · exact .next (.of_eq rfl)
  | decoderBurstStart l | decoderBurstEnd l | decoderBurstAbort l =>
    simp only [exec, execDecoderBurstStart, execDecoderBurstEnd, execDecoderBurstAbort]
    split
    · exact .next (.of_eq (s.takeNotice_irq l (fun _ _ => by simp)))
    · exact .next (.of_eq rfl)
  | outcomeTaken l => exact .next (.of_retired (s.takeHandedOutcome_setsRetired l) (by simp))
  | lfmDue l =>
    show AllNext _ (execLfmDue l s)
    unfold execLfmDue
    split
    · split <;> exact .next (.of_eq (by simp))
    · exact .next (.of_eq rfl)
  | post l =>
    simp only [exec, execPost]
    split
    · exact .next (.of_eq rfl)
    · refine .next ?_
      rw [State.takePost_irq]
      exact .raised _ false false false false (fun _ => .inr ⟨l, rfl⟩) nofun nofun nofun nofun
  | expireRequest l | repeatCountIncrement l =>
    simp only [exec, execExpireRequest, execRepeatCountIncrement]
    split <;> exact .next (.of_eq (by simp))
  | wakeOffer l =>
    simp only [exec, execWakeOffer]
    split
    · exact .next (.of_eq rfl)
    · next o os _ =>
      refine .next ?_
      rcases State.takeOffer_irq (s.setLink l { s.link.get l with offers := os }) l o with h | h
      · exact .of_eq h
      · rw [h]
        exact .of_wake ⟨l, .inr rfl⟩
  | captureBurstStart l | captureClose l | captureReport l =>
    simp only [exec, execCaptureBurstStart, execCaptureClose, execCaptureReport]
    split <;> exact .next (.of_eq (by simp))
  | captureElement l =>
    show AllNext _ (execCaptureElement l s)
    unfold execCaptureElement
    split
    · split <;> exact .next (.of_eq (by simp))
    · exact .next (.of_eq rfl)
  | _ => cases hc

theorem Stored.causesAfter {c : Instr} {s t : State} (h : Stored c s t) (hw : c.WellFormed = true)
    (hc : writesRegister c = true) : CausesAfter c s.irq t.irq := by
  cases h with
  | irqCause v hv => exact .cleared v (hv hw)
  | irqEnable v hv => exact .enabled v (hv hw)
  | control l v =>
    unfold State.writeControl
    dsimp only
    split
    · split <;> split
      · exact .of_eq (by simp)
      · exact .of_eq (by simp)
      · exact .of_access hc
      · simpa using CausesAfter.of_access hc
    · split <;> exact .of_eq (by simp)
  | glitch l v =>
    unfold State.writeGlitch
    split
    · exact .of_access hc
    · exact .of_eq rfl
  | idle l v =>
    unfold State.writeIdle
    split
    · exact .of_access hc
    · exact .of_eq rfl
  | _ => exact .of_eq (by simp)

theorem Carried.causesAfter {c : Instr} {s t : State} (h : Carried c s t) (hw : c.WellFormed = true) :
    CausesAfter c s.irq t.irq := by
  cases h with
  | stopTx hc => exact .of_retired s.stopTx_setsRetired (by simp [hc hw])
  | abortTx hc => exact .of_retired s.abortTx_setsRetired (by simp [hc hw])
  | enterDormant hc =>
    obtain ⟨a, b, hirq⟩ := s.enterDormant_irq
    rw [hirq, hc hw]
    exact .raised a false b false false (by simp) nofun (by simp) nofun nofun
  | _ => exact .of_eq (by simp)

/-- What a row does to the causes. -/
theorem Reached.causesAfter {c : Instr} {s t : State} (h : Reached c s t) (hw : c.WellFormed = true) (hr : isReset c = false) :
    CausesAfter c s.irq t.irq := by
  cases h with
  | reset k mem _ hc => exact absurd (hr.symm.trans hc) Bool.false_ne_true
  | refused _ hc => exact .of_access hc
  | stored _ _ _ h hc => exact h.causesAfter hw hc
  | carried t _ _ _ h => exact h.causesAfter hw
  | tableWrite v _ hc =>
    show CausesAfter c s.irq (s.offerTableByte s.win.pointer.toNat v).irq
    unfold State.offerTableByte
    split
    · split <;> exact .of_eq rfl
    · exact .of_access hc
  | delivered t _ _ hi he => exact exec_delivery_causesAfter hi s t he
  | edge l dt hc =>
    have hedge : SetsLineFault s (((s.elapse dt).catchUp l).rawEdge l) :=
      (SetsLineFault.of_eq (s := s) (t := s.elapse dt) rfl).trans
        ((State.catchUp_setsLineFault _ l).trans (State.rawEdge_setsLineFault _ l))
    exact .of_line hedge ⟨l, .inr ⟨dt, hc⟩⟩
  | threshold l st hc =>
    by_cases hst : st = .mark
    · exact .of_line (s.thresholdEvent_setsLineFault l st) ⟨l, .inl (hc hst)⟩
    · exact .of_eq (s.thresholdEvent_irq l hst)
  | burstEnded j _ _ hc =>
    exact .of_retired ((SetsRetired.of_eq (s := s) (t := (s.reachInstant s.tx.burstEnd).countBurst) rfl).trans
      (State.afterBurst_setsRetired _ j)) (.inl hc)
  | wakeEdge l k _ _ hc =>
    have hirq : ((s.setLink l { s.link.get l with wakeEdges := k }).wakeByEdge l).irq = { s.irq with wake := true } := by
      simp [State.wakeByEdge, State.setWakeCause]
    rw [hirq]
    exact .of_wake ⟨l, .inl hc⟩
  | _ => exact .of_eq (by simp)

end Sys2Proof.Machine

open Sys2Proof Sys2Proof.Machine Sys2Proof.Safety

/-- Settles O51: the interrupt unit after a row is one of three, and each is read off. -/
theorem stickyCausesStaySet : Obligations.StickyCausesStaySet := by
  intro c s t hw hr ht
  have hafter := (exec_reached c s t ht).causesAfter hw hr
  generalize t.irq = q at hafter
  cases hafter with
  | raised loss lineFault retired wake access hloss hline hretired hwake haccess =>
    simp only [InterruptUnit.raise, Bool.or_eq_true]
    refine ⟨fun _ => ⟨.inl, .inl, .inl, .inl, .inl⟩, fun h => ?_, fun h => ?_, fun h => ?_, fun h => ?_, fun h => ?_, fun _ => trivial⟩
    all_goals simp only [h, Bool.false_eq_true, false_or]
    · exact hloss
    · exact hline
    · exact hretired
    · exact hwake
    · exact haccess
  | cleared v hc =>
    refine ⟨fun hne => absurd hc (hne v), fun h h' => ?_, fun h h' => ?_, fun h h' => ?_, fun h h' => ?_, fun h h' => ?_, fun _ => rfl⟩
    all_goals simp [InterruptUnit.clear, h] at h'
  | enabled v hc =>
    refine ⟨fun _ => ⟨id, id, id, id, id⟩, fun h h' => ?_, fun h h' => ?_, fun h h' => ?_, fun h h' => ?_, fun h h' => ?_,
      fun hne => absurd hc (hne v)⟩
    all_goals exact absurd (h.symm.trans h') Bool.false_ne_true

end

