-- ==== Sys2Proof/Proofs/LineEvents.lean ====
section
/-! PROOF. O8 to O11: what an edge, a threshold and a write of a line register do to a line, by its state. -/

namespace Sys2Proof.Machine

open Sys2Proof (Byte Time Payload Line)

variable {s : State} {l : Line} {g : GlitchTest}

/-! ### An accepted edge, by line state -/

theorem State.acceptEdge_of_idle (h : (s.fe.get l).st = .idle) :
    s.acceptEdge l g = (s.setFe l { s.fe.get l with st := .mark, test := none, since := g.edge }).sendNotice l
      (.burstStart s.clock.time) := by
  simp only [State.acceptEdge, h]

theorem State.acceptEdge_of_mark (h : (s.fe.get l).st = .mark) :
    s.acceptEdge l g = (s.setFe l { s.fe.get l with st := .space, test := none, since := g.edge, threshold := g.threshold }).sendNotice l
      (.element .mark (duration (s.fe.get l).since g.edge)) := by
  simp only [State.acceptEdge, h]

theorem State.acceptEdge_of_space (h : (s.fe.get l).st = .space) :
    s.acceptEdge l g = (s.setFe l { s.fe.get l with st := .mark, test := none, since := g.edge }).sendNotice l
      (.element .space (duration (s.fe.get l).since g.edge)) := by
  simp only [State.acceptEdge, h]

theorem State.acceptEdge_of_settle (h : (s.fe.get l).st = .settle) :
    s.acceptEdge l g = s.setFe l { s.fe.get l with
      test := none, wait := if (s.fe.get l).wait = none then some g.edge else none } := by
  simp only [State.acceptEdge, h]
  cases (s.fe.get l).wait <;> rfl

theorem State.acceptEdge_of_stuck (h : (s.fe.get l).st = .stuck) :
    s.acceptEdge l g = s.setFe l { s.fe.get l with st := .settle, test := none, wait := some g.edge, threshold := g.threshold } := by
  simp only [State.acceptEdge, h]

theorem State.acceptEdge_of_watch (h : (s.fe.get l).st = .watch) :
    s.acceptEdge l g = (s.setFe l { s.fe.get l with test := none }).setLink l
      { s.link.get l with wakeEdges := (s.link.get l).wakeEdges + 1 } := by
  simp only [State.acceptEdge, h]

theorem exec_glitchTestAccept_of_none (h : (s.fe.get l).test = none) : exec (.glitchTestAccept l) s = .next s := by
  simp only [exec, execGlitchTestAccept, h]

theorem exec_glitchTestAccept_of_some (h : (s.fe.get l).test = some g) :
    exec (.glitchTestAccept l) s = .next ((s.reachInstant ((s.fe.get l).acceptInstant g)).acceptEdge l g) := by
  simp only [exec, execGlitchTestAccept, h]

/-! ### A threshold, by line state -/

theorem State.thresholdEvent_of_settle {w : Nat} (hst : (s.fe.get l).st = .settle) (htest : (s.fe.get l).test = none)
    (hwait : (s.fe.get l).wait = some w) :
    s.thresholdEvent l .settle = (s.reachInstant (w + (s.fe.get l).threshold)).setFe l { s.fe.get l with st := .idle } := by
  simp [State.thresholdEvent, FrontEnd.thresholdInstant, State.actOnThreshold, State.reachInstant, hst, htest, hwait]

theorem State.thresholdEvent_of_no_wait (hst : (s.fe.get l).st = .settle) (hwait : (s.fe.get l).wait = none) :
    s.thresholdEvent l .settle = s := by
  simp [State.thresholdEvent, FrontEnd.thresholdInstant, hst, hwait]

theorem State.thresholdEvent_of_space (hst : (s.fe.get l).st = .space) (htest : (s.fe.get l).test = none) :
    s.thresholdEvent l .space = ((s.reachInstant ((s.fe.get l).since + (s.fe.get l).threshold)).setFe l
      { s.fe.get l with st := .idle }).sendNotice l (.burstEnd s.clock.time) := by
  simp [State.thresholdEvent, FrontEnd.thresholdInstant, State.actOnThreshold, State.reachInstant, hst, htest]

theorem State.thresholdEvent_of_mark (hst : (s.fe.get l).st = .mark) (htest : (s.fe.get l).test = none) :
    s.thresholdEvent l .mark = (((s.reachInstant ((s.fe.get l).since + 8 * 65535)).setFe l
      { s.fe.get l with st := .stuck, fault := true }).sendNotice l (.burstAbort .stuck)).setLineFault := by
  simp [State.thresholdEvent, FrontEnd.thresholdInstant, State.actOnThreshold, State.reachInstant, hst, htest, Config.us,
    Config.stuckMark, Config.ticksPerMicrosecond]

theorem State.thresholdEvent_of_other {st : LineState} (h : (s.fe.get l).test ≠ none ∨ (s.fe.get l).st ≠ st) :
    s.thresholdEvent l st = s := by
  have hnot : ¬ ((s.fe.get l).st = st ∧ (s.fe.get l).test = none) := fun hand => h.elim (fun hn => hn hand.2) fun hn => hn hand.1
  unfold State.thresholdEvent
  split
  · rfl
  · rw [if_neg hnot]

/-! ### What the passing of time has brought about -/

open Sys2Proof.Safety in
theorem State.thresholdPassed_iff :
    s.thresholdPassed l = true ↔ (s.fe.get l).test = none ∧ ¬ thresholdAhead (s.fe.get l) s.clock.now := by
  unfold State.thresholdPassed Safety.thresholdAhead
  cases (s.fe.get l).thresholdInstant <;> simp

open Sys2Proof.Safety in
theorem State.settleThreshold_of_ahead (h : thresholdAhead (s.fe.get l) s.clock.now) : s.settleThreshold l = s :=
  if_neg fun hp => (State.thresholdPassed_iff.mp hp).2 h

theorem State.settleThreshold_of_test (h : (s.fe.get l).test ≠ none) : s.settleThreshold l = s :=
  if_neg fun hp => h (State.thresholdPassed_iff.mp hp).1

open Sys2Proof.Safety in
theorem State.settleThreshold_of_passed (htest : (s.fe.get l).test = none) (h : ¬ thresholdAhead (s.fe.get l) s.clock.now) :
    s.settleThreshold l = s.actOnThreshold l :=
  if_pos (State.thresholdPassed_iff.mpr ⟨htest, h⟩)

open Sys2Proof.Safety in
/-- A line of another state waits for no threshold. -/
theorem thresholdAhead_of_st {f : FrontEnd} {now : Nat} (h : f.st ≠ .space ∧ f.st ≠ .settle ∧ f.st ≠ .mark) : thresholdAhead f now := by
  intro t ht
  unfold FrontEnd.thresholdInstant at ht
  split at ht <;> simp_all

/-- Acting on a threshold leads to a state without one, and leaves the test as it is. -/
theorem State.actOnThreshold_get :
    ((s.actOnThreshold l).fe.get l).test = (s.fe.get l).test ∧ ((s.actOnThreshold l).fe.get l).st ≠ .space ∧
      ((s.actOnThreshold l).fe.get l).st ≠ .settle ∧ ((s.actOnThreshold l).fe.get l).st ≠ .mark := by
  unfold State.actOnThreshold
  split
  · simp
  · simp
  · simp
  · next hspace hsettle hmark => exact ⟨rfl, hspace, hsettle, hmark⟩

theorem State.settleThreshold_test : ((s.settleThreshold l).fe.get l).test = (s.fe.get l).test := by
  unfold State.settleThreshold
  split
  · exact State.actOnThreshold_get.1
  · rfl

theorem State.settleThreshold_actOnThreshold : (s.actOnThreshold l).settleThreshold l = s.actOnThreshold l :=
  State.settleThreshold_of_ahead (thresholdAhead_of_st State.actOnThreshold_get.2)

theorem State.settleThreshold_settleThreshold : (s.settleThreshold l).settleThreshold l = s.settleThreshold l := by
  by_cases h : s.thresholdPassed l = true
  · rw [show s.settleThreshold l = s.actOnThreshold l from if_pos h, State.settleThreshold_actOnThreshold]
  · have hid : s.settleThreshold l = s := if_neg h
    rw [hid, hid]

theorem State.settleTest_of_none (h : (s.fe.get l).test = none) : s.settleTest l = s := by
  simp only [State.settleTest, h]

theorem State.settleTest_of_some (h : (s.fe.get l).test = some g) :
    s.settleTest l = if (s.fe.get l).acceptInstant g ≤ s.clock.now then s.acceptEdge l g else s := by
  simp only [State.settleTest, h]

/-- Without a test only a threshold can have been passed. -/
theorem State.catchUp_of_none (h : (s.fe.get l).test = none) : s.catchUp l = s.settleThreshold l := by
  unfold State.catchUp
  rw [State.settleTest_of_none (State.settleThreshold_test.trans h), State.settleThreshold_settleThreshold]

theorem State.catchUp_of_running (h : (s.fe.get l).test = some g) (hrun : s.clock.now < (s.fe.get l).acceptInstant g) :
    s.catchUp l = s := by
  have hne : (s.fe.get l).test ≠ none := by rw [h]; nofun
  unfold State.catchUp
  rw [State.settleThreshold_of_test hne, State.settleTest_of_some h, if_neg (Nat.not_le.mpr hrun), State.settleThreshold_of_test hne]

theorem State.catchUp_of_held (h : (s.fe.get l).test = some g) (hheld : (s.fe.get l).acceptInstant g ≤ s.clock.now) :
    s.catchUp l = (s.acceptEdge l g).settleThreshold l := by
  have hne : (s.fe.get l).test ≠ none := by rw [h]; nofun
  unfold State.catchUp
  rw [State.settleThreshold_of_test hne, State.settleTest_of_some h, if_pos hheld]

theorem State.acceptEdge_of_ignored (h : (s.fe.get l).st = .off ∨ (s.fe.get l).st = .blanked ∨ (s.fe.get l).st = .parked) :
    s.acceptEdge l g = s := by
  rcases h with h | h | h <;> simp only [State.acceptEdge, h]

/-- In OFF, BLANKED and PARKED nothing is waited for. -/
theorem State.catchUp_of_ignored (h : (s.fe.get l).st = .off ∨ (s.fe.get l).st = .blanked ∨ (s.fe.get l).st = .parked) :
    s.catchUp l = s := by
  have hahead : s.settleThreshold l = s :=
    State.settleThreshold_of_ahead (thresholdAhead_of_st (by rcases h with h | h | h <;> simp [h]))
  have htest : s.settleTest l = s := by
    cases hg : (s.fe.get l).test with
    | none => exact State.settleTest_of_none hg
    | some g =>
      rw [State.settleTest_of_some hg, State.acceptEdge_of_ignored h]
      exact ite_self s
  unfold State.catchUp
  rw [hahead, htest, hahead]

open Sys2Proof.Safety in
theorem State.acceptEdge_test (h : testsEdges (s.fe.get l).st ∨ (s.fe.get l).st = .watch) :
    ((s.acceptEdge l g).fe.get l).test = none := by
  rcases h with (h | h | h | h | h) | h
  · simp [State.acceptEdge_of_settle h]
  · simp [State.acceptEdge_of_idle h]
  · simp [State.acceptEdge_of_mark h]
  · simp [State.acceptEdge_of_space h]
  · simp [State.acceptEdge_of_stuck h]
  · simp [State.acceptEdge_of_watch h]

/-! ### A raw edge, by line state -/

/-- The new level at the input of a line. -/
def State.flip (s : State) (l : Line) : State := s.setFe l { s.fe.get l with level := !(s.fe.get l).level }

theorem State.rawEdge_of_ignored (h : (s.fe.get l).st = .off ∨ (s.fe.get l).st = .blanked ∨ (s.fe.get l).st = .parked) :
    s.rawEdge l = s.flip l := by
  rcases h with h | h | h <;> simp only [State.rawEdge, h, State.flip]

theorem State.rawEdge_active (h : (s.fe.get l).st = .watch) (hact : (s.fe.get l).active = true) :
    s.rawEdge l = s.setFe l { s.fe.get l with level := !(s.fe.get l).level, test := none } := by
  simp only [State.rawEdge, h, hact, if_true]

theorem State.rawEdge_inactive (h : (s.fe.get l).st = .watch) (hact : (s.fe.get l).active = false) :
    s.rawEdge l = (s.flip l).startTest l := by
  simp [State.rawEdge, h, hact, State.flip]

theorem State.flip_of_none (h : (s.fe.get l).test = none) :
    s.setFe l { s.fe.get l with level := !(s.fe.get l).level, test := none } = s.flip l := by
  rw [← h]
  rfl

open Sys2Proof.Safety in
theorem State.rawEdge_of_testsEdges (h : testsEdges (s.fe.get l).st) :
    s.rawEdge l = if (s.fe.get l).test.isSome then (s.flip l).rejectEdge l else (s.flip l).startTest l := by
  rcases h with h | h | h | h | h <;> simp only [State.rawEdge, h, State.flip]

theorem State.startTest_eq :
    s.startTest l = if (s.fe.get l).glitch = 0 then
        (s.setFe l { s.fe.get l with test := some ⟨s.clock.now, (s.fe.get l).idleThreshold⟩ }).acceptEdge l
          ⟨s.clock.now, (s.fe.get l).idleThreshold⟩
      else s.setFe l { s.fe.get l with test := some ⟨s.clock.now, (s.fe.get l).idleThreshold⟩ } := by
  have hiff : s.clock.now + Config.us (s.fe.get l).glitch.toNat ≤ s.clock.now ↔ (s.fe.get l).glitch = 0 := by
    have hzero : (s.fe.get l).glitch = 0 ↔ (s.fe.get l).glitch.toNat = 0 := by simp [BitVec.toNat_eq]
    rw [hzero]
    simp only [Config.us, Config.ticksPerMicrosecond]
    omega
  unfold State.startTest
  rw [State.settleTest_of_some (by rw [State.setFe_fe, PerLine.get_set_same])]
  simp only [State.setFe_fe, PerLine.get_set_same, FrontEnd.acceptInstant, State.setFe_clock, hiff]

/-- The line with its new level and a test of the edge. -/
def State.testedFlip (s : State) (l : Line) : State :=
  s.setFe l { s.fe.get l with level := !(s.fe.get l).level, test := some ⟨s.clock.now, (s.fe.get l).idleThreshold⟩ }

theorem State.flip_startTest : (s.flip l).startTest l =
    if (s.fe.get l).glitch = 0 then (s.testedFlip l).acceptEdge l ⟨s.clock.now, (s.fe.get l).idleThreshold⟩ else s.testedFlip l := by
  simp [State.startTest_eq, State.flip, State.testedFlip, State.setFe, FrontEnd.idleThreshold]

/-- With GLITCH 0 an edge to the active level in WATCH sends WAKE EDGE at once. -/
theorem State.testedFlip_acceptEdge_of_watch (h : (s.fe.get l).st = .watch) : (s.testedFlip l).acceptEdge l g =
    (s.setFe l { s.fe.get l with level := !(s.fe.get l).level, test := none }).setLink l
      { s.link.get l with wakeEdges := (s.link.get l).wakeEdges + 1 } := by
  rw [State.acceptEdge_of_watch (by simp [State.testedFlip, h])]
  simp [State.testedFlip, State.setFe, State.setLink]

open Sys2Proof.Safety in
theorem State.flip_rejectEdge : (thresholdAhead (s.fe.get l) s.clock.now → (s.flip l).rejectEdge l =
      s.setFe l { s.fe.get l with level := !(s.fe.get l).level, test := none }) ∧
    (¬ thresholdAhead (s.fe.get l) s.clock.now → (s.flip l).rejectEdge l =
      (s.setFe l { s.fe.get l with level := !(s.fe.get l).level, test := none }).actOnThreshold l) := by
  have hfront : (s.flip l).setFe l { (s.flip l).fe.get l with test := none } =
      s.setFe l { s.fe.get l with level := !(s.fe.get l).level, test := none } := by
    simp [State.flip, State.setFe]
  unfold State.rejectEdge
  rw [hfront]
  exact ⟨fun h => State.settleThreshold_of_ahead (by simpa [thresholdAhead, FrontEnd.thresholdInstant] using h),
    fun h => State.settleThreshold_of_passed (by simp) (by simpa [thresholdAhead, FrontEnd.thresholdInstant] using h)⟩

/-! ### An edge after what the passing of time has brought about -/

section
open Sys2Proof.Safety

theorem State.edge_startsTest (hst : testsEdges (s.fe.get l).st) (htest : (s.fe.get l).test = none)
    (hahead : thresholdAhead (s.fe.get l) s.clock.now) : (s.catchUp l).rawEdge l = (s.flip l).startTest l := by
  rw [State.catchUp_of_none htest, State.settleThreshold_of_ahead hahead, State.rawEdge_of_testsEdges hst, htest]
  exact if_neg Bool.false_ne_true

theorem State.edge_rejected (hst : testsEdges (s.fe.get l).st) (htest : (s.fe.get l).test = some g)
    (hrun : s.clock.now < (s.fe.get l).acceptInstant g) : (s.catchUp l).rawEdge l = (s.flip l).rejectEdge l := by
  rw [State.catchUp_of_running htest hrun, State.rawEdge_of_testsEdges hst, htest]
  exact if_pos rfl

theorem State.edge_ignored (hst : (s.fe.get l).st = .off ∨ (s.fe.get l).st = .blanked ∨ (s.fe.get l).st = .parked) :
    (s.catchUp l).rawEdge l = s.flip l := by
  rw [State.catchUp_of_ignored hst, State.rawEdge_of_ignored hst]

/-- WATCH waits for no threshold, so only a test can have run out. -/
theorem State.catchUp_of_watch (hst : (s.fe.get l).st = .watch) (htest : (s.fe.get l).test = none) : s.catchUp l = s :=
  (State.catchUp_of_none htest).trans (State.settleThreshold_of_ahead (thresholdAhead_of_st (by simp [hst])))

theorem State.edge_afterThreshold (htest : (s.fe.get l).test = none) (h : ¬ thresholdAhead (s.fe.get l) s.clock.now) :
    s.catchUp l = (s.actOnThreshold l).catchUp l := by
  rw [State.catchUp_of_none htest, State.settleThreshold_of_passed htest h,
    State.catchUp_of_none (State.actOnThreshold_get.1.trans htest), State.settleThreshold_actOnThreshold]

theorem State.edge_afterTest (hst : testsEdges (s.fe.get l).st ∨ (s.fe.get l).st = .watch) (htest : (s.fe.get l).test = some g)
    (hheld : (s.fe.get l).acceptInstant g ≤ s.clock.now) : s.catchUp l = (s.acceptEdge l g).catchUp l := by
  rw [State.catchUp_of_held htest hheld, State.catchUp_of_none (State.acceptEdge_test hst)]

end

/-! ### The line registers -/

/-- A change of POLARITY on an enabled line sets ACCESS. -/
theorem State.refuseAccess_of_differ (s : State) (p q : Bool) :
    (if p = q then s else s.refuseAccess) = { s with irq := { s.irq with access := s.irq.access || (p != q) } } := by
  cases p <;> cases q <;> simp [State.refuseAccess]

theorem State.writeControl_of_off {v : Byte} (h : (s.fe.get l).st = .off) : State.writeControl l v s =
    if v.getLsbD 0 then (s.setFe l { s.fe.get l with polarity := v.getLsbD 1 }).enableLine l
    else s.setFe l { s.fe.get l with polarity := v.getLsbD 1 } := by
  simp [State.writeControl, FrontEnd.enabled, h]

theorem State.writeControl_of_enabled {v : Byte} (h : (s.fe.get l).st ≠ .off) : State.writeControl l v s =
    if v.getLsbD 1 = (s.fe.get l).polarity then (if v.getLsbD 0 then s else s.disableLine l)
    else (if v.getLsbD 0 then s else s.disableLine l).refuseAccess := by
  simp [State.writeControl, FrontEnd.enabled, h]

theorem State.enableLine_of_held (h : (s.fe.get l).blankingHeld = true) :
    s.enableLine l = s.setFe l { s.fe.get l with st := .blanked } := if_pos h

theorem State.enableLine_of_free (h : (s.fe.get l).blankingHeld = false) :
    s.enableLine l = s.setFe l ((s.fe.get l).enterSettle s.clock.now) := if_neg (by simp [h])

theorem State.disableLine_eq : s.disableLine l = { s with
    fe := s.fe.set l { s.fe.get l with st := .off, test := none }
    link := s.link.set l { s.link.get l with
      toDecoder := (s.link.get l).toDecoder ++
        (if (s.fe.get l).st = .mark ∨ (s.fe.get l).st = .space then [Notice.burstAbort .disabled] else [])
      toCapture := (s.link.get l).toCapture ++
        (if (s.fe.get l).st = .mark ∨ (s.fe.get l).st = .space then [Notice.burstAbort .disabled] else [])
      expireRequests := (s.link.get l).expireRequests ++ [s.burstsAhead l] } } := by
  by_cases h : (s.fe.get l).st = .mark ∨ (s.fe.get l).st = .space
  · have hburst : s.abortBurst l .disabled = s.sendNotice l (.burstAbort .disabled) := if_pos (by simpa [FrontEnd.inBurst] using h)
    rw [if_pos h]
    simp [State.disableLine, hburst, State.requestExpiry, State.setLink, State.setFe, State.sendNotice, State.burstsAhead,
      Notice.opensBurst]
  · have hquiet : s.abortBurst l .disabled = s := if_neg (by simpa [FrontEnd.inBurst] using h)
    rw [if_neg h]
    simp [State.disableLine, hquiet, State.requestExpiry, State.setLink, State.setFe, State.burstsAhead]

theorem exec_registerWrite_glitch {off : BitVec 6} (h : off.toNat = Safety.lineOffset l + 1) (v : Byte) (s : State) :
    exec (.registerWrite off v) s = .next (s.registerAccess (State.writeGlitch l v)) := by
  have hoff : off = BitVec.ofNat 6 (Safety.lineOffset l + 1) := by rw [← h, BitVec.ofNat_toNat, BitVec.setWidth_eq]
  subst hoff
  cases l <;> rfl

end Sys2Proof.Machine

open Sys2Proof Sys2Proof.Machine Sys2Proof.Safety

/-- Settles O8: first what the passing of time has brought about, then the raw edge by line state. -/
theorem rawEdgeIsTestedFirst : Obligations.RawEdgeIsTestedFirst := by
  intro l dt s
  have hexec : exec (.rxEdge l dt) s = .next (((s.elapse dt).catchUp l).rawEdge l) := rfl
  have hzero : ∀ v : State, exec (.rxEdge l 0) v = .next ((v.catchUp l).rawEdge l) := fun v => rfl
  refine ⟨fun hst htest hahead => ?_, fun g hst htest hrun => ?_, fun hst => ?_, fun hst htest => ?_, fun g hst htest hrun hact => ?_,
    fun htest hpassed => ?_, fun g hst htest hheld => ?_⟩
  · rw [hexec, State.edge_startsTest (by exact hst) (by exact htest) (by exact hahead), State.flip_startTest]
    exact ⟨fun hg => congrArg Host.Outcome.next (if_neg hg), fun hg => congrArg Host.Outcome.next (if_pos hg)⟩
  · rw [hexec, State.edge_rejected (by exact hst) (by exact htest) (by exact hrun)]
    exact ⟨fun h => congrArg Host.Outcome.next (State.flip_rejectEdge.1 h), fun h => congrArg Host.Outcome.next (State.flip_rejectEdge.2 h)⟩
  · rw [hexec, State.edge_ignored (by exact hst)]
    rfl
  · rw [hexec, State.catchUp_of_watch (by exact hst) (by exact htest)]
    refine ⟨fun hact => ?_, fun hact hg => ?_, fun hact hg => ?_⟩
    · rw [State.rawEdge_active (by exact hst) (by exact hact), State.flip_of_none (by exact htest)]
      rfl
    · rw [State.rawEdge_inactive (by exact hst) (by exact hact), State.flip_startTest, if_neg (by exact hg)]
      rfl
    · rw [State.rawEdge_inactive (by exact hst) (by exact hact), State.flip_startTest, if_pos (by exact hg),
        State.testedFlip_acceptEdge_of_watch (by exact hst)]
      rfl
  · rw [hexec, State.catchUp_of_running (by exact htest) (by exact hrun), State.rawEdge_active (by exact hst) (by exact hact)]
    rfl
  · rw [hexec, hzero, State.edge_afterThreshold (by exact htest) (by exact hpassed)]
    rfl
  · rw [hexec, hzero, State.edge_afterTest (by exact hst) (by exact htest) (by exact hheld)]
    rfl

/-- Settles O9, from what an accepted edge does in each line state. -/
theorem acceptedEdgeActsByLineState : Obligations.AcceptedEdgeActsByLineState := by
  intro l s f k u
  refine ⟨exec_glitchTestAccept_of_none, fun g htest => ?_⟩
  rw [exec_glitchTestAccept_of_some htest]
  refine ⟨fun h => ?_, fun h => ?_, fun h => ?_, fun h => ?_, fun h => ?_, fun h => ?_⟩
  · rw [State.acceptEdge_of_idle (by exact h)]
    rfl
  · rw [State.acceptEdge_of_mark (by exact h)]
    rfl
  · rw [State.acceptEdge_of_space (by exact h)]
    rfl
  · rw [State.acceptEdge_of_settle (by exact h)]
    rfl
  · rw [State.acceptEdge_of_stuck (by exact h)]
    rfl
  · rw [State.acceptEdge_of_watch (by exact h)]
    rfl

/-- Settles O10, from what the threshold of each line state does. -/
theorem thresholdsEndWaitsAndBursts : Obligations.ThresholdsEndWaitsAndBursts := by
  intro l s f k u
  refine ⟨fun w hst htest hwait => ?_, fun hst hwait => ?_, fun hst htest => ?_, fun hst htest => ?_, fun h => ?_, fun h => ?_,
    fun h => ?_⟩
  · exact congrArg Host.Outcome.next (State.thresholdEvent_of_settle hst htest hwait)
  · exact congrArg Host.Outcome.next (State.thresholdEvent_of_no_wait hst hwait)
  · exact congrArg Host.Outcome.next (State.thresholdEvent_of_space hst htest)
  · exact congrArg Host.Outcome.next (State.thresholdEvent_of_mark hst htest)
  · exact congrArg Host.Outcome.next (State.thresholdEvent_of_other h)
  · exact congrArg Host.Outcome.next (State.thresholdEvent_of_other h)
  · exact congrArg Host.Outcome.next (State.thresholdEvent_of_other h)

/-- Settles O11, from what a write of CONTROL does to an OFF and to an enabled line, and from when a space window reaches IDLE. -/
theorem lineRegisterWritesFollowRules : Obligations.LineRegisterWritesFollowRules := by
  refine ⟨fun l v s hd hr => ⟨fun hv => ?enable, fun hv => ?disable, fun off hoff => ?glitch⟩, fun l v s hd hr => ?idle⟩
  case enable =>
    have hexec : exec (.lineEnable l v) s = .next (State.writeControl l v s) :=
      congrArg Host.Outcome.next (s.registerAccess_awake _ hr hd)
    rw [hexec]
    refine ⟨fun hst hheld => ?_, fun hst hfree => ?_, fun hst => ?_⟩
    · rw [State.writeControl_of_off hst, if_pos hv, State.enableLine_of_held (by simpa [FrontEnd.blankingHeld] using hheld)]
      simp [State.setFe]
    · rw [State.writeControl_of_off hst, if_pos hv, State.enableLine_of_free (by simpa [FrontEnd.blankingHeld] using hfree)]
      simp [State.setFe, FrontEnd.enterSettle, FrontEnd.active, FrontEnd.idleThreshold, Config.hundredUs, Config.us,
        Config.ticksPerMicrosecond]
    · rw [State.writeControl_of_enabled hst, if_pos hv, State.refuseAccess_of_differ]
  case disable =>
    have hexec : exec (.lineDisable l v) s = .next (State.writeControl l v s) :=
      congrArg Host.Outcome.next (s.registerAccess_awake _ hr hd)
    have hclear : ¬ v.getLsbD 0 = true := by rw [hv]; exact Bool.false_ne_true
    rw [hexec]
    refine ⟨fun hst => ?_, fun hst => ?_⟩
    · rw [State.writeControl_of_off hst, if_neg hclear]
      rfl
    · rw [State.writeControl_of_enabled hst, if_neg hclear, State.refuseAccess_of_differ, State.disableLine_eq]
      rfl
  case glitch =>
    rw [exec_registerWrite_glitch hoff, s.registerAccess_awake _ hr hd, State.writeGlitch]
    by_cases hst : (s.fe.get l).st = .off
    · rw [if_pos hst, if_neg (by simp [FrontEnd.enabled, hst])]
      rfl
    · rw [if_neg hst, if_pos (by simp [FrontEnd.enabled, hst])]
      rfl
  case idle =>
    intro reached
    have hexec : exec (.idleWrite l v) s = .next (State.writeIdle l v s) :=
      congrArg Host.Outcome.next (s.registerAccess_awake _ hr hd)
    have hreached : s.idleReached l v = true ↔ reached := s.idleReached_iff l v
    rw [hexec]
    refine ⟨fun h => ?_, fun hv h => ⟨_, rfl, ?_, ?_⟩⟩
    · rw [State.writeIdle, if_pos (h.imp_right hreached.mpr)]
      rfl
    all_goals rw [State.writeIdle, if_neg (fun hor => hor.elim hv fun hr => h (hreached.mp hr))]
    · rfl
    · cases l <;> rfl

end

