-- ==== Sys2Proof/Proofs/CaptureEvents.lean ====
section
/-! PROOF. O30 and O32: a burst that opens is claimed, passed over or ignored, and a recording is decided by its close and its
report. -/

namespace Sys2Proof.Machine

open Sys2Proof (Byte Time Payload Line)

variable {s : State} {c : Capture} {l : Line} {rest : List Notice}

/-! ### The burst that opens -/

theorem Capture.eligible_iff : c.eligible l = true ↔
    c.latchedSelect = .any ∨ (c.latchedSelect = .a ∧ l = .A) ∨ (c.latchedSelect = .b ∧ l = .B) := by
  unfold Capture.eligible
  cases c.latchedSelect <;> cases l <;> decide

theorem Capture.burstStart_armed {time : Time} (he : c.eligible l = true) (h : c.st = .armed) :
    c.burstStart l time =
      { c.enterBurst l .recorded with st := .filling l, count := 0, stamp := time, closed := false, verdict := none } := by
  simp only [Capture.burstStart, he, h, if_true]

theorem Capture.burstStart_passed {time : Time} (he : c.eligible l = true) (h : ∃ m, c.st = .filling m ∨ c.st = .full (.line m)) :
    c.burstStart l time = c.enterBurst l .passed := by
  obtain ⟨m, h | h⟩ := h <;> simp only [Capture.burstStart, he, h, if_true]

theorem Capture.burstStart_ignored {time : Time} (h : c.eligible l = false ∨ c.st = .idle ∨ c.st = .full .host) :
    c.burstStart l time = c.enterBurst l .ignored := by
  rcases h with he | h | h
  · exact if_neg (by rw [he]; exact Bool.false_ne_true)
  · simp only [Capture.burstStart, h, ite_self]
  · simp only [Capture.burstStart, h, ite_self]

theorem State.dropCaptureNotice_of_cons {n : Notice} (h : (s.link.get l).toCapture = n :: rest) :
    s.dropCaptureNotice l = s.setLink l { s.link.get l with toCapture := rest } := by
  simp only [State.dropCaptureNotice, h, List.tail_cons]

theorem exec_captureBurstStart {time : Time} (h : (s.link.get l).toCapture = .burstStart time :: rest) :
    exec (.captureBurstStart l) s = .next { s.setLink l { s.link.get l with toCapture := rest } with
      cap := if s.pow.st = .dormant ∧ s.cap.st = .armed then s.cap.enterBurst l .ignored else s.cap.burstStart l time } := by
  simp only [exec, execCaptureBurstStart, h, State.dropCaptureNotice_of_cons h]

/-! ### The close and the report -/

theorem exec_captureClose {n : Notice} (h : (s.link.get l).toCapture = n :: rest)
    (hn : (∃ time, n = .burstEnd time) ∨ ∃ why, n = .burstAbort why) :
    exec (.captureClose l) s = .next { s.setLink l { s.link.get l with toCapture := rest } with
      cap := if s.cap.records l then s.cap.close l else s.cap } := by
  obtain ⟨x, rfl⟩ | ⟨x, rfl⟩ := hn <;> simp only [exec, execCaptureClose, h, State.dropCaptureNotice_of_cons h]

theorem exec_captureReport {r : Report} {reports : List Report} {tag : Tag} {tags : List Tag}
    (hr : (s.link.get l).reports = r :: reports) (ht : s.cap.lists.get l = tag :: tags) :
    exec (.captureReport l) s = .next { s.setLink l { s.link.get l with reports := reports } with
      cap := if s.pow.st = .dormant then { s.cap with lists := s.cap.lists.set l tags }
        else { s.cap with lists := s.cap.lists.set l tags }.actOnReport l r tag } := by
  simp only [exec, execCaptureReport, hr, ht, State.dropReport, Capture.dropEntry, List.tail_cons]

theorem keeps_iff (m : CaptureMode) (r : Report) : keeps m r = true ↔ r = .unmatched ∨ (r = .matched ∧ m = .all) := by
  cases m <;> cases r <;> decide

theorem keeps_eq (m : CaptureMode) (r : Report) :
    keeps m r = (decide (r = .unmatched) || (decide (r = .matched) && decide (m = .all))) := by
  cases m <;> cases r <;> rfl

theorem Capture.decideRecording_lists (c : Capture) (l : Line) (r : Report) : (c.decideRecording l r).lists = c.lists := by
  unfold Capture.decideRecording
  split <;> rfl

/-- A decided recording is kept or discarded, whatever the report lists hold. -/
theorem Capture.decideRecording_eq (lists : PerLine (List Tag)) (r : Report) {d : Capture}
    (hd : d = { c with lists := lists }.decideRecording l r) :
    ((r = .unmatched ∨ (r = .matched ∧ c.latchedMode = .all)) →
      d = { c with st := .full (.line l), closed := false, verdict := none, lists := d.lists }) ∧
    (¬ (r = .unmatched ∨ (r = .matched ∧ c.latchedMode = .all)) →
      d = { c with st := .armed, count := 0, closed := false, verdict := none, lists := d.lists }) := by
  subst hd
  rw [Capture.decideRecording_lists]
  exact ⟨fun h => if_pos ((keeps_iff _ _).mpr h), fun h => if_neg fun hk => h ((keeps_iff _ _).mp hk)⟩

theorem Capture.close_of_verdict {r : Report} (h : c.verdict = some r) : c.close l = c.decideRecording l r := by
  simp only [Capture.close, h]

theorem Capture.close_of_none (h : c.verdict = none) : c.close l = { c with closed := true } := by
  simp only [Capture.close, h]

theorem Capture.close_lists (c : Capture) (l : Line) : (c.close l).lists = c.lists := by
  unfold Capture.close
  split
  · exact Capture.decideRecording_lists c l _
  · rfl

theorem Capture.holdReport_of_closed {r : Report} (hst : c.st = .filling l) (h : c.closed = true) :
    c.holdReport l r = c.decideRecording l r := by
  rw [Capture.holdReport, if_pos hst, if_pos h]

theorem Capture.holdReport_of_open {r : Report} (hst : c.st = .filling l) (h : c.closed = false) :
    c.holdReport l r = { c with verdict := some r } := by
  rw [Capture.holdReport, if_pos hst, if_neg (by rw [h]; exact Bool.false_ne_true)]

theorem Capture.holdReport_lists (c : Capture) (l : Line) (r : Report) : (c.holdReport l r).lists = c.lists := by
  unfold Capture.holdReport
  split
  · split
    · exact Capture.decideRecording_lists c l r
    · rfl
  · rfl

/-- A report on a burst that is not recorded touches MISSED at most. -/
theorem Capture.actOnReport_of_not_recorded {tag : Tag} (h : tag ≠ .recorded) (r : Report) :
    c.actOnReport l r tag = { c with missed := c.missed || (decide (tag = .passed) && keeps c.latchedMode r) } := by
  cases tag with
  | recorded => exact absurd rfl h
  | passed => rfl
  | ignored => simp [Capture.actOnReport]

end Sys2Proof.Machine

open Sys2Proof Sys2Proof.Machine Sys2Proof.Safety

/-- Settles O30, from the tag that an opening burst takes by eligibility and capture state. -/
theorem captureClaimsEligibleBurst : Obligations.CaptureClaimsEligibleBurst := by
  intro l time rest s hlink eligible entered after
  have hel : s.cap.eligible l = true ↔ eligible := Capture.eligible_iff
  rw [exec_captureBurstStart hlink]
  refine ⟨fun hd he hst => ?_, fun he hst => ?_, fun h => ?_⟩
  · rw [if_neg fun hand => hd hand.1, Capture.burstStart_armed (hel.mpr he) hst]
    rfl
  · have harmed : ¬ (s.pow.st = .dormant ∧ s.cap.st = .armed) := fun ⟨_, ha⟩ => by
      obtain ⟨m, hm | hm⟩ := hst <;> simp [ha] at hm
    rw [if_neg harmed, Capture.burstStart_passed (hel.mpr he) hst]
    rfl
  · by_cases hdormant : s.pow.st = .dormant ∧ s.cap.st = .armed
    · rw [if_pos hdormant]
      rfl
    · rw [if_neg hdormant, Capture.burstStart_ignored]
      · rfl
      · rcases h with h | h | h | h
        · exact .inl (Bool.not_eq_true _ ▸ fun ht => h (hel.mp ht))
        · exact .inr (.inl h)
        · exact .inr (.inr h)
        · exact absurd ⟨h.2, h.1⟩ hdormant

/-- Settles O32: the close and the report each decide the recording when the other has come. -/
theorem closeAndReportDecideRecording : Obligations.CloseAndReportDecideRecording := by
  refine ⟨fun l s hst => ⟨fun n rest hlink hn hopen => ?close, fun r reports tags hd hr ht => ?report⟩,
    fun l n rest s hlink hn hnot => ?notRecorded, fun l r reports tag tags s hd hr ht => ?dormant,
    fun l r reports tag tags s hd hr ht htag => ?passed⟩
  case close =>
    have hrecords : s.cap.records l = true := (s.cap.records_iff l).mpr ⟨hst, hopen⟩
    rw [exec_captureClose hlink hn, if_pos hrecords]
    refine ⟨_, rfl, rfl, s.cap.close_lists l, Capture.close_of_none, fun r hv => ?_⟩
    exact Capture.decideRecording_eq s.cap.lists r (Capture.close_of_verdict hv)
  case report =>
    rw [exec_captureReport hr ht, if_neg hd]
    refine ⟨_, rfl, rfl, Capture.holdReport_lists _ l r,
      fun hopen => Capture.holdReport_of_open (c := { s.cap with lists := s.cap.lists.set l tags }) hst hopen,
      fun hclosed => Capture.decideRecording_eq (s.cap.lists.set l tags) r
        (Capture.holdReport_of_closed (c := { s.cap with lists := s.cap.lists.set l tags }) hst hclosed)⟩
  case notRecorded =>
    rw [exec_captureClose hlink hn, if_neg fun h => hnot ((s.cap.records_iff l).mp h)]
    rfl
  case dormant =>
    rw [exec_captureReport hr ht, if_pos hd]
    rfl
  case passed =>
    rw [exec_captureReport hr ht, if_neg hd, Capture.actOnReport_of_not_recorded htag, keeps_eq]
    rfl

end

