-- ==== Sys2Proof/Proofs/QueueEvents.lean ====
section
/-! PROOF. O25: what the queue makes of a post and of an increment. -/

namespace Sys2Proof.Machine

open Sys2Proof (Byte Time Payload Line)

variable {s : State} {l : Line} {p : Post} {before after : List Post}

/-! ### The oldest request of a kind -/

section
variable {α : Type} {q : α → Bool} {x : α} {xs ys : List α}

theorem find?_of_first (hxs : ∀ y ∈ xs, q y = false) (hx : q x = true) : (xs ++ x :: ys).find? q = some x :=
  List.find?_eq_some_iff_append.mpr ⟨hx, xs, ys, rfl, fun y hy => by rw [hxs y hy]; rfl⟩

theorem eraseP_of_first (hxs : ∀ y ∈ xs, q y = false) (hx : q x = true) : (xs ++ x :: ys).eraseP q = xs ++ ys := by
  rw [List.eraseP_append_right _ fun y hy => by rw [hxs y hy]; exact Bool.false_ne_true, List.eraseP_cons_of_pos hx]

end

theorem exec_post_of_first (hposts : (s.link.get l).posts = before ++ p :: after)
    (hbefore : ∀ q ∈ before, s.isIncrement l q = true) (hp : s.isIncrement l p = false) :
    exec (.post l) s = .next ((s.setLink l { s.link.get l with posts := before ++ after }).takePost p) := by
  have hfirst : ∀ q ∈ before, (!s.isIncrement l q) = false := fun q hq => by rw [hbefore q hq]; rfl
  have hpost : (!s.isIncrement l p) = true := by rw [hp]; rfl
  simp only [exec, execPost, State.oldestPost, State.dropRequest, hposts, find?_of_first hfirst hpost, eraseP_of_first hfirst hpost]

theorem exec_increment_of_first (hposts : (s.link.get l).posts = before ++ p :: after)
    (hbefore : ∀ q ∈ before, s.isIncrement l q = false) (hp : s.isIncrement l p = true) :
    exec (.repeatCountIncrement l) s = .next ((s.setLink l { s.link.get l with posts := before ++ after }).takeIncrement l) := by
  simp only [exec, execRepeatCountIncrement, State.oldestIncrement, State.dropRequest, hposts, find?_of_first hbefore hp,
    eraseP_of_first hbefore hp]

theorem exec_post_of_none (h : ∀ p ∈ (s.link.get l).posts, s.isIncrement l p = true) : exec (.post l) s = .next s := by
  have hnone : s.oldestPost l = none := List.find?_eq_none.mpr fun p hp => by rw [h p hp]; exact Bool.false_ne_true
  simp only [exec, execPost, hnone]

theorem exec_increment_of_none (h : ∀ p ∈ (s.link.get l).posts, s.isIncrement l p = false) :
    exec (.repeatCountIncrement l) s = .next s := by
  have hnone : s.oldestIncrement l = none := List.find?_eq_none.mpr fun p hp => by rw [h p hp]; exact Bool.false_ne_true
  simp only [exec, execRepeatCountIncrement, hnone]

/-! ### The queue -/

theorem State.takePost_of_room (h : s.rq.records.length < 16) :
    s.takePost p = { s with rq := { s.rq with records := s.rq.records ++ [{ p.record with referred := p.refers }] } } := if_pos h

theorem State.takePost_of_full {older : List Record} {newest : Record} (h : 16 ≤ s.rq.records.length)
    (hr : s.rq.records = older ++ [newest]) : s.takePost p = { s with
      rq := { s.rq with records := older ++ [{ newest with loss := true, lost := min 15 (newest.lost + 1) }] }
      irq := { s.irq with loss := true } } := by
  have hfull : ¬ s.rq.records.length < Config.queueCapacity := Nat.not_lt.mpr h
  rw [State.takePost, if_neg hfull, hr, markNewest_append]
  rfl

end Sys2Proof.Machine

open Sys2Proof Sys2Proof.Machine Sys2Proof.Safety

/-- Settles O25: the queue takes the first request of the kind, and there is none of the kind when it takes nothing. -/
theorem queueTakesPostsAndIncrements : Obligations.QueueTakesPostsAndIncrements := by
  refine ⟨fun l p before after s hposts hbefore hp => ?post, fun l p before after s hposts hbefore hp href => ?increment,
    fun l s => ⟨fun h => ?noPost, fun h => ?noIncrement⟩⟩
  case post =>
    have hfirst : ∀ q ∈ before, s.isIncrement l q = true := fun q hq => by
      obtain ⟨hcounts, href⟩ := hbefore q hq
      rw [State.isIncrement, hcounts, href]
      rfl
    have hpost : s.isIncrement l p = false := by
      cases hc : p.counts with
      | false => rw [State.isIncrement, hc]; rfl
      | true => rw [State.isIncrement, hp hc, Bool.and_false]
    rw [exec_post_of_first hposts hfirst hpost]
    refine ⟨fun hroom => ?_, fun older newest hfull hrecords => ?_⟩
    · exact congrArg Host.Outcome.next (State.takePost_of_room hroom)
    · exact congrArg Host.Outcome.next (State.takePost_of_full hfull hrecords)
  case increment =>
    rw [exec_increment_of_first hposts (fun q hq => by rw [State.isIncrement, hbefore q hq]; rfl)
      (by rw [State.isIncrement, hp, href]; rfl)]
    simp only [State.takeIncrement, ReceiveQueue.countRepeats, Record.refersFor_iff]
    rfl
  case noPost =>
    refine exec_post_of_none fun p hp => ?_
    obtain ⟨hcounts, href⟩ := h p hp
    rw [State.isIncrement, hcounts, href]
    rfl
  case noIncrement =>
    refine exec_increment_of_none fun p hp => ?_
    rcases h p hp with hc | href
    · rw [State.isIncrement, hc]
      rfl
    · rw [State.isIncrement, href, Bool.and_false]

end

