-- ==== Sys2Proof/Proofs/Clearing.lean ====
section
/-! SUPPORT. What a cleared memory leaves on its way and in the queue, as the statements about retirement and expiry read it. -/

namespace Sys2Proof.Machine

open Sys2Proof (Byte Time Payload Line)
open Sys2Proof.Safety (identity stillPosted)

variable {s : State} {l : Line}

/-- Every increment is counted before the reference is given up; the rest stays to be posted. -/
theorem Links.forget_posts_record (k : Links) (has : Bool) :
    (k.forget has).posts.map (·.record) = (k.posts.filter fun q => !(q.counts && has)).map (·.record) := by
  cases has <;> simp [Links.forget, Function.comp_def]

theorem stillPosted_forget (s : State) (l : Line) :
    ((s.link.get l).forget (s.rq.hasReference l)).posts.map (·.record) = stillPosted s l (s.link.get l).posts :=
  Links.forget_posts_record _ _

theorem Links.forget_posts_plain {k : Links} {has : Bool} : ∀ q ∈ (k.forget has).posts, q.counts = false ∧ q.refers = false := by
  intro q hq
  obtain ⟨p, -, rfl⟩ := List.mem_map.mp hq
  exact ⟨rfl, rfl⟩

theorem State.clearOf_not_refers {p : Line → Bool} (hp : p l = true) : ∀ r ∈ (s.clearOf p).rq.records, r.refersFor l = false := by
  intro r hr
  rw [State.clearOf_rq] at hr
  obtain ⟨r', -, rfl⟩ := List.mem_map.mp hr
  by_cases hl : r'.line = l
  · simp [hl, hp]
  · have hnot : r'.refersFor l = false := by simp [Record.refersFor, hl]
    split
    · rw [Record.release_refersFor, hnot, Bool.false_and]
    · exact hnot

theorem State.clearOf_identity (s : State) (p : Line → Bool) : (s.clearOf p).rq.records.map identity = s.rq.records.map identity := by
  simp only [State.clearOf_rq, List.map_map]
  refine List.map_congr_left fun r _ => ?_
  simp only [Function.comp_apply]
  split
  · exact identity_release _ _ _
  · rfl

theorem State.clearOf_rq_rest (s : State) (p : Line → Bool) :
    (s.clearOf p).rq.held = s.rq.held ∧ (s.clearOf p).rq.watermark = s.rq.watermark := by
  rw [State.clearOf_rq]
  exact ⟨rfl, rfl⟩

end Sys2Proof.Machine

end

