-- ==== Sys2Proof/Proofs/JobEvents.lean ====
section
/-! PROOF. O40 to O42, O44 and O45: the start and the end of a job, and the instants of GAP, TAIL and guard holds. -/

namespace Sys2Proof.Machine

open Sys2Proof (Byte Time Payload Line)
open Sys2Proof.Safety (JobEnded stillPosted)

variable {s : State} {j : Job} {jobs : List Job} {n : Fin 8}

/-! ### The lines at the end of a job -/

/-- A line after a job has ended at the instant `t`, with GUARD `g`, seen at the instant `now` (R13, R145, R152). -/
def FrontEnd.afterJob (f : FrontEnd) (g : Byte) (t now : Nat) : FrontEnd :=
  if f.txHold then
    if g = 0 then
      if f.st = .blanked then { f with txHold := false, guardHold := none }.enterSettle now
      else { f with txHold := false, guardHold := none }
    else { f with txHold := false, guardHold := some (t + Config.hundredUs g.toNat) }
  else f

theorem FrontEnd.afterJob_cases (f : FrontEnd) (g : Byte) (t now : Nat) :
    (f.txHold = false → f.afterJob g t now = f) ∧
    (f.txHold = true → g ≠ 0 → f.afterJob g t now =
      { f with txHold := false, guardHold := some (t + 8 * (100 * g.toNat)) }) ∧
    (f.txHold = true → g = 0 →
      (f.st ≠ .blanked → f.afterJob g t now = { f with txHold := false, guardHold := none }) ∧
      (f.st = .blanked → f.afterJob g t now = { f with
        txHold := false
        guardHold := none
        st := .settle
        test := none
        wait := if f.active then none else some now
        threshold := 8 * (100 * f.idle.toNat) })) := by
  unfold FrontEnd.afterJob
  refine ⟨fun h => ?_, fun h hg => ?_, fun h hg => ⟨fun hst => ?_, fun hst => ?_⟩⟩
  · rw [if_neg (by rw [h]; exact Bool.false_ne_true)]
  · rw [if_pos h, if_neg hg]
    rfl
  · rw [if_pos h, if_pos hg, if_neg hst]
  · rw [if_pos h, if_pos hg, if_pos hst]
    rfl

theorem State.passToGuard_fe_get (s : State) (t : Nat) (l : Line) :
    (s.passToGuard t l).fe.get l = (s.fe.get l).afterJob s.tx.guardSetting t s.clock.now := by
  unfold FrontEnd.afterJob
  cases htx : (s.fe.get l).txHold with
  | false => rw [State.passToGuard_of_not_held s t l htx]; rfl
  | true =>
    by_cases hg : s.tx.guardSetting = 0
    · rw [if_pos rfl, if_pos hg, State.passToGuard, if_pos htx, hg]
      by_cases hst : (s.fe.get l).st = .blanked <;> simp [State.unblank_fe, FrontEnd.blankingHeld, hst]
    · rw [if_pos rfl, if_neg hg, State.passToGuard_of_guard s t l htx hg]
      simp

theorem State.endJob_fe_get (s : State) (j : Job) (st : CompletionStatus) (t : Nat) (l : Line) :
    (s.endJob j st t).fe.get l = (s.fe.get l).afterJob s.tx.guardSetting t s.clock.now := by
  unfold State.endJob
  cases l
  · rw [State.passToGuard_fe_ne _ _ (by decide), State.passToGuard_fe_get]
    simp [State.complete, State.dropJob]
  · rw [State.passToGuard_fe_get, State.passToGuard_fe_ne _ _ (by decide)]
    simp [State.complete, State.dropJob]

/-! ### The end of a job -/

theorem State.endJob_ended (s : State) (hn : j.entry = some n) (st : CompletionStatus) (t : Nat) :
    JobEnded s j n st s.tx.bursts t (s.endJob j st t) := by
  have hleave : s.releaseEntry j = s.leaveHolder .transmitter n := by simp only [State.releaseEntry, hn]
  obtain ⟨hentries, hrep, hlink, hrq, hirq⟩ := s.endJob_receive j st t
  rw [hleave, State.leaveHolder_eq] at hentries hrep hlink hrq hirq
  have hformat : s.jobFormat j = s.format n := by simp [State.jobFormat, hn]
  refine ⟨?tx, fun hr => ?stays, fun hr => ?retires, s.endJob_cap j st t, fun l => ?lines, by simp⟩
  case tx =>
    rw [State.endJob_tx, hformat]
    rfl
  case stays =>
    have hr' : s.entries[n].retires .transmitter = false := Bool.eq_false_iff.mpr fun h => hr ((EntryControl.retires_iff _ _).mp h)
    rw [hr', Bool.or_false] at hirq
    simp only [hr', Bool.false_and, State.clearOf_none] at hrep hlink hrq
    rw [EntryControl.left_of_not_retires hr'] at hentries
    exact ⟨hentries, hrep, hlink, hrq, hirq⟩
  case retires =>
    have hr' : s.entries[n].retires .transmitter = true := (EntryControl.retires_iff _ _).mpr hr
    rw [hr', Bool.or_true] at hirq
    simp only [hr', Bool.true_and] at hrep hlink hrq
    rw [EntryControl.left_of_retires hr'] at hentries
    rw [hrep, hlink, hrq]
    refine ⟨hentries, hirq, fun l => ⟨fun hspared => ?_, fun m hm hmn => ?_⟩, s.clearOf_identity _, s.clearOf_rq_rest _⟩
    · have hnames : s.memoryNames n l = false := by
        cases hm : (s.rep.get l).memory with
        | none => simp [State.memoryNames, hm]
        | some m => rw [State.memoryNames_of_some hm, decide_eq_false (hspared m hm)]
      rw [State.clearOf_rep_get, State.clearOf_link_get, hnames]
      exact ⟨rfl, rfl⟩
    · have hnames : s.memoryNames n l = true := (State.memoryNames_of_some hm n).trans (decide_eq_true hmn)
      rw [State.clearOf_rep_get, State.clearOf_link_get, hnames]
      exact ⟨rfl, stillPosted_forget s l, State.clearOf_not_refers hnames⟩
  case lines =>
    have hnow : (s.endJob j st t).clock.now = s.clock.now := by simp
    rw [State.endJob_fe_get, hnow]
    exact FrontEnd.afterJob_cases _ _ _ _

/-! ### The bursts of a job -/

theorem State.jobFormat_of_entry (hn : j.entry = some n) : s.jobFormat j = s.format n := by
  simp [State.jobFormat, hn]

theorem exec_txBurstEnd (hst : s.tx.st = .burst) (hj : s.tx.jobs = j :: jobs) :
    exec .txBurstEnd s = .next (((s.reachInstant s.tx.burstEnd).countBurst).afterBurst j) := by
  simp only [exec, execTxBurstEnd, hst, hj]

theorem exec_txBurstEnd_of_other (hst : s.tx.st ≠ .burst) : exec .txBurstEnd s = .next s := by
  show execTxBurstEnd s = _
  unfold execTxBurstEnd
  split
  · next h _ => exact absurd h hst
  · rfl

theorem exec_nextBurstStart (hst : s.tx.st = .gap) (hj : s.tx.jobs = j :: jobs) :
    exec .nextBurstStart s =
      .next ((s.reachInstant s.tx.nextStart).beginBurst (s.jobFormat j) j (s.tx.index + 1) s.tx.nextStart) := by
  simp only [exec, execNextBurstStart, hst, hj]

theorem exec_nextBurstStart_of_other (hst : s.tx.st ≠ .gap) : exec .nextBurstStart s = .next s := by
  show execNextBurstStart s = _
  unfold execNextBurstStart
  split
  · next h _ => exact absurd h hst
  · rfl

theorem exec_tailEnd (hst : s.tx.st = .tail) :
    exec .tailEnd s = .next { s.reachInstant s.tx.tailEnd with tx := { s.tx with st := .idle } } := by
  simp only [exec, execTailEnd, hst]

theorem exec_tailEnd_of_other (hst : s.tx.st ≠ .tail) : exec .tailEnd s = .next s := by
  show execTailEnd s = _
  unfold execTailEnd
  split
  · next h => exact absurd h hst
  · rfl

theorem Transmitter.moreBursts_iff (t : Transmitter) (j : Job) : t.moreBursts j = true ↔
    t.stopping = false ∧ (j.kindFlags.getLsbD 7 = true ∨ t.index < 1 + j.repeats.toNat) := by
  simp [Transmitter.moreBursts, Job.continuous]

theorem State.afterBurst_of_more (hn : j.entry = some n) (h : s.tx.moreBursts j = true) : s.afterBurst j = { s with
    tx := { s.tx with
      st := .gap
      nextStart := max (s.tx.burstStart + Config.ms (s.format n).framePeriod)
        (s.tx.burstEnd + Config.hundredUs (s.format n).txGap) } } := by
  rw [State.afterBurst, if_pos h, State.enterGap, State.jobFormat_of_entry hn]

theorem State.afterBurst_of_last (h : s.tx.moreBursts j = false) :
    s.afterBurst j = s.endJob j (if s.tx.stopping then .stopped else .done) s.tx.burstEnd := by
  rw [State.afterBurst, if_neg (by rw [h]; exact Bool.false_ne_true)]

/-! ### STOP TX and ABORT TX -/

theorem State.stopTx_of_quiet (h : s.tx.st = .idle ∨ s.tx.st = .tail) : s.stopTx = (s, .notActive) := by
  rcases h with h | h <;> simp only [State.stopTx, h]

theorem State.stopTx_of_burst (h : s.tx.st = .burst) (hj : s.tx.jobs = j :: jobs) :
    s.stopTx = ({ s with tx := { s.tx with stopping := true } }, .ok) := by
  simp only [State.stopTx, h, hj]

theorem State.stopTx_of_gap (h : s.tx.st = .gap) (hj : s.tx.jobs = j :: jobs) :
    s.stopTx = (s.endJob j .stopped s.clock.now, .ok) := by
  simp only [State.stopTx, h, hj]

theorem State.abortActive_of_quiet (h : s.tx.st = .idle ∨ s.tx.st = .tail) : s.abortActive = (s, .notActive) := by
  rcases h with h | h <;> simp only [State.abortActive, h]

/-- The active job ends ABORTED, a burst being sent counting as sent. -/
theorem State.abortActive_ended (hj : s.tx.jobs = j :: jobs) (hn : j.entry = some n) (h : s.tx.st = .burst ∨ s.tx.st = .gap) :
    ∃ t, s.abortActive = (t, .ok) ∧
      JobEnded s j n .aborted (if s.tx.st = .burst then min 255 (s.tx.bursts + 1) else s.tx.bursts) s.clock.now t ∧
      t.clock = s.clock ∧ t.win = s.win ∧ t.tx.jobs = jobs := by
  rcases h with h | h
  · refine ⟨_, by simp only [State.abortActive, h, hj]; rfl, ?_, by simp, by simp, by simp [State.countBurst, hj]⟩
    rw [if_pos h]
    exact State.endJob_ended s.countBurst hn .aborted s.clock.now
  · refine ⟨_, by simp only [State.abortActive, h, hj]; rfl, ?_, by simp, by simp, by simp [hj]⟩
    rw [if_neg (by simp [h])]
    exact State.endJob_ended s hn .aborted s.clock.now

theorem exec_stopTx (hr : s.pow.resetHeld = false) (hd : s.pow.st ≠ .dormant) :
    exec .stopTx s = .next (s.stopTx.1.setResult s.stopTx.2) := congrArg Host.Outcome.next (s.command_awake _ hr hd)

theorem exec_abortTx (hr : s.pow.resetHeld = false) (hd : s.pow.st ≠ .dormant) :
    exec .abortTx s = .next (s.abortTx.1.setResult s.abortTx.2) := congrArg Host.Outcome.next (s.command_awake _ hr hd)

theorem State.abortTx_of_one (h : s.win.arg = 1) : s.abortTx = (s.abortActive.1.removeWaiting, .ok) := by
  have hne : ¬ (1 : Byte) = 0 := by decide
  rw [State.abortTx, h, if_neg hne, if_pos rfl]

/-! ### The completion FIFO -/

theorem exec_popCompletion (hr : s.pow.resetHeld = false) (hd : s.pow.st ≠ .dormant) :
    exec .popCompletion s = .next (s.popCompletion.1.setResult s.popCompletion.2) :=
  congrArg Host.Outcome.next (s.command_awake _ hr hd)

theorem State.popCompletion_of_nil (h : s.tx.completions = []) : s.popCompletion = (s, .empty) := by
  simp only [State.popCompletion, h]

theorem State.popCompletion_of_cons {c : Completion} {rest : List Completion} (h : s.tx.completions = c :: rest) :
    s.popCompletion = ({ s with tx := { s.tx with completions := rest } }, .ok) := by
  simp only [State.popCompletion, h]

theorem Transmitter.completionView_of_nil {t : Transmitter} (h : t.completions = []) (view : Completion → Byte) :
    t.completionView view = 0 := by
  simp only [Transmitter.completionView, h]

theorem Transmitter.completionView_of_cons {t : Transmitter} {c : Completion} {rest : List Completion}
    (h : t.completions = c :: rest) (view : Completion → Byte) : t.completionView view = view c := by
  simp only [Transmitter.completionView, h]

/-! ### The start of a job -/

theorem exec_jobStart_of_not (h : s.mayStart = false) : exec .jobStart s = .next s := by
  show execJobStart s = _
  unfold execJobStart
  rw [h]
  cases s.tx.jobs <;> rfl

theorem exec_jobStart_unavailable (hm : s.mayStart = true) (hj : s.tx.jobs = j :: jobs)
    (h : ∀ n, j.entry = some n → s.entries[n].st ≠ .enabled) : exec .jobStart s = .next (s.jobUnavailable j) := by
  cases hn : j.entry with
  | none => simp only [exec, execJobStart, hj, hm, hn, if_true]
  | some n => simp only [exec, execJobStart, hj, hm, hn, if_true, if_neg (h n hn)]

theorem exec_jobStart_active (hm : s.mayStart = true) (hj : s.tx.jobs = j :: jobs) (hn : j.entry = some n)
    (h : s.entries[n].st = .enabled) : exec .jobStart s = .next (s.jobActive j n) := by
  simp only [exec, execJobStart, hj, hm, hn, if_true, h]

theorem State.jobUnavailable_eq (hj : s.tx.jobs = j :: jobs) : s.jobUnavailable j = { s with
    tx := { s.tx with jobs := jobs, completions := s.tx.completions ++ [⟨j.tag, .unavailable, 0⟩] }
    cap := { s.cap with pins := if j.kind = .replay then s.cap.pins - 1 else s.cap.pins } } := by
  unfold State.jobUnavailable State.unpinJob State.complete State.dropJob
  rw [hj]
  split <;> rfl

/-- A line after a hold has been taken on it (R12, R136, R153). -/
def FrontEnd.blanked (f : FrontEnd) : FrontEnd :=
  { f with
    st := f.st.underHold
    txHold := true
    guardHold := none
    test := if f.st.underHold = .blanked then none else f.test }

/-- What a hold puts on its way: the abort of a burst in progress. -/
def Links.blanked (k : Links) (f : FrontEnd) : Links :=
  { k with
    toDecoder := k.toDecoder ++ if f.st = .mark ∨ f.st = .space then [Notice.burstAbort .blanked] else []
    toCapture := k.toCapture ++ if f.st = .mark ∨ f.st = .space then [Notice.burstAbort .blanked] else [] }

theorem State.takeBlanking_eq (s : State) (l : Line) : s.takeBlanking l = { s with
    fe := s.fe.set l (s.fe.get l).blanked
    link := s.link.set l ((s.link.get l).blanked (s.fe.get l)) } := by
  unfold State.takeBlanking State.abortBurst Links.blanked
  by_cases h : (s.fe.get l).st = .mark ∨ (s.fe.get l).st = .space
  · rw [if_pos (by simpa [FrontEnd.inBurst] using h), if_pos h]
    rfl
  · rw [if_neg (by simpa [FrontEnd.inBurst] using h), if_neg h, List.append_nil, List.append_nil]
    exact congrArg (fun k => { s with fe := s.fe.set l (s.fe.get l).blanked, link := k }) (PerLine.set_get s.link l).symm

theorem State.blankFor_get (s : State) (j : Job) (l m : Line) :
    ((s.blankFor j l).fe.get m = if m = l ∧ j.blanks m = true then (s.fe.get m).blanked else s.fe.get m) ∧
    ((s.blankFor j l).link.get m =
      if m = l ∧ j.blanks m = true then (s.link.get m).blanked (s.fe.get m) else s.link.get m) := by
  unfold State.blankFor
  by_cases hm : m = l
  · subst hm
    split
    · next hb => simp [State.takeBlanking_eq, hb]
    · next hb => simp [hb]
  · split
    · simp [State.takeBlanking_eq, hm, PerLine.get_set_ne]
    · simp [hm]

theorem State.jobActive_get (s : State) (j : Job) (n : Fin 8) (l : Line) :
    ((s.jobActive j n).fe.get l = if j.blanks l = true then (s.fe.get l).blanked else s.fe.get l) ∧
    ((s.jobActive j n).link.get l =
      if j.blanks l = true then (s.link.get l).blanked (s.fe.get l) else s.link.get l) := by
  have hfe : (s.jobActive j n).fe = (((s.joinHolder .transmitter n).blankFor j .A).blankFor j .B).fe := rfl
  have hlink : (s.jobActive j n).link = (((s.joinHolder .transmitter n).blankFor j .A).blankFor j .B).link := rfl
  obtain ⟨hfeA, hlinkA⟩ := (s.joinHolder .transmitter n).blankFor_get j .A l
  obtain ⟨hfeB, hlinkB⟩ := ((s.joinHolder .transmitter n).blankFor j .A).blankFor_get j .B l
  rw [hfe, hlink, hfeB, hlinkB, hfeA, hlinkA]
  cases l <;> simp

theorem FrontEnd.blanked_st (f : FrontEnd) :
    (f.st = .off ∨ f.st = .parked ∨ f.st = .watch → f.blanked.st = f.st) ∧
    (f.st ≠ .off → f.st ≠ .parked → f.st ≠ .watch → f.blanked.st = .blanked ∧ f.blanked.test = none) := by
  unfold FrontEnd.blanked
  cases f.st <;> simp [LineState.underHold]

/-! ### Guard holds -/

section
variable {l : Line}

theorem exec_guardHoldEnd {t : Nat} (h : (s.fe.get l).guardHold = some t) :
    exec (.guardHoldEnd l) s = .next ((s.reachInstant t).endGuardHold l) := by
  simp only [exec, execGuardHoldEnd, h]

theorem exec_guardHoldEnd_of_none (h : (s.fe.get l).guardHold = none) : exec (.guardHoldEnd l) s = .next s := by
  simp only [exec, execGuardHoldEnd, h]

theorem State.endGuardHold_of_kept (h : (s.fe.get l).st ≠ .blanked ∨ (s.fe.get l).txHold = true) :
    s.endGuardHold l = s.setFe l { s.fe.get l with guardHold := none } := by
  rw [State.endGuardHold, State.unblank, if_neg]
  rw [State.setFe_fe, PerLine.get_set_same]
  rintro ⟨hst, hfree⟩
  rcases h with h | h
  · exact h hst
  · exact hfree (by simp [FrontEnd.blankingHeld, h])

theorem State.endGuardHold_of_free (hst : (s.fe.get l).st = .blanked) (htx : (s.fe.get l).txHold = false) :
    s.endGuardHold l = s.setFe l ({ s.fe.get l with guardHold := none }.enterSettle s.clock.now) := by
  rw [State.endGuardHold, State.unblank, if_pos]
  · simp [State.setFe]
  · rw [State.setFe_fe, PerLine.get_set_same]
    exact ⟨hst, by simp [FrontEnd.blankingHeld, htx]⟩

end

end Sys2Proof.Machine

open Sys2Proof Sys2Proof.Machine Sys2Proof.Safety

/-- Settles O41: with more bursts the transmitter enters GAP, and else `State.endJob_ended` says what the job's end does. -/
theorem burstEndLeadsToGapOrJobEnd : Obligations.BurstEndLeadsToGapOrJobEnd := by
  refine ⟨fun s hst => exec_txBurstEnd_of_other hst, fun j jobs n s hst hj hn => ?_⟩
  intro ended more
  have hmore : s.tx.moreBursts j = true ↔ more := Transmitter.moreBursts_iff _ _
  rw [exec_txBurstEnd hst hj]
  refine ⟨fun h => ?_, fun h => ?_⟩
  · rw [State.afterBurst_of_more hn (by exact hmore.mpr h)]
    rfl
  · have hlast : s.tx.moreBursts j = false := Bool.eq_false_iff.mpr fun hm => h (hmore.mp hm)
    rw [State.afterBurst_of_last (by exact hlast)]
    exact ⟨_, rfl, State.endJob_ended ((s.reachInstant s.tx.burstEnd).countBurst) hn _ _, by simp; rfl, by simp⟩

/-- Settles O42: each of the three events comes at its instant, and a BLANKED line without a holder enters SETTLE. -/
theorem gapTailAndGuardRunOut : Obligations.GapTailAndGuardRunOut := by
  refine ⟨⟨fun j jobs n s hst hj hn => ?gap, fun s hst => exec_tailEnd hst, fun s hst => exec_nextBurstStart_of_other hst,
    fun s hst => exec_tailEnd_of_other hst⟩, fun l s h => exec_guardHoldEnd_of_none h, fun l instant s hg => ?guard⟩
  case gap =>
    rw [exec_nextBurstStart hst hj, State.jobFormat_of_entry hn]
    rfl
  case guard =>
    intro f now u
    rw [exec_guardHoldEnd hg]
    refine ⟨fun h => ?_, fun hst htx => ?_⟩
    · rw [State.endGuardHold_of_kept (by exact h)]
      rfl
    · rw [State.endGuardHold_of_free (by exact hst) (by exact htx)]
      rfl

/-- Settles O44, from STOP TX in each transmitter state and the completion FIFO by whether it is empty. -/
theorem stopTxAndPopCompletion : Obligations.StopTxAndPopCompletion := by
  refine ⟨fun s hd hr => ⟨fun hst => ?quiet, fun j jobs n hj hn => ⟨fun hst => ?burst, fun hst => ?gap⟩⟩,
    fun s hd hr => ?dormant, fun s hd hr hc => ?empty, fun c rest s hd hr hc => ?pop, fun c rest s hc => ?view,
    fun s hc => ?none, fun s => ?status⟩
  case quiet =>
    rw [exec_stopTx hr hd, State.stopTx_of_quiet hst]
    rfl
  case burst =>
    rw [exec_stopTx hr hd, State.stopTx_of_burst hst hj]
    rfl
  case gap =>
    rw [exec_stopTx hr hd, State.stopTx_of_gap hst hj]
    exact ⟨_, rfl, State.endJob_ended s hn .stopped s.clock.now, by simp, by simp⟩
  case dormant => exact congrArg Host.Outcome.next (s.command_dormant _ hr hd)
  case empty =>
    rw [exec_popCompletion hr hd, State.popCompletion_of_nil hc]
    rfl
  case pop =>
    rw [exec_popCompletion hr hd, State.popCompletion_of_cons hc]
    rfl
  case view =>
    exact ⟨Transmitter.completionView_of_cons hc _, Transmitter.completionView_of_cons hc _, Transmitter.completionView_of_cons hc _⟩
  case none =>
    exact ⟨Transmitter.completionView_of_nil hc _, Transmitter.completionView_of_nil hc _, Transmitter.completionView_of_nil hc _⟩
  case status =>
    show s.tx.status = _
    unfold Transmitter.status
    cases s.tx.st <;> rfl

/-- Settles O45, from ABORT TX by its argument and by whether a job is active. -/
theorem abortCutsActiveJob : Obligations.AbortCutsActiveJob := by
  intro s hd hr
  refine ⟨fun h₀ h₁ => ?bad, fun h₀ hst => ?quiet, fun h₁ hst => ?quietAll, fun j jobs n hj hn hst => ?active⟩
  case bad =>
    rw [exec_abortTx hr hd, State.abortTx, if_neg h₀, if_neg h₁]
    rfl
  case quiet =>
    rw [exec_abortTx hr hd, State.abortTx, if_pos h₀, State.abortActive_of_quiet hst]
    rfl
  case quietAll =>
    rw [exec_abortTx hr hd, State.abortTx_of_one h₁, State.abortActive_of_quiet hst, State.removeWaiting_eq]
    rfl
  case active =>
    obtain ⟨t, ht, hended, hclock, hwin, hjobs⟩ := State.abortActive_ended hj hn hst
    refine ⟨fun h₀ => ⟨t.setResult .ok, ?_, hended, hclock, ?_⟩, fun h₁ => ⟨t, _, ?_, hended, hclock, rfl⟩⟩
    · rw [exec_abortTx hr hd, State.abortTx, if_pos h₀, ht]
    · rw [State.setResult, hwin]
    · rw [exec_abortTx hr hd, State.abortTx_of_one h₁, ht, State.removeWaiting_eq, hjobs, ← hwin]
      rfl

/-- Settles O40: a job starts by the conditions of R134 and by the state of its entry, and blanks the lines of its mask. -/
theorem jobStartsOrIsUnavailable : Obligations.JobStartsOrIsUnavailable := by
  intro j jobs s hj
  refine ⟨fun h => ?held, fun hst hpow hroom => ⟨fun h => ?unavailable, fun n hn hen => ?active⟩⟩
  case held =>
    refine exec_jobStart_of_not (Bool.eq_false_iff.mpr fun hm => ?_)
    obtain ⟨hst, hpow, hroom⟩ := s.mayStart_iff.mp hm
    rcases h with h | h | h
    · exact h hst
    · exact h hpow
    · omega
  case unavailable =>
    rw [exec_jobStart_unavailable (s.mayStart_iff.mpr ⟨hst, hpow, hroom⟩) hj h, State.jobUnavailable_eq hj]
  case active =>
    refine ⟨_, exec_jobStart_active (s.mayStart_iff.mpr ⟨hst, hpow, hroom⟩) hj hn hen, by simp [State.jobActive]; rfl,
      s.jobActive_tx j n, fun l => ?_, by simp⟩
    obtain ⟨hfe, hlink⟩ := s.jobActive_get j n l
    rw [hfe, hlink]
    refine ⟨fun hb => ?_, fun hb => ?_⟩
    · rw [hb]
      exact ⟨rfl, rfl⟩
    · rw [if_pos hb, if_pos hb]
      obtain ⟨hkept, hblanked⟩ := (s.fe.get l).blanked_st
      exact ⟨rfl, rfl, rfl, rfl, rfl, rfl, hkept, hblanked, rfl⟩

end

