-- ==== Sys2Proof/Proofs/PowerEvents.lean ====
section
/-! PROOF. O46 and O48: ENTER LISTEN, WAKE UP, CLEAR WAKE, wake edges and wake matches. -/

namespace Sys2Proof.Machine

open Sys2Proof (Byte Time Payload Line)

variable {s : State} {l : Line}

/-- The first index that a test picks, in index order. -/
theorem find?_finRange {k : Nat} {p : Fin k → Bool} {n : Fin k} (hn : p n = true) (h : ∀ m, m < n → p m = false) :
    (List.finRange k).find? p = some n := by
  refine List.find?_eq_some_iff_getElem.mpr ⟨hn, n.val, by simp, by simp, fun j hj => ?_⟩
  rw [List.getElem_finRange, h _ (by exact hj)]
  rfl

theorem allWake_eq_finRange : allWake = List.finRange 4 := by decide

theorem allEntries_eq_finRange : allEntries = List.finRange 8 := by decide

/-! ### Leaving DORMANT and the wake records -/

theorem State.leaveDormant_eq (s : State) (p : PowerState) : s.leaveDormant p = { s with
    fe := (s.leaveDormant p).fe
    clock := { s.clock with tickAt := s.clock.now + s.clock.remain }
    pow := { s.pow with st := p } } := by
  have hA : ∀ (u : State) (m : Line), u.unparkLine m = { u with fe := (u.unparkLine m).fe } := fun u m => by
    unfold State.unparkLine
    split <;> rfl
  unfold State.leaveDormant
  rw [hA (s.unparkLine .A), hA s]

/-- A line on leaving DORMANT, by whether it is enabled. -/
theorem State.leaveDormant_line (s : State) (p : PowerState) (l : Line) :
    ((s.fe.get l).st = .off → (s.leaveDormant p).fe.get l = s.fe.get l) ∧
    ((s.fe.get l).st ≠ .off → (s.leaveDormant p).fe.get l = { s.fe.get l with
      st := .settle
      test := none
      wait := if (s.fe.get l).active then none else some s.clock.now
      threshold := 8 * (100 * (s.fe.get l).idle.toNat) }) := by
  rw [State.leaveDormant_fe_get]
  refine ⟨fun h => if_neg (by simp [FrontEnd.enabled, h]), fun h => ?_⟩
  rw [if_pos (by simp [FrontEnd.enabled, h])]
  rfl

theorem State.noteWake_eq (s : State) (w : WakeSource) : s.noteWake w = { s with
    pow := { s.pow with wakeSource := if s.pow.wakeSource = .none then w else s.pow.wakeSource } } := by
  unfold State.noteWake
  split <;> rfl

/-! ### The commands -/

theorem exec_enterListen_awake (hr : s.pow.resetHeld = false) (hd : s.pow.st ≠ .dormant) :
    exec .enterListen s = .next (s.enterListen.1.setResult s.enterListen.2) := congrArg Host.Outcome.next (s.command_awake _ hr hd)

theorem exec_wakeUp_running (hr : s.pow.resetHeld = false) : exec .wakeUp s = .next (s.wakeUp.setResult .ok) := by
  simp only [exec, execWakeUp, State.commandWakeUp, State.windowWrite, hr, Bool.false_eq_true, if_false]

theorem State.txQuiet_iff (s : State) : s.txQuiet = true ↔ s.tx.st = .idle ∧ s.tx.jobs = [] := by
  simp [State.txQuiet]

/-! ### Wake edges and wake matches -/

theorem exec_wakeEdge {k : Nat} (h : (s.link.get l).wakeEdges = k + 1) : exec (.wakeEdge l) s =
    .next (if s.pow.st = .dormant then (s.setLink l { s.link.get l with wakeEdges := k }).wakeByEdge l
      else s.setLink l { s.link.get l with wakeEdges := k }) := by
  simp only [exec, execWakeEdge, h]

theorem exec_wakeEdge_of_zero (h : (s.link.get l).wakeEdges = 0) : exec (.wakeEdge l) s = .next s := by
  simp only [exec, execWakeEdge, h]

theorem State.wakeByEdge_eq (s : State) (l : Line) : s.wakeByEdge l = { s with
    fe := (s.wakeByEdge l).fe
    pow := { s.pow with
      st := .listen
      wakePin := true
      wakeSource := if s.pow.wakeSource = .none then .edge l else s.pow.wakeSource }
    irq := { s.irq with wake := true }
    clock := { s.clock with tickAt := s.clock.now + s.clock.remain } } := by
  unfold State.wakeByEdge
  rw [State.noteWake_eq, State.leaveDormant_eq]
  rfl

theorem State.wakeByEdge_fe (s : State) (l : Line) : (s.wakeByEdge l).fe = (s.leaveDormant .listen).fe := by
  unfold State.wakeByEdge
  rw [State.noteWake_eq]
  rfl

section
variable {o : Offer} {offers : List Offer}

theorem exec_wakeOffer (h : (s.link.get l).offers = o :: offers) :
    exec (.wakeOffer l) s = .next ((s.setLink l { s.link.get l with offers := offers }).takeOffer l o) := by
  simp only [exec, execWakeOffer, h]

theorem exec_wakeOffer_of_nil (h : (s.link.get l).offers = []) : exec (.wakeOffer l) s = .next s := by
  simp only [exec, execWakeOffer, h]

theorem WakeEntry.matchesOffer_iff (w : WakeEntry) (l : Line) (o : Offer) : w.matchesOffer l o = true ↔
    w.valid = true ∧ w.format = o.entry.val ∧ w.bits = o.bits ∧ w.namesLine l = true ∧
      o.payload &&& w.mask = w.payload &&& w.mask := by
  simp only [WakeEntry.matchesOffer, Bool.and_eq_true, decide_eq_true_eq, and_assoc]

theorem State.wakeMatch_of_none (h : ∀ n, (wakeEntryAt s.mem n).matchesOffer l o = false) : s.wakeMatch l o = none :=
  List.find?_eq_none.mpr fun n _ => by rw [h n]; exact Bool.false_ne_true

/-- The wake list is compared in index order. -/
theorem State.wakeMatch_of_first {n : Fin 4} (hn : (wakeEntryAt s.mem n).matchesOffer l o = true)
    (h : ∀ m, m < n → (wakeEntryAt s.mem m).matchesOffer l o = false) : s.wakeMatch l o = some n := by
  rw [State.wakeMatch, allWake_eq_finRange]
  exact find?_finRange hn h

theorem State.takeOffer_of_other (h : s.pow.st ≠ .listen) : s.takeOffer l o = s := if_neg h

theorem State.takeOffer_of_none (h : s.wakeMatch l o = none) : s.takeOffer l o = s := by
  simp only [State.takeOffer, h, ite_self]

theorem State.takeOffer_of_match {n : Fin 4} (hp : s.pow.st = .listen) (h : s.wakeMatch l o = some n) :
    s.takeOffer l o = { s with
      pow := { s.pow with
        st := if (wakeEntryAt s.mem n).resume then .active else .listen
        wakePin := true
        matched := some n
        wakeSource := if s.pow.wakeSource = .none then .matched n else s.pow.wakeSource }
      irq := { s.irq with wake := true } } := by
  simp only [State.takeOffer, hp, if_true, h, State.wakeByMatch, State.noteWake_eq, State.assertWake, State.setWakeCause]

end

end Sys2Proof.Machine

open Sys2Proof Sys2Proof.Machine Sys2Proof.Safety

/-- Settles O46, by the power state. -/
theorem listenWakeUpAndClearWake : Obligations.ListenWakeUpAndClearWake := by
  intro s hr answer noted
  refine ⟨fun hd => ⟨?_, ?_⟩, fun hl => ?_, fun ha hst hj => ?_, fun ha hbusy => ?_, fun hd => ?_, fun ha => ?_, fun hl => ?_, fun hd => ?_⟩
  · exact congrArg Host.Outcome.next (s.command_dormant _ hr hd)
  · exact congrArg Host.Outcome.next (s.command_dormant _ hr hd)
  · rw [exec_enterListen_awake hr (by simp [hl]), State.enterListen, if_pos hl]
    rfl
  · rw [exec_enterListen_awake hr (by simp [ha]), State.enterListen, if_neg (by simp [ha]), if_pos (s.txQuiet_iff.mpr ⟨hst, hj⟩)]
    rfl
  · have hnot : ¬ s.txQuiet = true := fun h => by
      obtain ⟨hst, hj⟩ := s.txQuiet_iff.mp h
      exact hbusy.elim (fun h => h hst) fun h => h hj
    rw [exec_enterListen_awake hr (by simp [ha]), State.enterListen, if_neg (by simp [ha]), if_neg hnot]
    rfl
  · exact congrArg Host.Outcome.next (s.command_awake _ hr hd)
  · rw [exec_wakeUp_running hr]
    simp only [State.wakeUp, ha]
    rfl
  · rw [exec_wakeUp_running hr]
    simp only [State.wakeUp, hl, State.noteWake_eq]
    rfl
  · rw [exec_wakeUp_running hr]
    simp only [State.wakeUp, hd, State.noteWake_eq]
    refine ⟨_, rfl, ?_, s.leaveDormant_line .active⟩
    conv_lhs => rw [State.leaveDormant_eq]
    rfl

/-- Settles O48: a wake edge by the power state, and an offer by the first wake list entry that matches. -/
theorem wakeEdgeAndWakeMatch : Obligations.WakeEdgeAndWakeMatch := by
  intro l s
  refine ⟨exec_wakeEdge_of_zero, exec_wakeOffer_of_nil, fun k hk => ⟨fun hd => ?_, fun hd => ?_⟩, fun o offers ho => ?_⟩
  · rw [exec_wakeEdge hk, if_neg hd]
    rfl
  · rw [exec_wakeEdge hk, if_pos hd]
    refine ⟨_, rfl, State.wakeByEdge_eq _ l, fun m => ?_⟩
    rw [State.wakeByEdge_fe]
    exact State.leaveDormant_line (s.setLink l { s.link.get l with wakeEdges := k }) .listen m
  · intro u matched
    have hmatched : ∀ n, (wakeEntryAt s.mem n).matchesOffer l o = true ↔ matched n := fun n => WakeEntry.matchesOffer_iff _ l o
    rw [exec_wakeOffer ho]
    refine ⟨fun hp => ?_, fun hp hnone => ?_, fun n hp hn hfirst => ?_⟩
    · rw [State.takeOffer_of_other (by exact hp)]
      rfl
    · rw [State.takeOffer_of_none]
      · rfl
      · exact State.wakeMatch_of_none fun n => Bool.eq_false_iff.mpr fun h => hnone n ((hmatched n).mp h)
    · rw [State.takeOffer_of_match (n := n) (by exact hp)]
      · rfl
      · exact State.wakeMatch_of_first ((hmatched n).mpr hn)
          fun m hm => Bool.eq_false_iff.mpr fun h => hfirst m hm ((hmatched m).mp h)

end

