-- ==== Sys2Proof/Proofs/Registers.lean ====
section
/-! PROOF. O50: the registers without a row of their own, and the window in DORMANT and while a reset is held. -/

namespace Sys2Proof.Machine

open Sys2Proof (Byte Time Payload Line)

variable {s : State}

/-- A write to a read-only register has no effect (R173). -/
theorem State.storeRegister_readOnly {n : Nat} (v : Byte)
    (h : n ≤ 0x04 ∨ n = 0x06 ∨ n = 0x12 ∨ n = 0x13 ∨ n = 0x17 ∨ (0x19 ≤ n ∧ n ≤ 0x27) ∨ n = 0x29 ∨ (0x3A ≤ n ∧ n ≤ 0x3D) ∨ n = 0x3F) :
    s.storeRegister n v = s := by
  have hstaging : ¬ (0x2C ≤ n ∧ n < 0x3A) := by omega
  unfold State.storeRegister
  split
  case h_19 => exact if_neg hstaging
  all_goals omega

theorem exec_registerWrite_plain {off : BitVec 6} (hcommand : off.toNat ≠ 0x05) (hdata : off.toNat ≠ 0x16) (v : Byte) :
    exec (.registerWrite off v) s = .next (s.registerAccess fun s => s.storeRegister off.toNat v) := by
  show execRegisterWrite off v s = _
  rw [execRegisterWrite, if_neg hcommand, if_neg hdata]

/-- While a reset is held a command is discarded (R174). -/
theorem State.writeCommand_held (h : s.pow.resetHeld = true) (code : Byte) : s.writeCommand code = s := by
  have hwrite : ∀ f, s.windowWrite f = s := fun f => s.windowWrite_held f h
  unfold State.writeCommand
  split
  · exact hwrite _
  · next k _ => cases k <;> simp only [State.carryOut, State.command, State.commandWakeUp, State.softReset, hwrite]

/-- While a reset is held every write of the window is discarded (R174). -/
theorem exec_write_held (h : s.pow.resetHeld = true) {c : Instr} (hc : Safety.writesRegister c = true ∨ Safety.writesCommand c = true) :
    exec c s = .next s := by
  have hwrite : ∀ f, s.windowWrite f = s := fun f => s.windowWrite_held f h
  cases c with
  | registerWrite off v =>
    show execRegisterWrite off v s = _
    unfold execRegisterWrite
    split
    · rw [State.writeCommand_held h]
    · split <;> exact congrArg Host.Outcome.next (hwrite _)
  | unknownCommand code => exact congrArg Host.Outcome.next (State.writeCommand_held h code)
  | lineEnable | lineDisable | idleWrite | faultClear | rqWatermarkWrite | captureControlWrite | loadLengthWrite
  | stagingRegisterWrite | tableDataWrite | irqCauseWrite | irqEnableWrite | enableFormat | disableFormat | pop | flushQueue
  | submit | stopTx | abortTx | popCompletion | armCapture | disarmCapture | releaseCapture | loadCapture | enterListen
  | enterDormant | wakeUp | clearWake | softReset => exact congrArg Host.Outcome.next (hwrite _)
  | _ => exact hc.elim nofun nofun

end Sys2Proof.Machine

open Sys2Proof Sys2Proof.Machine Sys2Proof.Safety

/-- Settles O50: every access of the window by the power state and by whether a reset is held. -/
theorem plainRegistersAndDormantWindow : Obligations.PlainRegistersAndDormantWindow := by
  refine ⟨⟨fun v s hd hr => ?stored, fun off v s hd hr hoff => ?readOnly, fun code s hw hr => ?unknown⟩, fun s hd hr => ?dormant,
    fun s => ?codes, fun c s hr hc => exec_write_held hr hc, fun s hr c hc => ?heldReads, fun off s => rfl⟩
  case stored =>
    exact ⟨congrArg Host.Outcome.next (s.registerAccess_awake _ hr hd), congrArg Host.Outcome.next (s.registerAccess_awake _ hr hd)⟩
  case readOnly =>
    have hn : off.toNat ≤ 0x04 ∨ off.toNat = 0x06 ∨ off.toNat = 0x12 ∨ off.toNat = 0x13 ∨ off.toNat = 0x17 ∨
        (0x19 ≤ off.toNat ∧ off.toNat ≤ 0x27) ∨ off.toNat = 0x29 ∨ (0x3A ≤ off.toNat ∧ off.toNat ≤ 0x3D) ∨ off.toNat = 0x3F := by
      bv_omega
    rw [exec_registerWrite_plain (by omega) (by omega), s.registerAccess_awake _ hr hd, State.storeRegister_readOnly v hn]
  case unknown =>
    show Host.Outcome.next (s.writeCommand code) = _
    rw [State.writeCommand_of_unknown s (commandOf_eq_none hw), s.windowWrite_running _ hr]
    rfl
  case dormant =>
    intro refused state
    have haccess : ∀ f, Host.Outcome.next (s.registerAccess f) = (Host.Outcome.next refused : Host.Outcome State Fault Refusal) :=
      fun f => congrArg Host.Outcome.next (s.registerAccess_dormant f hr hd)
    refine ⟨fun l v => ⟨haccess _, haccess _, haccess _, haccess _⟩, fun v => ⟨haccess _, haccess _, haccess _, haccess _, fun hi => haccess _,
      fun r => haccess _, fun off h₅ h₁₆ => ?_, ?_⟩, fun c hc => ?_⟩
    · rw [exec_registerWrite_plain (by bv_omega) (by bv_omega)]
      exact haccess _
    · rw [exec_tableDataWrite_running hr, State.offerTableByte_of_refused fun h => h.1 hd]
      rfl
    · fin_cases hc <;> exact congrArg Host.Outcome.next (s.command_dormant _ hr hd)
  case codes =>
    refine ⟨?_, ?_, ?_⟩
    · show BitVec.ofNat 8 s.pow.st.code = _
      cases s.pow.st <;> rfl
    · show BitVec.ofNat 8 s.pow.wakeSource.code = _
      rcases s.pow.wakeSource with _ | (_ | _) | _ | _ <;> rfl
    · show s.pow.wakeStatus = _
      unfold PowerUnit.wakeStatus
      cases s.pow.matched <;> cases s.pow.wakePin <;> simp [← Nat.add_assoc]
  case heldReads =>
    fin_cases hc <;> exact congrArg Host.Outcome.next (s.windowRead_held _ _ hr)

end

