-- ==== Sys2Proof/Proofs/ResetRegisters.lean ====
section
/-! PROOF. O5: what the registers read after a reset, and RESET SOURCE. -/

namespace Sys2Proof.Machine

open Sys2Proof (Byte Time Payload Line)

variable {s : State} {k : ResetKind} {mem : List Host.Cell}

/-- The registers that read 0 after every reset, below those of the receive queue (Table 9-1). -/
theorem State.resetTo_readLow {off : BitVec 6}
    (h : off ∈ ([0x04, 0x05, 0x06, 0x07, 0x08, 0x09, 0x0B, 0x0D, 0x0F, 0x11, 0x12, 0x13, 0x14, 0x15] : List (BitVec 6))) :
    (s.resetTo k mem).readRegister off = 0 := by
  by_cases hpointer : off = 0x15
  · rw [hpointer]
    exact BitVec.eq_of_toNat_eq ((State.readRegister_pointerHi _).trans (Nat.zero_div 256))
  · fin_cases h
    iterate 13 rfl
    exact absurd rfl hpointer

/-- The registers above those of the receive queue and CAPTURE CONTROL read 0 after every reset, GUARD apart (Table 9-1). -/
theorem State.resetTo_readHigh {off : BitVec 6} (h₁ : 0x29 ≤ off.toNat) (hguard : off ≠ 0x3E) :
    (s.resetTo k mem).readRegister off = 0 := by
  have hoff : off.toNat ≠ 0x3E := by bv_omega
  have hread : (s.resetTo k mem).readRegister off = (s.resetTo k mem).readHigh off.toNat := by
    rw [State.readRegister, if_neg (by omega), if_neg (by omega)]
  rw [hread]
  unfold State.readHigh
  split
  case h_11 => exact Job.reset_register _
  case h_9 h => exact absurd h hoff
  case h_1 h => omega
  all_goals rfl

theorem exec_not_reset_resetSource {c : Instr} {t : State} (hc : Safety.isReset c = false) (ht : exec c s = .next t) :
    t.pow.resetSource = s.pow.resetSource := by
  rcases (exec_reached c s t ht).resetState with h | ⟨h, -⟩
  · exact (PowerUnit.eqs_of_resetState_eq h).2
  · rw [hc] at h
    cases h

end Sys2Proof.Machine

open Sys2Proof Sys2Proof.Machine Sys2Proof.Safety

/-- Settles O5: the state after a reset is `State.resetTo`, whose registers are those of Table 9-1, and no other command touches
RESET SOURCE. -/
theorem resetLeavesRegisters : Obligations.ResetLeavesRegisters := by
  refine ⟨fun k s hk => ⟨_, exec_resetRow hk, ?reset⟩, fun k s hk => ⟨_, exec_resetRow hk, rfl⟩,
    fun c s t hc ht => exec_not_reset_resetSource hc ht, fun s => ?reads, fun v s hr => ?write⟩
  case reset =>
    refine ⟨rfl, rfl, rfl, rfl, rfl, rfl, fun hpor n => ?_, rfl, rfl, rfl, rfl, State.irqAsserted_of_masked rfl, rfl, rfl, rfl, ?_,
      k.read_tableSpace s.mem 0, fun off hoff => State.resetTo_readLow hoff, rfl, rfl, rfl, rfl, rfl, rfl,
      fun off h₁ _ hguard => State.resetTo_readHigh h₁ hguard⟩
    · subst hpor
      show (Memory.read [] (wakeEntryBase n)).getLsbD 7 = false
      rw [Memory.read_nil]
      rfl
    · rfl
  case reads =>
    show BitVec.ofNat 8 s.pow.resetSource.code = _
    cases s.pow.resetSource <;> rfl
  case write =>
    rw [exec_registerWrite_plain (by decide) (by decide)]
    split
    · next hd => exact congrArg Host.Outcome.next (s.registerAccess_dormant _ hr hd)
    · next hd => rw [s.registerAccess_awake _ hr hd, State.storeRegister_readOnly v (.inl (by decide))]

end

