-- ==== Sys2Proof/Proofs/TimeBase.lean ====
section
/-! PROOF. O6: TIME, the due instants it brings, and its rest in DORMANT. -/

namespace Sys2Proof.Machine

open Sys2Proof (Byte Time Payload Line)

variable {s t : State} {c : Instr}

/-! ### What changes TIME -/

theorem State.thresholdEvent_time (s : State) (l : Line) (st : LineState) : (s.thresholdEvent l st).clock.time = s.clock.time := by
  unfold State.thresholdEvent
  split
  · rfl
  · split <;> simp

theorem State.enterDormant_time (s : State) : s.enterDormant.1.clock.time = s.clock.time := by
  unfold State.enterDormant
  split
  · rfl
  · split
    · simp [State.goDormant, State.goDormantIn]
    · rfl

theorem State.wakeUp_time (s : State) : s.wakeUp.clock.time = s.clock.time := by
  unfold State.wakeUp
  split
  · rfl
  · simp
  · simp [State.leaveDormant]

theorem State.wakeByEdge_time (s : State) (l : Line) : (s.wakeByEdge l).clock.time = s.clock.time := by
  simp [State.wakeByEdge, State.leaveDormant]

/-- No row but a reset and TIME_TICK changes TIME (R18). -/
theorem Reached.time (h : Reached c s t) (hreset : Safety.isReset c = false) (htick : c ≠ .timeTick) :
    t.clock.time = s.clock.time := by
  cases h with
  | reset k mem _ hc => exact absurd hc (by simp [hreset])
  | stored _ _ _ h =>
    cases h <;> simp
  | carried t _ _ _ h =>
    show t.clock.time = s.clock.time
    cases h with
    | enterDormant => exact s.enterDormant_time
    | _ => simp
  | wakeUp => exact s.wakeUp_time
  | wakeEdge l k => exact State.wakeByEdge_time _ l
  | threshold l st => exact s.thresholdEvent_time l st
  | tick _ hc => exact absurd hc htick
  | delivered _ _ _ hi he => 
    obtain ⟨_, _, _, _, hclock⟩ := exec_delivery_frame hi s t he
    exact congrArg TimeBase.time hclock
  | _ => simp

/-! ### The due instants -/

/-- A repeat unit after TIME has taken a new value: a memory whose due instant this is falls due (R82). -/
theorem State.noteDue_rep_get (s : State) (l m : Line) : (s.noteDue l).rep.get m = { s.rep.get m with
    dueReached := (s.rep.get m).dueReached || (decide (m = l) && (s.rep.get m).memory.any fun x =>
      decide (s.clock.time = x.lastEnd + BitVec.ofNat 16 (s.format x.entry).rw)) } := by
  unfold State.noteDue
  by_cases hm : m = l
  · subst hm
    cases hmem : (s.rep.get m).memory with
    | none => simp
    | some x =>
      dsimp only
      split
      · next h => simp [h]
      · next h => simp [h]
  · split
    · simp [hm]
    · split
      · simp [hm, PerLine.get_set_ne]
      · simp [hm]

theorem State.tick_rep_get (s : State) (l : Line) : s.tick.rep.get l = { s.rep.get l with
    dueReached := (s.rep.get l).dueReached || (s.rep.get l).memory.any fun x =>
      decide (s.clock.time + 1 = x.lastEnd + BitVec.ofNat 16 (s.format x.entry).rw) } := by
  unfold State.tick
  rw [State.noteDue_rep_get, State.noteDue_rep_get]
  cases l <;> simp [State.format] <;> rfl

theorem exec_timeTick_running (h : s.timeRuns = true) : exec .timeTick s = .next (s.reachInstant s.clock.tickAt).tick :=
  congrArg Host.Outcome.next (if_pos h)

theorem exec_timeTick_stopped (h : s.timeRuns = false) : exec .timeTick s = .next s :=
  congrArg Host.Outcome.next (if_neg (by simp [h]))

theorem State.timeRuns_iff : s.timeRuns = true ↔ s.pow.st ≠ .dormant ∧ s.pow.resetHeld = false := by
  simp [State.timeRuns]

/-! ### DORMANT -/

theorem exec_enterDormant_entered (hd : s.pow.st ≠ .dormant) (hr : s.pow.resetHeld = false) (harg : s.win.arg.toNat ≤ 3)
    (hst : s.tx.st = .idle) (hj : s.tx.jobs = []) :
    exec .enterDormant s = .next ((s.goDormant s.win.arg).setResult .ok) := by
  have henter : s.enterDormant = (s.goDormant s.win.arg, .ok) := by
    rw [State.enterDormant, if_neg (Nat.not_lt.mpr harg), if_pos (s.txQuiet_iff.mpr ⟨hst, hj⟩)]
  refine (congrArg Host.Outcome.next (s.command_awake _ hr hd)).trans ?_
  rw [henter]

end Sys2Proof.Machine

open Sys2Proof Sys2Proof.Machine Sys2Proof.Safety

/-- Settles O6: the tick and its due instants, no other row that changes TIME, and DORMANT's rest of the millisecond. -/
theorem timeAdvancesByTicks : Obligations.TimeAdvancesByTicks := by
  refine ⟨fun s hd hr => ?tick, fun s h => ?stopped, fun c s t hc htick ht => (exec_reached c s t ht).time hc htick,
    fun s hd hr harg hst hj => ?entry, fun s hd hr => ?exit⟩
  case tick =>
    refine ⟨_, exec_timeTick_running (State.timeRuns_iff.mpr ⟨hd, hr⟩), by simp [State.tick], by simp [State.tick], by simp [State.tick],
      by simp [State.tick], fun l => ?_, by simp⟩
    rw [State.tick_rep_get]
    refine ⟨rfl, rfl, rfl, ?_⟩
    simp only [Bool.or_eq_true, Option.any_eq_true, decide_eq_true_eq]
    rfl
  case stopped =>
    refine exec_timeTick_stopped (Bool.eq_false_iff.mpr fun hruns => ?_)
    obtain ⟨hd, hr⟩ := State.timeRuns_iff.mp hruns
    rcases h with h | h
    · exact hd h
    · simp [hr] at h
  case entry =>
    refine ⟨_, exec_enterDormant_entered hd hr harg hst hj, ?_⟩
    obtain ⟨-, -, -, -, -, -, hclock, -⟩ := s.quieted_frame s.win.arg
    rw [State.setResult_clock, State.goDormant_eq, hclock]
  case exit =>
    refine ⟨_, exec_wakeUp_running hr, ?_⟩
    simp only [State.wakeUp, hd, State.noteWake_eq]
    rw [State.leaveDormant_eq]
    rfl

end

