-- ==== Sys2Proof/Proofs/Payloads.lean ====
section
/-! PROOF. O17: the bits of a payload, in order. -/

namespace Sys2Proof.Machine

open Sys2Proof (Byte Time Payload Line)

/-- A payload's bits are the list's, from the least significant bit on; above the list there are none. -/
theorem payloadOf_false_getLsbD {bits : List Bool} (h : bits.length ≤ 64) (i : Nat) :
    (payloadOf false bits).getLsbD i = bits.getD i false := by
  show (BitVec.ofNat 64 (natOfBits bits)).getLsbD i = bits.getD i false
  rw [BitVec.getLsbD_ofNat, natOfBits_testBit]
  by_cases hi : i < 64
  · rw [decide_eq_true hi, Bool.true_and]
  · have hout : bits.length ≤ i := by omega
    rw [List.getD_eq_default _ _ hout, Bool.and_false]

theorem payloadOf_true (bits : List Bool) : payloadOf true bits = payloadOf false bits.reverse := rfl

/-- The bits of a payload give back the list. -/
theorem range_payloadOf {bits : List Bool} (h : bits.length ≤ 64) :
    ((List.range bits.length).map fun i => (payloadOf false bits).getLsbD i) = bits := by
  refine List.ext_getElem (by simp) fun i _ hi => ?_
  rw [List.getElem_map, List.getElem_range, payloadOf_false_getLsbD h, List.getD_eq_getElem _ _ hi]

theorem bitsToSend_payloadOf (msbFirst : Bool) {bits : List Bool} (h : bits.length ≤ 64) :
    bitsToSend msbFirst (payloadOf msbFirst bits) bits.length = bits := by
  cases msbFirst with
  | false => exact range_payloadOf h
  | true =>
    have hrev : bits.reverse.length ≤ 64 := by rwa [List.length_reverse]
    have hrange := range_payloadOf hrev
    rw [List.length_reverse] at hrange
    show (((List.range bits.length).map fun i => (payloadOf true bits).getLsbD i)).reverse = bits
    rw [payloadOf_true, hrange, List.reverse_reverse]

end Sys2Proof.Machine

open Sys2Proof Sys2Proof.Machine Sys2Proof.Safety

/-- Settles O17: bit `i` of the payload is digit `i` of the number that the bits spell. -/
theorem payloadKeepsBitOrder : Obligations.PayloadKeepsBitOrder := by
  intro msbFirst bits h
  have hrev : bits.reverse.length ≤ 64 := by rwa [List.length_reverse]
  refine ⟨bitsToSend_payloadOf msbFirst h, fun i _ => payloadOf_false_getLsbD h i, fun i hi => ?_, fun i hi => ?_⟩
  · have hback : bits.length - 1 - (bits.length - 1 - i) = i := by omega
    rw [payloadOf_true, payloadOf_false_getLsbD hrev, List.getD_eq_getElem _ _ (by rw [List.length_reverse]; omega),
      List.getElem_reverse, List.getD_eq_getElem _ _ hi]
    simp only [hback]
  · cases msbFirst with
    | false => rw [payloadOf_false_getLsbD h, List.getD_eq_default _ _ hi]
    | true => rw [payloadOf_true, payloadOf_false_getLsbD hrev, List.getD_eq_default _ _ (by rwa [List.length_reverse])]

end

