-- ==== Sys2Proof/Proofs/Validation.lean ====
section
/-! PROOF. O38: the seven steps of validation as R32 to R37 word them. -/

namespace Sys2Proof.Machine

open Sys2Proof (Byte Time Payload Line)
open Sys2Proof.Safety

variable {f : Format}

/-! ### Windows -/

/-- A window of legal form is absent or present. -/
theorem Window.wellFormed_iff (w : Window) : w.wellFormed = true ↔ gone w ∨ here w := by
  simp only [Window.wellFormed, Bool.and_eq_true, Bool.or_eq_true, decide_eq_true_eq, Window.absent_iff_gone, gone, here]
  omega

theorem not_here_of_gone {w : Window} (h : gone w) : ¬ here w := by
  unfold gone at h
  unfold here
  omega

theorem here_of_lo {w : Window} (h : gone w ∨ here w) (hlo : 1 ≤ w.lo) : here w := by
  refine h.resolve_left fun hg => ?_
  unfold gone at hg
  omega

theorem Window.overlaps_iff_meet (v w : Window) : v.overlaps w = true ↔ meet v w := decide_eq_true_iff

/-! ### The steps -/

theorem Format.codesLegal_iff (f : Format) : f.codesLegal = true ↔ StepCodes f := decide_eq_true_iff

theorem Format.bitCountsLegal_iff (f : Format) : f.bitCountsLegal = true ↔ StepBits f := by
  simp only [Format.bitCountsLegal, StepBits, Bool.and_eq_true, Bool.or_eq_true, decide_eq_true_eq, Nat.dvd_iff_mod_eq_zero, ne_eq]
  refine and_congr_right fun _ => ?_
  by_cases h : f.check = .invertedPairs <;> simp [h]

theorem Format.windowsLegal_biphase (hc : f.coding = .biphase) : f.windowsLegal = true ↔ StepWindows f := by
  simp only [Format.windowsLegal, Format.examinedWindows, StepWindows, hc, if_true, List.append_nil, List.all_cons, List.all_nil,
    Bool.and_true, Bool.and_eq_true, Window.wellFormed_iff, Window.absent_iff_gone, Window.matches_iff, Window.nominal,
    decide_eq_true_eq, ne_eq, not_true_eq_false, false_imp_iff, true_imp_iff, true_and]
  constructor
  · rintro ⟨⟨-, -, h₀, h₁, -, hrm, hrs⟩, ⟨⟨⟨⟨hgone, hgone'⟩, hgone''⟩, hlo⟩, hlt⟩, hnominal⟩
    have hhere : here f.mark1 := here_of_lo h₁ (by omega)
    exact ⟨hrm, hrs, ⟨hgone, hgone', hgone''⟩, here_of_lo h₀ hlo, hhere.2, hlt, hnominal⟩
  · rintro ⟨hrm, hrs, ⟨hgone, hgone', hgone''⟩, hhere, hle, hlt, hnominal⟩
    have hlo : 1 ≤ f.mark1.lo := by omega
    exact ⟨⟨.inl hgone, .inl hgone', .inr hhere, .inr ⟨hlo, hle⟩, .inl hgone'', hrm, hrs⟩,
      ⟨⟨⟨⟨hgone, hgone'⟩, hgone''⟩, hhere.1⟩, hlt⟩, hnominal⟩

theorem Format.windowsLegal_pair (hc : f.coding ≠ .biphase) : f.windowsLegal = true ↔ StepWindows f := by
  have hboth : (f.headerMark.absent == f.headerSpace.absent) = true ↔ (gone f.headerMark ↔ gone f.headerSpace) := by
    rw [beq_iff_eq, Bool.eq_iff_iff, Window.absent_iff_gone, Window.absent_iff_gone]
  simp only [Format.windowsLegal, Format.examinedWindows, StepWindows, hc, if_false, List.cons_append, List.nil_append, List.all_cons,
    List.all_nil, Bool.and_true, Bool.and_eq_true, Window.wellFormed_iff, hboth,
    decide_eq_true_eq, ne_eq, not_false_eq_true, false_imp_iff, true_imp_iff, and_true]
  constructor
  · rintro ⟨⟨hhm, hhs, h₀, h₁, htm, hrm, hrs, hs₀, hs₁⟩, hheader, hlo₀, hlos₀, hlo₁, hlos₁⟩
    refine ⟨hrm, hrs, ?_, ⟨here_of_lo h₀ hlo₀, here_of_lo hs₀ hlos₀, here_of_lo h₁ hlo₁, here_of_lo hs₁ hlos₁⟩, htm⟩
    by_cases hg : gone f.headerMark
    · exact .inl ⟨hg, hheader.mp hg⟩
    · exact .inr ⟨hhm.resolve_left hg, hhs.resolve_left fun h => hg (hheader.mpr h)⟩
  · rintro ⟨hrm, hrs, hheader, ⟨h₀, hs₀, h₁, hs₁⟩, htm⟩
    refine ⟨⟨?_, ?_, .inr h₀, .inr h₁, htm, hrm, hrs, .inr hs₀, .inr hs₁⟩, ?_, h₀.1, hs₀.1, h₁.1, hs₁.1⟩
    · exact hheader.imp And.left And.left
    · exact hheader.imp And.right And.right
    · obtain ⟨hm, hs⟩ | ⟨hm, hs⟩ := hheader
      · exact iff_of_true hm hs
      · exact iff_of_false (fun h => not_here_of_gone h hm) fun h => not_here_of_gone h hs

theorem Format.windowsLegal_iff (f : Format) : f.windowsLegal = true ↔ StepWindows f := by
  by_cases hc : f.coding = .biphase
  · exact Format.windowsLegal_biphase hc
  · exact Format.windowsLegal_pair hc

theorem Format.bitsDistinct_iff (f : Format) : f.bitsDistinct = true ↔ StepDistinct f := by
  unfold Format.bitsDistinct StepDistinct
  by_cases hc : f.coding = .biphase
  · simp [hc]
  · simp only [hc, decide_false, Bool.false_or, Bool.not_eq_true', Bool.eq_false_iff, ne_eq, Bool.and_eq_true, Bool.or_eq_true,
      Window.overlaps_iff_meet, Window.absent_iff_gone, not_false_eq_true, true_imp_iff]
    tauto

theorem Format.repeatFieldsLegal_iff (f : Format) : f.repeatFieldsLegal = true ↔ StepRepeat f := by
  simp only [Format.repeatFieldsLegal, StepRepeat, Bool.and_eq_true, Bool.or_eq_true, decide_eq_true_eq, Bool.not_eq_true',
    Bool.eq_false_iff, ne_eq, Window.absent_iff_gone]
  tauto

theorem Format.belowIdle_iff_step (f : Format) (idleA idleB : Byte) : f.belowIdle idleA idleB = true ↔ StepIdle f idleA idleB := by
  rw [Format.belowIdle_iff, Format.spacesBelow_iff, Format.spacesBelow_iff]
  exact ⟨fun ⟨hA, hB⟩ w hw => ⟨fun h => hA h w hw, fun h => hB h w hw⟩,
    fun h => ⟨fun hA w hw => (h w hw).1 hA, fun hB w hw => (h w hw).2 hB⟩⟩

theorem Format.carrierLegal_iff (f : Format) : f.carrierLegal = true ↔ StepCarrier f := by
  simp only [Format.carrierLegal, StepCarrier, Bool.and_eq_true, decide_eq_true_eq]

end Sys2Proof.Machine

open Sys2Proof Sys2Proof.Machine Sys2Proof.Safety

/-- Settles O38: validation is its seven steps in order, and each step is a rule of R32 to R37. -/
theorem pairValidationAcceptsExactly : Obligations.PairValidationAcceptsExactly := by
  refine ⟨fun f idleA idleB hc => ?pair, fun f idleA idleB => ?steps⟩
  case pair =>
    intro below
    rw [Format.validate_eq_ok, Format.codesLegal_iff, Format.bitCountsLegal_iff, Format.windowsLegal_iff, Format.bitsDistinct_iff,
      Format.repeatFieldsLegal_iff, Format.belowIdle_iff_step, Format.carrierLegal_iff]
    have hne : f.coding ≠ .biphase := by simp [hc]
    have hcodes : StepCodes f ↔ f.repeatKind ≠ .illegal := by simp [StepCodes, hc]
    have hwindows : StepWindows f ↔
        ((gone f.headerMark ∧ gone f.headerSpace) ∨ (here f.headerMark ∧ here f.headerSpace)) ∧
        (here f.mark0 ∧ here f.space0 ∧ here f.mark1 ∧ here f.space1) ∧ (gone f.trailerMark ∨ here f.trailerMark) ∧
        (gone f.repeatMark ∨ here f.repeatMark) ∧ (gone f.repeatSpace ∨ here f.repeatSpace) := by
      simp only [StepWindows, hne, ne_eq, not_false_eq_true, true_imp_iff, false_imp_iff, and_true]
      exact ⟨fun ⟨hm, hs, hh, hb, ht⟩ => ⟨hh, hb, ht, hm, hs⟩, fun ⟨hh, hb, ht, hm, hs⟩ => ⟨hm, hs, hh, hb, ht⟩⟩
    have hdistinct : StepDistinct f ↔
        ¬ (meet f.mark0 f.mark1 ∧ meet f.space0 f.space1) ∧ ¬ (meet f.mark0 f.mark1 ∧ gone f.trailerMark) :=
      ⟨fun h => h hne, fun h _ => h⟩
    have hrepeat : StepRepeat f ↔
        (f.repeatKind = .code → ¬ gone f.repeatMark ∧ ¬ gone f.repeatSpace ∧ ¬ gone f.trailerMark) ∧
        (f.repeatKind ≠ .none ∨ f.release = true → 1 ≤ f.rw) := by
      simp [StepRepeat, hc]
    have hidle : StepIdle f idleA idleB ↔ (f.lineA = true → below idleA) ∧ (f.lineB = true → below idleB) := by
      rw [← Format.belowIdle_iff_step, Format.belowIdle_iff, Format.spacesBelow_iff, Format.spacesBelow_iff]
      simp only [Format.spaceWindows, hne, if_false, List.forall_mem_cons, List.not_mem_nil, false_imp_iff, implies_true, and_true,
        below]
    rw [hcodes, hwindows, hdistinct, hrepeat, hidle]
    simp only [StepBits, StepCarrier, and_assoc]
  case steps =>
    simp only [← Format.codesLegal_iff, ← Format.bitCountsLegal_iff, ← Format.windowsLegal_iff, ← Format.bitsDistinct_iff,
      ← Format.repeatFieldsLegal_iff, ← Format.belowIdle_iff_step, ← Format.carrierLegal_iff]
    simp +contextual [Format.validate]

end

