-- ==== Sys2Proof/Proofs/Decoding.lean ====
section
/-! PROOF. O13, O14 and O16: what a decoder does with the notice that it takes. -/

namespace Sys2Proof.Machine

open Sys2Proof (Byte Time Payload Line)
open Sys2Proof.Safety (candidateEntries identity stillPosted)

variable {s : State} {l : Line} {rest : List Notice}

/-! ### The notice that is taken -/

theorem State.decoderNotice_of_cons {n : Notice} (hout : (s.link.get l).outcome = none) (h : (s.link.get l).toDecoder = n :: rest) :
    s.decoderNotice l = some n := by
  simp [State.decoderNotice, State.decoderBusy, hout, h]

theorem State.takeNotice_of_accepts {n : Notice} (h : (s.link.get l).toDecoder = n :: rest) (ha : (s.dec.get l).accepts n = true) :
    s.takeNotice l n = (s.setLink l { s.link.get l with toDecoder := rest }).actOnNotice l n := by
  simp only [State.takeNotice, ha, if_true, State.dropDecoderNotice, h, List.tail_cons]

theorem exec_decoderBurstStart {time : Time} (hout : (s.link.get l).outcome = none)
    (h : (s.link.get l).toDecoder = .burstStart time :: rest) (hst : (s.dec.get l).st = .wait) : exec (.decoderBurstStart l) s =
    .next (((s.setLink l { s.link.get l with toDecoder := rest }).openBurst l).formCandidates l time) := by
  show execDecoderBurstStart l s = _
  simp only [execDecoderBurstStart, State.decoderNotice_of_cons hout h]
  rw [State.takeNotice_of_accepts h (decide_eq_true hst), State.actOnNotice]

theorem exec_decoderElement {lvl : Level} {d : Nat} (hout : (s.link.get l).outcome = none)
    (h : (s.link.get l).toDecoder = .element lvl d :: rest) (hst : (s.dec.get l).st ≠ .wait) : exec (.decoderElement l) s =
    .next (if (s.dec.get l).st = .active then (s.setLink l { s.link.get l with toDecoder := rest }).offerElement l lvl d
      else s.setLink l { s.link.get l with toDecoder := rest }) := by
  show execDecoderElement l s = _
  simp only [execDecoderElement, State.decoderNotice_of_cons hout h]
  rw [State.takeNotice_of_accepts h (decide_eq_true hst)]
  rfl

theorem exec_decoderBurstEnd {time : Time} (hout : (s.link.get l).outcome = none)
    (h : (s.link.get l).toDecoder = .burstEnd time :: rest) (hst : (s.dec.get l).st ≠ .wait) : exec (.decoderBurstEnd l) s =
    .next ((s.setLink l { s.link.get l with toDecoder := rest }).handOver l (s.burstOutcome l (s.dec.get l) time)) := by
  show execDecoderBurstEnd l s = _
  simp only [execDecoderBurstEnd, State.decoderNotice_of_cons hout h]
  rw [State.takeNotice_of_accepts h (decide_eq_true hst)]
  rfl

theorem exec_decoderBurstAbort {why : AbortReason} (hout : (s.link.get l).outcome = none)
    (h : (s.link.get l).toDecoder = .burstAbort why :: rest) (hst : (s.dec.get l).st ≠ .wait) : exec (.decoderBurstAbort l) s =
    .next ((s.setLink l { s.link.get l with toDecoder := rest }).handOver l (.aborted (s.dec.get l).start)) := by
  show execDecoderBurstAbort l s = _
  simp only [execDecoderBurstAbort, State.decoderNotice_of_cons hout h]
  rw [State.takeNotice_of_accepts h (decide_eq_true hst)]
  rfl

/-- What is on its way once the outcome of the notice taken has been handed over (R64 to R66). -/
theorem State.handOver_taken (s : State) (l : Line) (o : BurstOutcome) :
    (s.setLink l { s.link.get l with toDecoder := rest }).handOver l o = { s with
      link := s.link.set l { s.link.get l with
        toDecoder := rest
        outcome := some o
        reports := (s.link.get l).reports ++ [o.report]
        offers := (s.link.get l).offers ++ if s.pow.st = .listen then o.offer else [] } } := by
  simp only [State.handOver, State.setLink, PerLine.get_set_same, PerLine.set_set]
  rfl

/-- A burst that opens sets OPEN, but in DORMANT (R72, R86). -/
theorem State.openBurst_rep (s : State) (l : Line) : (s.openBurst l).rep = s.rep.set l { s.rep.get l with
    opened := if s.pow.st = .dormant then (s.rep.get l).opened else true } := by
  unfold State.openBurst
  by_cases h : s.pow.st = .dormant <;> simp [h]

/-! ### The candidates of a burst -/

/-- The candidates of a burst on `l` that begins now (R43). -/
def State.formed (s : State) (l : Line) : List Candidate := allEntries.flatMap (s.candidatesOf l)

/-- Whether an entry is tested for a burst on `l` that begins now (R43). -/
def State.tests (s : State) (l : Line) (n : Fin 8) : Prop := s.entries[n].st = .enabled ∧ (s.format n).namesLine l = true

theorem State.mem_formed (s : State) (l : Line) (c : Candidate) : c ∈ s.formed l ↔ ∃ n, s.tests l n ∧
    (c = newFrameCandidate n (s.format n) ∨ ((s.format n).repeatKind = .code ∧ c = newRepeatCandidate n)) := by
  have hall : ∀ n : Fin 8, n ∈ allEntries := by decide
  have hof : ∀ n, c ∈ s.candidatesOf l n ↔ s.tests l n ∧
      (c = newFrameCandidate n (s.format n) ∨ ((s.format n).repeatKind = .code ∧ c = newRepeatCandidate n)) := fun n => by
    unfold State.candidatesOf State.tests
    split
    · next h =>
      rw [and_iff_right h, List.mem_cons]
      split
      · next hk => simp [hk]
      · next hk => simp [hk]
    · next h => exact iff_of_false List.not_mem_nil fun hand => h hand.1
  simp only [State.formed, List.mem_flatMap, hall, true_and, hof]

theorem State.mem_formed_entries (s : State) (l : Line) (n : Fin 8) : n ∈ (s.formed l).map (·.entry) ↔ s.tests l n := by
  rw [List.mem_map]
  constructor
  · rintro ⟨c, hc, rfl⟩
    obtain ⟨n, hn, rfl | ⟨-, rfl⟩⟩ := (s.mem_formed l c).mp hc <;> exact hn
  · exact fun hn => ⟨newFrameCandidate n (s.format n), (s.mem_formed l _).mpr ⟨n, hn, .inl rfl⟩, rfl⟩

/-- Where a candidate begins (R44, Table 3-2). -/
theorem State.formed_begins {c : Candidate} (hc : c ∈ s.formed l) :
    c.bits = [] ∧ c.pendingMark = none ∧ (c.kind = .repeated → c.phase = .lead) ∧
    (c.kind = .frame → (s.format c.entry).coding = .biphase → c.phase = .cells ∧ c.openHalf = some .space ∧ c.startCellDone = false) ∧
    (c.kind = .frame → (s.format c.entry).coding ≠ .biphase → Safety.gone (s.format c.entry).headerMark → c.phase = .bits) ∧
    (c.kind = .frame → (s.format c.entry).coding ≠ .biphase → ¬ Safety.gone (s.format c.entry).headerMark → c.phase = .header) := by
  obtain ⟨n, -, rfl | ⟨-, rfl⟩⟩ := (s.mem_formed l c).mp hc
  · refine ⟨rfl, rfl, nofun, fun _ hb => ⟨if_pos hb, rfl, rfl⟩, fun _ hb hg => ?_, fun _ hb hg => ?_⟩
    · exact (if_neg hb).trans (if_pos ((Window.absent_iff_gone _).mpr hg))
    · exact (if_neg hb).trans (if_neg fun ha => hg ((Window.absent_iff_gone _).mp ha))
  · exact ⟨rfl, rfl, fun _ => rfl, nofun, nofun, nofun⟩

theorem State.formCandidates_dec (s : State) (l : Line) (t : Time) :
    (s.formCandidates l t).dec = s.dec.set l ⟨if (s.formed l).isEmpty then .stopped else .active, t, s.formed l⟩ := by
  simp [State.formCandidates, State.formed]

theorem State.formCandidates_getElem (s : State) (l : Line) (t : Time) (n : Fin 8) :
    (s.formCandidates l t).entries[n] =
      if n ∈ (s.formed l).map (·.entry) then s.entries[n].setHolder (.decoder l) true else s.entries[n] := by
  rw [State.formCandidates, State.joinAll_getElem]
  simp only [List.mem_dedup, State.setDec_entries]
  rfl

theorem State.formed_isEmpty_iff (s : State) (l : Line) : (s.formed l).isEmpty = true ↔ ¬ ∃ n, s.tests l n := by
  rw [List.isEmpty_iff]
  constructor
  · rintro h ⟨n, hn⟩
    have := (s.mem_formed_entries l n).mpr hn
    rw [h] at this
    cases this
  · exact fun h => List.eq_nil_iff_forall_not_mem.mpr fun c hc =>
      h ⟨c.entry, (s.mem_formed_entries l c.entry).mp (List.mem_map_of_mem hc)⟩

/-! ### The winner (R62) -/

section
variable {d : Decoder} {stop : Time} {n : Fin 8}

theorem State.validRepeat_iff (s : State) (l : Line) (n : Fin 8) (start : Time) : s.validRepeat l n start = true ↔
    ∃ m, (s.rep.get l).memory = some m ∧ m.entry = n ∧ (start - m.lastEnd).toNat ≤ (s.format n).rw := by
  unfold State.validRepeat
  split <;> simp_all [Time.within]

/-- Whether an entry puts forward a valid repeat. -/
def State.repeats (s : State) (l : Line) (d : Decoder) (n : Fin 8) : Prop :=
  s.completeRepeat d.candidates n = true ∧ s.validRepeat l n d.start = true

theorem State.contender_of_frame {bits : List Bool} (h : s.completeFrame d.candidates n = some bits) : s.contender l d stop n =
    some (.frame n bits.length (payloadOf (s.format n).msbFirst bits) (!(s.format n).passesCheck bits) d.start stop) := by
  simp only [State.contender, h]

theorem State.contender_of_repeat (h : s.completeFrame d.candidates n = none) (hr : s.repeats l d n) :
    s.contender l d stop n = some (.repeated n d.start stop) := by
  obtain ⟨hc, hv⟩ := hr
  simp only [State.contender, h, hc, hv, Bool.and_self, if_true]

theorem State.contender_of_none (h : s.completeFrame d.candidates n = none) (hr : ¬ s.repeats l d n) :
    s.contender l d stop n = none := by
  have hnot : ¬ (s.completeRepeat d.candidates n && s.validRepeat l n d.start) = true := fun hand => hr (Bool.and_eq_true_iff.mp hand)
  simp only [State.contender, h, if_neg hnot]

/-- The first index for which a function gives something, in index order. -/
theorem findSome?_finRange {α : Type} {k : Nat} {f : Fin k → Option α} {n : Fin k} {x : α} (hn : f n = some x)
    (h : ∀ m, m < n → f m = none) : (List.finRange k).findSome? f = some x := by
  have hlen : n.val < (List.finRange k).length := by simp
  refine List.findSome?_eq_some_iff.mpr ⟨(List.finRange k).take n, n, (List.finRange k).drop (n + 1), ?_, hn, fun m hm => ?_⟩
  · have hget : (List.finRange k)[n.val] = n := by simp
    conv_lhs => rw [← List.take_append_drop n.val (List.finRange k), List.drop_eq_getElem_cons hlen, hget]
  · obtain ⟨i, hi, rfl⟩ := List.mem_take_iff_getElem.mp hm
    refine h _ ?_
    rw [List.getElem_finRange]
    show i < n.val
    omega

theorem State.burstOutcome_of_stopped (h : d.st = .stopped) : s.burstOutcome l d stop = .unmatched d.start stop :=
  if_pos (by rw [h]; nofun)

theorem State.burstOutcome_of_first {o : BurstOutcome} (hst : d.st = .active) (hn : s.contender l d stop n = some o)
    (h : ∀ m, m < n → s.contender l d stop m = none) : s.burstOutcome l d stop = o := by
  rw [State.burstOutcome, if_neg (by simp [hst]), allEntries_eq_finRange, findSome?_finRange hn h]

theorem State.burstOutcome_of_none (hst : d.st = .active) (h : ∀ m, s.contender l d stop m = none) : s.burstOutcome l d stop =
    if allEntries.any (s.completeRepeat d.candidates) then .orphan d.start stop else .unmatched d.start stop := by
  have hnone : allEntries.findSome? (s.contender l d stop) = none := List.findSome?_eq_none_iff.mpr fun m _ => h m
  rw [State.burstOutcome, if_neg (by simp [hst]), hnone]

end

theorem any_allEntries {p : Fin 8 → Bool} : allEntries.any p = true ↔ ∃ n, p n = true := by
  have hall : ∀ n : Fin 8, n ∈ allEntries := by decide
  rw [List.any_eq_true]
  exact ⟨fun ⟨n, _, h⟩ => ⟨n, h⟩, fun ⟨n, h⟩ => ⟨n, hall n, h⟩⟩

/-! ### The check (R24) -/

theorem invertedPairsHold_iff (p : Payload) (n : Nat) : invertedPairsHold p n = true ↔ 16 ∣ n ∧
    ∀ k i, k < n / 16 → i < 8 → p.getLsbD (16 * k + 8 + i) = !p.getLsbD (16 * k + i) := by
  have hbyte : ∀ k, Payload.byte p (2 * k + 1) = ~~~(Payload.byte p (2 * k)) ↔
      ∀ i, i < 8 → p.getLsbD (16 * k + 8 + i) = !p.getLsbD (16 * k + i) := fun k => by
    rw [BitVec.eq_of_getLsbD_eq_iff]
    refine forall_congr' fun i => forall_congr' fun hi => ?_
    rw [BitVec.getLsbD_not, Payload.byte, Payload.byte, BitVec.getLsbD_extractLsb', BitVec.getLsbD_extractLsb']
    have hodd : 8 * (2 * k + 1) + i = 16 * k + 8 + i := by omega
    have heven : 8 * (2 * k) + i = 16 * k + i := by omega
    rw [hodd, heven, decide_eq_true hi, Bool.true_and, Bool.true_and, Bool.true_and]
  rw [invertedPairsHold, Bool.and_eq_true, decide_eq_true_eq, Nat.dvd_iff_mod_eq_zero, List.all_eq_true]
  refine and_congr_right fun _ => ⟨fun h k i hk hi => ?_, fun h k hk => ?_⟩
  · exact (hbyte k).mp (beq_iff_eq.mp (h k (List.mem_range.mpr hk))) i hi
  · exact beq_iff_eq.mpr ((hbyte k).mpr fun i hi => h k i (List.mem_range.mp hk) hi)

/-! ### The elements of a burst (R45, R46) -/

/-- The candidates that an element leaves. -/
def State.keptCandidates (s : State) (l : Line) (lvl : Level) (d : Nat) : List Candidate :=
  (s.dec.get l).candidates.filterMap fun c => c.take (s.format c.entry) lvl d

/-- The entries whose last candidate an element removes. -/
def State.goneEntries (s : State) (l : Line) (lvl : Level) (d : Nat) : List (Fin 8) :=
  (candidateEntries s l).dedup.filter fun n => !((s.keptCandidates l lvl d).any fun c => c.entry = n)

theorem State.goneEntries_nodup (s : State) (l : Line) (lvl : Level) (d : Nat) : (s.goneEntries l lvl d).Nodup :=
  (List.nodup_dedup _).filter _

theorem State.mem_goneEntries (s : State) (l : Line) (lvl : Level) (d : Nat) (n : Fin 8) :
    n ∈ s.goneEntries l lvl d ↔ n ∈ candidateEntries s l ∧ ∀ c ∈ s.keptCandidates l lvl d, c.entry ≠ n := by
  simp [State.goneEntries]

theorem State.offerElement_eq (s : State) (l : Line) (lvl : Level) (d : Nat) : s.offerElement l lvl d =
    (s.setDec l ⟨if s.keptCandidates l lvl d = [] then .stopped else .active, (s.dec.get l).start, s.keptCandidates l lvl d⟩).leaveHolders
      (.decoder l) (s.goneEntries l lvl d) := by
  have hempty : (s.keptCandidates l lvl d).isEmpty = decide (s.keptCandidates l lvl d = []) := by
    cases s.keptCandidates l lvl d <;> rfl
  show State.leaveHolders (s.setDec l ⟨if (s.keptCandidates l lvl d).isEmpty then .stopped else .active, (s.dec.get l).start,
    s.keptCandidates l lvl d⟩) _ _ = _
  simp only [hempty, decide_eq_true_eq]
  rfl

/-- Whether a holder's leaving completes the retirement of the entry that a memory names. -/
theorem State.clearedBy_of_some {h : Holder} {ns : List (Fin 8)} {m : LastFrame} (hm : (s.rep.get l).memory = some m) :
    s.clearedBy h ns l = true ↔ m.entry ∈ ns ∧ s.entries[m.entry].retires h = true := by
  simp only [State.clearedBy, hm, Option.any_some, Bool.and_eq_true, decide_eq_true_eq]

/-- An entry after a holder has left several. -/
theorem leftEntries_cases {h : Holder} {ns : List (Fin 8)} (hns : ns.Nodup) (es : Vector EntryControl 8) (n : Fin 8) :
    (n ∈ ns → es[n].retires h = true → (leftEntries h ns es)[n] = { es[n].setHolder h false with st := .disabled }) ∧
    (n ∈ ns → es[n].retires h = false → (leftEntries h ns es)[n] = es[n].setHolder h false) ∧
    (n ∉ ns → (leftEntries h ns es)[n] = es[n]) := by
  rw [leftEntries_getElem h hns]
  refine ⟨fun hn hr => ?_, fun hn hr => ?_, fun hn => if_neg hn⟩
  · rw [if_pos hn, EntryControl.left_of_retires hr]
  · rw [if_pos hn, EntryControl.left_of_not_retires hr]

/-! ### The half-cells (R55 to R58) -/

section
variable {f : Format} {c : Candidate}

theorem Candidate.take_cells (hp : c.phase = .cells) (lvl : Level) (d : Nat) : c.take f lvl d = c.takeCells f lvl d := if_pos hp

theorem Candidate.placeHalf_of_none {lvl : Level} (h : c.openHalf = none) : c.placeHalf f lvl = some { c with openHalf := some lvl } := by
  simp only [Candidate.placeHalf, h]

theorem Candidate.placeHalf_same {lvl : Level} (h : c.openHalf = some lvl) : c.placeHalf f lvl = none := by
  simp only [Candidate.placeHalf, h, if_true]

theorem Candidate.placeHalf_start {lvl first : Level} (h : c.openHalf = some first) (hne : first ≠ lvl)
    (hs : c.startCellDone = false) : c.placeHalf f lvl = some { c with openHalf := none, startCellDone := true } := by
  simp only [Candidate.placeHalf, h, if_neg hne, hs, Bool.false_eq_true, if_false]

theorem Candidate.placeHalf_bit {lvl first : Level} (h : c.openHalf = some first) (hne : first ≠ lvl)
    (hs : c.startCellDone = true) :
    c.placeHalf f lvl = Candidate.addBit f { c with openHalf := none } (decide (first = .space)) := by
  simp only [Candidate.placeHalf, h, if_neg hne, hs, if_true]

theorem Candidate.endTest_cells (hp : c.phase = .cells) : c.endTest f = c.endCells f := by
  simp only [Candidate.endTest, hp]

end

end Sys2Proof.Machine

open Sys2Proof Sys2Proof.Machine Sys2Proof.Safety

/-- Settles O13, from which entries are tested and what each of them puts forward. -/
theorem burstStartFormsCandidates : Obligations.BurstStartFormsCandidates := by
  intro l time rest s hout hlink hst tested
  let u : State := (s.setLink l { s.link.get l with toDecoder := rest }).openBurst l
  have hexec : exec (.decoderBurstStart l) s = .next (u.formCandidates l time) := exec_decoderBurstStart hout hlink hst
  have hdec : (u.formCandidates l time).dec = s.dec.set l ⟨if (s.formed l).isEmpty then .stopped else .active, time, s.formed l⟩ :=
    u.formCandidates_dec l time
  have hentries : ∀ n : Fin 8, (u.formCandidates l time).entries[n] =
      if n ∈ (s.formed l).map (·.entry) then s.entries[n].setHolder (.decoder l) true else s.entries[n] :=
    u.formCandidates_getElem l time
  have hempty : (s.formed l).isEmpty = true ↔ ¬ ∃ n, tested n := s.formed_isEmpty_iff l
  have hmem : ∀ n, n ∈ (s.formed l).map (·.entry) ↔ tested n := s.mem_formed_entries l
  refine ⟨_, hexec, ?_⟩
  rw [hdec, PerLine.get_set_same]
  refine ⟨s.mem_formed l, fun c hc => State.formed_begins hc, fun n hn => ?frames, fun n hn => ?repeats, rfl, ?active, ?stopped,
    fun n => ⟨fun hn => ?joined, fun hn => ?notJoined⟩, ?opened, by simp [u], fun m hm => PerLine.get_set_ne _ _ hm, by simp [u]⟩
  case frames => exact ⟨newFrameCandidate n (s.format n), (s.mem_formed l _).mpr ⟨n, hn, .inl rfl⟩, rfl, rfl⟩
  case repeats =>
    refine ⟨fun hk => ⟨newRepeatCandidate n, (s.mem_formed l _).mpr ⟨n, hn, .inr ⟨hk, rfl⟩⟩, rfl, rfl⟩, ?_⟩
    rintro ⟨c, hc, rfl, hkind⟩
    obtain ⟨m, -, rfl | ⟨hk, rfl⟩⟩ := (s.mem_formed l c).mp hc
    · cases hkind
    · exact hk
  case active =>
    rw [← not_not (a := ∃ n, tested n), ← hempty]
    cases (s.formed l).isEmpty <;> simp
  case stopped =>
    rw [← hempty]
    cases (s.formed l).isEmpty <;> simp
  case joined => rw [hentries, if_pos ((hmem n).mpr hn)]
  case notJoined => rw [hentries, if_neg fun h => hn ((hmem n).mp h)]
  case opened =>
    obtain ⟨-, -, hrep, -⟩ := u.formCandidates_frame l time
    rw [hrep]
    exact State.openBurst_rep _ l

/-- Settles O16: the winner is the first entry that puts something forward, and an abort hands over ABORTED. -/
theorem burstEndHandsOverOutcome : Obligations.BurstEndHandsOverOutcome := by
  refine ⟨fun l time rest s hout hlink hst => ?ended, fun l why rest s hout hlink hst => ?aborted,
    fun f bits => ⟨fun h => ?none, fun h => ?even, fun h => ?odd, fun h => ?inverted⟩⟩
  case ended =>
    intro d frame valid report offer
    have hvalid : ∀ n, s.repeats l d n ↔ valid n := fun n => and_congr_right fun _ => s.validRepeat_iff l n d.start
    have hreport : ∀ o, report o = o.report := fun o => by cases o <;> rfl
    have hoffer : ∀ o, offer o = if s.pow.st = .listen then o.offer else [] := fun o => by
      cases o with
      | frame n bits p failed start stop => cases failed <;> simp [offer, BurstOutcome.offer]
      | _ => simp [offer, BurstOutcome.offer]
    refine ⟨s.burstOutcome l d time, ?_, State.burstOutcome_of_stopped, fun hactive => ⟨?_, ?_, ?_, ?_⟩⟩
    · rw [hreport, hoffer, exec_decoderBurstEnd hout hlink hst, State.handOver_taken]
    · intro n bits hbefore hbits
      exact State.burstOutcome_of_first hactive (State.contender_of_frame hbits) fun m hm =>
        State.contender_of_none (hbefore m hm).1 fun h => (hbefore m hm).2 ((hvalid m).mp h)
    · intro n hbefore hnone hn
      exact State.burstOutcome_of_first hactive (State.contender_of_repeat hnone ((hvalid n).mpr hn)) fun m hm =>
        State.contender_of_none (hbefore m hm).1 fun h => (hbefore m hm).2 ((hvalid m).mp h)
    · intro hno hsome
      rw [State.burstOutcome_of_none hactive fun m => State.contender_of_none (hno m).1 fun h => (hno m).2 ((hvalid m).mp h)]
      exact if_pos (any_allEntries.mpr hsome)
    · intro hno hsome
      rw [State.burstOutcome_of_none hactive fun m => State.contender_of_none (hno m).1 fun h => (hno m).2 ((hvalid m).mp h)]
      exact if_neg fun h => hsome (any_allEntries.mp h)
  case aborted =>
    rw [exec_decoderBurstAbort hout hlink hst, State.handOver_taken]
    simp [BurstOutcome.report, BurstOutcome.offer]
  case none => simp only [Format.passesCheck, h]
  case even => simp only [Format.passesCheck, h, decide_eq_true_eq]
  case odd => simp only [Format.passesCheck, h, decide_eq_true_eq]
  case inverted => simp only [Format.passesCheck, h, invertedPairsHold_iff]

/-- Settles O14: the holds of the entries whose last candidate goes are given up, and a half-cell by the half that is open. -/
theorem elementIsOfferedToCandidates : Obligations.ElementIsOfferedToCandidates := by
  refine ⟨fun l lvl d rest s hout hlink => ⟨fun hst => ?stopped, fun hst => ?active⟩, fun f c hp => ?cells⟩
  case stopped =>
    rw [exec_decoderElement hout hlink (by simp [hst]), if_neg (by simp [hst])]
    rfl
  case active =>
    intro kept left after retires
    have hleft : ∀ n, n ∈ s.goneEntries l lvl d ↔ left n := s.mem_goneEntries l lvl d
    have hretires : ∀ n, (n ∈ s.goneEntries l lvl d ∧ s.entries[n].retires (.decoder l) = true) ↔ retires n := fun n => by
      rw [hleft, EntryControl.retires_iff]
    let u : State := (s.setLink l { s.link.get l with toDecoder := rest }).setDec l
      ⟨if kept = [] then .stopped else .active, (s.dec.get l).start, kept⟩
    have hexec : exec (.decoderElement l) s = .next (u.leaveHolders (.decoder l) (s.goneEntries l lvl d)) := by
      rw [exec_decoderElement hout hlink (by simp [hst]), if_pos hst, State.offerElement_eq]
      rfl
    rw [u.leaveHolders_eq _ (s.goneEntries_nodup l lvl d)] at hexec
    refine ⟨_, hexec, ?decoders, fun n => ?entries, ?retired, fun m x hm => ?memory, u.clearOf_identity _, ?link, by simp [u]⟩
    case decoders =>
      obtain ⟨-, -, hdec, -⟩ := u.clearOf_frame (u.clearedBy (.decoder l) (s.goneEntries l lvl d))
      rw [hdec]
      simp [u, kept]
    case entries =>
      obtain ⟨hret, hkept, hout⟩ := leftEntries_cases (h := .decoder l) (s.goneEntries_nodup l lvl d) s.entries n
      refine ⟨fun hr => ?_, fun hl hr => ?_, fun hl => hout fun hn => hl ((hleft n).mp hn)⟩
      · obtain ⟨hn, hr⟩ := (hretires n).mpr hr
        exact hret hn hr
      · have hn := (hleft n).mpr hl
        exact hkept hn (Bool.eq_false_iff.mpr fun hr' => hr ((hretires n).mp ⟨hn, hr'⟩))
    case retired =>
      rw [Bool.or_eq_true, List.any_eq_true]
      exact or_congr_right (exists_congr hretires)
    case memory =>
      have hcleared : u.clearedBy (.decoder l) (s.goneEntries l lvl d) m = true ↔ retires x.entry :=
        (State.clearedBy_of_some (s := u) hm).trans (hretires x.entry)
      show (_ → ((u.clearOf _).rep.get m).memory = none) ∧ (_ → ((u.clearOf _).rep.get m).memory = some x)
      rw [State.clearOf_rep_get]
      exact ⟨fun hr => by rw [if_pos (hcleared.mpr hr)]; rfl, fun hr => by rw [if_neg fun h => hr (hcleared.mp h)]; exact hm⟩
    case link =>
      show ((u.clearOf _).link.get l).toDecoder = rest
      rw [State.clearOf_link_get]
      split <;> simp [u, Links.forget]
  case cells =>
    intro one two
    refine ⟨fun lvl d => ?_, fun lvl => ⟨Candidate.placeHalf_of_none, Candidate.placeHalf_same, fun first hopen hne => ?_⟩, fun hopen => ?_,
      fun hopen hstart => ?_⟩
    · rw [Candidate.take_cells hp, Candidate.takeCells]
      simp only [Window.matches_iff]
      exact ⟨fun h₁ => if_pos h₁, fun h₁ h₂ => by rw [if_neg h₁, if_pos h₂], fun h₁ h₂ => by rw [if_neg h₁, if_neg h₂]⟩
    · have hbit : decide (first = .space) = decide (first = .space ∧ lvl = .mark) := by
        cases first <;> cases lvl <;> simp_all
      refine ⟨Candidate.placeHalf_start hopen hne, fun hs hroom => ?_, fun hs hfull => ?_⟩
      · rw [Candidate.placeHalf_bit hopen hne hs, Candidate.addBit_of_room (by exact hroom), hbit]
      · rw [Candidate.placeHalf_bit hopen hne hs, Candidate.addBit_of_full (by exact hfull)]
    · rw [Candidate.endTest_cells hp, Candidate.endCells, hopen, Format.complete_eq]
    · have hplace : c.placeHalf f .space = Candidate.addBit f { c with openHalf := none } false :=
        Candidate.placeHalf_bit hopen nofun hstart
      rw [Candidate.endTest_cells hp, Candidate.endCells, hopen]
      simp only [hplace]
      by_cases hroom : c.bits.length < f.maxBits
      · rw [Candidate.addBit_of_room (by exact hroom), Option.bind_some, Format.complete_eq, List.length_append]
        rfl
      · rw [Candidate.addBit_of_full (by exact Nat.not_lt.mp hroom), if_neg fun hand => hroom (Nat.lt_of_succ_le hand.2)]
        rfl

end

