-- ==== Sys2Proof/Proofs/PairBursts.lean ====
section
/-! PROOF. O18: a PAIR entry decodes the burst that is built from it. -/

namespace Sys2Proof.Machine

open Sys2Proof (Byte Time Payload Line)
open Sys2Proof.Safety

variable {f : Format} {c : Candidate}

/-! ### Bursts and their parts -/

theorem takeBurst_append (f : Format) (c : Candidate) (es fs : List Element) :
    takeBurst f c (es ++ fs) = (takeBurst f c es).bind fun c => takeBurst f c fs := by
  induction es generalizing c with
  | nil => rfl
  | cons e es ih =>
    rw [List.cons_append, takeBurst, takeBurst, Option.bind_assoc]
    exact congrArg _ (funext ih)

theorem takeBurst_of_cons {e : Element} {es : List Element} {c' : Candidate} (h : c.take f e.level e.us = some c') :
    takeBurst f c (e :: es) = takeBurst f c' es := by
  rw [takeBurst, h, Option.bind_some]

/-- What a PAIR entry must satisfy for its own burst to be read back: its windows are present, and the two bit values are told
apart (R33, R34). -/
structure Format.Readable (f : Format) : Prop where
  windows : here f.mark0 ∧ here f.space0 ∧ here f.mark1 ∧ here f.space1
  header : (gone f.headerMark ∧ gone f.headerSpace) ∨ (here f.headerMark ∧ here f.headerSpace)
  trailer : gone f.trailerMark ∨ here f.trailerMark
  apart : ¬ (meet f.mark0 f.mark1 ∧ meet f.space0 f.space1)
  marksApart : ¬ (meet f.mark0 f.mark1 ∧ gone f.trailerMark)

theorem Format.readable_of_validate {idleA idleB : Byte} (hc : f.coding = .pair) (h : f.validate idleA idleB = .ok) : f.Readable := by
  have hne : f.coding ≠ .biphase := by simp [hc]
  obtain ⟨-, -, hwindows, hdistinct, -⟩ := (f.validate_eq_ok idleA idleB).mp h
  obtain ⟨-, -, hpair, -⟩ := (Format.windowsLegal_iff f).mp hwindows
  obtain ⟨hheader, hbits, htrailer⟩ := hpair hne
  obtain ⟨hapart, hmarks⟩ := (Format.bitsDistinct_iff f).mp hdistinct hne
  exact ⟨hbits, hheader, htrailer, hapart, hmarks⟩

theorem nominal_matches_of_here {w : Window} (h : here w) : w.matches w.nominal = true := w.nominal_matches h.2

theorem meet_of_matches {v w : Window} {d : Nat} (hv : v.matches d = true) (hw : w.matches d = true) : meet v w :=
  (Window.overlaps_iff_meet v w).mp (Window.overlaps_of_matches hv hw)

/-! ### The bits -/

/-- The mark that a bit is sent with. -/
def Format.bitMark (f : Format) (b : Bool) : Window := if b then f.mark1 else f.mark0

/-- The space that a bit is sent with. -/
def Format.bitSpace (f : Format) (b : Bool) : Window := if b then f.space1 else f.space0

theorem Format.bitElements_eq (f : Format) (b : Bool) :
    f.bitElements b = [⟨.mark, (f.bitMark b).nominal⟩, ⟨.space, (f.bitSpace b).nominal⟩] := by
  cases b <;> rfl

theorem Format.pairBit_nominal (hf : f.Readable) (b : Bool) : f.pairBit (f.bitMark b).nominal (f.bitSpace b).nominal = some b := by
  obtain ⟨h₀, hs₀, h₁, hs₁⟩ := hf.windows
  have hm₁ := nominal_matches_of_here h₁
  have hd₁ := nominal_matches_of_here hs₁
  cases b with
  | false => exact Format.pairBit_of_zero ⟨nominal_matches_of_here h₀, nominal_matches_of_here hs₀⟩
  | true =>
    exact Format.pairBit_of_one (fun ⟨hm, hd⟩ => hf.apart ⟨meet_of_matches hm hm₁, meet_of_matches hd hd₁⟩) ⟨hm₁, hd₁⟩

/-- A candidate in BITS takes the mark and the space of a bit. -/
theorem takeBurst_bit (hf : f.Readable) (hp : c.phase = .bits) (hroom : c.bits.length < f.maxBits) (b : Bool) :
    takeBurst f c (f.bitElements b) = some { c with pendingMark := none, bits := c.bits ++ [b] } := by
  have hmark : c.take f .mark (f.bitMark b).nominal = some { c with pendingMark := some (f.bitMark b).nominal } :=
    Candidate.take_mark (by simp [hp])
  rw [Format.bitElements_eq, takeBurst_of_cons hmark, takeBurst_of_cons]
  · rfl
  · exact Candidate.take_space_bits_of_room (c := { c with pendingMark := some (f.bitMark b).nominal }) hp rfl hroom
      (Format.pairBit_nominal hf b)

theorem takeBurst_bits (hf : f.Readable) (hp : c.phase = .bits) (hm : c.pendingMark = none) (bits : List Bool)
    (hroom : c.bits.length + bits.length ≤ f.maxBits) :
    takeBurst f c (bits.flatMap f.bitElements) = some { c with bits := c.bits ++ bits } := by
  induction bits generalizing c with
  | nil => simp [takeBurst]
  | cons b bits ih =>
    rw [List.length_cons] at hroom
    rw [List.flatMap_cons, takeBurst_append, takeBurst_bit hf hp (by omega), Option.bind_some, ih (by exact hp) rfl]
    · simp [hm]
    · simp only [List.length_append, List.length_singleton]
      omega

/-! ### The header and the end -/

/-- The header leads to BITS (R47). -/
theorem takeBurst_header (hf : f.Readable) (hc : f.coding = .pair) (n : Fin 8) :
    takeBurst f (newFrameCandidate n f) (if f.headerMark.absent then [] else markSpace f.headerMark.nominal f.headerSpace.nominal) =
      some { newFrameCandidate n f with phase := .bits } := by
  have hne : ¬ f.coding = .biphase := by simp [hc]
  rcases hf.header with ⟨hg, -⟩ | ⟨hm, hs⟩
  · have habsent := (Window.absent_iff_gone _).mpr hg
    rw [if_pos habsent]
    simp [takeBurst, newFrameCandidate, hne, habsent]
  · have habsent : ¬ f.headerMark.absent = true := fun h => not_here_of_gone ((Window.absent_iff_gone _).mp h) hm
    have hphase : (newFrameCandidate n f).phase = .header := by simp [newFrameCandidate, hne, habsent]
    have hmark : (newFrameCandidate n f).take f .mark f.headerMark.nominal =
        some { newFrameCandidate n f with pendingMark := some f.headerMark.nominal } := Candidate.take_mark (by simp [hphase])
    rw [if_neg habsent, markSpace, takeBurst_of_cons hmark, takeBurst_of_cons]
    · rfl
    · exact (Candidate.take_space_header (c := { newFrameCandidate n f with pendingMark := some f.headerMark.nominal }) hphase rfl).trans
        (if_pos ⟨nominal_matches_of_here hm, nominal_matches_of_here hs⟩)

theorem Format.complete_of_range {bits : List Bool} (h : f.countInRange bits.length = true) : f.complete bits = some bits := if_pos h

/-- The trailer mark ends the frame (R50). -/
theorem endTest_trailer (hp : c.phase = .bits) (hm : c.pendingMark = some f.trailerMark.nominal) (ht : here f.trailerMark)
    (h : f.countInRange c.bits.length = true) : c.endTest f = some c.bits := by
  rw [Candidate.endTest_bits hp hm, Candidate.endBits_of_trailer fun hg => not_here_of_gone hg ht,
    if_pos (nominal_matches_of_here ht), Format.complete_of_range h]

/-- Without a trailer the last mark decides the last bit (R51). -/
theorem endTest_lastMark (hf : f.Readable) (ht : gone f.trailerMark) {b : Bool} (hp : c.phase = .bits)
    (hm : c.pendingMark = some (f.bitMark b).nominal) (h : f.countInRange (c.bits ++ [b]).length = true) :
    c.endTest f = some (c.bits ++ [b]) := by
  obtain ⟨h₀, -, h₁, -⟩ := hf.windows
  rw [Candidate.endTest_bits hp hm, Candidate.endBits_of_no_trailer ht]
  cases b with
  | false =>
    have hm₀ : f.mark0.matches (f.bitMark false).nominal = true := nominal_matches_of_here h₀
    rw [if_pos hm₀, Format.complete_of_range h]
  | true =>
    have hm₁ : f.mark1.matches (f.bitMark true).nominal = true := nominal_matches_of_here h₁
    rw [if_neg fun hm₀ => hf.marksApart ⟨meet_of_matches hm₀ hm₁, ht⟩, if_pos hm₁, Format.complete_of_range h]

end Sys2Proof.Machine

open Sys2Proof Sys2Proof.Machine Sys2Proof.Safety

/-- Settles O18: header, bits and end in turn, the last bit of a burst without a trailer decided by its mark. -/
theorem pairEntryDecodesItsOwnBurst : Obligations.PairEntryDecodesItsOwnBurst := by
  intro n f idleA idleB bits hc hvalid hrange
  have hf := Format.readable_of_validate hc hvalid
  obtain ⟨hmin, hmax⟩ : f.minBits ≤ bits.length ∧ bits.length ≤ f.maxBits := of_decide_eq_true hrange
  obtain ⟨-, hbits, -⟩ := (f.validate_eq_ok idleA idleB).mp hvalid
  obtain ⟨⟨hone, -, -⟩, -⟩ := (Format.bitCountsLegal_iff f).mp hbits
  let c : Candidate := { newFrameCandidate n f with phase := .bits }
  have hbits : ∀ bs : List Bool, bs.length ≤ f.maxBits → takeBurst f c (bs.flatMap f.bitElements) = some { c with bits := bs } :=
    fun bs hbs => takeBurst_bits hf rfl rfl bs (by simpa [c, newFrameCandidate] using hbs)
  rw [decodeFrame, Format.pairBurst, takeBurst_append, takeBurst_header hf hc, Option.bind_some]
  rcases hf.trailer with hgone | hhere
  · obtain ⟨init, b, rfl⟩ : ∃ init b, bits = init ++ [b] :=
      ⟨_, _, (List.dropLast_append_getLast (List.ne_nil_of_length_pos (by omega))).symm⟩
    have hroom : init.length ≤ f.maxBits := by
      rw [List.length_append] at hmax
      omega
    have hlast : ((init ++ [b]).flatMap f.bitElements).dropLast =
        init.flatMap f.bitElements ++ [⟨.mark, (f.bitMark b).nominal⟩] := by
      rw [List.flatMap_append, List.flatMap_singleton, Format.bitElements_eq, List.dropLast_append_of_ne_nil (by simp)]
      rfl
    rw [if_pos ((Window.absent_iff_gone _).mpr hgone), hlast, takeBurst_append, hbits init hroom, Option.bind_some,
      takeBurst_of_cons (Candidate.take_mark (by simp [c])), takeBurst, Option.bind_some]
    exact endTest_lastMark hf hgone rfl rfl hrange
  · rw [if_neg fun h => not_here_of_gone ((Window.absent_iff_gone _).mp h) hhere, takeBurst_append, hbits bits hmax, Option.bind_some,
      takeBurst_of_cons (Candidate.take_mark (by simp [c])), takeBurst, Option.bind_some]
    exact endTest_trailer rfl rfl hhere hrange

end

