-- ==== Sys2Proof/Proofs/Runs.lean ====
section
/-! PROOF. O19: a BIPHASE entry decodes the burst that is built from it. The runs of half-cells come first: every burst that
is built joins runs of equal level (R140, R141). -/

namespace Sys2Proof.Machine

open Sys2Proof (Byte Time Payload Line)
open Sys2Proof.Safety

/-! ### Joining runs -/

/-- An element whose level the next one does not share is a run of its own. -/
theorem joinRuns_cons_of_head_ne {e : Element} {es : List Element} (h : ∀ f, es.head? = some f → f.level ≠ e.level) :
    joinRuns (e :: es) = e :: joinRuns es := by
  cases es with
  | nil => rfl
  | cons f es =>
    obtain ⟨u, fs, hfs⟩ := joinRuns_head f es
    have hne : ¬ e.level = f.level := fun heq => h f rfl heq.symm
    rw [joinRuns, hfs]
    exact if_neg hne

/-- Two elements of equal level join. -/
theorem joinRuns_cons_cons_of_eq (lvl : Level) (u v : Nat) (es : List Element) :
    joinRuns (⟨lvl, u⟩ :: ⟨lvl, v⟩ :: es) = joinRuns (⟨lvl, u + v⟩ :: es) := by
  simp only [joinRuns]
  cases joinRuns es with
  | nil => simp
  | cons f fs => by_cases h : lvl = f.level <;> simp [h, Nat.add_assoc]

theorem joinRuns_alternates (es : List Element) : (joinRuns es).IsChain fun x y => x.level ≠ y.level := by
  induction es with
  | nil => exact .nil
  | cons e es ih =>
    rw [joinRuns]
    cases hes : joinRuns es with
    | nil => exact .singleton _
    | cons f fs =>
      rw [hes] at ih
      by_cases h : e.level = f.level
      · cases fs with
        | nil => simp [h]
        | cons g gs =>
          rw [List.isChain_cons_cons] at ih
          simp only [h, if_true]
          exact List.isChain_cons_cons.mpr ih
      · simp only [h, if_false]
        exact List.isChain_cons_cons.mpr ⟨h, ih⟩

theorem joinRuns_us_ne_zero {es : List Element} (h : ∀ e ∈ es, e.us ≠ 0) : ∀ e ∈ joinRuns es, e.us ≠ 0 := by
  induction es with
  | nil => exact nofun
  | cons e es ih =>
    obtain ⟨he, hes⟩ := List.forall_mem_cons.mp h
    have ih := ih hes
    rw [joinRuns]
    cases hjoin : joinRuns es with
    | nil => simpa using he
    | cons f fs =>
      rw [hjoin] at ih
      obtain ⟨hf, hfs⟩ := List.forall_mem_cons.mp ih
      by_cases hl : e.level = f.level
      · simp only [hl, if_true]
        exact List.forall_mem_cons.mpr ⟨by simp only; omega, hfs⟩
      · simp only [hl, if_false]
        exact List.forall_mem_cons.mpr ⟨he, List.forall_mem_cons.mpr ⟨hf, hfs⟩⟩

/-- Laid out in units of `k` µs, joined runs hold the levels of their elements. -/
theorem joinRuns_expand {k : Nat} {es : List Element} (h : ∀ e ∈ es, k ∣ e.us) :
    ((joinRuns es).flatMap fun e => List.replicate (e.us / k) e.level) = es.flatMap fun e => List.replicate (e.us / k) e.level := by
  induction es with
  | nil => rfl
  | cons e es ih =>
    obtain ⟨he, hes⟩ := List.forall_mem_cons.mp h
    rw [List.flatMap_cons, ← ih hes, joinRuns]
    cases joinRuns es with
    | nil => simp
    | cons f fs =>
      by_cases hl : e.level = f.level
      · simp only [hl, if_true, List.flatMap_cons, Nat.add_div_of_dvd_right he, List.replicate_add, List.append_assoc]
      · simp only [hl, if_false, List.flatMap_cons]

theorem joinRuns_head_level (es : List Element) : (joinRuns es).head?.map (·.level) = es.head?.map (·.level) := by
  cases es with
  | nil => rfl
  | cons e es =>
    obtain ⟨u, fs, h⟩ := joinRuns_head e es
    simp [h]

theorem joinRuns_last_level (es : List Element) : (joinRuns es).getLast?.map (·.level) = es.getLast?.map (·.level) := by
  induction es with
  | nil => rfl
  | cons e es ih =>
    cases es with
    | nil => rfl
    | cons g gs =>
      rw [List.getLast?_cons_cons, ← ih]
      obtain ⟨u, fs, h⟩ := joinRuns_head g gs
      rw [joinRuns, h]
      by_cases hl : e.level = g.level
      · cases fs <;> simp [hl]
      · simp [hl]

/-! ### Runs of half-cells -/

/-- A row of half-cells, each lasting `k`, and its runs of one and of two. -/
inductive HalfRuns (k : Nat) : List Level → List Element → Prop
  | nil : HalfRuns k [] []
  | single (a : Level) (row : List Level) (es : List Element) (h : HalfRuns k row es) : HalfRuns k (a :: row) (⟨a, k⟩ :: es)
  | double (a : Level) (row : List Level) (es : List Element) (h : HalfRuns k row es) :
      HalfRuns k (a :: a :: row) (⟨a, 2 * k⟩ :: es)

/-- No three half-cells in a row are equal. -/
def NoTriple (row : List Level) : Prop := ∀ a, ¬ [a, a, a] <:+: row

theorem NoTriple.of_part {row row' : List Level} (h : NoTriple row) (hr : row' <:+: row) : NoTriple row' :=
  fun a ha => h a (ha.trans hr)

theorem halfRuns_of_noTriple (k : Nat) (row : List Level) (h : NoTriple row) :
    HalfRuns k row (joinRuns (row.map fun a => ⟨a, k⟩)) := by
  match row with
  | [] => exact .nil
  | [a] => exact .single a [] [] .nil
  | a :: b :: row =>
    by_cases hab : a = b
    · subst hab
      have hnext : ∀ f : Element, (row.map fun a => (⟨a, k⟩ : Element)).head? = some f → f.level ≠ a := by
        intro f hf hfa
        cases row with
        | nil => cases hf
        | cons c row =>
          simp only [List.map_cons, List.head?_cons, Option.some.injEq] at hf
          rw [← hf] at hfa
          subst hfa
          exact h c ⟨[], row, rfl⟩
      have ih := halfRuns_of_noTriple k row (h.of_part ⟨[a, a], [], by simp⟩)
      rw [List.map_cons, List.map_cons, joinRuns_cons_cons_of_eq, joinRuns_cons_of_head_ne hnext, ← Nat.two_mul]
      exact .double a row _ ih
    · have ih := halfRuns_of_noTriple k (b :: row) (h.of_part ⟨[a], [], by simp⟩)
      rw [List.map_cons, joinRuns_cons_of_head_ne]
      · exact .single a (b :: row) _ ih
      · intro f hf
        cases hf
        exact fun hba => hab hba.symm

/-- A half-cell and the two of each bit hold no triple, as the two of a bit differ. -/
theorem noTriple_bits (a : Level) (bits : List Bool) : NoTriple (a :: bits.flatMap bitHalves) := by
  induction bits generalizing a with
  | nil => intro x hx; simpa using hx.length_le
  | cons b bits ih =>
    intro x hx
    obtain ⟨first, second, hb, hne⟩ : ∃ first second, bitHalves b = [first, second] ∧ first ≠ second := by
      cases b
      · exact ⟨_, _, rfl, nofun⟩
      · exact ⟨_, _, rfl, nofun⟩
    rw [List.flatMap_cons, hb, List.cons_append, List.cons_append, List.nil_append, List.infix_cons_iff, List.infix_cons_iff] at hx
    rcases hx with hx | hx | hx
    · simp only [List.cons_prefix_cons] at hx
      obtain ⟨-, hfirst, hsecond, -⟩ := hx
      exact hne (hfirst.symm.trans hsecond)
    · simp only [List.cons_prefix_cons] at hx
      obtain ⟨hfirst, hsecond, -⟩ := hx
      exact hne (hfirst.symm.trans hsecond)
    · exact ih second x hx

/-! ### The burst of a BIPHASE entry -/

theorem halfCells_of_mark {bits : List Bool} (h : (Level.mark :: bits.flatMap bitHalves).getLast? ≠ some .space) :
    halfCells bits = .mark :: bits.flatMap bitHalves := if_neg h

/-- A last bit 0 is sent without its inactive half-cell (R140). -/
theorem halfCells_append_false (bits : List Bool) : halfCells (bits ++ [false]) = .mark :: (bits.flatMap bitHalves ++ [.mark]) := by
  have hrow : (Level.mark :: (bits ++ [false]).flatMap bitHalves) = (.mark :: (bits.flatMap bitHalves ++ [.mark])) ++ [.space] := by
    simp [bitHalves]
  rw [halfCells, hrow, List.getLast?_concat, List.dropLast_concat]
  exact if_pos rfl

theorem halfCells_append_true (bits : List Bool) : halfCells (bits ++ [true]) = .mark :: (bits ++ [true]).flatMap bitHalves := by
  have hrow : (Level.mark :: (bits ++ [true]).flatMap bitHalves) = (.mark :: (bits.flatMap bitHalves ++ [.space])) ++ [.mark] := by
    simp [bitHalves]
  refine halfCells_of_mark ?_
  rw [hrow, List.getLast?_concat]
  exact nofun

theorem noTriple_halfCells (bits : List Bool) : NoTriple (halfCells bits) := by
  unfold halfCells
  dsimp only
  split
  · exact (noTriple_bits _ _).of_part (List.dropLast_prefix _).isInfix
  · exact noTriple_bits _ _

theorem Format.biphaseBurst_runs (f : Format) (bits : List Bool) : HalfRuns f.mark0.nominal (halfCells bits) (f.biphaseBurst bits) :=
  halfRuns_of_noTriple _ _ (noTriple_halfCells bits)

/-! ### The half-cells placed -/

section
variable {f : Format} {c : Candidate}

/-- A candidate places half-cells one after the other. -/
def placeHalves (f : Format) : Candidate → List Level → Option Candidate
  | c, [] => some c
  | c, a :: row => (c.placeHalf f a).bind fun c => placeHalves f c row

theorem placeHalves_of_cons {a : Level} {row : List Level} {c' : Candidate} (h : c.placeHalf f a = some c') :
    placeHalves f c (a :: row) = placeHalves f c' row := by
  rw [placeHalves, h, Option.bind_some]

theorem placeHalves_append (f : Format) (c : Candidate) (row row' : List Level) :
    placeHalves f c (row ++ row') = (placeHalves f c row).bind fun c => placeHalves f c row' := by
  induction row generalizing c with
  | nil => rfl
  | cons a row ih =>
    rw [List.cons_append, placeHalves, placeHalves, Option.bind_assoc]
    exact congrArg _ (funext ih)

theorem Candidate.placeHalf_phase {a : Level} {c' : Candidate} (h : c.placeHalf f a = some c') : c'.phase = c.phase := by
  unfold Candidate.placeHalf at h
  split at h
  · cases h
    rfl
  · split at h
    · cases h
    · split at h
      · unfold Candidate.addBit at h
        split at h
        · cases h
        · cases h
          rfl
      · cases h
        rfl

/-- What a BIPHASE entry must satisfy for its own burst to be read back: T and 2T are told apart (R33). -/
structure Format.ReadableCells (f : Format) : Prop where
  one : f.mark0.matches f.mark0.nominal = true
  two : f.mark1.matches (2 * f.mark0.nominal) = true
  apart : ¬ f.mark0.matches (2 * f.mark0.nominal) = true

theorem Format.readableCells_of_validate {idleA idleB : Byte} (hc : f.coding = .biphase) (h : f.validate idleA idleB = .ok) :
    f.ReadableCells := by
  obtain ⟨-, -, hwindows, -⟩ := (f.validate_eq_ok idleA idleB).mp h
  obtain ⟨-, -, -, hbiphase⟩ := (Format.windowsLegal_iff f).mp hwindows
  obtain ⟨-, hone, -, hlt, hlo, hhi⟩ := hbiphase hc
  refine ⟨nominal_matches_of_here hone, (Window.matches_iff _ _).mpr ⟨hlo, hhi⟩, fun hm => ?_⟩
  obtain ⟨-, hle⟩ := (Window.matches_iff _ _).mp hm
  unfold Window.nominal at hle
  omega

/-- The runs of a row of half-cells place the half-cells of the row. -/
theorem takeBurst_halfRuns (hf : f.ReadableCells) {row : List Level} {es : List Element} (h : HalfRuns f.mark0.nominal row es)
    (hp : c.phase = .cells) : takeBurst f c es = placeHalves f c row := by
  induction h generalizing c with
  | nil => rfl
  | single a row es _ ih =>
    have htake : c.take f a f.mark0.nominal = c.placeHalf f a := by rw [Candidate.take_cells hp, Candidate.takeCells, if_pos hf.one]
    rw [takeBurst, placeHalves, htake]
    exact Option.bind_congr fun c' hc' => ih ((Candidate.placeHalf_phase hc').trans hp)
  | double a row es _ ih =>
    have htake : c.take f a (2 * f.mark0.nominal) = (c.placeHalf f a).bind fun c => c.placeHalf f a := by
      rw [Candidate.take_cells hp, Candidate.takeCells, if_neg hf.apart, if_pos hf.two]
    rw [takeBurst, placeHalves, htake, Option.bind_assoc]
    refine Option.bind_congr fun c' hc' => ?_
    rw [placeHalves]
    exact Option.bind_congr fun c'' hc'' => ih ((Candidate.placeHalf_phase hc'').trans ((Candidate.placeHalf_phase hc').trans hp))

/-- An active open half is closed as bit 0 at the end (R53). -/
theorem Candidate.endCells_of_mark (h : c.openHalf = some .mark) (hs : c.startCellDone = true) (hroom : c.bits.length < f.maxBits) :
    c.endCells f = f.complete (c.bits ++ [false]) := by
  have hlast : c.placeHalf f .space = some { c with openHalf := none, bits := c.bits ++ [false] } := by
    rw [Candidate.placeHalf_bit (lvl := .space) h nofun hs]
    exact Candidate.addBit_of_room hroom
  simp only [Candidate.endCells, h, hlast, Option.bind_some]

/-- The two half-cells of a bit add the bit. -/
theorem placeHalves_bit (hopen : c.openHalf = none) (hs : c.startCellDone = true) (hroom : c.bits.length < f.maxBits) (b : Bool) :
    placeHalves f c (bitHalves b) = some { c with bits := c.bits ++ [b] } := by
  have hbit : ∀ first second : Level, first ≠ second → decide (first = .space) = b →
      placeHalves f c [first, second] = some { c with bits := c.bits ++ [b] } := fun first second hne hb => by
    rw [placeHalves_of_cons (Candidate.placeHalf_of_none hopen), placeHalves_of_cons]
    · rfl
    · rw [Candidate.placeHalf_bit rfl hne (by exact hs), hb, Candidate.addBit_of_room (by exact hroom)]
      simp [hopen]
  cases b
  · exact hbit _ _ nofun (by rfl)
  · exact hbit _ _ nofun (by rfl)

theorem placeHalves_bits (hopen : c.openHalf = none) (hs : c.startCellDone = true) (bits : List Bool)
    (hroom : c.bits.length + bits.length ≤ f.maxBits) :
    placeHalves f c (bits.flatMap bitHalves) = some { c with bits := c.bits ++ bits } := by
  induction bits generalizing c with
  | nil => simp [placeHalves]
  | cons b bits ih =>
    rw [List.length_cons] at hroom
    rw [List.flatMap_cons, placeHalves_append, placeHalves_bit hopen hs (by omega), Option.bind_some, ih (by exact hopen) (by exact hs)]
    · simp
    · simp only [List.length_append, List.length_singleton]
      omega

end

end Sys2Proof.Machine

open Sys2Proof Sys2Proof.Machine Sys2Proof.Safety

/-- Settles O19: the runs of the burst place the half-cells of its row, and a last bit 0 is closed at the end. -/
theorem biphaseEntryDecodesItsOwnBurst : Obligations.BiphaseEntryDecodesItsOwnBurst := by
  intro n f idleA idleB bits hc hvalid hrange
  have hf := Format.readableCells_of_validate hc hvalid
  obtain ⟨hmin, hmax⟩ : f.minBits ≤ bits.length ∧ bits.length ≤ f.maxBits := of_decide_eq_true hrange
  obtain ⟨-, hbits, -⟩ := (f.validate_eq_ok idleA idleB).mp hvalid
  obtain ⟨⟨hone, -, -⟩, -⟩ := (Format.bitCountsLegal_iff f).mp hbits
  have hphase : (newFrameCandidate n f).phase = .cells := if_pos hc
  let c : Candidate := { newFrameCandidate n f with openHalf := none, startCellDone := true }
  have hstart : (newFrameCandidate n f).placeHalf f .mark = some c := Candidate.placeHalf_start rfl nofun rfl
  have hplaced : ∀ bs : List Bool, bs.length ≤ f.maxBits → placeHalves f c (bs.flatMap bitHalves) = some { c with bits := bs } :=
    fun bs hbs => placeHalves_bits rfl rfl bs (by simpa [c, newFrameCandidate] using hbs)
  obtain ⟨init, b, rfl⟩ : ∃ init b, bits = init ++ [b] :=
    ⟨_, _, (List.dropLast_append_getLast (List.ne_nil_of_length_pos (by omega))).symm⟩
  have hroom : init.length < f.maxBits := by
    rw [List.length_append, List.length_singleton] at hmax
    omega
  rw [decodeFrame, takeBurst_halfRuns hf (f.biphaseBurst_runs _) hphase]
  cases b with
  | true =>
    rw [halfCells_append_true, placeHalves_of_cons hstart, hplaced _ hmax, Option.bind_some, Candidate.endTest_cells (by exact hphase)]
    exact Format.complete_of_range hrange
  | false =>
    rw [halfCells_append_false, placeHalves_of_cons hstart, placeHalves_append, hplaced init hroom.le, Option.bind_some,
      placeHalves_of_cons (Candidate.placeHalf_of_none rfl), placeHalves, Option.bind_some, Candidate.endTest_cells (by exact hphase), Candidate.endCells_of_mark rfl (by rfl) (by exact hroom)]
    exact Format.complete_of_range hrange

end

