-- ==== Sys2Proof/Proofs/BuiltBursts.lean ====
section
/-! PROOF. O43: what a burst is built of, and TXO. -/

namespace Sys2Proof.Machine

open Sys2Proof (Byte Time Payload Line)
open Sys2Proof.Safety

/-! ### The burst of a PAIR entry -/

theorem Format.pairBurst_parts (f : Format) (bits : List Bool) : ∃ head tail : List Element, f.pairBurst bits = head ++ tail ∧
    (gone f.headerMark → head = []) ∧ (¬ gone f.headerMark → head = markSpace f.headerMark.nominal f.headerSpace.nominal) ∧
    (gone f.trailerMark → tail = (bits.flatMap f.bitElements).dropLast) ∧
    (¬ gone f.trailerMark → tail = bits.flatMap f.bitElements ++ [⟨.mark, f.trailerMark.nominal⟩]) := by
  refine ⟨_, _, rfl, ?_, ?_, ?_, ?_⟩ <;> intro h <;> rw [← Window.absent_iff_gone] at h
  · exact if_pos h
  · exact if_neg h
  · exact if_pos h
  · exact if_neg h

/-! ### The burst of a BIPHASE entry -/

/-- Each run lasts one half-cell or two (R140). -/
theorem HalfRuns.us {k : Nat} {row : List Level} {es : List Element} (h : HalfRuns k row es) : ∀ e ∈ es, e.us = k ∨ e.us = 2 * k := by
  induction h with
  | nil => exact nofun
  | single a row es _ ih => exact List.forall_mem_cons.mpr ⟨.inl rfl, ih⟩
  | double a row es _ ih => exact List.forall_mem_cons.mpr ⟨.inr rfl, ih⟩

theorem HalfRuns.expand {k : Nat} (hk : 0 < k) {row : List Level} {es : List Element} (h : HalfRuns k row es) :
    (es.flatMap fun e => List.replicate (e.us / k) e.level) = row := by
  induction h with
  | nil => rfl
  | single a row es _ ih => simp [ih, Nat.div_self hk]
  | double a row es _ ih => simp [ih, Nat.mul_div_cancel 2 hk]

theorem halfCells_ends (bits : List Bool) : (halfCells bits).head? = some .mark ∧ (halfCells bits).getLast? = some .mark := by
  rcases bits.eq_nil_or_concat with rfl | ⟨init, b, rfl⟩
  · exact ⟨rfl, rfl⟩
  · rw [List.concat_eq_append]
    cases b with
    | false =>
      rw [halfCells_append_false, ← List.cons_append, List.getLast?_concat]
      exact ⟨rfl, rfl⟩
    | true =>
      rw [halfCells_append_true]
      simp [bitHalves, List.getLast?_cons]

/-- A BIPHASE burst begins with a mark and ends with one (R140). -/
theorem Format.biphaseBurst_ends (f : Format) (bits : List Bool) :
    (f.biphaseBurst bits).head?.map (·.level) = some .mark ∧ (f.biphaseBurst bits).getLast?.map (·.level) = some .mark := by
  obtain ⟨hhead, hlast⟩ := halfCells_ends bits
  rw [Format.biphaseBurst, joinRuns_head_level, joinRuns_last_level, List.head?_map, List.getLast?_map, hhead, hlast]
  exact ⟨rfl, rfl⟩

/-! ### The burst of a REPLAY job -/

/-- Leaving out the elements of duration 0 leaves out nothing µs by µs (R141). -/
theorem expand_filter_us (es : List Element) :
    ((es.filter fun e => decide (e.us ≠ 0)).flatMap fun e => List.replicate e.us e.level) =
      es.flatMap fun e => List.replicate e.us e.level := by
  induction es with
  | nil => rfl
  | cons e es ih =>
    by_cases h : e.us = 0
    · rw [List.filter_cons_of_neg (by simp [h]), ih, List.flatMap_cons, h]
      rfl
    · rw [List.filter_cons_of_pos (by simp [h]), List.flatMap_cons, List.flatMap_cons, ih]

theorem replayBurst_expand (m : List Host.Cell) (count : Nat) :
    ((replayBurst m count).flatMap fun e => List.replicate e.us e.level) =
      ((List.range count).map (captureElementAt m)).flatMap fun e => List.replicate e.us e.level := by
  have h := joinRuns_expand (k := 1) (es := ((List.range count).map (captureElementAt m)).filter fun e => decide (e.us ≠ 0))
    fun e _ => Nat.one_dvd e.us
  simp only [Nat.div_one] at h
  rw [replayBurst, h, expand_filter_us]

/-- The µs of a row of elements are its length. -/
theorem length_expand (es : List Element) : (es.flatMap fun e => List.replicate e.us e.level).length = burstLength es := by
  rw [List.length_flatMap, burstLength]
  simp

/-! ### TXO -/

/-- Inside the element `e` of a burst TXO follows the carrier counted from the start of `e` (R142). -/
theorem waveform_at (period onTime : Nat) (before after : List Element) (e : Element) (t : Nat)
    (hlo : 8 * burstLength before ≤ t) (hhi : t < 8 * (burstLength before + e.us)) :
    waveform period onTime (before ++ e :: after) t =
      decide (e.level = .mark ∧ (t - 8 * burstLength before) % period < onTime) := by
  induction before generalizing t with
  | nil =>
    have hin : t < Config.us e.us := by
      rw [show Config.us e.us = 8 * e.us from rfl]
      simpa [burstLength] using hhi
    rw [List.nil_append, waveform, if_pos hin]
    rfl
  | cons b before ih =>
    have hlen : burstLength (b :: before) = b.us + burstLength before := by simp [burstLength]
    rw [hlen] at hlo hhi ⊢
    have hus : Config.us b.us = 8 * b.us := rfl
    have hpast : ¬ t < Config.us b.us := by omega
    rw [List.cons_append, waveform, if_neg hpast, ih _ (by omega) (by omega), hus,
      show t - 8 * b.us - 8 * burstLength before = t - 8 * (b.us + burstLength before) by omega]

end Sys2Proof.Machine

open Sys2Proof Sys2Proof.Machine Sys2Proof.Safety

/-- Settles O43: the PAIR burst part by part, the runs of half-cells, the recording µs by µs, and the carrier within an element. -/
theorem burstIsBuiltFromEntry : Obligations.BurstIsBuiltFromEntry := by
  refine ⟨fun f j i s => ⟨fun h => if_pos h, fun h hb hk hi => ?code, fun h hb hk => ?pair, fun h hb => ?biphase⟩, fun _ => rfl,
    fun f bits => ?parts, fun f => ⟨fun h => if_pos h, fun h => if_neg h⟩, fun f bits => ⟨fun hT => ?expand, ?us, ?chain, ?head, ?last⟩,
    fun m count => ⟨joinRuns_alternates _, ?nonzero, replayBurst_expand m count, ?length⟩, fun s h => ?off, ?on⟩
  case code => exact (if_neg h).trans ((if_neg hb).trans (if_pos ⟨hk, hi⟩))
  case pair =>
    have hfirst : ¬ (f.repeatKind = .code ∧ 1 < i) := by
      rintro ⟨hcode, hlt⟩
      rcases hk with hk | hk
      · exact hk hcode
      · omega
    exact (if_neg h).trans ((if_neg hb).trans (if_neg hfirst))
  case biphase => exact (if_neg h).trans (if_pos hb)
  case parts => exact f.pairBurst_parts bits
  case expand => exact (f.biphaseBurst_runs bits).expand hT
  case us => exact (f.biphaseBurst_runs bits).us
  case chain => exact joinRuns_alternates _
  case head =>
    intro e he
    obtain ⟨hhead, -⟩ := f.biphaseBurst_ends bits
    rw [he] at hhead
    exact Option.some.inj hhead
  case last =>
    intro e he
    obtain ⟨-, hlast⟩ := f.biphaseBurst_ends bits
    rw [he] at hlast
    exact Option.some.inj hlast
  case nonzero => exact joinRuns_us_ne_zero fun e he => of_decide_eq_true (List.mem_filter.mp he).2
  case length =>
    rw [← length_expand, replayBurst_expand, length_expand, burstLength, List.map_map]
    rfl
  case off => simp [State.txo, h]
  case on =>
    intro s before after e hst hes hlo hhi
    rw [State.txo, hst, hes, waveform_at _ _ before after e _ (by omega) (by omega), Nat.sub_sub]
    simp

end

