-- ==== Sys2Proof/Proofs/Expiry.lean ====
section
/-! PROOF. O23: the expiry of a memory, as one equation, and the events that bring it. -/

namespace Sys2Proof.Machine

open Sys2Proof (Byte Time Payload Line)
open Sys2Proof.Safety

/-! ### Expiry -/

section
variable {s : State} {l : Line} {m : LastFrame}

/-- The requests that the expiry of a memory adds: its RELEASE record, if its flag is set (R83). -/
def State.releasePosts (s : State) (l : Line) (m : LastFrame) : List Post := (releaseOf s l m).map fun r => ⟨r, false, false⟩

theorem State.releasePosts_record (s : State) (l : Line) (m : LastFrame) :
    (s.releasePosts l m).map (·.record) = releaseOf s l m := by
  simp [State.releasePosts, Function.comp_def]

theorem State.releasePosts_counts (s : State) (l : Line) (m : LastFrame) : ∀ q ∈ s.releasePosts l m, q.counts = false := by
  intro q hq
  obtain ⟨r, -, rfl⟩ := List.mem_map.mp hq
  rfl

theorem State.postRelease_eq (s : State) (l : Line) (m : LastFrame) : s.postRelease l m =
    s.setLink l { s.link.get l with posts := (s.link.get l).posts ++ s.releasePosts l m } := by
  unfold State.postRelease State.releasePosts releaseOf
  split
  · rfl
  · rw [List.map_nil, List.append_nil]
    show s = { s with link := s.link.set l (s.link.get l) }
    rw [PerLine.set_get]

/-- Requests that are no increments are not counted when the reference is given up. -/
theorem countP_append_plain {ps qs : List Post} (h : ∀ q ∈ qs, q.counts = false) :
    (ps ++ qs).countP (·.counts) = ps.countP (·.counts) := by
  have hnone : qs.countP (·.counts) = 0 := List.countP_eq_zero.mpr fun q hq => by simp [h q hq]
  rw [List.countP_append, hnone, Nat.add_zero]

theorem stillPosted_append_plain (s : State) (l : Line) (ps : List Post) {qs : List Post} (h : ∀ q ∈ qs, q.counts = false) :
    stillPosted s l (ps ++ qs) = stillPosted s l ps ++ qs.map (·.record) := by
  have hall : (qs.filter fun q => !(q.counts && s.rq.hasReference l)) = qs := List.filter_eq_self.mpr fun q hq => by simp [h q hq]
  rw [stillPosted, List.filter_append, List.map_append, hall]
  rfl

/-- The expiry of a memory that holds a frame, in one equation (R83). -/
theorem State.expireMemory_of_some (hm : (s.rep.get l).memory = some m) : s.expireMemory l = { s with
    rep := s.rep.set l (s.rep.get l).cleared
    link := s.link.set l (({ s.link.get l with posts := (s.link.get l).posts ++ s.releasePosts l m } : Links).forget
      (s.rq.hasReference l))
    rq := { s.rq with records := s.rq.records.map (·.release l ((s.link.get l).posts.countP (·.counts))) } } := by
  simp only [State.expireMemory, hm, State.postRelease_eq, State.clearMemory_eq, State.setLink, PerLine.get_set_same,
    PerLine.set_set, countP_append_plain (s.releasePosts_counts l m)]

theorem State.expireMemory_of_none (hm : (s.rep.get l).memory = none) : s.expireMemory l = s := by
  simp only [State.expireMemory, hm]

/-- The requests that an expiry leaves on their way. -/
theorem State.expireMemory_posts (hm : (s.rep.get l).memory = some m) :
    ((s.expireMemory l).link.get l).posts.map (·.record) = stillPosted s l (s.link.get l).posts ++ releaseOf s l m := by
  rw [State.expireMemory_of_some hm]
  simp only [PerLine.get_set_same, Links.forget_posts_record]
  exact (stillPosted_append_plain s l _ (s.releasePosts_counts l m)).trans (by rw [State.releasePosts_record])

theorem State.expireMemory_rep_get (hm : (s.rep.get l).memory = some m) :
    (s.expireMemory l).rep.get l = (s.rep.get l).cleared := by
  rw [State.expireMemory_of_some hm, PerLine.get_set_same]

theorem State.expireMemory_posts_plain (hm : (s.rep.get l).memory = some m) :
    ∀ q ∈ ((s.expireMemory l).link.get l).posts, q.counts = false ∧ q.refers = false := by
  rw [State.expireMemory_of_some hm, PerLine.get_set_same]
  exact Links.forget_posts_plain

theorem Record.release_not_refers (r : Record) (l : Line) (k : Nat) : (r.release l k).refersFor l = false := by simp

theorem State.expireMemory_not_refers (hm : (s.rep.get l).memory = some m) :
    ∀ r ∈ (s.expireMemory l).rq.records, r.refersFor l = false := by
  rw [State.expireMemory_of_some hm]
  intro r hr
  obtain ⟨r', -, rfl⟩ := List.mem_map.mp hr
  exact r'.release_not_refers l _

theorem map_release_identity (rs : List Record) (l : Line) (k : Nat) :
    (rs.map (·.release l k)).map identity = rs.map identity := by
  rw [List.map_map]
  exact List.map_congr_left fun r _ => identity_release r l k

end

end Sys2Proof.Machine

open Sys2Proof Sys2Proof.Machine Sys2Proof.Safety

/-- Settles O23: `State.expireMemory` in one equation; the request to expire differs in the link it leaves. -/
theorem memoryExpiresWithRelease : Obligations.MemoryExpiresWithRelease := by
  refine ⟨fun l m s hm => ?held, fun l k ks s hm hk => ?empty, fun l s => ⟨fun hm => ?nothing, fun hk => ?notAsked⟩⟩
  case held =>
    intro counted expired
    have expire : ∀ k : Links, k.posts = (s.link.get l).posts → expired (((s.setLink l k).expireMemory l).closeBurst l) := by
      intro k hk
      have hmk : ((s.setLink l k).rep.get l).memory = some m := hm
      have hposts : ((s.setLink l k).link.get l).posts = (s.link.get l).posts := by rw [State.setLink_link, PerLine.get_set_same, hk]
      have hrep : ((((s.setLink l k).expireMemory l).closeBurst l).rep.get l) = { (s.rep.get l).cleared with opened := false } := by
        rw [State.closeBurst, State.setRep_rep, PerLine.get_set_same, State.expireMemory_rep_get hmk]
        rfl
      have hrq : (((s.setLink l k).expireMemory l).closeBurst l).rq =
          { s.rq with records := s.rq.records.map (·.release l counted) } := by
        rw [State.closeBurst, State.setRep_rq, State.expireMemory_of_some hmk, hposts]
        rfl
      refine ⟨?_, ?_, ?_, ?_, ?_, hrq, ?_, fun x hx => ⟨?_, ?_⟩, ?_⟩
      · rw [hrep]
        rfl
      · rw [hrep]
        rfl
      · rw [hrep]
        rfl
      · exact State.expireMemory_not_refers hmk
      · rw [hrq]
        exact map_release_identity _ _ _
      · have := State.expireMemory_posts hmk
        rw [hposts] at this
        exact this
      · rw [State.closeBurst, State.setRep_rep, PerLine.get_set_ne _ _ hx, State.expireMemory_rep_ne _ hx]
        rfl
      · rw [State.closeBurst, State.setRep_link, State.expireMemory_of_some hmk]
        simp [PerLine.get_set_ne _ _ hx]
      · simp [State.setLink]
    refine ⟨fun hr ho => ?_, fun hr ho => ?_, fun hr => ?_, fun k ks hk =>
      ⟨_, ?_, expire { s.link.get l with expireRequests := ks, oldBursts := max (s.link.get l).oldBursts k } rfl, ?_, ?_⟩⟩
    · have hnow : ((s.setLink l (s.link.get l)).expireMemory l).closeBurst l = s.expireMemory l := by
        rw [State.setLink, PerLine.set_get, State.closeBurst, State.expireMemory_of_some hm]
        simp [State.setRep, RepeatUnit.cleared, ho]
      refine ⟨s.expireMemory l, ?_, hnow ▸ expire _ rfl, ?_⟩
      · show execLfmDue l s = _
        simp [execLfmDue, hr, ho, hm]
      · rw [State.expireMemory_rep_get hm]
        exact ho
    · show execLfmDue l s = _
      simp [execLfmDue, hr, ho, hm, State.setRep]
    · show execLfmDue l s = _
      simp [execLfmDue, hr]
    · show execExpireRequest l s = _
      simp only [execExpireRequest, hk]
    · simp [State.closeBurst]
    · rw [State.closeBurst, State.setRep_link, State.expireMemory_of_some (by exact hm)]
      simp [Links.forget]
  case empty =>
    show execExpireRequest l s = _
    simp [execExpireRequest, hk, State.expireMemory_of_none, hm, State.closeBurst, State.setRep, State.setLink]
  case nothing =>
    show execLfmDue l s = _
    simp [execLfmDue, hm]
  case notAsked =>
    show execExpireRequest l s = _
    simp [execExpireRequest, hk]

end

