-- ==== Sys2Proof/Proofs/Outcomes.lean ====
section
/-! SUPPORT for O20 to O22. What the taking of an outcome does whatever the outcome: the repeat unit acts on its own line alone, the
decoder's leave clears the memories that a completed retirement names. -/

namespace Sys2Proof.Machine

open Sys2Proof (Byte Time Payload Line)
open Sys2Proof.Safety

/-! ### What bears on one line's repeat unit alone -/

/-- The two states differ in the repeat unit of `l`, in its link, and in its reference in the queue alone. -/
structure RepeatOf (s : State) (l : Line) (t : State) : Prop where
  state : t = { s with rep := t.rep, link := t.link, rq := t.rq }
  rep : ∀ x, x ≠ l → t.rep.get x = s.rep.get x
  link : ∀ x, x ≠ l → t.link.get x = s.link.get x
  reference : ∀ x, x ≠ l → t.rq.hasReference x = s.rq.hasReference x
  records : t.rq.records.map identity = s.rq.records.map identity
  held : t.rq.held = s.rq.held
  watermark : t.rq.watermark = s.rq.watermark

section
variable {s t u : State} {l : Line}

theorem RepeatOf.trans (h : RepeatOf s l t) (h' : RepeatOf t l u) : RepeatOf s l u where
  state := by rw [h'.state, h.state]
  rep x hx := (h'.rep x hx).trans (h.rep x hx)
  link x hx := (h'.link x hx).trans (h.link x hx)
  reference x hx := (h'.reference x hx).trans (h.reference x hx)
  records := h'.records.trans h.records
  held := h'.held.trans h.held
  watermark := h'.watermark.trans h.watermark

theorem RepeatOf.refl (s : State) (l : Line) : RepeatOf s l s := ⟨rfl, fun _ _ => rfl, fun _ _ => rfl, fun _ _ => rfl, rfl, rfl, rfl⟩

theorem RepeatOf.setRep (s : State) (l : Line) (r : RepeatUnit) : RepeatOf s l (s.setRep l r) :=
  ⟨rfl, fun _ hx => PerLine.get_set_ne _ _ hx, fun _ _ => rfl, fun _ _ => rfl, rfl, rfl, rfl⟩

theorem RepeatOf.setLink (s : State) (l : Line) (k : Links) : RepeatOf s l (s.setLink l k) :=
  ⟨rfl, fun _ _ => rfl, fun _ hx => PerLine.get_set_ne _ _ hx, fun _ _ => rfl, rfl, rfl, rfl⟩

theorem RepeatOf.sendPost (s : State) (l : Line) (p : Post) : RepeatOf s l (s.sendPost l p) := .setLink s l _

theorem hasReference_release (q : ReceiveQueue) {l x : Line} (hx : x ≠ l) (k : Nat) :
    ({ q with records := q.records.map (·.release l k) } : ReceiveQueue).hasReference x = q.hasReference x := by
  simp [ReceiveQueue.hasReference, hx, Function.comp_def]

theorem RepeatOf.clearMemory (s : State) (l : Line) : RepeatOf s l (s.clearMemory l) := by
  rw [State.clearMemory_eq]
  exact ⟨rfl, fun _ hx => PerLine.get_set_ne _ _ hx, fun _ hx => PerLine.get_set_ne _ _ hx, fun _ hx => hasReference_release _ hx _,
    map_release_identity _ _ _, rfl, rfl⟩

/-- The reference is given up as at the clearing of the memory, which it leaves. -/
theorem State.dropReference_eq (s : State) (l : Line) : s.dropReference l = (s.clearMemory l).setRep l (s.rep.get l) := by
  have hrep : (s.dropReference l).rep = s.rep := by simp
  rw [State.clearMemory]
  simp only [State.setRep, PerLine.set_set, hrep, PerLine.set_get]
  rw [← hrep]

theorem RepeatOf.dropReference (s : State) (l : Line) : RepeatOf s l (s.dropReference l) := by
  rw [State.dropReference_eq]
  exact (RepeatOf.clearMemory s l).trans (.setRep _ l _)

theorem RepeatOf.postRelease (s : State) (l : Line) (m : LastFrame) : RepeatOf s l (s.postRelease l m) := by
  rw [State.postRelease_eq]
  exact .setLink s l _

theorem RepeatOf.expireMemory (s : State) (l : Line) : RepeatOf s l (s.expireMemory l) := by
  unfold State.expireMemory
  split
  · exact .refl s l
  · exact (RepeatOf.postRelease s l _).trans (.clearMemory _ l)

theorem RepeatOf.newFrame (s : State) (l : Line) (n : Fin 8) (bits : Nat) (p : Payload) (start stop : Time) :
    RepeatOf s l (s.newFrame l n bits p start stop) := by
  have hold : RepeatOf s l (s.releaseOld l) := by
    unfold State.releaseOld
    split
    · exact .refl s l
    · exact .postRelease s l _
  exact hold.trans ((RepeatOf.dropReference _ l).trans ((RepeatOf.sendPost _ l _).trans (.setRep _ l _)))

theorem RepeatOf.takeOther (s : State) (l : Line) (o : BurstOutcome) : RepeatOf s l (s.takeOther l o) := by
  cases o with
  | frame n bits p failed start stop =>
    cases failed with
    | false => exact .newFrame s l n bits p start stop
    | true => exact .sendPost s l _
  | _ => exact .refl s l

theorem RepeatOf.takeOutcome (s : State) (l : Line) (o : BurstOutcome) : RepeatOf s l (s.takeOutcome l o) := by
  unfold State.takeOutcome
  split
  · exact (RepeatOf.setRep s l _).trans (.sendPost _ l _)
  · split
    · exact (RepeatOf.expireMemory s l).trans (.takeOther _ l o)
    · exact .takeOther s l o

theorem RepeatOf.frame (h : RepeatOf s l t) : t.dec = s.dec ∧ t.entries = s.entries ∧ t.irq = s.irq ∧ t.mem = s.mem ∧
    t.pending = s.pending ∧ t.fe = s.fe ∧ t.cap = s.cap ∧ t.tx = s.tx ∧ t.pow = s.pow ∧ t.win = s.win ∧ t.clock = s.clock := by
  rw [h.state]
  simp

theorem RepeatOf.retiresAtEnd (h : RepeatOf s l t) (n : Fin 8) : retiresAtEnd t l n ↔ retiresAtEnd s l n := by
  obtain ⟨hdec, hentries, -⟩ := h.frame
  rw [Safety.retiresAtEnd, candidateEntries, hdec, hentries]
  rfl

theorem not_hasReference_iff {q : ReceiveQueue} : q.hasReference l = false ↔ ∀ r ∈ q.records, r.refersFor l = false :=
  ReceiveQueue.hasReference_eq_false q l

end

/-! ### The decoder's leave at the end of a burst -/

section
variable {s : State} {l x : Line}

/-- Whether the end of the burst of `l` clears the memory of `x`: it completes the retirement of the entry the memory names. -/
def State.clearedAtEnd (s : State) (l x : Line) : Bool := s.clearedBy (.decoder l) (candidateEntries s l).dedup x

theorem State.clearedAtEnd_of_some {m : LastFrame} (hm : (s.rep.get x).memory = some m) :
    s.clearedAtEnd l x = true ↔ retiresAtEnd s l m.entry := by
  rw [State.clearedAtEnd, State.clearedBy_of_some hm, List.mem_dedup, EntryControl.retires_iff]

theorem State.clearedAtEnd_of_none (hm : (s.rep.get x).memory = none) : s.clearedAtEnd l x = false := by
  rw [State.clearedAtEnd, State.clearedBy, hm]
  rfl

theorem State.clearedAtEnd_eq_false (h : ∀ m, (s.rep.get x).memory = some m → ¬ retiresAtEnd s l m.entry) :
    s.clearedAtEnd l x = false := by
  cases hm : (s.rep.get x).memory with
  | none => exact State.clearedAtEnd_of_none hm
  | some m => exact Bool.eq_false_iff.mpr fun hc => h m hm ((State.clearedAtEnd_of_some hm).mp hc)

theorem State.finishBurst_eq (s : State) (l : Line) : s.finishBurst l = { s.clearOf (s.clearedAtEnd l) with
    dec := s.dec.set l ⟨.wait, (s.dec.get l).start, []⟩
    entries := leftEntries (.decoder l) (candidateEntries s l).dedup s.entries
    irq := { s.irq with retired := s.irq.retired ||
      (candidateEntries s l).dedup.any fun n => s.entries[n].retires (.decoder l) } } := by
  rw [State.finishBurst, State.leaveHolders_eq _ _ (List.nodup_dedup _)]
  have hclear : ∀ p : Line → Bool, (s.setDec l { s.dec.get l with st := .wait, candidates := [] }).clearOf p =
      { s.clearOf p with dec := s.dec.set l ⟨.wait, (s.dec.get l).start, []⟩ } := fun p => by
    unfold State.clearOf State.setDec
    cases p .A <;> cases p .B <;> simp [State.clearMemory_eq]
  rw [hclear]
  rfl

theorem State.finishBurst_rep_get (s : State) (l x : Line) :
    (s.finishBurst l).rep.get x = if s.clearedAtEnd l x then (s.rep.get x).cleared else s.rep.get x := by
  rw [State.finishBurst_eq]
  exact s.clearOf_rep_get _ x

theorem State.finishBurst_link_get (s : State) (l x : Line) : (s.finishBurst l).link.get x =
    if s.clearedAtEnd l x then (s.link.get x).forget (s.rq.hasReference x) else s.link.get x := by
  rw [State.finishBurst_eq]
  exact s.clearOf_link_get _ x

theorem State.finishBurst_rq (s : State) (l : Line) : (s.finishBurst l).rq = (s.clearOf (s.clearedAtEnd l)).rq := by
  rw [State.finishBurst_eq]

/-- No memory is left that names an entry whose retirement is completed. -/
theorem State.finishBurst_memory {m : LastFrame} (hm : ((s.finishBurst l).rep.get x).memory = some m) :
    (s.rep.get x).memory = some m ∧ ¬ retiresAtEnd s l m.entry := by
  rw [State.finishBurst_rep_get] at hm
  split at hm
  · cases hm
  · next hc => exact ⟨hm, fun hr => hc ((State.clearedAtEnd_of_some hm).mpr hr)⟩

theorem retiresAtEnd_iff (s : State) (l : Line) (n : Fin 8) :
    retiresAtEnd s l n ↔ n ∈ (candidateEntries s l).dedup ∧ s.entries[n].retires (.decoder l) = true := by
  rw [List.mem_dedup, EntryControl.retires_iff]

theorem State.finishBurst_not_refers (h : ∀ r ∈ s.rq.records, r.refersFor x = false) :
    ∀ r ∈ (s.finishBurst l).rq.records, r.refersFor x = false := by
  rw [State.finishBurst_rq, State.clearOf_rq]
  intro r hr
  obtain ⟨r', hr', rfl⟩ := List.mem_map.mp hr
  split
  · rw [Record.release_refersFor, h r' hr', Bool.false_and]
  · exact h r' hr'

/-- Without a memory whose entry retires, the end of a burst leaves the queue as it is. -/
theorem State.finishBurst_rq_of_kept (h : ∀ x m, (s.rep.get x).memory = some m → ¬ retiresAtEnd s l m.entry) :
    (s.finishBurst l).rq = s.rq := by
  have hnone : s.clearedAtEnd l = fun _ => false := funext fun x => State.clearedAtEnd_eq_false (h x)
  rw [State.finishBurst_rq, hnone, State.clearOf_none]

/-- The repeat unit has done with the burst, and the decoder gives up its holds. -/
theorem burstSettled_finishBurst {u : State} (h : RepeatOf s l u) (hout : (u.link.get l).outcome = none)
    (hopen : (u.rep.get l).opened = false) : BurstSettled s l (u.finishBurst l) := by
  obtain ⟨hdec, hentries, hirq, hmem, hpending, hfe, hcap, htx, hpow, hwin, hclock⟩ := h.frame
  have hcandidates : candidateEntries u l = candidateEntries s l := by rw [candidateEntries, candidateEntries, hdec]
  refine ⟨?dec, ?outcome, ?opened, fun n => ?entries, ?irq, ?retired, fun x m hm => ?memory, fun x hx => ?other, ?records, ?held,
    ?watermark, ?rest⟩
  case dec => rw [State.finishBurst_eq, ← hdec]
  case outcome =>
    rw [State.finishBurst_link_get]
    split
    · exact hout
    · exact hout
  case opened =>
    rw [State.finishBurst_rep_get]
    split
    · exact hopen
    · exact hopen
  case entries =>
    have hleft := leftEntries_cases (h := .decoder l) (List.nodup_dedup (candidateEntries s l)) s.entries n
    rw [State.finishBurst_eq, hcandidates, hentries]
    obtain ⟨hretired, hkept, hout⟩ := hleft
    refine ⟨fun hr => ?_, fun hn hr => hkept (List.mem_dedup.mpr hn) (Bool.eq_false_iff.mpr fun hr' => ?_), fun hn =>
      hout fun hn' => hn (List.mem_dedup.mp hn')⟩
    · obtain ⟨hn, hr⟩ := (retiresAtEnd_iff s l n).mp hr
      exact hretired hn hr
    · exact hr ((retiresAtEnd_iff s l n).mpr ⟨List.mem_dedup.mpr hn, hr'⟩)
  case irq => rw [State.finishBurst_eq, hirq]
  case retired =>
    rw [State.finishBurst_eq, hcandidates, hentries, hirq]
    simp only [Bool.or_eq_true, List.any_eq_true, retiresAtEnd_iff]
  case memory =>
    obtain ⟨-, hr⟩ := State.finishBurst_memory hm
    exact fun hr' => hr ((h.retiresAtEnd m.entry).mpr hr')
  case other =>
    rw [← h.rep x hx, ← h.link x hx]
    refine ⟨fun hkept => ?_, fun m hm hr => ?_⟩
    · have hc : u.clearedAtEnd l x = false := State.clearedAtEnd_eq_false fun m hm hr => hkept m hm ((h.retiresAtEnd _).mp hr)
      rw [State.finishBurst_rep_get, State.finishBurst_link_get, hc]
      exact ⟨rfl, rfl⟩
    · have hc : u.clearedAtEnd l x = true := (State.clearedAtEnd_of_some hm).mpr ((h.retiresAtEnd _).mpr hr)
      rw [State.finishBurst_rep_get, State.finishBurst_link_get, State.finishBurst_rq, hc, if_pos rfl, if_pos rfl,
        Links.forget_posts_record, h.reference x hx]
      exact ⟨rfl, rfl, State.clearOf_not_refers hc⟩
  case records => rw [State.finishBurst_rq, State.clearOf_identity, h.records]
  case held => rw [State.finishBurst_rq, (u.clearOf_rq_rest _).1, h.held]
  case watermark => rw [State.finishBurst_rq, (u.clearOf_rq_rest _).2, h.watermark]
  case rest => simp [hmem, hpending, hfe, hcap, htx, hpow, hwin, hclock]

/-- The memory of a line that is to stay empty expires after the burst. -/
theorem burstSettled_expireMemory {t : State} (h : BurstSettled s l t) : BurstSettled s l (t.expireMemory l) := by
  have hexpire := RepeatOf.expireMemory t l
  obtain ⟨hdec', hentries', hirq', hmem', hpending', hfe', hcap', htx', hpow', hwin', hclock'⟩ := hexpire.frame
  obtain ⟨hdec, hout, hopen, hentries, hirq, hretired, hmemory, hother, hrecords, hheld, hwatermark, hrest⟩ := h
  refine ⟨hdec'.trans hdec, ?outcome, ?opened, ?entries, by rw [hirq', ← hirq], by rw [hirq']; exact hretired, fun x m hm => ?memory,
    fun x hx => ?other, hexpire.records.trans hrecords, hexpire.held.trans hheld, hexpire.watermark.trans hwatermark, ?rest⟩
  case outcome =>
    rw [Links.outcome_of_rest_eq (State.expireMemory_rest t l l)]
    exact hout
  case opened =>
    cases hm : (t.rep.get l).memory with
    | none => rwa [State.expireMemory_of_none hm]
    | some m => rwa [State.expireMemory_rep_get hm]
  case entries => rwa [hentries']
  case memory =>
    rw [State.expireMemory_memory_get] at hm
    split at hm
    · cases hm
    · exact hmemory x m hm
  case other =>
    rw [hexpire.rep x hx, hexpire.link x hx, ← not_hasReference_iff, hexpire.reference x hx, not_hasReference_iff]
    exact hother x hx
  case rest => rwa [hmem', hpending', hfe', hcap', htx', hpow', hwin', hclock']

end

/-! ### The taking of an outcome -/

section
variable {s : State} {l : Line} {o : BurstOutcome}

/-- The repeat unit of `l` has taken an outcome; the decoder has not yet left its entries. -/
def State.afterOutcome (s : State) (l : Line) (o : BurstOutcome) : State :=
  ((s.setLink l (s.link.get l).dropOutcome).takeOutcome l o).closeBurst l

theorem State.takeHandedOutcome_of_some (ho : (s.link.get l).outcome = some o) : s.takeHandedOutcome l =
    if s.staysEmpty l then ((s.afterOutcome l o).finishBurst l).expireMemory l else (s.afterOutcome l o).finishBurst l := by
  simp only [State.takeHandedOutcome, ho]
  rfl

theorem RepeatOf.afterOutcome (s : State) (l : Line) (o : BurstOutcome) : RepeatOf s l (s.afterOutcome l o) :=
  (RepeatOf.setLink s l _).trans ((RepeatOf.takeOutcome _ l o).trans (.setRep _ l _))

theorem State.afterOutcome_finishBurst_settled (s : State) (l : Line) (o : BurstOutcome) :
    BurstSettled s l ((s.afterOutcome l o).finishBurst l) := by
  refine burstSettled_finishBurst (.afterOutcome s l o) ?_ ?_
  · have hrest : ((s.afterOutcome l o).link.get l).rest = (s.link.get l).dropOutcome.rest := by
      show (((s.setLink l (s.link.get l).dropOutcome).takeOutcome l o).link.get l).rest = _
      rw [State.takeOutcome_rest, State.setLink_link, PerLine.get_set_same]
    rw [Links.outcome_of_rest_eq hrest]
    rfl
  · rw [State.afterOutcome, State.closeBurst, State.setRep_rep, PerLine.get_set_same]

theorem State.takeHandedOutcome_settled (ho : (s.link.get l).outcome = some o) : BurstSettled s l (s.takeHandedOutcome l) := by
  rw [State.takeHandedOutcome_of_some ho]
  split
  · exact burstSettled_expireMemory (s.afterOutcome_finishBurst_settled l o)
  · exact s.afterOutcome_finishBurst_settled l o

theorem State.staysEmpty_iff (s : State) (l : Line) :
    s.staysEmpty l = true ↔ s.pow.st = .dormant ∨ staysEmptyAfterDisable s l := by
  simp [State.staysEmpty]

/-- Unless the memory is to stay empty and the outcome has filled it, the burst's end is the last of the outcome. -/
theorem State.takeHandedOutcome_of_plain (ho : (s.link.get l).outcome = some o) (hd : s.pow.st ≠ .dormant)
    (hempty : staysEmptyAfterDisable s l → ((s.afterOutcome l o).rep.get l).memory = none) :
    s.takeHandedOutcome l = (s.afterOutcome l o).finishBurst l := by
  rw [State.takeHandedOutcome_of_some ho]
  split
  · next h =>
    have hnone := hempty (((s.staysEmpty_iff l).mp h).resolve_left hd)
    refine State.expireMemory_of_none ?_
    rw [State.finishBurst_rep_get]
    split
    · rfl
    · exact hnone
  · rfl

end

end Sys2Proof.Machine

end

