-- ==== Sys2Proof/Proofs/OtherOutcomes.lean ====
section
/-! PROOF. O22: an outcome that repeats nothing and brings no new frame. -/

namespace Sys2Proof.Machine

open Sys2Proof (Byte Time Payload Line)
open Sys2Proof.Safety

section
variable {s : State} {l : Line} {o : BurstOutcome}

/-- The posts of an outcome that repeats nothing and brings no new frame: a CHECK frame's record (R73). -/
def checkPosts (l : Line) : BurstOutcome → List Post
  | .frame n bits p _ start _ => [⟨frameRecord l n bits p true start, false, false⟩]
  | _ => []

theorem checkPosts_plain (l : Line) (o : BurstOutcome) : ∀ q ∈ checkPosts l o, q.counts = false := by
  intro q hq
  cases o <;> simp_all [checkPosts]

/-- Whether an outcome leaves the memory of `l` as it is: it repeats no memory and is no good frame. -/
structure LeavesMemory (s : State) (l : Line) (o : BurstOutcome) : Prop where
  repeats : s.repeatedMemory l o = none
  takes : ∀ u : State, u.takeOther l o = u.setLink l { u.link.get l with posts := (u.link.get l).posts ++ checkPosts l o }

theorem State.repeatedMemory_eq_none (h : ∀ m, (s.rep.get l).memory = some m → s.isRepeatOf m o = false) :
    s.repeatedMemory l o = none := by
  rw [State.repeatedMemory, Option.filter_eq_none_iff]
  intro m hm
  simp [h m hm]

theorem leavesMemory_of_cases
    (h : (∃ n bits p start stop, o = .frame n bits p true start stop) ∨ (∃ start stop, o = .orphan start stop) ∨
      (∃ start stop, o = .unmatched start stop) ∨ (∃ start, o = .aborted start) ∨
      ∃ n start stop, o = .repeated n start stop ∧ ∀ m, (s.rep.get l).memory = some m → m.entry ≠ n) : LeavesMemory s l o := by
  have nothing : ∀ u : State, u = u.setLink l { u.link.get l with posts := (u.link.get l).posts ++ [] } := fun u => by
    rw [List.append_nil]
    show u = { u with link := u.link.set l (u.link.get l) }
    rw [PerLine.set_get]
  rcases h with ⟨n, bits, p, start, stop, rfl⟩ | ⟨start, stop, rfl⟩ | ⟨start, stop, rfl⟩ | ⟨start, rfl⟩ | ⟨n, start, stop, rfl, hm⟩
  · exact ⟨State.repeatedMemory_eq_none fun _ _ => rfl, fun _ => rfl⟩
  · exact ⟨State.repeatedMemory_eq_none fun _ _ => rfl, nothing⟩
  · exact ⟨State.repeatedMemory_eq_none fun _ _ => rfl, nothing⟩
  · exact ⟨State.repeatedMemory_eq_none fun _ _ => rfl, nothing⟩
  · exact ⟨State.repeatedMemory_eq_none fun m h => decide_eq_false (hm m h), nothing⟩

/-- With DUE clear the memory is kept. -/
theorem State.afterOutcome_of_not_due (ho : LeavesMemory s l o) (hdue : (s.rep.get l).due = false) :
    s.afterOutcome l o = { s with
      rep := s.rep.set l { s.rep.get l with opened := false }
      link := s.link.set l { (s.link.get l).dropOutcome with posts := (s.link.get l).posts ++ checkPosts l o } } := by
  have hrepeats : (s.setLink l (s.link.get l).dropOutcome).repeatedMemory l o = none := ho.repeats
  have hdue' : ((s.setLink l (s.link.get l).dropOutcome).rep.get l).due = false := hdue
  rw [State.afterOutcome, State.takeOutcome, hrepeats, hdue']
  simp only [Bool.false_eq_true, if_false, ho.takes, State.setLink, State.closeBurst, State.setRep, PerLine.get_set_same, PerLine.set_set]
  rfl

/-- With DUE set the memory expires first. -/
theorem State.afterOutcome_of_due (ho : LeavesMemory s l o) (hdue : (s.rep.get l).due = true) :
    s.afterOutcome l o = (((s.setLink l (s.link.get l).dropOutcome).expireMemory l).takeOther l o).closeBurst l := by
  have hrepeats : (s.setLink l (s.link.get l).dropOutcome).repeatedMemory l o = none := ho.repeats
  have hdue' : ((s.setLink l (s.link.get l).dropOutcome).rep.get l).due = true := hdue
  rw [State.afterOutcome, State.takeOutcome, hrepeats, hdue']
  rfl

theorem State.afterOutcome_memory_of_none (ho : LeavesMemory s l o) (hm : (s.rep.get l).memory = none) :
    ((s.afterOutcome l o).rep.get l).memory = none := by
  cases hdue : (s.rep.get l).due with
  | false => rw [State.afterOutcome_of_not_due ho hdue, PerLine.get_set_same, hm]
  | true =>
    rw [State.afterOutcome_of_due ho hdue, State.expireMemory_of_none (by exact hm), ho.takes, State.closeBurst, State.setRep_rep,
      PerLine.get_set_same]
    exact hm

/-- With DUE clear, what the burst leaves of the memory and the requests. -/
theorem State.finishBurst_of_not_due (ho : LeavesMemory s l o) (hdue : (s.rep.get l).due = false) :
    let t := (s.afterOutcome l o).finishBurst l
    (t.rep.get l).due = false ∧
    ((∀ m, (s.rep.get l).memory = some m → ¬ retiresAtEnd s l m.entry) → (t.rep.get l).memory = (s.rep.get l).memory ∧
      (t.link.get l).posts = (s.link.get l).posts ++ checkPosts l o) ∧
    (∀ m, (s.rep.get l).memory = some m → retiresAtEnd s l m.entry → (t.rep.get l).memory = none ∧
      (∀ r ∈ t.rq.records, r.refersFor l = false) ∧
      (t.link.get l).posts.map (·.record) = stillPosted s l (s.link.get l).posts ++ (checkPosts l o).map (·.record)) ∧
    ((∀ x m, (s.rep.get x).memory = some m → ¬ retiresAtEnd s l m.entry) → t.rq = s.rq) := by
  have hrepeat := RepeatOf.afterOutcome s l o
  have hu := State.afterOutcome_of_not_due ho hdue
  generalize s.afterOutcome l o = u at hrepeat hu
  have hrep : u.rep.get l = { s.rep.get l with opened := false } := by rw [hu, PerLine.get_set_same]
  have hposts : (u.link.get l).posts = (s.link.get l).posts ++ checkPosts l o := by rw [hu, PerLine.get_set_same]
  have hrq : u.rq = s.rq := by rw [hu]
  have hmem : (u.rep.get l).memory = (s.rep.get l).memory := by rw [hrep]
  refine ⟨?_, fun hkept => ?_, fun m hm hr => ?_, fun hkept => ?_⟩
  · rw [State.finishBurst_rep_get, hrep]
    split
    · rfl
    · exact hdue
  · have hc : u.clearedAtEnd l l = false := State.clearedAtEnd_eq_false fun m hm hr => hkept m (hmem ▸ hm) ((hrepeat.retiresAtEnd _).mp hr)
    rw [State.finishBurst_rep_get, State.finishBurst_link_get, hc]
    exact ⟨hmem, hposts⟩
  · have hc : u.clearedAtEnd l l = true := (State.clearedAtEnd_of_some (hmem.trans hm)).mpr ((hrepeat.retiresAtEnd _).mpr hr)
    rw [State.finishBurst_rep_get, State.finishBurst_link_get, State.finishBurst_rq, hc, if_pos rfl, if_pos rfl,
      Links.forget_posts_record, hposts, hrq]
    exact ⟨rfl, State.clearOf_not_refers hc, stillPosted_append_plain s l _ (checkPosts_plain l o)⟩
  · rw [State.finishBurst_rq_of_kept fun x m hm hr => ?_, hrq]
    have hm' : (s.rep.get x).memory = some m := by
      by_cases hx : x = l
      · rw [hx] at hm ⊢
        rwa [hmem] at hm
      · rwa [hrepeat.rep x hx] at hm
    exact hkept x m hm' ((hrepeat.retiresAtEnd _).mp hr)

/-- With DUE set, what the burst leaves of the memory and the requests. -/
theorem State.finishBurst_of_due (ho : LeavesMemory s l o) (hdue : (s.rep.get l).due = true) {m : LastFrame}
    (hm : (s.rep.get l).memory = some m) :
    let t := (s.afterOutcome l o).finishBurst l
    (t.rep.get l).memory = none ∧ (t.rep.get l).due = false ∧ (∀ r ∈ t.rq.records, r.refersFor l = false) ∧
    (t.link.get l).posts.map (·.record) =
      stillPosted s l (s.link.get l).posts ++ releaseOf s l m ++ (checkPosts l o).map (·.record) := by
  have hu := State.afterOutcome_of_due ho hdue
  generalize s.afterOutcome l o = u at hu
  have hm' : ((s.setLink l (s.link.get l).dropOutcome).rep.get l).memory = some m := hm
  have hexpired := State.expireMemory_rep_get hm'
  have hrefs := State.expireMemory_not_refers hm'
  have hrecords := State.expireMemory_posts hm'
  generalize (s.setLink l (s.link.get l).dropOutcome).expireMemory l = v at hu hexpired hrefs hrecords
  rw [ho.takes, State.closeBurst] at hu
  have hrep : u.rep.get l = { (s.rep.get l).cleared with opened := false } := by
    rw [hu, State.setRep_rep, PerLine.get_set_same, State.setLink_rep, hexpired]
    rfl
  have hposts : (u.link.get l).posts = (v.link.get l).posts ++ checkPosts l o := by
    rw [hu, State.setRep_link, State.setLink_link, PerLine.get_set_same]
  have hc : u.clearedAtEnd l l = false := State.clearedAtEnd_of_none (by rw [hrep]; rfl)
  have hrq : u.rq = v.rq := by
    rw [hu]
    rfl
  dsimp only
  rw [State.finishBurst_rep_get, State.finishBurst_link_get, hc]
  refine ⟨by simp [hrep], by simp [hrep], State.finishBurst_not_refers (by rwa [hrq]), ?_⟩
  simp only [Bool.false_eq_true, if_false, hposts, List.map_append, hrecords]
  simp [State.setLink, Links.dropOutcome, stillPosted, releaseOf]

end

end Sys2Proof.Machine

open Sys2Proof Sys2Proof.Machine Sys2Proof.Safety

/-- Settles O22: by DUE, and by whether the burst's end completes the retirement of the memory's entry. -/
theorem otherOutcomesKeepMemory : Obligations.OtherOutcomesKeepMemory := by
  refine ⟨fun l o s ho => ⟨_, rfl, State.takeHandedOutcome_settled ho, fun hempty => ?empty⟩, fun l o s ho hd hmem hcases => ?taken⟩
  case empty =>
    rw [State.takeHandedOutcome_of_some ho, if_pos ((s.staysEmpty_iff l).mpr hempty)]
    exact State.expireMemory_memory _ l
  case taken =>
    intro check kept
    have hleaves := leavesMemory_of_cases hcases
    have hcheck : check = (checkPosts l o).map (·.record) := by cases o <;> rfl
    have hplain : s.takeHandedOutcome l = (s.afterOutcome l o).finishBurst l := by
      exact State.takeHandedOutcome_of_plain ho hd fun he => State.afterOutcome_memory_of_none hleaves (hmem he)
    refine ⟨_, rfl, State.takeHandedOutcome_settled ho, fun hdue => ?_, fun m hdue hm => ?_⟩
    · rw [hplain, hcheck]
      obtain ⟨hdue', hkept, hcleared, hrq⟩ := State.finishBurst_of_not_due hleaves hdue
      refine ⟨hdue', fun h => ?_, hcleared, hrq⟩
      obtain ⟨hmem', hposts⟩ := hkept h
      exact ⟨hmem', by rw [hposts, List.map_append]⟩
    · rw [hplain, hcheck]
      exact State.finishBurst_of_due hleaves hdue hm

end

