-- ==== Sys2Proof/Proofs/Repeats.lean ====
section
/-! PROOF. O21: an outcome that repeats the memory of its line. -/

namespace Sys2Proof.Machine

open Sys2Proof (Byte Time Payload Line)
open Sys2Proof.Safety

section
variable {s : State} {l : Line} {m : LastFrame} {o : BurstOutcome}

/-- The request of a counted repeat (R77, R78). -/
def State.repeatPost (s : State) (l : Line) (m : LastFrame) (start : Time) : Post :=
  ⟨repeatRecord l m start, (s.format m.entry).coalesce, (s.format m.entry).coalesce⟩

theorem State.repeatedMemory_of_repeats (hm : (s.rep.get l).memory = some m) (ho : s.isRepeatOf m o = true) :
    s.repeatedMemory l o = some m := by
  rw [State.repeatedMemory, hm]
  simp [ho]

/-- A repeat taken, in one equation (R76 to R78). -/
theorem State.afterOutcome_of_repeat (hm : (s.rep.get l).memory = some m) (ho : s.isRepeatOf m o = true) :
    s.afterOutcome l o = { s with
      rep := s.rep.set l
        ⟨some (m.counted o.stop), false, false, (m.counted o.stop).isDue (s.format m.entry).rw s.clock.time⟩
      link := s.link.set l { (s.link.get l).dropOutcome with
        posts := (s.link.get l).posts ++ [s.repeatPost l m o.start] } } := by
  have hrepeats : (s.setLink l (s.link.get l).dropOutcome).repeatedMemory l o = some m := State.repeatedMemory_of_repeats hm ho
  rw [State.afterOutcome, State.takeOutcome, hrepeats]
  simp only [State.countRepeat, State.setMemory, State.sendPost, State.setLink, State.closeBurst, State.setRep, PerLine.get_set_same,
    PerLine.set_set]
  rfl

/-- What the burst leaves of a memory that it has repeated, whether or not its entry retires. -/
theorem State.finishBurst_of_repeat (hm : (s.rep.get l).memory = some m) (ho : s.isRepeatOf m o = true) :
    let t := (s.afterOutcome l o).finishBurst l
    let requests := (s.link.get l).posts ++ [s.repeatPost l m o.start]
    (t.rep.get l).due = false ∧
    (¬ retiresAtEnd s l m.entry → t.rep.get l = ⟨some (m.counted o.stop), false, false,
        (m.counted o.stop).isDue (s.format m.entry).rw s.clock.time⟩ ∧ (t.link.get l).posts = requests) ∧
    (retiresAtEnd s l m.entry → (t.rep.get l).memory = none ∧ (t.rep.get l).dueReached = false ∧
      (t.link.get l).posts.map (·.record) = stillPosted s l requests ∧
      (∀ q ∈ (t.link.get l).posts, q.counts = false ∧ q.refers = false) ∧
      ∀ (i : Nat) (r : Record), s.rq.records[i]? = some r → r.refersFor l = true → t.rq.records[i]? =
        some { r with referred := false, repeats := min 255 (r.repeats + requests.countP (·.counts)) }) ∧
    ((∀ x y, (s.rep.get x).memory = some y → ¬ retiresAtEnd s l y.entry) → t.rq = s.rq) := by
  have hrepeat := RepeatOf.afterOutcome s l o
  have hu := State.afterOutcome_of_repeat hm ho
  generalize s.afterOutcome l o = u at hrepeat hu
  dsimp only
  have hrep : u.rep.get l = ⟨some (m.counted o.stop), false, false,
      (m.counted o.stop).isDue (s.format m.entry).rw s.clock.time⟩ := by rw [hu, PerLine.get_set_same]
  have hposts : (u.link.get l).posts = (s.link.get l).posts ++ [s.repeatPost l m o.start] := by rw [hu, PerLine.get_set_same]
  have hrq : u.rq = s.rq := by rw [hu]
  have hmem : (u.rep.get l).memory = some (m.counted o.stop) := by rw [hrep]
  have hretires : u.clearedAtEnd l l = true ↔ retiresAtEnd s l m.entry :=
    (State.clearedAtEnd_of_some hmem).trans (hrepeat.retiresAtEnd _)
  refine ⟨?_, fun hkept => ?_, fun hr => ?_, fun hkept => ?_⟩
  · rw [State.finishBurst_rep_get, hrep]
    split <;> rfl
  · rw [State.finishBurst_rep_get, State.finishBurst_link_get, if_neg fun hc => hkept (hretires.mp hc),
      if_neg fun hc => hkept (hretires.mp hc)]
    exact ⟨hrep, hposts⟩
  · have hc := hretires.mpr hr
    rw [State.finishBurst_rep_get, State.finishBurst_link_get, State.finishBurst_rq, State.clearOf_rq, if_pos hc, if_pos hc,
      Links.forget_posts_record, hposts, hrq]
    refine ⟨rfl, rfl, rfl, Links.forget_posts_plain, fun i r hi href => ?_⟩
    obtain ⟨hreferred, hline⟩ : r.referred = true ∧ r.line = l := by simpa [Record.refersFor] using href
    subst hline
    rw [List.getElem?_map, hi]
    simp only [Option.map_some, if_pos hc, hposts, Record.release, if_pos href]
    rfl
  · rw [State.finishBurst_rq_of_kept fun x y hy hr => ?_, hrq]
    have hr' := (hrepeat.retiresAtEnd _).mp hr
    by_cases hx : x = l
    · rw [hx, hmem] at hy
      cases hy
      exact hkept l m hm hr'
    · rw [hrepeat.rep x hx] at hy
      exact hkept x y hy hr'

end

end Sys2Proof.Machine

open Sys2Proof Sys2Proof.Machine Sys2Proof.Safety

/-- Settles O21: both forms of a repeat are repeats of the memory; then by whether the burst's end completes a retirement. -/
theorem repeatIsCountedInMemory : Obligations.RepeatIsCountedInMemory := by
  intro l m o start stop s hm ho hd hempty hforms requests
  have htimes : o.start = start ∧ o.stop = stop := by
    rcases hforms with rfl | ⟨rfl, -⟩
    · exact ⟨rfl, rfl⟩
    · exact ⟨rfl, rfl⟩
  have hrepeats : s.isRepeatOf m o = true := by
    rcases hforms with rfl | ⟨rfl, hsame, hwithin⟩
    · exact decide_eq_true rfl
    · exact Bool.and_eq_true_iff.mpr ⟨decide_eq_true ⟨rfl, hsame, rfl, rfl⟩, decide_eq_true hwithin⟩
  obtain ⟨rfl, rfl⟩ := htimes
  obtain ⟨hdue, hkept, hcleared, hrq⟩ := State.finishBurst_of_repeat hm hrepeats
  have hplain := State.takeHandedOutcome_of_plain ho hd fun he => absurd he hempty
  refine ⟨_, rfl, State.takeHandedOutcome_settled ho, ?_⟩
  rw [hplain]
  refine ⟨hdue, fun hr => ?_, hcleared, hrq⟩
  obtain ⟨hrep, hposts⟩ := hkept hr
  rw [hrep]
  refine ⟨?_, ?_, hposts⟩
  · simp [LastFrame.counted, bump, Config.countCap]
  · exact decide_eq_true_iff

end

