-- ==== Sys2Proof/Proofs/NewFrames.lean ====
section
/-! PROOF. O20: a new frame. -/

namespace Sys2Proof.Machine

open Sys2Proof (Byte Time Payload Line)
open Sys2Proof.Safety

section
variable {s : State} {l : Line}

/-- The RELEASE record of the frame that a new one replaces, if its flag is set (R75). -/
def State.oldPosts (s : State) (l : Line) : List Post :=
  match (s.rep.get l).memory with
  | none => []
  | some m => s.releasePosts l m

theorem State.oldPosts_counts (s : State) (l : Line) : ∀ q ∈ s.oldPosts l, q.counts = false := by
  unfold State.oldPosts
  split
  · exact nofun
  · exact s.releasePosts_counts l _

theorem State.releaseOld_eq (s : State) (l : Line) :
    s.releaseOld l = s.setLink l { s.link.get l with posts := (s.link.get l).posts ++ s.oldPosts l } := by
  cases hm : (s.rep.get l).memory with
  | none =>
    simp only [State.releaseOld, State.oldPosts, hm, List.append_nil]
    show s = { s with link := s.link.set l (s.link.get l) }
    rw [PerLine.set_get]
  | some m =>
    simp only [State.releaseOld, State.oldPosts, hm]
    exact s.postRelease_eq l m

/-- The memory of a new frame (R75). -/
def State.newMemory (s : State) (n : Fin 8) (bits : Nat) (p : Payload) (stop : Time) : LastFrame :=
  ⟨n, bits, p, stop, 0, (s.format n).release⟩

/-- What is on its way after a new frame: the old reference is given up, and the FRAME record comes last (R75, R81). -/
def State.newFramePosts (s : State) (l : Line) (n : Fin 8) (bits : Nat) (p : Payload) (start : Time) : List Post :=
  (({ s.link.get l with posts := (s.link.get l).posts ++ s.oldPosts l } : Links).forget (s.rq.hasReference l)).posts ++
    [⟨frameRecord l n bits p false start, false, (s.format n).coalesce⟩]

variable {n : Fin 8} {bits : Nat} {p : Payload} {start stop : Time}

/-- A new frame taken, in one equation (R75). -/
theorem State.newFrame_eq (s : State) (l : Line) (n : Fin 8) (bits : Nat) (p : Payload) (start stop : Time) :
    s.newFrame l n bits p start stop = { s with
      rep := s.rep.set l { s.rep.get l with
        memory := some (s.newMemory n bits p stop)
        due := false
        dueReached := (s.newMemory n bits p stop).isDue (s.format n).rw s.clock.time }
      link := s.link.set l { s.link.get l with posts := s.newFramePosts l n bits p start }
      rq := { s.rq with records := s.rq.records.map (·.release l ((s.link.get l).posts.countP (·.counts))) } } := by
  simp only [State.newFrame, State.releaseOld_eq, State.dropReference_eq, State.clearMemory_eq, State.sendPost, State.setMemory,
    State.setRep, State.setLink, PerLine.get_set_same, PerLine.set_set, countP_append_plain (s.oldPosts_counts l)]
  rfl

/-- An expiry that fell due during the burst makes no difference to a new frame: its RELEASE record comes either way. -/
theorem State.newFrame_expireMemory (s : State) (l : Line) (n : Fin 8) (bits : Nat) (p : Payload) (start stop : Time) :
    (s.expireMemory l).newFrame l n bits p start stop = s.newFrame l n bits p start stop := by
  cases hm : (s.rep.get l).memory with
  | none => rw [State.expireMemory_of_none hm]
  | some m =>
    have hgone := State.expireMemory_memory s l
    have hrefs := not_hasReference_iff.mpr (State.expireMemory_not_refers hm)
    have hrecords : ∀ k, (s.expireMemory l).rq.records.map (·.release l k) = (s.expireMemory l).rq.records := fun k =>
      (List.map_congr_left fun r hr => Record.release_of_not_refers (State.expireMemory_not_refers hm r hr) k).trans (List.map_id _)
    have hposts : (s.expireMemory l).newFramePosts l n bits p start = s.newFramePosts l n bits p start := by
      rw [State.newFramePosts, State.newFramePosts, hrefs, State.oldPosts, State.oldPosts, hgone, hm, State.expireMemory_of_some hm]
      simp [Links.forget, State.format]
    rw [State.newFrame_eq, State.newFrame_eq, hrecords, hposts, State.expireMemory_of_some hm]
    simp [State.newMemory, State.format, RepeatUnit.cleared, Links.forget]

/-- Whether a good frame is new: the memory holds none that it repeats. -/
theorem State.repeatedMemory_of_new
    (h : ∀ m, (s.rep.get l).memory = some m → ¬ ((s.format n).repeatKind = .same ∧ m.entry = n ∧ m.bits = bits ∧
      m.payload = p ∧ (start - m.lastEnd).toNat ≤ (s.format n).rw)) :
    s.repeatedMemory l (.frame n bits p false start stop) = none := by
  refine State.repeatedMemory_eq_none fun m hm => Bool.eq_false_iff.mpr fun hr => ?_
  obtain ⟨hsame, hwithin⟩ := Bool.and_eq_true_iff.mp hr
  obtain ⟨hentry, hkind, hbits, hpayload⟩ := of_decide_eq_true hsame
  exact h m hm ⟨hkind, hentry, hbits, hpayload, of_decide_eq_true hwithin⟩

/-- A new frame taken and OPEN cleared, in one equation. -/
theorem State.afterOutcome_of_new (hnew : s.repeatedMemory l (.frame n bits p false start stop) = none) :
    s.afterOutcome l (.frame n bits p false start stop) = { s with
      rep := s.rep.set l ⟨some (s.newMemory n bits p stop), false, false,
        (s.newMemory n bits p stop).isDue (s.format n).rw s.clock.time⟩
      link := s.link.set l { (s.link.get l).dropOutcome with posts := s.newFramePosts l n bits p start }
      rq := { s.rq with records := s.rq.records.map (·.release l ((s.link.get l).posts.countP (·.counts))) } } := by
  have hnew' : (s.setLink l (s.link.get l).dropOutcome).repeatedMemory l (.frame n bits p false start stop) = none := hnew
  have hposts : (s.setLink l (s.link.get l).dropOutcome).newFramePosts l n bits p start = s.newFramePosts l n bits p start := by
    simp [State.newFramePosts, State.setLink, Links.forget, State.oldPosts, Links.dropOutcome, State.format, State.releasePosts, releaseOf]
  have htaken : s.afterOutcome l (.frame n bits p false start stop) =
      ((s.setLink l (s.link.get l).dropOutcome).newFrame l n bits p start stop).closeBurst l := by
    rw [State.afterOutcome, State.takeOutcome, hnew']
    dsimp only
    split
    · exact congrArg (·.closeBurst l) (State.newFrame_expireMemory _ l n bits p start stop)
    · rfl
  rw [htaken, State.newFrame_eq, hposts, State.closeBurst, State.setRep]
  simp [State.setLink, State.newMemory, State.format, Links.dropOutcome]

/-- Every request but the FRAME record's is to become no reference. -/
theorem State.newFramePosts_plain (s : State) (l : Line) (n : Fin 8) (bits : Nat) (p : Payload) (start : Time) :
    ∀ q ∈ (s.newFramePosts l n bits p start).dropLast, q.refers = false := by
  rw [State.newFramePosts, List.dropLast_concat]
  exact fun q hq => (Links.forget_posts_plain q hq).2

theorem State.newFramePosts_record (s : State) (l : Line) (n : Fin 8) (bits : Nat) (p : Payload) (start : Time) :
    (s.newFramePosts l n bits p start).map (·.record) =
      stillPosted s l (s.link.get l).posts ++ (s.oldPosts l).map (·.record) ++ [frameRecord l n bits p false start] := by
  rw [State.newFramePosts, List.map_append, Links.forget_posts_record]
  exact congrArg (· ++ _) (stillPosted_append_plain s l _ (s.oldPosts_counts l))

theorem State.oldPosts_record (s : State) (l : Line) : (s.oldPosts l).map (·.record) =
    match (s.rep.get l).memory with
    | none => []
    | some m => releaseOf s l m := by
  unfold State.oldPosts
  split
  · rfl
  · exact s.releasePosts_record l _

/-- What the burst of a new frame leaves, whether or not its entry retires. -/
theorem State.finishBurst_of_new (hnew : s.repeatedMemory l (.frame n bits p false start stop) = none) :
    let t := (s.afterOutcome l (.frame n bits p false start stop)).finishBurst l
    (t.rep.get l).due = false ∧ (∀ q ∈ (t.link.get l).posts.dropLast, q.refers = false) ∧
    (∀ r ∈ t.rq.records, r.refersFor l = false) ∧
    (t.link.get l).posts.map (·.record) = (s.newFramePosts l n bits p start).map (·.record) ∧
    (retiresAtEnd s l n → (t.rep.get l).memory = none ∧ (t.rep.get l).dueReached = false ∧
      ∀ q ∈ (t.link.get l).posts, q.refers = false) ∧
    (¬ retiresAtEnd s l n → t.rep.get l = ⟨some (s.newMemory n bits p stop), false, false,
      (s.newMemory n bits p stop).isDue (s.format n).rw s.clock.time⟩ ∧
      (t.link.get l).posts = s.newFramePosts l n bits p start) := by
  have hrepeat := RepeatOf.afterOutcome s l (.frame n bits p false start stop)
  have hu := State.afterOutcome_of_new hnew
  generalize s.afterOutcome l (.frame n bits p false start stop) = u at hrepeat hu
  dsimp only
  have hrep : u.rep.get l = ⟨some (s.newMemory n bits p stop), false, false,
      (s.newMemory n bits p stop).isDue (s.format n).rw s.clock.time⟩ := by rw [hu, PerLine.get_set_same]
  have hposts : (u.link.get l).posts = s.newFramePosts l n bits p start := by rw [hu, PerLine.get_set_same]
  have hrefs : ∀ r ∈ u.rq.records, r.refersFor l = false := by
    rw [hu]
    intro r hr
    obtain ⟨r', -, rfl⟩ := List.mem_map.mp hr
    exact r'.release_not_refers l _
  have hmem : (u.rep.get l).memory = some (s.newMemory n bits p stop) := by rw [hrep]
  have hretires : u.clearedAtEnd l l = true ↔ retiresAtEnd s l n :=
    (State.clearedAtEnd_of_some hmem).trans (hrepeat.retiresAtEnd _)
  rw [State.finishBurst_rep_get, State.finishBurst_link_get, not_hasReference_iff.mpr hrefs]
  by_cases hr : retiresAtEnd s l n
  · have hplain : ∀ q ∈ ((u.link.get l).forget false).posts, q.refers = false := fun q hq => (Links.forget_posts_plain q hq).2
    rw [if_pos (hretires.mpr hr), if_pos (hretires.mpr hr)]
    refine ⟨rfl, fun q hq => hplain q (List.mem_of_mem_dropLast hq), State.finishBurst_not_refers hrefs, ?_,
      fun _ => ⟨rfl, rfl, hplain⟩, fun hkept => absurd hr hkept⟩
    rw [Links.forget_posts_record, hposts]
    simp
  · rw [if_neg fun hc => hr (hretires.mp hc), if_neg fun hc => hr (hretires.mp hc), hrep, hposts]
    exact ⟨rfl, s.newFramePosts_plain l n bits p start, State.finishBurst_not_refers hrefs, rfl, fun hr' => absurd hr' hr,
      fun _ => ⟨rfl, rfl⟩⟩

end

end Sys2Proof.Machine

open Sys2Proof Sys2Proof.Machine Sys2Proof.Safety

/-- Settles O20: by whether the burst's end completes the retirement of the new frame's entry, and if not by whether the memory
is to stay empty. -/
theorem newFrameReplacesMemory : Obligations.NewFrameReplacesMemory := by
  intro l n bits p start stop s ho hd hunlike old frame posted memory
  have hnew := State.repeatedMemory_of_new (stop := stop) hunlike
  obtain ⟨hdue, hplain, hrefs, hrecords, hretired, hkept⟩ := State.finishBurst_of_new hnew
  have hclock : ((s.afterOutcome l (.frame n bits p false start stop)).finishBurst l).clock = s.clock := by
    rw [State.afterOutcome_of_new hnew]
    simp
  have htaken := State.takeHandedOutcome_of_some ho
  have hstays : s.staysEmpty l = true ↔ staysEmptyAfterDisable s l := (s.staysEmpty_iff l).trans (or_iff_right hd)
  have hposted : (s.newFramePosts l n bits p start).map (·.record) = posted := by
    rw [State.newFramePosts_record, State.oldPosts_record]
    rfl
  rw [hposted] at hrecords
  refine ⟨_, rfl, State.takeHandedOutcome_settled ho, ?_⟩
  rw [htaken]
  generalize (s.afterOutcome l (.frame n bits p false start stop)).finishBurst l = t at hdue hplain hrefs hrecords hretired hkept hclock
  by_cases hr : retiresAtEnd s l n
  · obtain ⟨hmem, hreached, hall⟩ := hretired hr
    have hexpire : (if s.staysEmpty l then t.expireMemory l else t) = t := by
      split
      · exact State.expireMemory_of_none hmem
      · rfl
    rw [hexpire]
    exact ⟨hdue, hplain, hrefs, fun _ => ⟨hmem, hreached, hrecords, hall⟩, fun h => absurd hr h, fun h => absurd hr h⟩
  · obtain ⟨hrep, hposts⟩ := hkept hr
    have hmem : (t.rep.get l).memory = some memory := by rw [hrep]; rfl
    by_cases he : staysEmptyAfterDisable s l
    · rw [if_pos (hstays.mpr he)]
      have hall : ∀ q ∈ ((t.expireMemory l).link.get l).posts, q.refers = false := fun q hq =>
        (State.expireMemory_posts_plain hmem q hq).2
      have hgone := State.expireMemory_rep_get hmem
      have hexpired : ((t.expireMemory l).link.get l).posts.map (·.record) = posted ++ releaseOf s l memory := by
        rw [State.expireMemory_posts hmem, stillPosted, not_hasReference_iff.mpr hrefs, ← hrecords, releaseOf, releaseOf, hclock]
        simp
      refine ⟨by rw [hgone]; rfl, fun q hq => hall q (List.mem_of_mem_dropLast hq), State.expireMemory_not_refers hmem,
        fun h => absurd h hr, fun _ _ => ⟨by rw [hgone]; rfl, by rw [hgone]; rfl, hexpired, hall⟩, fun _ h => absurd he h⟩
    · rw [if_neg fun h => he (hstays.mp h)]
      refine ⟨hdue, hplain, hrefs, fun h => absurd h hr, fun _ h => absurd h he, fun _ _ => ⟨hmem, ?_, hrecords, fun q hq => ?_⟩⟩
      · rw [hrep]
        exact decide_eq_true_iff
      · rw [hposts, State.newFramePosts, List.getLast?_concat] at hq
        cases hq
        exact ⟨rfl, rfl⟩

end

