-- ==== Sys2Proof/Proofs/EntryMemories.lean ====
section
/-! SUPPORT for O47. The memories at the entry to DORMANT: each expires with its RELEASE record, or is cleared when a burst that is cut
completes the retirement of its entry, whichever comes first (R86, R87, R159). -/

namespace Sys2Proof.Machine

open Sys2Proof (Byte Time Payload Line)
open Sys2Proof.Safety

/-- What the memory that line `l` holds in `u` leaves to be posted, when it has gone in `v`. -/
def LetGo (u v : State) (l : Line) (released : List Record) : Prop :=
  ((u.rep.get l).memory = none → released = []) ∧ ∀ m, (u.rep.get l).memory = some m →
    released = releaseOf u l m ∨
      (released = [] ∧ u.entries[m.entry].st = .retiring ∧ v.entries[m.entry].st = .disabled)

/-- The memory of `l` has gone, and its RELEASE record, if one is to come, is all that is on its way to the queue. -/
structure MemoryGone (u v : State) (l : Line) (released : List Record) : Prop where
  letGo : LetGo u v l released
  memory : (v.rep.get l).memory = none
  posts : (v.link.get l).posts = released.map fun r => ⟨r, false, false⟩
  cleared : ∀ m, (u.rep.get l).memory = some m → (v.rep.get l).due = false ∧ v.rq.hasReference l = false

/-- The memory of `l` is still to go. -/
def MemoryKept (u v : State) (l : Line) : Prop := (v.rep.get l).memory = (u.rep.get l).memory ∧ (v.link.get l).posts = []

/-- How far the entry has come: `u` is the state in which nothing is on its way to a decoder or a repeat unit. -/
structure EntryStage (u v : State) : Prop where
  time : v.clock.time = u.clock.time
  records : v.rq.records.map identity = u.rq.records.map identity
  entries : ∀ n : Fin 8, v.entries[n].st = u.entries[n].st ∨ (u.entries[n].st = .retiring ∧ v.entries[n].st = .disabled)
  irq : v.irq = { u.irq with retired := v.irq.retired }
  retired : v.irq.retired = u.irq.retired ∨ ∃ n : Fin 8, u.entries[n].st = .retiring
  line : ∀ l, MemoryKept u v l ∨ ∃ released, MemoryGone u v l released

section
variable {u v w : State} {l : Line} {released : List Record}

theorem EntryStage.start (h : ∀ l, (u.link.get l).posts = []) : EntryStage u u :=
  ⟨rfl, rfl, fun _ => .inl rfl, rfl, .inl rfl, fun l => .inl ⟨rfl, h l⟩⟩

/-- An entry that was DISABLED stays so. -/
theorem LetGo.mono (h : LetGo u v l released) (hst : ∀ n : Fin 8, v.entries[n].st = .disabled → w.entries[n].st = .disabled) :
    LetGo u w l released :=
  ⟨h.1, fun m hm => (h.2 m hm).imp_right fun ⟨hnone, hret, hdis⟩ => ⟨hnone, hret, hst _ hdis⟩⟩

theorem EntryStage.same (h : EntryStage u v) (hrq : w.rq = v.rq) (hentries : w.entries = v.entries) (hirq : w.irq = v.irq)
    (htime : w.clock.time = v.clock.time) (hrep : ∀ l, (w.rep.get l).memory = (v.rep.get l).memory ∧ (w.rep.get l).due = (v.rep.get l).due)
    (hposts : ∀ l, (w.link.get l).posts = (v.link.get l).posts) : EntryStage u w where
  time := htime.trans h.time
  records := by rw [hrq, h.records]
  entries := hentries ▸ h.entries
  irq := hirq ▸ h.irq
  retired := hirq ▸ h.retired
  line l := by
    obtain ⟨hmem, hdue⟩ := hrep l
    refine (h.line l).imp (fun ⟨hkept, hnone⟩ => ⟨hmem.trans hkept, (hposts l).trans hnone⟩) fun ⟨released, hgone⟩ =>
      ⟨released, hgone.letGo.mono fun n hn => by rwa [hentries], hmem.trans hgone.memory, (hposts l).trans hgone.posts, fun m hm => ?_⟩
    rw [hdue, hrq]
    exact hgone.cleared m hm

/-- Requests that are neither increments nor to become a reference stay as they are. -/
theorem Links.forget_posts_of_plain {k : Links} {rs : List Record} (h : k.posts = rs.map fun r => ⟨r, false, false⟩) (has : Bool) :
    (k.forget has).posts = rs.map fun r => ⟨r, false, false⟩ := by
  rw [Links.forget, h]
  cases has <;> simp [Function.comp_def, List.filter_map]

/-- The memory of one line expires. -/
theorem EntryStage.expire (h : EntryStage u v) (l : Line) : EntryStage u (v.expireMemory l) := by
  cases hm : (v.rep.get l).memory with
  | none => rwa [State.expireMemory_of_none hm]
  | some m =>
    have hexpire := RepeatOf.expireMemory v l
    obtain ⟨-, hentries, hirq, -, -, -, -, -, -, -, hclock⟩ := hexpire.frame
    refine ⟨by rw [hclock, h.time], hexpire.records.trans h.records, hentries ▸ h.entries, hirq ▸ h.irq, hirq ▸ h.retired,
      fun x => ?_⟩
    by_cases hx : x = l
    · subst hx
      have hkept : MemoryKept u v x := (h.line x).resolve_right fun ⟨released, hgone⟩ => by simp [hgone.memory] at hm
      obtain ⟨hmem, hposts⟩ := hkept
      have hrelease : releaseOf v x m = releaseOf u x m := by rw [releaseOf, releaseOf, h.time]
      refine .inr ⟨releaseOf u x m, ⟨fun hnone => ?_, fun m' hm' => .inl ?_⟩, State.expireMemory_memory v x, ?_, fun _ _ => ⟨?_, ?_⟩⟩
      · rw [← hmem, hm] at hnone
        cases hnone
      · rw [← hmem, hm] at hm'
        cases hm'
        rfl
      · rw [State.expireMemory_of_some hm, PerLine.get_set_same, ← hrelease]
        exact Links.forget_posts_of_plain (by rw [hposts, List.nil_append]; rfl) _
      · rw [State.expireMemory_rep_get hm]
        rfl
      · exact not_hasReference_iff.mpr (State.expireMemory_not_refers hm)
    · have hrep := hexpire.rep x hx
      have hlink := hexpire.link x hx
      refine (h.line x).imp (fun ⟨hmem, hposts⟩ => ⟨by rw [hrep, hmem], by rw [hlink, hposts]⟩) fun ⟨released, hgone⟩ =>
        ⟨released, hgone.letGo.mono fun n hn => by rwa [hentries], by rw [hrep, hgone.memory], by rw [hlink, hgone.posts], fun m' hm' => ?_⟩
      rw [hrep, hexpire.reference x hx]
      exact hgone.cleared m' hm'

/-- A DISABLED entry stays DISABLED when its holders leave, and another changes its state only from RETIRING to DISABLED. -/
theorem leftEntries_st (h : Holder) {ns : List (Fin 8)} (hns : ns.Nodup) (es : Vector EntryControl 8) (n : Fin 8) :
    (leftEntries h ns es)[n].st = es[n].st ∨ (es[n].st = .retiring ∧ (leftEntries h ns es)[n].st = .disabled) := by
  obtain ⟨hret, hkept, hout⟩ := leftEntries_cases (h := h) hns es n
  by_cases hn : n ∈ ns
  · cases hr : es[n].retires h with
    | true =>
      rw [hret hn hr]
      exact .inr ⟨((es[n].retires_iff h).mp hr).1, rfl⟩
    | false =>
      rw [hkept hn hr]
      exact .inl (EntryControl.setHolder_st _ h false)
  · rw [hout hn]
    exact .inl rfl

/-- A decoder leaves its entries: a memory whose entry's retirement this completes is cleared. -/
theorem EntryStage.finishBurst (h : EntryStage u v) (l : Line) : EntryStage u (v.finishBurst l) := by
  have hst : ∀ n : Fin 8, (v.finishBurst l).entries[n].st = v.entries[n].st ∨
      (v.entries[n].st = .retiring ∧ (v.finishBurst l).entries[n].st = .disabled) := fun n => by
    rw [State.finishBurst_eq]
    exact leftEntries_st _ (List.nodup_dedup _) _ n
  have hretiring : ∀ n : Fin 8, v.entries[n].st = .retiring → u.entries[n].st = .retiring := fun n hn =>
    (h.entries n).elim (fun heq => heq ▸ hn) fun hdis => hdis.1
  refine ⟨by rw [← h.time]; simp, ?records, fun n => ?entries, ?irq, ?retired, fun x => ?line⟩
  case records => rw [State.finishBurst_rq, State.clearOf_identity, h.records]
  case entries =>
    rcases hst n with heq | ⟨hret, hdis⟩
    · rw [heq]
      exact h.entries n
    · exact .inr ⟨hretiring n hret, hdis⟩
  case irq =>
    rw [State.finishBurst_eq, h.irq]
  case retired =>
    rw [State.finishBurst_eq]
    cases hany : (candidateEntries v l).dedup.any fun n => v.entries[n].retires (.decoder l) with
    | false =>
      simp only [Bool.or_false]
      exact h.retired
    | true =>
      obtain ⟨n, -, hr⟩ := List.any_eq_true.mp hany
      exact .inr ⟨n, hretiring n ((v.entries[n].retires_iff _).mp hr).1⟩
  case line =>
    have hstays : ∀ n : Fin 8, v.entries[n].st = .disabled → (v.finishBurst l).entries[n].st = .disabled := fun n hn =>
      (hst n).elim (fun heq => heq.trans hn) fun hdis => hdis.2
    cases hc : v.clearedAtEnd l x with
    | false =>
      have hrep : (v.finishBurst l).rep.get x = v.rep.get x := by rw [State.finishBurst_rep_get, hc]; rfl
      have hlink : (v.finishBurst l).link.get x = v.link.get x := by rw [State.finishBurst_link_get, hc]; rfl
      refine (h.line x).imp (fun ⟨hmem, hposts⟩ => ⟨by rw [hrep, hmem], by rw [hlink, hposts]⟩) fun ⟨released, hgone⟩ =>
        ⟨released, hgone.letGo.mono hstays, by rw [hrep, hgone.memory], by rw [hlink, hgone.posts], fun m hm => ?_⟩
      obtain ⟨hdue, hrefs⟩ := hgone.cleared m hm
      exact ⟨by rw [hrep, hdue], not_hasReference_iff.mpr (State.finishBurst_not_refers (not_hasReference_iff.mp hrefs))⟩
    | true =>
      cases hm : (v.rep.get x).memory with
      | none => simp [State.clearedAtEnd_of_none hm] at hc
      | some m =>
        obtain ⟨hn, hst', hunheld⟩ := (State.clearedAtEnd_of_some hm).mp hc
        obtain ⟨hmem, hposts⟩ : MemoryKept u v x := (h.line x).resolve_right fun ⟨released, hgone⟩ => by simp [hgone.memory] at hm
        have hdis : (v.finishBurst l).entries[m.entry].st = .disabled := by
          rw [State.finishBurst_eq]
          obtain ⟨hret, -⟩ := leftEntries_cases (h := .decoder l) (List.nodup_dedup (candidateEntries v l)) v.entries m.entry
          rw [hret (List.mem_dedup.mpr hn) ((EntryControl.retires_iff _ _).mpr ⟨hst', hunheld⟩)]
        refine .inr ⟨[], ⟨fun _ => rfl, fun m' hm' => .inr ⟨rfl, ?_⟩⟩, ?_, ?_, fun _ _ => ⟨?_, ?_⟩⟩
        · rw [← hmem, hm] at hm'
          cases hm'
          exact ⟨hretiring _ hst', hdis⟩
        · rw [State.finishBurst_rep_get, if_pos hc]
          rfl
        · rw [State.finishBurst_link_get, if_pos hc, Links.forget, hposts]
          simp
        · rw [State.finishBurst_rep_get, if_pos hc]
          rfl
        · rw [State.finishBurst_rq]
          exact not_hasReference_iff.mpr (State.clearOf_not_refers hc)

end

end Sys2Proof.Machine

end

