-- ==== Sys2Proof/Proofs/EntryAborts.lean ====
section
/-! SUPPORT for O47. The bursts that the entry to DORMANT cuts: one notice to the decoder and to the capture unit, and, from a decoder
that is not in WAIT, the report ABORTED (R14, R68, R70). -/

namespace Sys2Proof.Machine

open Sys2Proof (Byte Time Payload Line)
open Sys2Proof.Safety

/-! ### A decoder with nothing or an abort on its way -/

section
variable {s : State} {l x : Line} {why : AbortReason}

/-- What is on its way to the decoder, to the capture unit and to the repeat unit of a line, and what its decoder has reported. -/
structure Traffic where
  toDecoder : List Notice
  toCapture : List Notice
  outcome : Option BurstOutcome
  reports : List Report

def Links.traffic (k : Links) : Traffic := ⟨k.toDecoder, k.toCapture, k.outcome, k.reports⟩

theorem Links.traffic_of_rest {k k' : Links} (h : k.rest = k'.rest) : k.traffic = k'.traffic := by
  rw [Links.eq_of_rest_eq h]
  rfl

theorem Links.traffic_toDecoder {k : Links} {t : Traffic} (h : k.traffic = t) : k.toDecoder = t.toDecoder := congrArg Traffic.toDecoder h

theorem Links.traffic_outcome {k : Links} {t : Traffic} (h : k.traffic = t) : k.outcome = t.outcome := congrArg Traffic.outcome h

/-- Taking the notices off a decoder's link. -/
def State.dropNotices (s : State) (l : Line) : State := s.setLink l { s.link.get l with toDecoder := [] }

theorem State.settleDecoder_of_quiet (h : (s.link.get l).outcome = none) :
    s.settleDecoder l = (s.link.get l).toDecoder.foldl (fun s n => s.settleNotice l n) (s.dropNotices l) := by
  simp only [State.settleDecoder, State.takeHandedOutcome_of_none h]
  rfl

theorem State.settleDecoder_of_empty (h : (s.link.get l).outcome = none) (hnone : (s.link.get l).toDecoder = []) :
    s.settleDecoder l = s.dropNotices l := by
  rw [State.settleDecoder_of_quiet h, hnone]
  rfl

/-- A decoder in WAIT leaves an abort be. -/
theorem State.settleDecoder_of_wait (h : (s.link.get l).outcome = none) (habort : (s.link.get l).toDecoder = [.burstAbort why])
    (hwait : (s.dec.get l).st = .wait) : s.settleDecoder l = s.dropNotices l := by
  have hrefused : ((s.dropNotices l).dec.get l).accepts (.burstAbort why) = false := by
    show decide ((s.dec.get l).st ≠ .wait) = false
    simp [hwait]
  have hnone : ((s.dropNotices l).link.get l).outcome = none := by
    rw [State.dropNotices, State.setLink_link, PerLine.get_set_same, h]
  rw [State.settleDecoder_of_quiet h, habort, List.foldl_cons, List.foldl_nil, State.settleNotice, hrefused]
  exact State.takeHandedOutcome_of_none hnone

/-- The decoder hands the outcome ABORTED over. -/
def State.aborted (s : State) (l : Line) : State := (s.dropNotices l).handOver l (.aborted (s.dec.get l).start)

/-- A decoder in another state hands ABORTED over, which its repeat unit takes. -/
theorem State.settleDecoder_of_burst (h : (s.link.get l).outcome = none) (habort : (s.link.get l).toDecoder = [.burstAbort why])
    (hwait : (s.dec.get l).st ≠ .wait) : s.settleDecoder l = (s.aborted l).takeHandedOutcome l := by
  have haccepted : ((s.dropNotices l).dec.get l).accepts (.burstAbort why) = true := by
    show decide ((s.dec.get l).st ≠ .wait) = true
    simp [hwait]
  rw [State.settleDecoder_of_quiet h, habort, List.foldl_cons, List.foldl_nil, State.settleNotice, haccepted]
  rfl

theorem State.aborted_outcome (s : State) (l : Line) :
    ((s.aborted l).link.get l).outcome = some (.aborted (s.dec.get l).start) := by
  rw [State.aborted, State.handOver, State.setLink_link, PerLine.get_set_same]

end

/-! ### The memories at an abort -/

section
variable {u v : State}

theorem EntryStage.dropNotices (h : EntryStage u v) (l : Line) : EntryStage u (v.dropNotices l) :=
  h.same rfl rfl rfl rfl (fun _ => ⟨rfl, rfl⟩) (v.link.get_set_posts rfl)

theorem PerLine.get_set_memory_due (p : PerLine RepeatUnit) {l : Line} {r : RepeatUnit} (h : r.memory = (p.get l).memory)
    (hdue : r.due = (p.get l).due) (m : Line) :
    ((p.set l r).get m).memory = (p.get m).memory ∧ ((p.set l r).get m).due = (p.get m).due := by
  by_cases hm : m = l
  · rw [hm, PerLine.get_set_same]
    exact ⟨h, hdue⟩
  · rw [PerLine.get_set_ne p r hm]
    exact ⟨rfl, rfl⟩

theorem EntryStage.closeBurst (h : EntryStage u v) (l : Line) : EntryStage u (v.closeBurst l) :=
  h.same rfl rfl rfl rfl (v.rep.get_set_memory_due rfl rfl) fun _ => rfl

theorem EntryStage.quietRepeatUnit (h : EntryStage u v) (l : Line) : EntryStage u (v.quietRepeatUnit l) :=
  ((h.expire l).closeBurst l).same rfl rfl rfl rfl (fun _ => ⟨rfl, rfl⟩) (PerLine.get_set_posts _ rfl)

theorem EntryStage.parkLine (h : EntryStage u v) (named : Bool) (l : Line) : EntryStage u (v.parkLine named l) :=
  h.same (by simp) (by simp) (by simp) (by simp) (by simp) fun x => Links.posts_of_handed_eq (v.parkLine_handed l x named)

/-- The repeat unit takes the outcome ABORTED: an expiry that fell due during the burst is settled, and the decoder leaves. -/
theorem EntryStage.takeAborted (h : EntryStage u v) {l : Line} {t : Time} (ho : (v.link.get l).outcome = some (.aborted t)) :
    EntryStage u (v.takeHandedOutcome l) := by
  have hdropped : EntryStage u (v.setLink l (v.link.get l).dropOutcome) :=
    h.same rfl rfl rfl rfl (fun _ => ⟨rfl, rfl⟩) (v.link.get_set_posts rfl)
  have hnone : (v.setLink l (v.link.get l).dropOutcome).repeatedMemory l (.aborted t) = none :=
    State.repeatedMemory_eq_none fun _ _ => rfl
  have htaken : EntryStage u ((v.setLink l (v.link.get l).dropOutcome).takeOutcome l (.aborted t)) := by
    rw [State.takeOutcome, hnone]
    dsimp only [State.takeOther]
    split
    · exact hdropped.expire l
    · exact hdropped
  have hfinished := (htaken.closeBurst l).finishBurst l
  rw [State.takeHandedOutcome_of_some ho]
  split
  · exact hfinished.expire l
  · exact hfinished

theorem EntryStage.aborted (h : EntryStage u v) (l : Line) : EntryStage u ((v.aborted l).takeHandedOutcome l) := by
  have hhanded : EntryStage u (v.aborted l) :=
    (h.dropNotices l).same rfl rfl rfl rfl (fun _ => ⟨rfl, rfl⟩) (PerLine.get_set_posts _ rfl)
  exact hhanded.takeAborted (v.aborted_outcome l)

end

/-! ### One line's abort -/

/-- The abort of a line's burst is still to be handled: `cut` says whether there is one. -/
structure AbortDue (u v : State) (l : Line) (cut : Bool) (heard : List Notice) : Prop where
  traffic : (v.link.get l).traffic =
    ⟨if cut then [.burstAbort .dormant] else [], heard, none, (u.link.get l).reports⟩
  decoder : v.dec.get l = u.dec.get l

/-- The decoder of a line after the aborts. -/
def Decoder.afterAbort (d : Decoder) (cut : Bool) : Decoder :=
  if cut = true ∧ d.st ≠ .wait then { d with st := .wait, candidates := [] } else d

/-- What the decoder of a line reports at the aborts. -/
def Decoder.abortReports (d : Decoder) (cut : Bool) : List Report := if cut = true ∧ d.st ≠ .wait then [.aborted] else []

/-- The abort of a line's burst has been handled. -/
structure AbortDone (u v : State) (l : Line) (cut : Bool) (heard : List Notice) : Prop where
  traffic : (v.link.get l).traffic = ⟨[], heard, none, (u.link.get l).reports ++ (u.dec.get l).abortReports cut⟩
  decoder : v.dec.get l = (u.dec.get l).afterAbort cut

section
variable {u v w : State} {l x : Line} {cut : Bool} {heard : List Notice}

theorem AbortDue.of_same (h : AbortDue u v l cut heard) (hlink : (w.link.get l).traffic = (v.link.get l).traffic)
    (hdec : w.dec.get l = v.dec.get l) : AbortDue u w l cut heard := ⟨hlink.trans h.traffic, hdec.trans h.decoder⟩

theorem AbortDone.of_same (h : AbortDone u v l cut heard) (hlink : (w.link.get l).traffic = (v.link.get l).traffic)
    (hdec : w.dec.get l = v.dec.get l) : AbortDone u w l cut heard := ⟨hlink.trans h.traffic, hdec.trans h.decoder⟩

theorem AbortDone.aborted (h : AbortDone u v l cut heard) (hc : cut = true ∧ (u.dec.get l).st ≠ .wait) :
    (v.link.get l).reports = (u.link.get l).reports ++ [.aborted] ∧
    v.dec.get l = { u.dec.get l with st := .wait, candidates := [] } := by
  obtain ⟨htraffic, hdecoder⟩ := h
  rw [Decoder.abortReports, if_pos hc] at htraffic
  rw [Decoder.afterAbort, if_pos hc] at hdecoder
  exact ⟨congrArg Traffic.reports htraffic, hdecoder⟩

theorem AbortDone.spared (h : AbortDone u v l cut heard) (hc : ¬ (cut = true ∧ (u.dec.get l).st ≠ .wait)) :
    (v.link.get l).reports = (u.link.get l).reports ∧ v.dec.get l = u.dec.get l := by
  obtain ⟨htraffic, hdecoder⟩ := h
  rw [Decoder.abortReports, if_neg hc, List.append_nil] at htraffic
  rw [Decoder.afterAbort, if_neg hc] at hdecoder
  exact ⟨congrArg Traffic.reports htraffic, hdecoder⟩

/-- How the decoder of a line handles its abort, if there is one: not at all, or by handing ABORTED over. -/
theorem AbortDue.settleDecoder_eq (h : AbortDue u v l cut heard) :
    v.settleDecoder l = if cut = true ∧ (u.dec.get l).st ≠ .wait then (v.aborted l).takeHandedOutcome l else v.dropNotices l := by
  have hout := Links.traffic_outcome h.traffic
  have hnotices := Links.traffic_toDecoder h.traffic
  cases cut with
  | false => exact State.settleDecoder_of_empty hout hnotices
  | true =>
    by_cases hwait : (u.dec.get l).st = .wait
    · rw [if_neg fun hc => hc.2 hwait]
      exact State.settleDecoder_of_wait hout hnotices (by rw [h.decoder, hwait])
    · rw [if_pos ⟨rfl, hwait⟩]
      exact State.settleDecoder_of_burst hout hnotices (by rwa [h.decoder])

theorem EntryStage.settleDecoder (h : EntryStage u v) (hdue : AbortDue u v l cut heard) : EntryStage u (v.settleDecoder l) := by
  rw [hdue.settleDecoder_eq]
  split
  · exact h.aborted l
  · exact h.dropNotices l

theorem AbortDue.settleDecoder (h : AbortDue u v l cut heard) : AbortDone u (v.settleDecoder l) l cut heard := by
  have htraffic := h.traffic
  rw [h.settleDecoder_eq]
  split
  · next hc =>
    have hsettled := State.takeHandedOutcome_settled (v.aborted_outcome l)
    have hlink : (((v.aborted l).takeHandedOutcome l).link.get l).traffic =
        (((v.aborted l).link.get l).afterOutcome).traffic := Links.traffic_of_rest (State.takeHandedOutcome_rest _ l)
    have hdropped : ((v.aborted l).link.get l).afterOutcome.traffic =
        ⟨[], (v.link.get l).toCapture, none, (v.link.get l).reports ++ [.aborted]⟩ := by
      simp [Links.afterOutcome, State.aborted, State.handOver, State.dropNotices, Links.traffic, BurstOutcome.report]
    refine ⟨?_, ?_⟩
    · rw [hlink, hdropped, Decoder.abortReports, if_pos hc]
      simp only [Links.traffic, Traffic.mk.injEq] at htraffic
      obtain ⟨-, hheard, -, hreports⟩ := htraffic
      rw [hheard, hreports]
    · obtain ⟨hdec, -⟩ := hsettled
      rw [hdec, PerLine.get_set_same, Decoder.afterAbort, if_pos hc, ← h.decoder]
      rfl
  · next hc =>
    refine ⟨?_, ?_⟩
    · simp only [Links.traffic, Traffic.mk.injEq] at htraffic
      obtain ⟨-, hheard, hout, hreports⟩ := htraffic
      simp [State.dropNotices, Links.traffic, Decoder.abortReports, hc, hheard, hout, hreports]
    · rw [Decoder.afterAbort, if_neg hc, ← h.decoder]
      rfl

/-- Another line's abort is handled. -/
theorem AbortDue.settleDecoder_ne (h : AbortDue u v l cut heard) (hx : x ≠ l) :
    ((v.settleDecoder l).link.get x).traffic = (v.link.get x).traffic ∧ (v.settleDecoder l).dec.get x = v.dec.get x := by
  refine ⟨Links.traffic_of_rest (v.settleDecoder_rest_ne hx), ?_⟩
  rw [h.settleDecoder_eq]
  split
  · obtain ⟨hdec, -⟩ := State.takeHandedOutcome_settled (v.aborted_outcome l)
    rw [hdec, PerLine.get_set_ne _ _ hx]
    rfl
  · rfl

/-- Without an abort to handle the entries and RETIRED stay as they are. -/
theorem AbortDue.settleDecoder_idle (h : AbortDue u v l cut heard) (hc : ¬ (cut = true ∧ (u.dec.get l).st ≠ .wait)) :
    (v.settleDecoder l).entries = v.entries ∧ (v.settleDecoder l).irq = v.irq := by
  rw [h.settleDecoder_eq, if_neg hc]
  exact ⟨rfl, rfl⟩

end

end Sys2Proof.Machine

end

