-- ==== Sys2Proof/Proofs/EntryPosts.lean ====
section
/-! SUPPORT for O47. The queue takes the RELEASE records of the entry to DORMANT (R94, R109), and what the taking of everything on its
way leaves as it is. -/

namespace Sys2Proof.Machine

open Sys2Proof (Byte Time Payload Line)
open Sys2Proof.Safety

/-! ### The queue takes posts -/

/-- The records after a post that becomes no reference: appended after the newest, or lost and marked on it (R92, R93). -/
def queueRecord (rs : List Record) (r : Record) : List Record :=
  if rs.length < 16 then rs ++ [{ r with referred := false }] else markNewest rs

/-- The records after several such posts. -/
def queueRecords (rs new : List Record) : List Record := new.foldl queueRecord rs

theorem queueRecords_append (rs new new' : List Record) : queueRecords rs (new ++ new') = queueRecords (queueRecords rs new) new' :=
  List.foldl_append

theorem queueRecords_length (rs new : List Record) : (queueRecords rs new).length = rs.length + min new.length (16 - rs.length) := by
  induction new generalizing rs with
  | nil => simp [queueRecords]
  | cons r new ih =>
    show (queueRecords (queueRecord rs r) new).length = _
    rw [ih, queueRecord]
    split
    · simp only [List.length_append, List.length_cons, List.length_nil]
      omega
    · rw [markNewest_length, List.length_cons]
      omega

/-- The posts for which there is room are appended in order; the records before them stay. -/
theorem queueRecords_identity (rs new : List Record) :
    (queueRecords rs new).map identity = (rs ++ new.take (16 - rs.length)).map identity := by
  induction new generalizing rs with
  | nil => simp [queueRecords]
  | cons r new ih =>
    show (queueRecords (queueRecord rs r) new).map identity = _
    rw [ih, queueRecord]
    split
    · next h =>
      have hroom : 16 - rs.length = (16 - (rs ++ [{ r with referred := false }]).length) + 1 := by
        rw [List.length_append, List.length_singleton]
        omega
      rw [hroom, List.take_succ_cons]
      simp [identity]
    · next h =>
      have hfull : 16 - rs.length = 0 := by omega
      rw [markNewest_length, hfull]
      simp

theorem queueRecords_of_room {rs new : List Record} (h : new.length ≤ 16 - rs.length) :
    queueRecords rs new = rs ++ new.map fun r => { r with referred := false } := by
  induction new generalizing rs with
  | nil => simp [queueRecords]
  | cons r new ih =>
    rw [List.length_cons] at h
    have hroom : rs.length < 16 := by omega
    show queueRecords (queueRecord rs r) new = _
    rw [queueRecord, if_pos hroom, ih]
    · simp
    · rw [List.length_append, List.length_singleton]
      omega

theorem markNewest_getLast? (rs : List Record) : (markNewest rs).getLast? = rs.getLast?.map Record.markLoss := by
  rcases List.eq_nil_or_concat rs with rfl | ⟨older, newest, rfl⟩
  · rfl
  · rw [List.concat_eq_append, markNewest_append, List.getLast?_concat, List.getLast?_concat]
    rfl

/-- A full queue keeps the mark of a loss on its newest record. -/
theorem queueRecords_loss_of_full {rs : List Record} (new : List Record) (hfull : 16 ≤ rs.length)
    (h : ∃ r, rs.getLast? = some r ∧ r.loss = true) : ∃ r, (queueRecords rs new).getLast? = some r ∧ r.loss = true := by
  induction new generalizing rs with
  | nil => exact h
  | cons r new ih =>
    obtain ⟨newest, hlast, -⟩ := h
    have hnext : queueRecord rs r = markNewest rs := if_neg (by omega)
    show ∃ r', (queueRecords (queueRecord rs r) new).getLast? = some r' ∧ r'.loss = true
    rw [hnext]
    refine ih (by rwa [markNewest_length]) ⟨newest.markLoss, ?_, rfl⟩
    rw [markNewest_getLast?, hlast]
    rfl

theorem queueRecords_loss {rs new : List Record} (h : 16 - rs.length < new.length) :
    ∃ r, (queueRecords rs new).getLast? = some r ∧ r.loss = true := by
  induction new generalizing rs with
  | nil => exact absurd h (Nat.not_lt_zero _)
  | cons r new ih =>
    rw [List.length_cons] at h
    show ∃ r', (queueRecords (queueRecord rs r) new).getLast? = some r' ∧ r'.loss = true
    by_cases hroom : rs.length < 16
    · rw [queueRecord, if_pos hroom]
      refine ih ?_
      rw [List.length_append, List.length_singleton]
      omega
    · rw [queueRecord, if_neg hroom]
      have hne : rs ≠ [] := List.ne_nil_of_length_pos (by omega)
      refine queueRecords_loss_of_full new (by rw [markNewest_length]; omega) ⟨(rs.getLast hne).markLoss, ?_, rfl⟩
      rw [markNewest_getLast?, List.getLast?_eq_some_getLast hne]
      rfl

theorem markNewest_any_refers (rs : List Record) (l : Line) : (markNewest rs).any (·.refersFor l) = rs.any (·.refersFor l) := by
  rcases List.eq_nil_or_concat rs with rfl | ⟨older, newest, rfl⟩
  · rfl
  · rw [List.concat_eq_append, markNewest_append, List.any_append, List.any_append]
    rfl

theorem queueRecords_any_refers (rs new : List Record) (l : Line) :
    (queueRecords rs new).any (·.refersFor l) = rs.any (·.refersFor l) := by
  induction new generalizing rs with
  | nil => rfl
  | cons r new ih =>
    show (queueRecords (queueRecord rs r) new).any (·.refersFor l) = _
    rw [ih, queueRecord]
    split
    · simp [Record.refersFor]
    · exact markNewest_any_refers rs l

section
variable {s : State} {l : Line}

/-- The queue and the causes after requests that are all posts. -/
theorem State.takePosts_eq (s : State) (l : Line) (rs : List Record) :
    ((rs.map fun r => (⟨r, false, false⟩ : Post)).foldl (fun s p => s.takeRequest l p) s).rq =
      { s.rq with records := queueRecords s.rq.records rs } ∧
    ((rs.map fun r => (⟨r, false, false⟩ : Post)).foldl (fun s p => s.takeRequest l p) s).irq =
      { s.irq with loss := s.irq.loss || decide (16 - s.rq.records.length < rs.length) } := by
  induction rs generalizing s with
  | nil => simp [queueRecords]
  | cons r rs ih =>
    have hrq : (s.takePost ⟨r, false, false⟩).rq = { s.rq with records := queueRecord s.rq.records r } := State.takePost_rq s _
    have hirq : (s.takePost ⟨r, false, false⟩).irq = { s.irq with loss := s.irq.loss || decide (16 ≤ s.rq.records.length) } := by
      rw [State.takePost_irq]
      simp [InterruptUnit.raise]
    have hlength : (queueRecord s.rq.records r).length = s.rq.records.length + min 1 (16 - s.rq.records.length) :=
      queueRecords_length s.rq.records [r]
    obtain ⟨ihrq, ihirq⟩ := ih (s.takePost ⟨r, false, false⟩)
    refine ⟨?_, ?_⟩
    · show (List.foldl _ (s.takePost ⟨r, false, false⟩) _).rq = _
      rw [ihrq, hrq]
      rfl
    · show (List.foldl _ (s.takePost ⟨r, false, false⟩) _).irq = _
      rw [ihirq, hirq, hrq]
      simp only [hlength, List.length_cons, Bool.or_assoc, ← Bool.decide_or]
      congr 2
      refine decide_eq_decide.mpr ?_
      omega

theorem State.takeRequests_of_posts {rs : List Record} (h : (s.link.get l).posts = rs.map fun r => ⟨r, false, false⟩) :
    (s.takeRequests l).rq = { s.rq with records := queueRecords s.rq.records rs } ∧
    (s.takeRequests l).irq = { s.irq with loss := s.irq.loss || decide (16 - s.rq.records.length < rs.length) } := by
  rw [State.takeRequests, h]
  exact State.takePosts_eq (s.setLink l { s.link.get l with posts := [] }) l rs

/-- The queue takes the posts of both lines, those of `first` first. -/
theorem State.eachRequests_of_posts {released : Line → List Record} (first : Line)
    (h : ∀ l, (s.link.get l).posts = (released l).map fun r => ⟨r, false, false⟩) :
    (s.eachLine first State.takeRequests).rq =
      { s.rq with records := queueRecords s.rq.records (released first ++ released (otherLine first)) } ∧
    (s.eachLine first State.takeRequests).irq = { s.irq with
      loss := s.irq.loss || decide (16 - s.rq.records.length < (released first ++ released (otherLine first)).length) } := by
  obtain ⟨hrq, hirq⟩ := State.takeRequests_of_posts (h first)
  have hne : otherLine first ≠ first := by cases first <;> decide
  have hother : ((s.takeRequests first).link.get (otherLine first)).posts =
      (released (otherLine first)).map fun r => ⟨r, false, false⟩ := by
    rw [State.takeRequests_link, PerLine.get_set_ne _ _ hne, h]
  obtain ⟨hrq', hirq'⟩ := State.takeRequests_of_posts hother
  refine ⟨?_, ?_⟩
  · show ((s.takeRequests first).takeRequests (otherLine first)).rq = _
    rw [hrq', hrq, queueRecords_append]
  · show ((s.takeRequests first).takeRequests (otherLine first)).irq = _
    rw [hirq', hirq, hrq]
    simp only [queueRecords_length, List.length_append, Bool.or_assoc, ← Bool.decide_or]
    congr 2
    refine decide_eq_decide.mpr ?_
    omega

end

/-! ### What was on its way -/

theorem PerLine.get_set_congr {α β : Type} (f : α → β) (p : PerLine α) {l : Line} {x : α} (h : f x = f (p.get l)) (m : Line) :
    f ((p.set l x).get m) = f (p.get m) := by
  by_cases hm : m = l
  · rw [hm, PerLine.get_set_same, h]
  · rw [PerLine.get_set_ne p x hm]

theorem Links.toCapture_of_rest {k k' : Links} (h : k.rest = k'.rest) : k.toCapture = k'.toCapture :=
  congrArg Traffic.toCapture (Links.traffic_of_rest h)

section
variable (s : State) (l m : Line)

theorem State.takeHandedOutcome_toCapture : ((s.takeHandedOutcome l).link.get m).toCapture = (s.link.get m).toCapture := by
  by_cases h : m = l
  · subst h
    rw [Links.toCapture_of_rest (s.takeHandedOutcome_rest m), Links.afterOutcome]
    split <;> rfl
  · exact Links.toCapture_of_rest (s.takeHandedOutcome_rest_ne h)

theorem State.actOnNotice_toCapture (n : Notice) : ((s.actOnNotice l n).link.get m).toCapture = (s.link.get m).toCapture := by
  cases n with
  | burstStart t => simp [State.actOnNotice, State.openBurst]
  | element v d =>
    show ((if _ then _ else _ : State).link.get m).toCapture = _
    split
    · exact Links.toCapture_of_rest (State.leaveHolders_rest _ m _ _)
    · rfl
  | burstEnd t | burstAbort why => exact s.link.get_set_congr Links.toCapture (by rfl) m

theorem State.settleDecoder_toCapture : ((s.settleDecoder l).link.get m).toCapture = (s.link.get m).toCapture := by
  have notices : ∀ (ns : List Notice) (u : State),
      ((ns.foldl (fun s n => s.settleNotice l n) u).link.get m).toCapture = (u.link.get m).toCapture := by
    intro ns
    induction ns with
    | nil => exact fun _ => rfl
    | cons n ns ih =>
      intro u
      rw [List.foldl_cons, ih, State.settleNotice, State.takeHandedOutcome_toCapture]
      split
      · exact u.actOnNotice_toCapture l m n
      · rfl
  have hdropped : ∀ u : State, ((u.setLink l { u.link.get l with toDecoder := [] }).link.get m).toCapture = (u.link.get m).toCapture :=
    fun u => u.link.get_set_congr Links.toCapture (by rfl) m
  rw [State.settleDecoder, notices, hdropped, State.takeHandedOutcome_toCapture]

theorem State.settleInFlight_toCapture (first : Line) :
    ((s.settleInFlight first).link.get m).toCapture = (s.link.get m).toCapture := by
  rw [State.settleInFlight, State.eachRequests_link]
  show ((s.eachLine first State.settleDecoder).link.get m).toCapture = _
  rw [State.eachLine, State.settleDecoder_toCapture, State.settleDecoder_toCapture]

/-- Nothing is on its way to a decoder, a repeat unit or the queue when everything has been taken. -/
theorem State.settleInFlight_quiet (first : Line) :
    ((s.settleInFlight first).link.get l).decoderQuiet ∧ ((s.settleInFlight first).link.get l).posts = [] := by
  rw [State.settleInFlight, State.eachRequests_link]
  exact ⟨s.settleBoth_quiet first l, rfl⟩

/-- With nothing on its way there is nothing to take. -/
theorem State.settleInFlight_of_quiet {s : State}
    (h : ∀ l, (s.link.get l).toDecoder = [] ∧ (s.link.get l).outcome = none ∧ (s.link.get l).posts = []) (first : Line) :
    s.settleInFlight first = s := by
  have hdecoder : ∀ l, s.settleDecoder l = s := fun l => by
    obtain ⟨hnotices, hout, -⟩ := h l
    rw [State.settleDecoder_of_empty hout hnotices, State.dropNotices, ← hnotices]
    show { s with link := s.link.set l (s.link.get l) } = s
    rw [PerLine.set_get]
  have hrequests : ∀ l, s.takeRequests l = s := fun l => by
    obtain ⟨-, -, hposts⟩ := h l
    rw [State.takeRequests, hposts, List.foldl_nil, ← hposts]
    show { s with link := s.link.set l (s.link.get l) } = s
    rw [PerLine.set_get]
  simp only [State.settleInFlight, State.eachLine, hdecoder, hrequests]

/-- The watermark is the host's alone. -/
theorem watermark_kept (s : State) : KeptByRepeat fun t => t.rq.watermark = s.rq.watermark where
  same h hrq _ _ _ := by rw [hrq, h]
  clear t l h := by
    rw [State.clearMemory_eq]
    exact h
  release t l m _ h := by
    rw [State.postRelease_eq]
    exact h
  count _ _ _ _ _ h := h
  check _ _ _ _ _ _ h := h
  newFrame t l n bits p start stop h := by
    rw [State.newFrame_eq]
    exact h
  requests t l h := by
    have posts : ∀ (ps : List Post) (u : State), (ps.foldl (fun s p => s.takeRequest l p) u).rq.watermark = u.rq.watermark := by
      intro ps
      induction ps with
      | nil => exact fun _ => rfl
      | cons p ps ih =>
        intro u
        rw [List.foldl_cons, ih, State.takeRequest]
        split
        · rfl
        · rw [State.takePost_rq]
    exact (posts _ _).trans h
  post t l p _ h := by
    rw [State.takePost_rq]
    exact h
  increment _ _ _ _ h := h

end

end Sys2Proof.Machine

end

