-- ==== Sys2Proof/Proofs/Dormancy.lean ====
section
/-! PROOF. O47: the entry to DORMANT. -/

namespace Sys2Proof.Machine

open Sys2Proof (Byte Time Payload Line)
open Sys2Proof.Safety

/-! ### The receive path becomes quiet -/

/-- Whether the entry cuts a burst on `l` (R14). -/
def State.cutsBurst (s : State) (l : Line) : Bool := (s.fe.get l).inBurst

/-- What is on its way to the capture unit after the entry has cut the bursts in progress. -/
def State.heardAtEntry (s : State) (l : Line) : List Notice :=
  (s.link.get l).toCapture ++ if s.cutsBurst l then [.burstAbort .dormant] else []

/-- A burst is cut on `l`, and its decoder has not stayed in WAIT. -/
def State.abortsAt (s : State) (l : Line) : Prop := s.cutsBurst l = true ∧ (s.dec.get l).st ≠ .wait

section
variable {u v : State} {l x : Line}

theorem State.parkLine_link (s : State) (named : Bool) (l : Line) : (s.parkLine named l).link = (s.abortBurst l .dormant).link := by
  simp [State.parkLine]

theorem abortDue_parkLine (hq : (u.link.get l).decoderQuiet) (hlink : v.link.get l = u.link.get l) (hfe : v.fe.get l = u.fe.get l)
    (hdec : v.dec.get l = u.dec.get l) (named : Bool) :
    AbortDue u (v.parkLine named l) l (u.cutsBurst l) (u.heardAtEntry l) := by
  obtain ⟨hnotices, hout⟩ := hq
  refine ⟨?_, by simp [hdec]⟩
  rw [State.parkLine_link, State.abortBurst_link, PerLine.get_set_same, hlink, hfe]
  simp only [Links.traffic, hnotices, hout, State.heardAtEntry, List.nil_append]
  rfl

theorem State.parkLine_ne {s : State} (hx : x ≠ l) (named : Bool) :
    (s.parkLine named l).link.get x = s.link.get x ∧ (s.parkLine named l).fe.get x = s.fe.get x := by
  rw [State.parkLine_link, State.abortBurst_link, State.parkLine_fe]
  exact ⟨PerLine.get_set_ne _ _ hx, PerLine.get_set_ne _ _ hx⟩

theorem abortDue_parkLines (hq : ∀ l, (u.link.get l).decoderQuiet) (mask : Byte) (l : Line) :
    AbortDue u (u.parkLines mask) l (u.cutsBurst l) (u.heardAtEntry l) := by
  cases l with
  | A =>
    obtain ⟨hlink, -⟩ := State.parkLine_ne (s := u.parkLine (mask.getLsbD 0) .A) (show Line.A ≠ .B by decide) (mask.getLsbD 1)
    refine (abortDue_parkLine (hq .A) rfl rfl rfl (mask.getLsbD 0)).of_same ?_ ?_
    · rw [State.parkLines, hlink]
    · simp [State.parkLines]
  | B =>
    obtain ⟨hlink, hfe⟩ := State.parkLine_ne (s := u) (show Line.B ≠ .A by decide) (mask.getLsbD 0)
    exact abortDue_parkLine (hq .B) hlink hfe (by simp) (mask.getLsbD 1)

theorem State.quietRepeatUnit_traffic (s : State) (l x : Line) :
    ((s.quietRepeatUnit l).link.get x).traffic = (s.link.get x).traffic := by
  by_cases hx : x = l
  · subst hx
    exact Links.traffic_of_rest (k' := { s.link.get x with expireRequests := [], oldBursts := 0 }) (s.quietRepeatUnit_rest x)
  · exact Links.traffic_of_rest (s.quietRepeatUnit_rest_ne hx)

/-- Both lines' aborts are handled, in either order. -/
theorem settleBoth_done (h : EntryStage u v) (hdue : ∀ l, AbortDue u v l (u.cutsBurst l) (u.heardAtEntry l)) (first : Line) :
    EntryStage u (v.eachLine first State.settleDecoder) ∧
    (∀ l, AbortDone u (v.eachLine first State.settleDecoder) l (u.cutsBurst l) (u.heardAtEntry l)) ∧
    ((∀ l, ¬ u.abortsAt l) → (v.eachLine first State.settleDecoder).entries = v.entries ∧
      (v.eachLine first State.settleDecoder).irq = v.irq) := by
  have hne : otherLine first ≠ first := by cases first <;> decide
  have hfirst := (hdue first).settleDecoder
  obtain ⟨hkept, hkept'⟩ := (hdue first).settleDecoder_ne hne
  have hdue' := (hdue (otherLine first)).of_same hkept hkept'
  obtain ⟨hdone, hdone'⟩ := hdue'.settleDecoder_ne hne.symm
  refine ⟨(h.settleDecoder (hdue first)).settleDecoder hdue', fun l => ?_, fun hnone => ?_⟩
  · by_cases hl : l = first
    · rw [hl]
      exact hfirst.of_same hdone hdone'
    · have heq : l = otherLine first := by revert hl; cases l <;> cases first <;> simp [otherLine]
      rw [heq]
      exact hdue'.settleDecoder
  · obtain ⟨hentries, hirq⟩ := (hdue first).settleDecoder_idle (hnone first)
    obtain ⟨hentries', hirq'⟩ := hdue'.settleDecoder_idle (hnone (otherLine first))
    exact ⟨hentries'.trans hentries, hirq'.trans hirq⟩

/-- The expiry of a line's memory where it comes before the aborts (R159). -/
def State.expireEarly (late : PerLine Bool) (s : State) (l : Line) : State := if late.get l then s else s.quietRepeatUnit l

theorem EntryStage.expireEarly (h : EntryStage u v) (late : PerLine Bool) (l : Line) : EntryStage u (v.expireEarly late l) := by
  unfold State.expireEarly
  split
  · exact h
  · exact h.quietRepeatUnit l

theorem State.expireEarly_rest (s : State) (late : PerLine Bool) (l x : Line) :
    ((s.expireEarly late l).link.get x).traffic = (s.link.get x).traffic ∧ (s.expireEarly late l).dec = s.dec ∧
    (s.expireEarly late l).entries = s.entries ∧ (s.expireEarly late l).irq = s.irq := by
  unfold State.expireEarly
  split
  · exact ⟨rfl, rfl, rfl, rfl⟩
  · exact ⟨s.quietRepeatUnit_traffic l x, by simp, by simp, by simp⟩

/-- The entry up to the aborts: the lines have left their states, and some of the memories may have expired. -/
def State.beforeAborts (s : State) (mask : Byte) (o : EntryOrder) : State :=
  ((s.parkLines mask).expireEarly o.expiryLast .A).expireEarly o.expiryLast .B

theorem State.quietReceivers_eq (s : State) (mask : Byte) (o : EntryOrder) : s.quietReceivers mask o =
    (((s.beforeAborts mask o).eachLine o.aborts State.settleDecoder).quietRepeatUnit .A).quietRepeatUnit .B := rfl

theorem State.beforeAborts_rest (s : State) (mask : Byte) (o : EntryOrder) (x : Line) :
    ((s.beforeAborts mask o).link.get x).traffic = ((s.parkLines mask).link.get x).traffic ∧ (s.beforeAborts mask o).dec = s.dec ∧
    (s.beforeAborts mask o).entries = s.entries ∧ (s.beforeAborts mask o).irq = s.irq := by
  obtain ⟨hlink, hdec, hentries, hirq⟩ := (s.parkLines mask).expireEarly_rest o.expiryLast .A x
  obtain ⟨hlink', hdec', hentries', hirq'⟩ := ((s.parkLines mask).expireEarly o.expiryLast .A).expireEarly_rest o.expiryLast .B x
  refine ⟨hlink'.trans hlink, hdec'.trans (hdec.trans ?_), hentries'.trans (hentries.trans ?_), hirq'.trans (hirq.trans ?_)⟩ <;> simp

/-- What the receive path has come to when it is quiet, with the posts still to be taken. -/
theorem quietReceivers_done (hq : ∀ l, (u.link.get l).decoderQuiet ∧ (u.link.get l).posts = []) (mask : Byte) (o : EntryOrder) :
    EntryStage u (u.quietReceivers mask o) ∧
    (∀ l, AbortDone u (u.quietReceivers mask o) l (u.cutsBurst l) (u.heardAtEntry l)) ∧
    ((∀ l, ¬ u.abortsAt l) → (u.quietReceivers mask o).entries = u.entries ∧ (u.quietReceivers mask o).irq = u.irq) := by
  have hparked : EntryStage u (u.parkLines mask) := ((EntryStage.start fun l => (hq l).2).parkLine _ .A).parkLine _ .B
  have hstart : EntryStage u (u.beforeAborts mask o) := (hparked.expireEarly _ .A).expireEarly _ .B
  have hdue : ∀ l, AbortDue u (u.beforeAborts mask o) l (u.cutsBurst l) (u.heardAtEntry l) := fun l => by
    obtain ⟨hlink, hdec, -⟩ := u.beforeAborts_rest mask o l
    exact (abortDue_parkLines (fun l => (hq l).1) mask l).of_same hlink (by rw [hdec]; simp)
  obtain ⟨hstage, hdone, hidle⟩ := settleBoth_done hstart hdue o.aborts
  rw [State.quietReceivers_eq]
  refine ⟨(hstage.quietRepeatUnit .A).quietRepeatUnit .B, fun l => ?_, fun hnone => ?_⟩
  · exact ((hdone l).of_same (State.quietRepeatUnit_traffic _ .A l) (by simp)).of_same (State.quietRepeatUnit_traffic _ .B l) (by simp)
  · obtain ⟨hentries, hirq⟩ := hidle hnone
    obtain ⟨-, -, hentries', hirq'⟩ := u.beforeAborts_rest mask o .A
    simp only [State.quietRepeatUnit_frame, hentries, hirq]
    exact ⟨hentries', hirq'⟩

/-- When its memory has gone, a line's RELEASE record is all that it has to post. -/
theorem EntryStage.memoryGone (h : EntryStage u v) (hnone : (v.rep.get l).memory = none) : ∃ released, MemoryGone u v l released := by
  rcases h.line l with ⟨hmem, hposts⟩ | hgone
  · have hempty : (u.rep.get l).memory = none := hmem.symm.trans hnone
    exact ⟨[], ⟨fun _ => rfl, fun m hm => by simp [hempty] at hm⟩, hnone, hposts, fun m hm => by simp [hempty] at hm⟩
  · exact hgone

end

/-! ### The state in DORMANT -/

/-- Whether the edge mask names a line (R14). -/
def edgeNamed (mask : Byte) : Line → Bool
  | .A => mask.getLsbD 0
  | .B => mask.getLsbD 1

theorem State.parkLines_fe_named (s : State) (mask : Byte) (l : Line) : (s.parkLines mask).fe.get l =
    if (s.fe.get l).enabled then
      { s.fe.get l with guardHold := none, test := none, st := if edgeNamed mask l then .watch else .parked }
    else { s.fe.get l with guardHold := none } := by
  cases l with
  | A =>
    rw [State.parkLines, State.parkLine_fe, PerLine.get_set_ne _ _ (show Line.A ≠ .B by decide), State.parkLine_fe, PerLine.get_set_same]
    rfl
  | B =>
    obtain ⟨-, hfe⟩ := State.parkLine_ne (s := s) (show Line.B ≠ .A by decide) (mask.getLsbD 0)
    rw [State.parkLines, State.parkLine_fe, PerLine.get_set_same, hfe]
    rfl

/-- A recording under way is discarded at the entry (R128). -/
theorem Capture.enterDormant_of_filling {c : Capture} {l : Line} (h : c.st = .filling l) :
    c.enterDormant.st = .armed ∧ c.enterDormant.count = 0 ∧ .recorded ∉ c.enterDormant.lists.a ∧ .recorded ∉ c.enterDormant.lists.b := by
  have hlist : ∀ ts : List Tag, Tag.recorded ∉ ts.map fun t => if t = Tag.recorded then Tag.ignored else t := fun ts hmem => by
    obtain ⟨t, -, ht⟩ := List.mem_map.mp hmem
    split at ht
    · cases ht
    · next hne => exact hne ht
  rw [Capture.enterDormant, h]
  exact ⟨rfl, rfl, hlist _, hlist _⟩

theorem Capture.enterDormant_of_not_filling {c : Capture} (h : ∀ l, c.st ≠ .filling l) : c.enterDormant = c := by
  cases hst : c.st with
  | filling l => exact absurd hst (h l)
  | idle | armed | full => rw [Capture.enterDormant, hst]

section
variable {s : State}

/-- What was on its way when ENTER DORMANT is taken has been taken. -/
def State.entryStart (s : State) : State := s.settleInFlight s.entryOrder.inFlight

/-- The receive path at the entry, with the posts still to be taken. -/
def State.entryReceivers (s : State) (mask : Byte) : State := s.entryStart.quietReceivers mask s.entryOrder

theorem State.quieted_eq (s : State) (mask : Byte) :
    s.quieted mask = (s.entryReceivers mask).eachLine s.entryOrder.posts State.takeRequests := rfl

theorem State.entryStart_quiet (s : State) (l : Line) : (s.entryStart.link.get l).decoderQuiet ∧ (s.entryStart.link.get l).posts = [] :=
  s.settleInFlight_quiet l _

theorem State.entryStart_fe (s : State) : s.entryStart.fe = s.fe := by simp [State.entryStart]

theorem State.entryStart_cutsBurst (s : State) (l : Line) :
    s.entryStart.cutsBurst l = true ↔ (s.fe.get l).st = .mark ∨ (s.fe.get l).st = .space := by
  rw [State.cutsBurst, State.entryStart_fe]
  exact decide_eq_true_iff

/-- What each line has come to in DORMANT, but for its memory. -/
theorem State.quieted_line (s : State) (mask : Byte) (l : Line) :
    AbortDone s.entryStart (s.quieted mask) l (s.entryStart.cutsBurst l) (s.entryStart.heardAtEntry l) := by
  obtain ⟨-, hdone, -⟩ := quietReceivers_done s.entryStart_quiet mask s.entryOrder
  refine (hdone l).of_same ?_ ?_
  · rw [State.quieted_eq, State.eachRequests_link]
    rfl
  · rw [State.quieted_eq]
    simp [State.eachLine, State.entryReceivers]

theorem State.quieted_toCapture (s : State) (mask : Byte) (l : Line) : ((s.quieted mask).link.get l).toCapture =
    (s.link.get l).toCapture ++ if s.entryStart.cutsBurst l then [.burstAbort .dormant] else [] := by
  have hheard := congrArg Traffic.toCapture (s.quieted_line mask l).traffic
  have hkept : (s.entryStart.link.get l).toCapture = (s.link.get l).toCapture := s.settleInFlight_toCapture l _
  rw [← hkept]
  exact hheard

/-- The line itself in DORMANT (R14, R154). -/
theorem State.quieted_fe_get (s : State) (mask : Byte) (l : Line) : (s.quieted mask).fe.get l =
    if (s.fe.get l).enabled then
      { s.fe.get l with guardHold := none, test := none, st := if edgeNamed mask l then .watch else .parked }
    else { s.fe.get l with guardHold := none } := by
  obtain ⟨hfe, -⟩ := s.quieted_frame mask
  rw [hfe, State.parkLines_fe_named, show (s.settleInFlight _).fe = s.fe from s.entryStart_fe]

/-- The RELEASE records of both lines in the order in which the queue takes them. -/
def inOrder (first : Line) (released : Line → List Record) : List Record := released first ++ released (otherLine first)

theorem inOrder_cases (first : Line) (released : Line → List Record) :
    inOrder first released = released .A ++ released .B ∨ inOrder first released = released .B ++ released .A := by
  cases first
  · exact .inl rfl
  · exact .inr rfl

/-- The RELEASE records of the memories, and what the queue makes of them. -/
theorem State.quieted_queue (s : State) (mask : Byte) : ∃ released : Line → List Record,
    (∀ l, MemoryGone s.entryStart (s.entryReceivers mask) l (released l)) ∧
    (s.quieted mask).rq = { (s.entryReceivers mask).rq with
      records := queueRecords (s.entryReceivers mask).rq.records (inOrder s.entryOrder.posts released) } ∧
    (s.quieted mask).irq = { (s.entryReceivers mask).irq with
      loss := (s.entryReceivers mask).irq.loss ||
        decide (16 - (s.entryReceivers mask).rq.records.length < (inOrder s.entryOrder.posts released).length) } := by
  obtain ⟨hstage, -, -⟩ := quietReceivers_done s.entryStart_quiet mask s.entryOrder
  have hgone : ∀ l, ∃ released, MemoryGone s.entryStart (s.entryReceivers mask) l released := fun l => by
    obtain ⟨-, -, -, hnone, -⟩ := s.entryStart.quietReceivers_quiet mask s.entryOrder l
    exact hstage.memoryGone hnone
  choose released hreleased using hgone
  obtain ⟨hrq, hirq⟩ := State.eachRequests_of_posts (s := s.entryReceivers mask) s.entryOrder.posts fun l => (hreleased l).posts
  exact ⟨released, hreleased, hrq, hirq⟩

/-- The state after ENTER DORMANT with edge mask `mask`. -/
def State.asleep (s : State) (mask : Byte) : State :=
  { s.quieted mask with
    cap := s.cap.enterDormant
    clock := { s.clock with remain := s.clock.tickAt - s.clock.now }
    pow := { s.pow with st := .dormant }
    win := { s.win with result := .ok }
    choices := s.choices + 5 }

theorem State.goDormant_setResult (s : State) (mask : Byte) : (s.goDormant mask).setResult .ok = s.asleep mask := by
  obtain ⟨-, -, hcap, hpow, hwin, -, hclock, -⟩ := s.quieted_frame mask
  rw [State.goDormant_eq, State.asleep, ← hcap, ← hpow, ← hwin, ← hclock]
  rfl

theorem State.quieted_receive (s : State) (mask : Byte) :
    (s.quieted mask).entries = (s.entryReceivers mask).entries ∧ (s.quieted mask).rep = (s.entryReceivers mask).rep := by
  rw [State.quieted_eq]
  simp [State.eachLine]

theorem State.entryStart_clock (s : State) : s.entryStart.clock = s.clock := by simp [State.entryStart]

theorem LetGo.plain {u v : State} {l : Line} {released : List Record} (h : LetGo u v l released) :
    ∀ r ∈ released, { r with referred := false } = r := by
  intro r hr
  obtain ⟨hnone, hsome⟩ := h
  cases hm : (u.rep.get l).memory with
  | none => simp [hnone hm] at hr
  | some m =>
    rcases hsome m hm with heq | ⟨heq, -⟩
    · rw [heq, releaseOf] at hr
      split at hr
      · rw [List.mem_singleton.mp hr]
      · cases hr
    · simp [heq] at hr

end

end Sys2Proof.Machine

open Sys2Proof Sys2Proof.Machine Sys2Proof.Safety

/-- Settles O47: the memories by `quietReceivers_done`, the bursts that are cut line by line, and the RELEASE records as the queue
takes them. -/
theorem enterDormantQuietsProcessor : Obligations.EnterDormantQuietsProcessor := by
  intro s hd hr answer
  refine ⟨fun harg => ?badArg, fun harg hbusy => ?busy, fun harg hst hj => ⟨State.settleInFlight_of_quiet, s.entryOrder.inFlight, ?_⟩⟩
  case badArg =>
    refine (congrArg Host.Outcome.next (s.command_awake _ hr hd)).trans ?_
    rw [State.enterDormant, if_pos harg]
    rfl
  case busy =>
    refine (congrArg Host.Outcome.next (s.command_awake _ hr hd)).trans ?_
    have hquiet : ¬ s.txQuiet = true := fun h => by
      obtain ⟨hst, hj⟩ := s.txQuiet_iff.mp h
      exact hbusy.elim (fun h => h hst) fun h => h hj
    rw [State.enterDormant, if_neg (Nat.not_lt.mpr harg), if_neg hquiet]
    rfl
  intro u cutShort aborted room
  obtain ⟨hstage, -, hidle⟩ := quietReceivers_done s.entryStart_quiet s.win.arg s.entryOrder
  obtain ⟨released, hreleased, hrq, hirq⟩ := s.quieted_queue s.win.arg
  obtain ⟨-, htx, -, -, -, hmem, -, hpending⟩ := s.quieted_frame s.win.arg
  obtain ⟨hentries, hrep⟩ := s.quieted_receive s.win.arg
  have hlength : (s.entryReceivers s.win.arg).rq.records.length = u.rq.records.length := by
    have h := congrArg List.length hstage.records
    rw [List.length_map, List.length_map] at h
    exact h
  have haborted : ∀ l, aborted l ↔ s.entryStart.abortsAt l := fun l => and_congr_left' (s.entryStart_cutsBurst l).symm
  have hasleep : (s.asleep s.win.arg).rq = (s.goDormant s.win.arg).rq := by
    rw [← State.goDormant_setResult]
    rfl
  rw [hlength] at hirq
  refine ⟨s.asleep s.win.arg, released, inOrder s.entryOrder.posts released,
    (exec_enterDormant_entered hd hr harg hst hj).trans (congrArg _ (s.goDormant_setResult _)), fun l => ?released, inOrder_cases _ _,
    rfl, rfl, rfl, fun l => ?line, ?records, fun hfits => ?fits, fun hlost => ?lost, ?held, ?watermark,
    fun l hfilling => Capture.enterDormant_of_filling hfilling, fun hnone => Capture.enterDormant_of_not_filling hnone, ?irq,
    fun hnone => ?entries, fun hnone => ?retired, ?grown, htx, hpending, fun a => by rw [State.asleep, hmem]⟩
  case released =>
    obtain ⟨hnone, hsome⟩ := (hreleased l).letGo
    refine ⟨hnone, fun m hm => ?_⟩
    have hrelease : releaseOf s.entryStart l m = releaseOf s l m := by rw [releaseOf, releaseOf, s.entryStart_clock]
    have hgone := hsome m hm
    rw [hrelease] at hgone
    show _ ∨ _ ∧ _ ∧ (s.quieted s.win.arg).entries[m.entry].st = .disabled
    rw [hentries]
    exact hgone
  case line =>
    have hdone := s.quieted_line s.win.arg l
    obtain ⟨⟨⟨hnotices, hout⟩, hrequests, -, hmemory, hopened⟩, hposts⟩ := s.quieted_quiet s.win.arg l
    have hcut : s.entryStart.cutsBurst l = true ↔ cutShort l := s.entryStart_cutsBurst l
    refine ⟨fun hoff => ?off, fun hon => ?on, hnotices, hout, fun hc => ?cut, fun hc => ?uncut,
      fun ha => hdone.aborted ((haborted l).mp ha), fun ha => hdone.spared fun h => ha ((haborted l).mpr h),
      hmemory, hopened, hposts, hrequests, fun m hm => ?cleared⟩
    case off => exact (s.quieted_fe_get _ l).trans (if_neg (by simp [FrontEnd.enabled, hoff]))
    case on =>
      refine ((s.quieted_fe_get _ l).trans (if_pos (by simp [FrontEnd.enabled, hon]))).trans ?_
      cases l <;> rfl
    case cut => exact (s.quieted_toCapture _ l).trans (by rw [if_pos (hcut.mpr hc)])
    case uncut => exact (s.quieted_toCapture _ l).trans (by rw [if_neg fun h => hc (hcut.mp h), List.append_nil])
    case cleared =>
      obtain ⟨hdue, hrefs⟩ := (hreleased l).cleared m hm
      show ((s.quieted s.win.arg).rep.get l).due = false ∧ ∀ r ∈ (s.quieted s.win.arg).rq.records, _
      rw [hrep, ← not_hasReference_iff, hrq]
      exact ⟨hdue, (queueRecords_any_refers _ _ l).trans hrefs⟩
  case records =>
    show (s.quieted s.win.arg).rq.records.map identity = _
    rw [hrq]
    dsimp only
    rw [queueRecords_identity, hlength, List.map_append, List.map_append]
    exact congrArg (· ++ _) hstage.records
  case fits =>
    show (s.quieted s.win.arg).rq.records.drop _ = _
    have hplain : (inOrder s.entryOrder.posts released).map (fun r => { r with referred := false }) = inOrder s.entryOrder.posts released :=
      (List.map_congr_left fun r hr => (List.mem_append.mp hr).elim ((hreleased _).letGo.plain r) ((hreleased _).letGo.plain r)).trans
        (List.map_id _)
    rw [hrq]
    dsimp only
    rw [queueRecords_of_room (by rwa [hlength]), hplain, ← hlength, List.drop_left]
  case lost =>
    show ∃ r, (s.quieted s.win.arg).rq.records.getLast? = some r ∧ _
    rw [hrq]
    exact queueRecords_loss (by rwa [hlength])
  case held => rw [hasleep, s.goDormant_held]
  case watermark => exact hasleep ▸ (watermark_kept s).goDormant _ rfl
  case irq =>
    have hretired : (s.asleep s.win.arg).irq.retired = (s.entryReceivers s.win.arg).irq.retired := by
      show (s.quieted s.win.arg).irq.retired = _
      rw [hirq]
    rw [hretired]
    refine hirq.trans ?_
    rw [show (s.entryReceivers s.win.arg).irq = _ from hstage.irq]
    rfl
  case entries =>
    obtain ⟨hkept, hkept'⟩ := hidle fun l hl => hnone l ((haborted l).mpr hl)
    show (s.quieted s.win.arg).entries = _ ∧ (s.quieted s.win.arg).irq.retired = _
    rw [hentries, hirq]
    exact ⟨hkept, show (s.entryReceivers s.win.arg).irq.retired = _ from congrArg InterruptUnit.retired hkept'⟩
  case retired =>
    show (s.quieted s.win.arg).irq.retired = _
    rw [hirq]
    exact hstage.retired.resolve_right fun ⟨n, hn⟩ => hnone n hn
  case grown => exact (recordsGrow_repeat s).entry.settleInFlight _ (.of_rq rfl)

end
